-- ==== Sys2Proof/Word.lean ====
section
/-! DEFINITION. The widths of the 80386 (R10, R20, R25, decision D2): bytes, 16-bit selectors and half words, 32-bit
words. All three are plain bit vectors, so that their arithmetic wraps modulo 2^n as R12 and R58 say. -/

namespace Sys2Proof

/-- A byte of memory or of an instruction (R41: a byte is 8 bits). -/
abbrev Byte := BitVec 8

/-- A 16-bit quantity: a selector (R20), the 16-bit view of a general register (R25). -/
abbrev Half := BitVec 16

/-- A 32-bit quantity: a general register, EIP, an offset, a linear address (R10, R25, R41). -/
abbrev Word := BitVec 32

end Sys2Proof
end

