-- ==== Sys2Proof/Config.lean ====
section
/-! DEFINITION. What an implementation fixes and the values the spec leaves free (R8's `draw`). A free value is an
opaque constant: no proof can see what it is, so a claim that holds, holds whatever the value is (log entry 6). The
`Nat` argument of each is the counter `State.draws`, so that two draws need not agree. -/

namespace Sys2Proof

/-- The double-fault detection classes of Table 9-3 (R125). -/
inductive DFClass where
  | benign | contributory | pageFault
  deriving DecidableEq, Repr, Inhabited

/-- `TSS_MIN_LIMIT` of R5: "The limit in the TSS descriptor is less than 103". -/
def Config.tssMinLimit : Nat := 103

/-- `PrefetchDepth` of R5 and D15, the spec's default of 16 bytes (log entry 37). -/
def Config.prefetchDepth : Nat := 16

/-- The longest instruction (R57): 15 bytes; a longer one raises interrupt 13. -/
def Config.maxLength : Nat := 15

/-- The status flags CF, PF, AF, ZF, SF and OF after a completed DIV or IDIV (R77, U4): free. -/
opaque Config.divFlags : Nat → Word

/-- The CS value an abort saves (R114, R127): free. -/
opaque Config.abortCS : Nat → Half

/-- The EIP value an abort saves (R114, R127): free. -/
opaque Config.abortEIP : Nat → Word

/-- What a register of the interrupted program holds after an abort (R114, U1): free, for each draw and each register. -/
opaque Config.abortWord : (draws reg : Nat) → Word

/-- The bytes of memory that differ after an abort (R114, U1), as address and byte: free. -/
opaque Config.abortCells : Nat → List Host.Cell

/-- Bits 31:16 of an error code pushed as 32 bits (R137, U5): free. -/
opaque Config.errHigh : Nat → Half

/-- Which of the bytes that may have been prefetched a fetch shows, counted among the old values a physical address had
before the stores to it; any other number stands for the current byte (R52, U13): free, for each draw and each address. -/
opaque Config.prefetchStale : (draws addr : Nat) → Nat

/-- The page frame that holds a linear page while CR0.PG is set (R41; the table formats are not in the spec, R47): free,
and free to change with CR3, with memory and from step to step (log entry 7). -/
opaque Config.pageFrame : (cr3 : Word) → (mem : List Host.Cell) → (draws : Nat) → (page : BitVec 20) → BitVec 20

/-- `dfClassOther` of R5 and D8: the double-fault class of a vector Table 9-3 does not list, and of an
interrupt from INTR, whatever its vector (R140, log entry 40): free. -/
opaque Config.dfClassOther : BitVec 8 → DFClass

end Sys2Proof
end

