-- ==== Sys2Proof/Syntax.lean ====
section
/-! DEFINITION. The abstract syntax of R68: one constructor of `Instr` for each row of spec/opcode_table.json, the
nine invalid operand forms of R64 included. A term keeps its leading bytes (`pre`), so that its encoding, and with it
its length, is a function of the term. -/

namespace Sys2Proof

/-- The general registers in the numbering of R25 (0 to 7), as 32-bit registers or, by operand size, their low
halves. -/
inductive Reg where
  | eax | ecx | edx | ebx | esp | ebp | esi | edi
  deriving DecidableEq, Repr, Inhabited

/-- The 8-bit registers in the numbering of R25 (0 to 7). -/
inductive Reg8 where
  | al | cl | dl | bl | ah | ch | dh | bh
  deriving DecidableEq, Repr, Inhabited

/-- The segment registers in the numbering of R20 (0 to 5). -/
inductive SegName where
  | es | cs | ss | ds | fs | gs
  deriving DecidableEq, Repr, Inhabited

/-- The bytes that may stand before an opcode (R57): 66h, 67h, the six segment overrides, F0h, F2h and F3h. -/
inductive Pfx where
  | opSize | addrSize | seg (r : SegName) | lock | repne | rep
  deriving DecidableEq, Repr

/-- The operand sizes that share one opcode (R57, R62). -/
inductive WSize where
  | o16 | o32
  deriving DecidableEq, Repr

/-- The displacement after a 16-bit ModR/M byte (R59). -/
inductive Disp16 where
  | none | d8 (d : Byte) | d16 (d : Half)
  deriving DecidableEq, Repr

/-- The displacement after a 32-bit ModR/M or SIB byte (R58). -/
inductive Disp32 where
  | none | d8 (d : Byte) | d32 (d : Word)
  deriving DecidableEq, Repr

/-- The eight 16-bit address bases of R59, in `rm` order. -/
inductive Base16 where
  | bxsi | bxdi | bpsi | bpdi | si | di | bp | bx
  deriving DecidableEq, Repr

/-- A memory operand: the effective-address forms of R59 (`ea16`, `abs16`) and R58 (`ea32`, `abs32`, and the SIB
forms, whose index may be absent and whose base may be absent, `sibAbs`). -/
inductive EA where
  | ea16 (b : Base16) (d : Disp16)
  | abs16 (d : Half)
  | ea32 (r : Reg) (d : Disp32)
  | abs32 (d : Word)
  | sib (scale : BitVec 2) (idx : Option Reg) (base : Reg) (d : Disp32)
  | sibAbs (scale : BitVec 2) (idx : Option Reg) (d : Word)
  deriving DecidableEq, Repr

/-- An operand is a register or memory (R56, R58); `ρ` is the register type of the operand's width. -/
inductive Opnd (ρ : Type) where
  | reg (r : ρ) | mem (m : EA)
  deriving DecidableEq, Repr

/-- A relative displacement of the operand size (R60). -/
inductive Rel where
  | rel16 (d : Half) | rel32 (d : Word)
  deriving DecidableEq, Repr

/-- An immediate far pointer, offset and selector (R60). -/
inductive FarPtr where
  | ptr16 (off : Half) (sel : Half) | ptr32 (off : Word) (sel : Half)
  deriving DecidableEq, Repr

/-- One constructor for each row of the opcode table (R61, R64). `pre` is the list of bytes before the opcode in
address order, `z` the operand size where two sizes share the opcode. -/
inductive Instr where
  | divRm8 (pre : List Pfx) (src : Opnd Reg8)
  | divRm (pre : List Pfx) (z : WSize) (src : Opnd Reg)
  | idivRm8 (pre : List Pfx) (src : Opnd Reg8)
  | idivRm (pre : List Pfx) (z : WSize) (src : Opnd Reg)
  | int3 (pre : List Pfx)
  | into (pre : List Pfx)
  | bound (pre : List Pfx) (z : WSize) (idx : Reg) (m : EA)
  | esc (pre : List Pfx) (low : BitVec 3) (ext : BitVec 3) (src : Opnd Reg)
  | wait (pre : List Pfx)
  | jmpRel8 (pre : List Pfx) (z : WSize) (rel : Byte)
  | jmpRel (pre : List Pfx) (rel : Rel)
  | jmpRm (pre : List Pfx) (z : WSize) (src : Opnd Reg)
  | jmpFar (pre : List Pfx) (ptr : FarPtr)
  | jmpFarM (pre : List Pfx) (z : WSize) (m : EA)
  | callRel (pre : List Pfx) (rel : Rel)
  | callRm (pre : List Pfx) (z : WSize) (src : Opnd Reg)
  | callFar (pre : List Pfx) (ptr : FarPtr)
  | callFarM (pre : List Pfx) (z : WSize) (m : EA)
  | les (pre : List Pfx) (z : WSize) (dst : Reg) (m : EA)
  | lds (pre : List Pfx) (z : WSize) (dst : Reg) (m : EA)
  | lss (pre : List Pfx) (z : WSize) (dst : Reg) (m : EA)
  | lfs (pre : List Pfx) (z : WSize) (dst : Reg) (m : EA)
  | lgs (pre : List Pfx) (z : WSize) (dst : Reg) (m : EA)
  | invJmpFarReg (pre : List Pfx) (rm : Reg)
  | invLesReg (pre : List Pfx) (dst : Reg) (rm : Reg)
  | invCallFarReg (pre : List Pfx) (rm : Reg)
  | invLdsReg (pre : List Pfx) (dst : Reg) (rm : Reg)
  | invLssReg (pre : List Pfx) (dst : Reg) (rm : Reg)
  | invLfsReg (pre : List Pfx) (dst : Reg) (rm : Reg)
  | invLgsReg (pre : List Pfx) (dst : Reg) (rm : Reg)
  | invBoundReg (pre : List Pfx) (dst : Reg) (rm : Reg)
  | invFf7 (pre : List Pfx) (src : Opnd Reg)
  deriving DecidableEq, Repr

end Sys2Proof
end

