-- ==== Sys2Proof/WellFormed.lean ====
section
/-! DEFINITION. Which terms of `Instr` an encoding exists for, given the D bit of the code segment (`big`): the operand
size and the address form must be the ones R57 derives from D, 66h and 67h, the effective address must be one R58 or
R59 can encode, and the whole is at most 15 bytes long. -/

namespace Sys2Proof

/-- R57: the operand size is 32 when exactly one of D and the 66h byte is set. 66h given more than once counts once; it
does not switch the size back (DESIGN CHOICE, log entry 19). -/
def opSizeOf (big : Bool) (pre : List Pfx) : WSize :=
  if big != decide (Pfx.opSize ∈ pre) then .o32 else .o16

/-- R57: the address size is 32 when exactly one of D and the 67h byte is set. 67h given more than once counts once
(DESIGN CHOICE, log entry 19). -/
def addr32Of (big : Bool) (pre : List Pfx) : Bool :=
  big != decide (Pfx.addrSize ∈ pre)

/-- R58, R59: the forms of an effective address that have an encoding in the given address size. A 16-bit base BP and
a 32-bit base EBP need a displacement, ESP as a base needs a SIB byte, and ESP is no index. -/
def EA.wf (a32 : Bool) : EA → Bool
  | .ea16 b d => !a32 && !(decide (b = .bp) && decide (d = .none))
  | .abs16 _ => !a32
  | .ea32 r d => a32 && decide (r ≠ .esp) && !(decide (r = .ebp) && decide (d = .none))
  | .abs32 _ => a32
  | .sib _ i b d => a32 && decide (i ≠ some .esp) && !(decide (b = .ebp) && decide (d = .none))
  | .sibAbs _ i _ => a32 && decide (i ≠ some .esp)

/-- A register operand is always encodable; a memory operand as `EA.wf` says. -/
def Opnd.wf {ρ : Type} (a32 : Bool) : Opnd ρ → Bool
  | .reg _ => true
  | .mem m => m.wf a32

/-- Bytes of a 16-bit displacement field (R59). -/
def Disp16.size : Disp16 → Nat
  | .none => 0 | .d8 _ => 1 | .d16 _ => 2

/-- Bytes of a 32-bit displacement field (R58). -/
def Disp32.size : Disp32 → Nat
  | .none => 0 | .d8 _ => 1 | .d32 _ => 4

/-- Bytes of an effective address after its opcode, the ModR/M byte included (R58, R59). -/
def EA.size : EA → Nat
  | .ea16 _ d => 1 + d.size
  | .abs16 _ => 3
  | .ea32 _ d => 1 + d.size
  | .abs32 _ => 5
  | .sib _ _ _ d => 2 + d.size
  | .sibAbs _ _ _ => 6

/-- Bytes of an operand after its opcode, the ModR/M byte included. -/
def Opnd.size {ρ : Type} : Opnd ρ → Nat
  | .reg _ => 1
  | .mem m => m.size

/-- The operand size of a relative displacement. -/
def Rel.wsize : Rel → WSize
  | .rel16 _ => .o16 | .rel32 _ => .o32

/-- The operand size of an immediate far pointer. -/
def FarPtr.wsize : FarPtr → WSize
  | .ptr16 .. => .o16 | .ptr32 .. => .o32

/-- The length of an instruction in bytes, its leading bytes included (R57, R60, R61). -/
def Instr.byteLength : Instr → Nat
  | .divRm8 p s | .idivRm8 p s => p.length + 1 + s.size
  | .divRm p _ s | .idivRm p _ s | .jmpRm p _ s | .callRm p _ s => p.length + 1 + s.size
  | .esc p _ _ s | .invFf7 p s => p.length + 1 + s.size
  | .int3 p | .into p | .wait p => p.length + 1
  | .bound p _ _ m | .les p _ _ m | .lds p _ _ m => p.length + 1 + m.size
  | .jmpFarM p _ m | .callFarM p _ m => p.length + 1 + m.size
  | .lss p _ _ m | .lfs p _ _ m | .lgs p _ _ m => p.length + 2 + m.size
  | .jmpRel8 p _ _ => p.length + 2
  | .jmpRel p r | .callRel p r => p.length + 1 + (match r.wsize with | .o16 => 2 | .o32 => 4)
  | .jmpFar p f | .callFar p f => p.length + 1 + (match f.wsize with | .o16 => 4 | .o32 => 6)
  | .invJmpFarReg p _ | .invCallFarReg p _ => p.length + 2
  | .invLesReg p .. | .invLdsReg p .. | .invBoundReg p .. => p.length + 2
  | .invLssReg p .. | .invLfsReg p .. | .invLgsReg p .. => p.length + 3

/-- The operand size and the operands of an instruction are ones the decoder can give it under `big`. -/
def Instr.operandsWf (big : Bool) : Instr → Bool
  | .divRm8 p s | .idivRm8 p s => s.wf (addr32Of big p)
  | .divRm p z s | .idivRm p z s | .jmpRm p z s | .callRm p z s =>
      decide (z = opSizeOf big p) && s.wf (addr32Of big p)
  | .esc p _ _ s | .invFf7 p s => s.wf (addr32Of big p)
  | .int3 _ | .into _ | .wait _ => true
  | .bound p z _ m | .les p z _ m | .lds p z _ m | .lss p z _ m | .lfs p z _ m | .lgs p z _ m =>
      decide (z = opSizeOf big p) && m.wf (addr32Of big p)
  | .jmpFarM p z m | .callFarM p z m => decide (z = opSizeOf big p) && m.wf (addr32Of big p)
  | .jmpRel8 p z _ => decide (z = opSizeOf big p)
  | .jmpRel p r | .callRel p r => decide (r.wsize = opSizeOf big p)
  | .jmpFar p f | .callFar p f => decide (f.wsize = opSizeOf big p)
  | .invJmpFarReg .. | .invCallFarReg .. | .invLesReg .. | .invLdsReg .. | .invBoundReg .. => true
  | .invLssReg .. | .invLfsReg .. | .invLgsReg .. => true

/-- A well-formed instruction under the code segment's D bit: encodable operands and at most 15 bytes (R57). -/
def Instr.wf (big : Bool) (i : Instr) : Bool :=
  i.operandsWf big && decide (i.byteLength ≤ 15)

end Sys2Proof
end

