-- ==== Sys2Proof/Decode.lean ====
section
/-! DEFINITION. The decoder of R57 to R64, total on any list of bytes, and after it the encoder written from the same
tables. `decode big bs` reads one instruction from the front of `bs` under the D bit `big`; a byte sequence that matches
no row of spec/opcode_table.json is `unlisted` (R65), one that ends too early is `short`. -/

namespace Sys2Proof

/-! ### Byte order (R43: little-endian, displacements and immediates included) -/

/-- The 16-bit value of two bytes in address order. -/
def le2 (b0 b1 : Byte) : Half := b1 ++ b0

/-- The 32-bit value of four bytes in address order. -/
def le4 (b0 b1 b2 b3 : Byte) : Word := b3 ++ b2 ++ b1 ++ b0

/-- The two bytes of a 16-bit value in address order. -/
def halfBytes (v : Half) : List Byte := [v.extractLsb' 0 8, v.extractLsb' 8 8]

/-- The four bytes of a 32-bit value in address order. -/
def wordBytes (v : Word) : List Byte :=
  [v.extractLsb' 0 8, v.extractLsb' 8 8, v.extractLsb' 16 8, v.extractLsb' 24 8]

/-- Bytes of an operand size. -/
def WSize.bytes : WSize → Nat
  | .o16 => 2 | .o32 => 4

/-! ### Register numbers and leading bytes (R20, R25, R57, R59) -/

/-- The number of a general register (R25). -/
def Reg.num : Reg → BitVec 3
  | .eax => 0 | .ecx => 1 | .edx => 2 | .ebx => 3 | .esp => 4 | .ebp => 5 | .esi => 6 | .edi => 7

/-- The general register of a number (R25). -/
def Reg.ofNum (n : BitVec 3) : Reg :=
  if n = 0 then .eax else if n = 1 then .ecx else if n = 2 then .edx else if n = 3 then .ebx
  else if n = 4 then .esp else if n = 5 then .ebp else if n = 6 then .esi else .edi

/-- The 8-bit register with the number of a general register (R25). -/
def Reg.to8 : Reg → Reg8
  | .eax => .al | .ecx => .cl | .edx => .dl | .ebx => .bl
  | .esp => .ah | .ebp => .ch | .esi => .dh | .edi => .bh

/-- The general register with the number of an 8-bit register (R25). -/
def Reg8.toReg : Reg8 → Reg
  | .al => .eax | .cl => .ecx | .dl => .edx | .bl => .ebx
  | .ah => .esp | .ch => .ebp | .dh => .esi | .bh => .edi

/-- An operand of byte width from the operand the ModR/M byte names by number. -/
def Opnd.to8 : Opnd Reg → Opnd Reg8
  | .reg r => .reg r.to8
  | .mem m => .mem m

/-- The operand as the ModR/M byte names it by number. -/
def Opnd.ofR8 : Opnd Reg8 → Opnd Reg
  | .reg r => .reg r.toReg
  | .mem m => .mem m

/-- The `rm` number of a 16-bit base (R59). -/
def Base16.num : Base16 → BitVec 3
  | .bxsi => 0 | .bxdi => 1 | .bpsi => 2 | .bpdi => 3 | .si => 4 | .di => 5 | .bp => 6 | .bx => 7

/-- The 16-bit base of an `rm` number (R59). -/
def Base16.ofNum (n : BitVec 3) : Base16 :=
  if n = 0 then .bxsi else if n = 1 then .bxdi else if n = 2 then .bpsi else if n = 3 then .bpdi
  else if n = 4 then .si else if n = 5 then .di else if n = 6 then .bp else .bx

/-- The index number of a SIB byte, 100 meaning no index (R58). -/
def idxNum : Option Reg → BitVec 3
  | none => 4
  | some r => r.num

/-- The index register of a SIB byte's index number (R58). -/
def idxOfNum (n : BitVec 3) : Option Reg :=
  if n = 4 then none else some (Reg.ofNum n)

/-- The byte of a leading-byte name (R57). -/
def Pfx.byte : Pfx → Byte
  | .opSize => 0x66 | .addrSize => 0x67
  | .seg .es => 0x26 | .seg .cs => 0x2E | .seg .ss => 0x36
  | .seg .ds => 0x3E | .seg .fs => 0x64 | .seg .gs => 0x65
  | .lock => 0xF0 | .repne => 0xF2 | .rep => 0xF3

/-- The leading-byte name of a byte, if it is one (R57). -/
def Pfx.ofByte (b : Byte) : Option Pfx :=
  if b = 0x66 then some .opSize else if b = 0x67 then some .addrSize
  else if b = 0x26 then some (.seg .es) else if b = 0x2E then some (.seg .cs)
  else if b = 0x36 then some (.seg .ss) else if b = 0x3E then some (.seg .ds)
  else if b = 0x64 then some (.seg .fs) else if b = 0x65 then some (.seg .gs)
  else if b = 0xF0 then some .lock else if b = 0xF2 then some .repne
  else if b = 0xF3 then some .rep else none

/-! ### ModR/M, SIB and displacements (R58, R59) -/

/-- The displacement a `mod` field of 00, 01 or 10 calls for in 16-bit addressing. -/
def parseDisp16 (mod : BitVec 2) (bs : List Byte) : Option (Disp16 × List Byte) :=
  if mod = 0 then some (.none, bs)
  else if mod = 1 then
    match bs with
    | a :: r => some (.d8 a, r)
    | _ => none
  else
    match bs with
    | a :: b :: r => some (.d16 (le2 a b), r)
    | _ => none

/-- The displacement a `mod` field of 00, 01 or 10 calls for in 32-bit addressing. -/
def parseDisp32 (mod : BitVec 2) (bs : List Byte) : Option (Disp32 × List Byte) :=
  if mod = 0 then some (.none, bs)
  else if mod = 1 then
    match bs with
    | a :: r => some (.d8 a, r)
    | _ => none
  else
    match bs with
    | a :: b :: c :: d :: r => some (.d32 (le4 a b c d), r)
    | _ => none

/-- The effective address of R59. -/
def parseEA16 (mod : BitVec 2) (rm : BitVec 3) (bs : List Byte) : Option (EA × List Byte) :=
  if mod = 0 ∧ rm = 6 then
    match bs with
    | a :: b :: r => some (.abs16 (le2 a b), r)
    | _ => none
  else
    match parseDisp16 mod bs with
    | some (d, r) => some (.ea16 (Base16.ofNum rm) d, r)
    | none => none

/-- The SIB forms of R58: base 101 with `mod` 00 is a bare `disp32`. -/
def parseSib (mod : BitVec 2) : List Byte → Option (EA × List Byte)
  | [] => none
  | s :: bs =>
    let scale : BitVec 2 := s.extractLsb' 6 2
    let idx := idxOfNum (s.extractLsb' 3 3)
    let base : BitVec 3 := s.extractLsb' 0 3
    if mod = 0 ∧ base = 5 then
      match bs with
      | a :: b :: c :: d :: r => some (.sibAbs scale idx (le4 a b c d), r)
      | _ => none
    else
      match parseDisp32 mod bs with
      | some (d, r) => some (.sib scale idx (Reg.ofNum base) d, r)
      | none => none

/-- The effective address of R58. -/
def parseEA32 (mod : BitVec 2) (rm : BitVec 3) (bs : List Byte) : Option (EA × List Byte) :=
  if rm = 4 then parseSib mod bs
  else if mod = 0 ∧ rm = 5 then
    match bs with
    | a :: b :: c :: d :: r => some (.abs32 (le4 a b c d), r)
    | _ => none
  else
    match parseDisp32 mod bs with
    | some (d, r) => some (.ea32 (Reg.ofNum rm) d, r)
    | none => none

/-- A ModR/M byte and what follows it: the `reg` field, the operand, the rest of the bytes (R58, R59). -/
def parseRm (a32 : Bool) : List Byte → Option (BitVec 3 × Opnd Reg × List Byte)
  | [] => none
  | b :: bs =>
    let mod : BitVec 2 := b.extractLsb' 6 2
    let reg : BitVec 3 := b.extractLsb' 3 3
    let rm : BitVec 3 := b.extractLsb' 0 3
    if mod = 3 then some (reg, .reg (Reg.ofNum rm), bs)
    else
      match (if a32 then parseEA32 mod rm bs else parseEA16 mod rm bs) with
      | some (m, r) => some (reg, .mem m, r)
      | none => none

/-! ### The decoder -/

/-- What the decoder answers: an instruction and the bytes after it; `short` when the bytes end inside the instruction;
`unlisted` when they match no row of the opcode table (R65). -/
inductive Decoded where
  | ok (i : Instr) (rest : List Byte)
  | short
  | unlisted
  deriving DecidableEq, Repr

/-- A displacement of the operand size after the opcode (R60). -/
def decodeRel (z : WSize) (k : Rel → Instr) (bs : List Byte) : Decoded :=
  match z with
  | .o16 =>
    match bs with
    | a :: b :: r => .ok (k (.rel16 (le2 a b))) r
    | _ => .short
  | .o32 =>
    match bs with
    | a :: b :: c :: d :: r => .ok (k (.rel32 (le4 a b c d))) r
    | _ => .short

/-- A far pointer immediate of the operand size, offset first (R60). -/
def decodeFar (z : WSize) (k : FarPtr → Instr) (bs : List Byte) : Decoded :=
  match z with
  | .o16 =>
    match bs with
    | a :: b :: s :: t :: r => .ok (k (.ptr16 (le2 a b) (le2 s t))) r
    | _ => .short
  | .o32 =>
    match bs with
    | a :: b :: c :: d :: s :: t :: r => .ok (k (.ptr32 (le4 a b c d) (le2 s t))) r
    | _ => .short

/-- A ModR/M byte whose operand the bytes end inside: `short` when the opcode `k` has a row for its `reg` field with a
memory operand, whichever it is; `unlisted` when the bytes match no row already (R62, R65). FF /7, invalid with any operand,
is `short` here too: its interrupt 6 waits for all of its bytes (DESIGN CHOICE, log entry 32). -/
def decodeCut (k : BitVec 3 → Opnd Reg → Option Instr) : List Byte → Decoded
  | [] => .short
  | b :: _ =>
    match k (b.extractLsb' 3 3) (.mem (.abs32 0)) with
    | some _ => .short
    | none => .unlisted

/-- A ModR/M operand, then the choice the opcode makes from its `reg` field and operand. -/
def decodeRm (a32 : Bool) (k : BitVec 3 → Opnd Reg → Option Instr) (bs : List Byte) : Decoded :=
  match parseRm a32 bs with
  | none => decodeCut k bs
  | some (reg, o, r) =>
    match k reg o with
    | some i => .ok i r
    | none => .unlisted

/-- Opcode F6 (R61): /6 and /7. -/
def rowsF6 (p : List Pfx) (ext : BitVec 3) (o : Opnd Reg) : Option Instr :=
  if ext = 6 then some (.divRm8 p o.to8) else if ext = 7 then some (.idivRm8 p o.to8) else none

/-- Opcode F7 (R61): /6 and /7. -/
def rowsF7 (p : List Pfx) (z : WSize) (ext : BitVec 3) (o : Opnd Reg) : Option Instr :=
  if ext = 6 then some (.divRm p z o) else if ext = 7 then some (.idivRm p z o) else none

/-- Opcode FF (R61, R64): /2 to /5 and /7; /3 and /5 are invalid with a register operand, /7 always, once all of its bytes have
been fetched (DESIGN CHOICE, log entry 32). -/
def rowsFF (p : List Pfx) (z : WSize) (ext : BitVec 3) (o : Opnd Reg) : Option Instr :=
  if ext = 2 then some (.callRm p z o)
  else if ext = 3 then
    match o with
    | .reg rm => some (.invCallFarReg p rm)
    | .mem m => some (.callFarM p z m)
  else if ext = 4 then some (.jmpRm p z o)
  else if ext = 5 then
    match o with
    | .reg rm => some (.invJmpFarReg p rm)
    | .mem m => some (.jmpFarM p z m)
  else if ext = 7 then some (.invFf7 p o)
  else none

/-- An opcode with a register destination and a memory operand, and its invalid register form (R61, R64). -/
def rowsMem (k : Reg → EA → Instr) (inv : Reg → Reg → Instr) (reg : BitVec 3) (o : Opnd Reg) : Option Instr :=
  match o with
  | .reg rm => some (inv (Reg.ofNum reg) rm)
  | .mem m => some (k (Reg.ofNum reg) m)

/-- The two-byte opcodes 0F B2, 0F B4 and 0F B5 (R61). -/
def decode0F (a32 : Bool) (p : List Pfx) (z : WSize) : List Byte → Decoded
  | [] => .short
  | b :: r =>
    if b = 0xB2 then decodeRm a32 (rowsMem (.lss p z) (.invLssReg p)) r
    else if b = 0xB4 then decodeRm a32 (rowsMem (.lfs p z) (.invLfsReg p)) r
    else if b = 0xB5 then decodeRm a32 (rowsMem (.lgs p z) (.invLgsReg p)) r
    else .unlisted

/-- One instruction after its leading bytes `p`, with the operand size `z` and address size `a32` they give (R57,
R61). -/
def decodeOp (a32 : Bool) (p : List Pfx) (z : WSize) : List Byte → Decoded
  | [] => .short
  | b :: r =>
    if b = 0xF6 then decodeRm a32 (rowsF6 p) r
    else if b = 0xF7 then decodeRm a32 (rowsF7 p z) r
    else if b = 0xCC then .ok (.int3 p) r
    else if b = 0xCE then .ok (.into p) r
    else if b = 0x62 then decodeRm a32 (rowsMem (.bound p z) (.invBoundReg p)) r
    else if b.extractLsb' 3 5 = 0b11011#5 then
      decodeRm a32 (fun reg o => some (.esc p (b.extractLsb' 0 3) reg o)) r
    else if b = 0x9B then .ok (.wait p) r
    else if b = 0xEB then
      match r with
      | d :: r' => .ok (.jmpRel8 p z d) r'
      | [] => .short
    else if b = 0xE9 then decodeRel z (.jmpRel p) r
    else if b = 0xFF then decodeRm a32 (rowsFF p z) r
    else if b = 0xEA then decodeFar z (.jmpFar p) r
    else if b = 0xE8 then decodeRel z (.callRel p) r
    else if b = 0x9A then decodeFar z (.callFar p) r
    else if b = 0xC4 then decodeRm a32 (rowsMem (.les p z) (.invLesReg p)) r
    else if b = 0xC5 then decodeRm a32 (rowsMem (.lds p z) (.invLdsReg p)) r
    else if b = 0x0F then decode0F a32 p z r
    else .unlisted

/-- The leading bytes of R57 at the front of `bs`, and what follows them. -/
def takePfx : List Byte → List Pfx × List Byte
  | [] => ([], [])
  | b :: bs =>
    match Pfx.ofByte b with
    | some p => (p :: (takePfx bs).1, (takePfx bs).2)
    | none => ([], b :: bs)

/-- Reads one instruction from the front of `bs` under the D bit `big` (R57). -/
def decode (big : Bool) (bs : List Byte) : Decoded :=
  decodeOp (addr32Of big (takePfx bs).1) (takePfx bs).1 (opSizeOf big (takePfx bs).1) (takePfx bs).2

/-! ### The encoder -/

/-- A ModR/M or SIB byte from its three fields (R58). -/
def fields8 (hi : BitVec 2) (mid lo : BitVec 3) : Byte := hi ++ mid ++ lo

/-- The `mod` field a 16-bit displacement is written with. -/
def Disp16.mod : Disp16 → BitVec 2
  | .none => 0 | .d8 _ => 1 | .d16 _ => 2

/-- The bytes of a 16-bit displacement field. -/
def Disp16.bytes : Disp16 → List Byte
  | .none => [] | .d8 d => [d] | .d16 d => halfBytes d

/-- The `mod` field a 32-bit displacement is written with. -/
def Disp32.mod : Disp32 → BitVec 2
  | .none => 0 | .d8 _ => 1 | .d32 _ => 2

/-- The bytes of a 32-bit displacement field. -/
def Disp32.bytes : Disp32 → List Byte
  | .none => [] | .d8 d => [d] | .d32 d => wordBytes d

/-- A memory operand with the `reg` field `reg` (R58, R59). -/
def encodeEA (reg : BitVec 3) : EA → List Byte
  | .ea16 b d => fields8 d.mod reg b.num :: d.bytes
  | .abs16 d => fields8 0 reg 6 :: halfBytes d
  | .ea32 r d => fields8 d.mod reg r.num :: d.bytes
  | .abs32 d => fields8 0 reg 5 :: wordBytes d
  | .sib s i b d => fields8 d.mod reg 4 :: fields8 s (idxNum i) b.num :: d.bytes
  | .sibAbs s i d => fields8 0 reg 4 :: fields8 s (idxNum i) 5 :: wordBytes d

/-- An operand with the `reg` field `reg`: `mod` 11 for a register (R58). -/
def encodeRm (reg : BitVec 3) : Opnd Reg → List Byte
  | .reg r => [fields8 3 reg r.num]
  | .mem m => encodeEA reg m

/-- A relative displacement (R60). -/
def Rel.bytes : Rel → List Byte
  | .rel16 d => halfBytes d
  | .rel32 d => wordBytes d

/-- A far pointer immediate, offset first (R60). -/
def FarPtr.bytes : FarPtr → List Byte
  | .ptr16 o s => halfBytes o ++ halfBytes s
  | .ptr32 o s => wordBytes o ++ halfBytes s

/-- The bytes of an instruction in address order (R57, R61, R64). -/
def encode : Instr → List Byte
  | .divRm8 p s => p.map Pfx.byte ++ 0xF6#8 :: encodeRm 6 s.ofR8
  | .divRm p _ s => p.map Pfx.byte ++ 0xF7#8 :: encodeRm 6 s
  | .idivRm8 p s => p.map Pfx.byte ++ 0xF6#8 :: encodeRm 7 s.ofR8
  | .idivRm p _ s => p.map Pfx.byte ++ 0xF7#8 :: encodeRm 7 s
  | .int3 p => p.map Pfx.byte ++ [0xCC#8]
  | .into p => p.map Pfx.byte ++ [0xCE#8]
  | .bound p _ r m => p.map Pfx.byte ++ 0x62#8 :: encodeEA r.num m
  | .esc p low ext s => p.map Pfx.byte ++ ((0b11011#5 ++ low : BitVec 8) :: encodeRm ext s)
  | .wait p => p.map Pfx.byte ++ [0x9B#8]
  | .jmpRel8 p _ d => p.map Pfx.byte ++ [0xEB#8, d]
  | .jmpRel p d => p.map Pfx.byte ++ 0xE9#8 :: d.bytes
  | .jmpRm p _ s => p.map Pfx.byte ++ 0xFF#8 :: encodeRm 4 s
  | .jmpFar p f => p.map Pfx.byte ++ 0xEA#8 :: f.bytes
  | .jmpFarM p _ m => p.map Pfx.byte ++ 0xFF#8 :: encodeEA 5 m
  | .callRel p d => p.map Pfx.byte ++ 0xE8#8 :: d.bytes
  | .callRm p _ s => p.map Pfx.byte ++ 0xFF#8 :: encodeRm 2 s
  | .callFar p f => p.map Pfx.byte ++ 0x9A#8 :: f.bytes
  | .callFarM p _ m => p.map Pfx.byte ++ 0xFF#8 :: encodeEA 3 m
  | .les p _ r m => p.map Pfx.byte ++ 0xC4#8 :: encodeEA r.num m
  | .lds p _ r m => p.map Pfx.byte ++ 0xC5#8 :: encodeEA r.num m
  | .lss p _ r m => p.map Pfx.byte ++ 0x0F#8 :: 0xB2#8 :: encodeEA r.num m
  | .lfs p _ r m => p.map Pfx.byte ++ 0x0F#8 :: 0xB4#8 :: encodeEA r.num m
  | .lgs p _ r m => p.map Pfx.byte ++ 0x0F#8 :: 0xB5#8 :: encodeEA r.num m
  | .invJmpFarReg p rm => p.map Pfx.byte ++ 0xFF#8 :: encodeRm 5 (.reg rm)
  | .invLesReg p r rm => p.map Pfx.byte ++ 0xC4#8 :: encodeRm r.num (.reg rm)
  | .invCallFarReg p rm => p.map Pfx.byte ++ 0xFF#8 :: encodeRm 3 (.reg rm)
  | .invLdsReg p r rm => p.map Pfx.byte ++ 0xC5#8 :: encodeRm r.num (.reg rm)
  | .invLssReg p r rm => p.map Pfx.byte ++ 0x0F#8 :: 0xB2#8 :: encodeRm r.num (.reg rm)
  | .invLfsReg p r rm => p.map Pfx.byte ++ 0x0F#8 :: 0xB4#8 :: encodeRm r.num (.reg rm)
  | .invLgsReg p r rm => p.map Pfx.byte ++ 0x0F#8 :: 0xB5#8 :: encodeRm r.num (.reg rm)
  | .invBoundReg p r rm => p.map Pfx.byte ++ 0x62#8 :: encodeRm r.num (.reg rm)
  | .invFf7 p s => p.map Pfx.byte ++ 0xFF#8 :: encodeRm 7 s

/-- `len` of R8: the length in bytes of an instruction. -/
def Instr.len (i : Instr) : Nat := (encode i).length

/-- The bytes before the opcode of an instruction. -/
def Instr.pre : Instr → List Pfx
  | .divRm8 p _ | .divRm p _ _ | .idivRm8 p _ | .idivRm p _ _ | .int3 p | .into p | .bound p _ _ _ => p
  | .esc p _ _ _ | .wait p | .jmpRel8 p _ _ | .jmpRel p _ | .jmpRm p _ _ | .jmpFar p _ | .jmpFarM p _ _ => p
  | .callRel p _ | .callRm p _ _ | .callFar p _ | .callFarM p _ _ => p
  | .les p _ _ _ | .lds p _ _ _ | .lss p _ _ _ | .lfs p _ _ _ | .lgs p _ _ _ => p
  | .invJmpFarReg p _ | .invLesReg p _ _ | .invCallFarReg p _ | .invLdsReg p _ _ | .invLssReg p _ _ => p
  | .invLfsReg p _ _ | .invLgsReg p _ _ | .invBoundReg p _ _ | .invFf7 p _ => p

/-! ### The opcode table's numbering of bits -/

/-- The first `n` bytes of a number, bits 7:0 first. -/
def numberBytes : Nat → Nat → List Byte
  | 0, _ => []
  | n + 1, w => BitVec.ofNat 8 w :: numberBytes n (w / 256)

/-- The instruction the decoder reads from the bits `w` (`nbits` of them, zeros above), laid out as
spec/opcode_table.json numbers them: the first byte is bits 7:0, the second bits 15:8, and so on. The sizes are those
after reset, 16 bits each (R57, R170). -/
def decodeTableWord (nbits w : Nat) : Option Instr :=
  match decode false (numberBytes Config.maxLength (w % 2 ^ nbits)) with
  | .ok i _ => some i
  | _ => none

end Sys2Proof
end

