-- ==== Sys2Proof/Machine/State.lean ====
section
/-! DEFINITION. The state of the 80386 as spec/ gives it (10_state.md R10 to R33, R5, R140, R150), all of it plain data,
the reasons a step can stop, and the state after reset (R170). -/

namespace Sys2Proof.Machine

/-- The eight general registers (R25). -/
structure Gprs where
  eax : Word
  ecx : Word
  edx : Word
  ebx : Word
  esp : Word
  ebp : Word
  esi : Word
  edi : Word
  deriving DecidableEq, Repr

/-- A segment register, LDTR or TR: the selector (R20) and the hidden descriptor (R23, R27, R170). `limit` counts in
bytes; `access` is byte 5 of the descriptor (P, DPL, S, type); `big` its D/B bit. -/
structure SegReg where
  sel : Half
  base : Word
  limit : Word
  access : Byte
  big : Bool
  deriving DecidableEq, Repr

/-- The six segment registers (R19, R20). -/
structure Segs where
  es : SegReg
  cs : SegReg
  ss : SegReg
  ds : SegReg
  fs : SegReg
  gs : SegReg
  deriving DecidableEq, Repr

/-- GDTR or IDTR (R27): a linear base and a 16-bit limit. -/
structure TableReg where
  base : Word
  limit : Half
  deriving DecidableEq, Repr

/-- The debug registers (R18). -/
structure DebugRegs where
  dr0 : Word
  dr1 : Word
  dr2 : Word
  dr3 : Word
  dr6 : Word
  dr7 : Word
  deriving DecidableEq, Repr

/-- Physical memory (R41): address and byte, in the canonical form of `Memory.wf` (Machine/Ops.lean). -/
abbrev Memory := List Host.Cell

/-- The classes of exception (R110), and the class under which R140 delivers an external interrupt. -/
inductive EventClass where
  | fault | trap | abort | interrupt
  deriving DecidableEq, Repr

/-- A reported event, `Reported(v, class, savedCS, savedEIP, err)` of R138. `faultAddr` is the linear address CR2
receives when the event is a page fault (R135); `newTask` says that the event is taken in the context of a task being
switched to (R133), which R134 asks about; `intr` that it is an interrupt accepted from the input INTR, whose double-fault
class R140 sets apart. -/
structure Event where
  vector : BitVec 8
  cls : EventClass
  savedCS : Half
  savedEIP : Word
  err : Option Half
  faultAddr : Option Word
  newTask : Bool
  intr : Bool := false
  deriving DecidableEq, Repr

/-- The kinds of access `AccessCheck` is asked about (R48); loading a segment register is one (R98, R103). -/
inductive AccessKind where
  | fetch | data | stack | systemTable | segmentLoad
  deriving DecidableEq, Repr

/-- What an access goes through: a segment register, or a system table (R40, R46). -/
inductive AccessSeg where
  | sreg (r : SegName) | gdt | ldt | idt | ivt | tss (sel : Half)
  deriving DecidableEq, Repr

/-- The arguments of `AccessCheck(kind, seg, off, n, write, CPL)` (R48). -/
structure AccessKey where
  kind : AccessKind
  seg : AccessSeg
  off : Word
  n : Nat
  write : Bool
  cpl : BitVec 2
  deriving DecidableEq, Repr

/-- The interrupts `AccessCheck` may name: 11, 12, 13, 14 (R48). -/
inductive AccessVector where
  | notPresent | stackFault | generalProtection | pageFault
  deriving DecidableEq, Repr

/-- An access that `AccessCheck` refuses, the interrupt it names and the error code (R48). -/
structure AccessDenial where
  key : AccessKey
  vector : AccessVector
  err : Half
  deriving DecidableEq, Repr

/-- One answer of the five debug predicates (R17, R117). The two breakpoint predicates say which of the four breakpoints
hit; the predicate holds when the mask is not zero. -/
structure DebugCond where
  instrBp : BitVec 4
  dataBp : BitVec 4
  generalDetect : Bool
  singleStep : Bool
  taskSwitchBp : Bool
  deriving DecidableEq, Repr

/-- No condition holds. -/
def DebugCond.none : DebugCond :=
  { instrBp := 0, dataBp := 0, generalDetect := false, singleStep := false, taskSwitchBp := false }

/-- The inputs of the processor: RESET (R171), NMI, an edge not yet accepted, and INTR, the level of the line with the vector
the controller answers while it is active (R140), the coprocessor's three (R28, R92), a queue of debug
answers, one for each instruction (R17), the accesses `AccessCheck` refuses (R48), and the bytes other agents write to
memory, in order (R49, D14): those of `external` before the next step, those of `inside` while it runs, between its own
accesses (R44, D13; log entry 36). The outside world sets them between steps. -/
structure Pins where
  reset : Bool
  nmi : Bool
  intr : Option (BitVec 8)
  npxPresent : Bool
  npxBusy : Bool
  npxError : Bool
  debug : List DebugCond
  denials : List AccessDenial
  external : List Host.Cell
  inside : List Host.Cell
  deriving DecidableEq, Repr

/-- A store to a byte since the last control transfer (R52): its physical address, its value before the store, and the
linear address of the storing instruction. -/
structure StoredByte where
  addr : Nat
  old : Byte
  writer : Word
  deriving DecidableEq, Repr

/-- The state of the machine. INVENTORY.md, under State, lists each field with the rule that names it. -/
structure State where
  gpr : Gprs
  eip : Word
  eflags : Word
  segs : Segs
  ldtr : SegReg
  tr : SegReg
  gdtr : TableReg
  idtr : TableReg
  cr0 : Word
  cr2 : Word
  cr3 : Word
  dr : DebugRegs
  tr6 : Word
  tr7 : Word
  mem : Memory
  delivering : Option (BitVec 8)
  shutdown : Bool
  halted : Bool
  nmiBlocked : Bool
  stored : List StoredByte
  reported : List Event
  switched : Option Bool
  debugTrap : DebugCond
  amid : List Host.Cell
  pins : Pins
  draws : Nat
  deriving DecidableEq, Repr

/-- Why the machine stops. -/
inductive Fault where
  /-- The processor has shut down (R32, R128): raised by `step` in every state with `shutdown` set and no RESET input;
  no instruction executes (D10). Safe: the processor does nothing more either. -/
  | shutdown
  deriving DecidableEq, Repr

/-- Why a step has no meaning: the spec's own refusals (R8's `refuse`). Each is safe: no claim can be proved of a run
that reaches one. -/
inductive Refusal where
  /-- Raised by an arm of `exec` whose instruction has no meaning yet. Safe. -/
  | notModelled (mnemonic : String)
  /-- Raised by `step` on bytes that match no row of the opcode table (R65, U8). Safe. -/
  | unlistedEncoding
  /-- Raised where an instruction, or `EIP + len`, passes offset FFFFFFFFh (R12, D3, U15). Safe. -/
  | eipOverflow
  /-- Raised by ESC when it raises no exception: the coprocessor is not modelled (R90, D23, U16). Safe. -/
  | coprocessorInstruction
  /-- Raised by ESC with EM = 0, MP = 0, TS = 1, where the source and general knowledge disagree (R90, C5, U9). Safe. -/
  | escTaskSwitched
  /-- Raised by WAIT while the coprocessor signals an error (R92, D22, U16). Safe. -/
  | coprocessorError
  /-- Raised by a far JMP or CALL whose selector names a call gate (R101, D28). Safe. -/
  | callGate
  /-- Raised by a far JMP or CALL to an ordinary segment in protected mode whose selector has an RPL that is not the CPL, so
  that CS would change the privilege level, which only gates and returns do (R145): a privilege change met inside a covered
  instruction is refused (D28, R101; log entry 10). Safe. -/
  | privilegeChange
  /-- Raised by a task switch to a TSS whose SS or CS selector is null (R131, N41). Safe. -/
  | nullSelector
  /-- Raised by a task switch to a 286 TSS, whose layout the spec does not hold (R20, R23; log entry 18). Safe. -/
  | tss286
  /-- Raised when interrupt 10, taken in the new task's context, would be handled through anything but a task gate
  (R134, U12). Safe. -/
  | handlerNotTask
  /-- Raised by a return from a handler after an abort was reported (R142, U3). Safe. -/
  | returnAfterAbort
  deriving DecidableEq, Repr

/-- A segment register after reset (R170): the limit FFFFh; the access byte 93h and the D bit 0 are the model's choice
(log entry 8). -/
def SegReg.atReset (sel : Half) (base : Word) : SegReg :=
  { sel := sel, base := base, limit := 0xFFFF, access := 0x93, big := false }

/-- A register with hidden descriptor that R170 leaves undefined: all zero (log entry 1). -/
def SegReg.zero : SegReg := { sel := 0, base := 0, limit := 0, access := 0, big := false }

/-- No input active: no RESET, NMI or INTR, no coprocessor, no debug condition, every access admitted, no write of another
agent (log entries 4, 5, 21, 23, 36). -/
def Pins.quiet : Pins :=
  { reset := false, nmi := false, intr := none, npxPresent := false, npxBusy := false, npxError := false,
    debug := [], denials := [], external := [], inside := [] }

/-- The machine right after reset (R170); what R170 leaves undefined is zero (log entry 1). NMIs are not held off after
reset, a point that neither R170 nor R140 settles, and no debug trap is pending, which R170 does not name (DESIGN CHOICE,
log entry 29). -/
def State.reset : State :=
  { gpr := { eax := 0, ecx := 0, edx := 0x00000300, ebx := 0, esp := 0, ebp := 0, esi := 0, edi := 0 }
    eip := 0x0000FFF0
    eflags := 0x00000002
    segs :=
      { es := SegReg.atReset 0 0, cs := SegReg.atReset 0xF000 0xFFFF0000, ss := SegReg.atReset 0 0
        ds := SegReg.atReset 0 0, fs := SegReg.atReset 0 0, gs := SegReg.atReset 0 0 }
    ldtr := SegReg.zero
    tr := SegReg.zero
    gdtr := { base := 0, limit := 0 }
    idtr := { base := 0, limit := 0x03FF }
    cr0 := 0
    cr2 := 0
    cr3 := 0
    dr := { dr0 := 0, dr1 := 0, dr2 := 0, dr3 := 0, dr6 := 0, dr7 := 0 }
    tr6 := 0
    tr7 := 0
    mem := []
    delivering := none
    shutdown := false
    halted := false
    nmiBlocked := false
    stored := []
    reported := []
    switched := none
    debugTrap := DebugCond.none
    amid := []
    pins := Pins.quiet
    draws := 0 }

end Sys2Proof.Machine
end

