-- ==== Sys2Proof/Machine/Flags.lean ====
section
/-! DEFINITION. The flags register EFLAGS (R13, R14) and the control register CR0 (R15, R16): the places of their bits,
how one bit is read and written, and the flag results the spec gives. -/

namespace Sys2Proof.Machine

/-- Writes bit `i` of a 32-bit register. -/
def setBit (v : Word) (i : Nat) (b : Bool) : Word :=
  if b then v ||| (1#32 <<< i) else v &&& ~~~(1#32 <<< i)

/-! ### EFLAGS (R14) -/

/-- OF, bit 11. -/
def State.flagOF (s : State) : Bool := s.eflags.getLsbD 11
/-- TF, bit 8: arms the single-step condition (R18). -/
def State.flagTF (s : State) : Bool := s.eflags.getLsbD 8
/-- IF, bit 9: admits INTR (R140). -/
def State.flagIF (s : State) : Bool := s.eflags.getLsbD 9
/-- NT, bit 14: the task is nested (R101, R142). -/
def State.flagNT (s : State) : Bool := s.eflags.getLsbD 14
/-- RF, bit 16: suppresses an instruction breakpoint (R117). -/
def State.flagRF (s : State) : Bool := s.eflags.getLsbD 16
/-- VM, bit 17: virtual-8086 mode (R29). -/
def State.flagVM (s : State) : Bool := s.eflags.getLsbD 17

/-- The places of CF 0, PF 2, AF 4, ZF 6, SF 7 and OF 11: the six status flags of R77. -/
def statusMask : Word := 0x000008D5

/-- EFLAGS with its six status flags replaced by those of `free` (R77: each a draw); every other bit is kept. -/
def withStatus (flags free : Word) : Word := (flags &&& ~~~statusMask) ||| (free &&& statusMask)

/-- A whole new value of EFLAGS as the register holds it (R14): bit 1 reads as 1, bits 3, 5 and 15 read as 0. -/
def fixedFlags (v : Word) : Word := (v &&& 0xFFFF7FD7) ||| 2

/-- R14's fixed bits of EFLAGS. -/
abbrev flagsWf (v : Word) : Prop := fixedFlags v = v

/-- EFLAGS on entry to a handler: TF and NT cleared, IF cleared by an interrupt gate (R139), VM cleared because the
handler runs in protected mode (log entry 15), RF cleared because it is for the one instruction interrupted (R117; log
entry 22). -/
def entryFlags (flags : Word) (clearIF : Bool) : Word :=
  let v := setBit (setBit (setBit (setBit flags 8 false) 14 false) 17 false) 16 false
  if clearIF then setBit v 9 false else v

/-- EFLAGS on entry to a handler in real-address mode: IF and TF cleared (R139), and RF, which is for the one instruction
interrupted (R117; log entry 22). -/
def realEntryFlags (flags : Word) : Word := setBit (setBit (setBit flags 9 false) 8 false) 16 false

/-! ### CR0 (R16) -/

/-- PE, bit 0: protection enable. -/
def State.cr0PE (s : State) : Bool := s.cr0.getLsbD 0
/-- MP, bit 1: monitor coprocessor. -/
def State.cr0MP (s : State) : Bool := s.cr0.getLsbD 1
/-- EM, bit 2: emulate. -/
def State.cr0EM (s : State) : Bool := s.cr0.getLsbD 2
/-- TS, bit 3: task switched. -/
def State.cr0TS (s : State) : Bool := s.cr0.getLsbD 3
/-- PG, bit 31: paging enable. -/
def State.cr0PG (s : State) : Bool := s.cr0.getLsbD 31

end Sys2Proof.Machine
end

