-- ==== Sys2Proof/Machine/Ops.lean ====
section
/-! DEFINITION. The named operations of the model: memory, registers, segments and descriptors (R19 to R25, R40 to R48),
the task switch (R102, R131, R133), TAKING AN EXCEPTION as one shared operation, `deliver` (R138, R139), and the return
from a handler, `returnFromHandler` (R142). An operation answers a value, or stops with an exception to report or a
refusal (`Res`). -/

namespace Sys2Proof

/-- Which value an access shows of a byte that other agents write while the step runs, counted among the bytes they write
to it; any other number stands for the byte in memory (R44, R49, D13, D14): free, for each state an access is made in, each
access (its linear address and number of bytes) and each physical address (log entry 36). -/
opaque Config.outsideSeen : Machine.State → (access : Word × Nat) → (addr : Nat) → Nat

/-- How many of the bytes other agents are still writing to a physical address come before a store of the step to it (R49):
free, for each state a store is made in and each address (log entry 36). -/
opaque Config.outsideBefore : Machine.State → (addr : Nat) → Nat

end Sys2Proof

namespace Sys2Proof.Machine

/-! ### Results -/

/-- How an operation stops: an exception, with the state it is reported from, or a refusal (R8). -/
inductive Stop where
  | raised (e : Event) (ctx : State)
  | refused (r : Refusal)
  deriving DecidableEq, Repr

/-- A value, or a stop. -/
abbrev Res (α : Type) := Except Stop α

/-- Where a fault is reported from: the state it leaves the machine in (`home`, R111: as it was before the instruction
began), the CS:EIP it saves, the EXT bit of its error code (R132, R152), and whether it is taken in the context of the
task being switched to (R133). -/
structure Origin where
  home : State
  cs : Half
  eip : Word
  ext : Bool
  newTask : Bool
  deriving DecidableEq, Repr

/-- The origin of the faults an instruction raises by itself: the state before it and its own CS:EIP (R11, R111); EXT is
0 (R152). -/
def Origin.ofInstr (s : State) : Origin :=
  { home := s, cs := s.segs.cs.sel, eip := s.eip, ext := false, newTask := false }

/-- A fault of vector `v` reported from `o` (R111). -/
def Origin.fault (o : Origin) (v : BitVec 8) (err : Option Half) : Stop :=
  .raised
    { vector := v, cls := .fault, savedCS := o.cs, savedEIP := o.eip, err := err, faultAddr := none
      newTask := o.newTask }
    o.home

/-- `err = (sel AND FFFCh) OR EXT` (R137). -/
def selErr (sel : Half) (ext : Bool) : Half := (sel &&& 0xFFFC) ||| (if ext then 1 else 0)

/-- The error code that names an entry of the interrupt descriptor table: I = 1 and the index in bits 15:3 (R137). -/
def idtErr (v : BitVec 8) (ext : Bool) : Half := (v.setWidth 16 <<< 3) ||| 2 ||| (if ext then 1 else 0)

/-! ### Modes and privilege (R21, R29, R57) -/

/-- The three modes of R29. -/
inductive Mode where
  | realMode | protMode | v86Mode
  deriving DecidableEq, Repr

/-- R29: CR0.PE and EFLAGS.VM select the mode. -/
def mode (s : State) : Mode :=
  if s.cr0PE then (if s.flagVM then .v86Mode else .protMode) else .realMode

/-- The D bit decoding goes by (R57): always 16-bit sizes outside protected mode. -/
def codeBig (s : State) : Bool := decide (mode s = .protMode) && s.segs.cs.big

/-- CPL: the RPL field of CS in protected mode (R21); 0 in real-address mode (R170), 3 in virtual-8086 mode (log
entry 9). -/
def cpl (s : State) : BitVec 2 :=
  match mode s with
  | .realMode => 0
  | .protMode => s.segs.cs.sel.extractLsb' 0 2
  | .v86Mode => 3

/-! ### General registers (R25) -/

/-- Reads a 32-bit general register. -/
def Gprs.get (g : Gprs) : Reg → Word
  | .eax => g.eax | .ecx => g.ecx | .edx => g.edx | .ebx => g.ebx
  | .esp => g.esp | .ebp => g.ebp | .esi => g.esi | .edi => g.edi

/-- Writes a 32-bit general register. -/
def Gprs.set (g : Gprs) (r : Reg) (v : Word) : Gprs :=
  match r with
  | .eax => { g with eax := v } | .ecx => { g with ecx := v } | .edx => { g with edx := v }
  | .ebx => { g with ebx := v } | .esp => { g with esp := v } | .ebp => { g with ebp := v }
  | .esi => { g with esi := v } | .edi => { g with edi := v }

/-- `x[i]` of R8. -/
def State.reg (s : State) (r : Reg) : Word := s.gpr.get r

/-- `x[i] <- v` of R8. -/
def State.setReg (s : State) (r : Reg) (v : Word) : State := { s with gpr := s.gpr.set r v }

/-- `x16[i]` of R25. -/
def State.reg16 (s : State) (r : Reg) : Half := (s.reg r).setWidth 16

/-- A write of the 16-bit view leaves bits 31:16 (R25). -/
def State.setReg16 (s : State) (r : Reg) (v : Half) : State :=
  s.setReg r ((s.reg r).extractLsb' 16 16 ++ v)

/-- The general register an 8-bit register is part of, and whether it is its bits 15:8 (R25). -/
def Reg8.home : Reg8 → Reg × Bool
  | .al => (.eax, false) | .cl => (.ecx, false) | .dl => (.edx, false) | .bl => (.ebx, false)
  | .ah => (.eax, true) | .ch => (.ecx, true) | .dh => (.edx, true) | .bh => (.ebx, true)

/-- `x8[i]` of R25. -/
def State.reg8 (s : State) (r : Reg8) : Byte :=
  if (Reg8.home r).2 then (s.reg (Reg8.home r).1).extractLsb' 8 8 else (s.reg (Reg8.home r).1).extractLsb' 0 8

/-- A register read at operand size, zero-extended (R97, R84). -/
def State.regZ (s : State) (z : WSize) (r : Reg) : Word :=
  match z with
  | .o16 => (s.reg16 r).setWidth 32
  | .o32 => s.reg r

/-- A register written at operand size; the 16-bit write keeps bits 31:16 (R25, R103). -/
def State.setRegZ (s : State) (z : WSize) (r : Reg) (v : Word) : State :=
  match z with
  | .o16 => s.setReg16 r (v.setWidth 16)
  | .o32 => s.setReg r v

/-- A value truncated to the operand size (R60). -/
def truncZ (z : WSize) (v : Word) : Word :=
  match z with
  | .o16 => (v.setWidth 16).setWidth 32
  | .o32 => v

/-- Advances the counter behind every free value (log entry 6). -/
def State.tick (s : State) : State := { s with draws := s.draws + 1 }

/-! ### Segment registers -/

/-- Reads a segment register. -/
def Segs.get (g : Segs) : SegName → SegReg
  | .es => g.es | .cs => g.cs | .ss => g.ss | .ds => g.ds | .fs => g.fs | .gs => g.gs

/-- Writes a segment register. -/
def Segs.set (g : Segs) (r : SegName) (v : SegReg) : Segs :=
  match r with
  | .es => { g with es := v } | .cs => { g with cs := v } | .ss => { g with ss := v }
  | .ds => { g with ds := v } | .fs => { g with fs := v } | .gs => { g with gs := v }

/-- A segment register of the state. -/
def State.seg (s : State) (r : SegName) : SegReg := s.segs.get r

/-- The state with a segment register written. -/
def State.setSeg (s : State) (r : SegName) (v : SegReg) : State := { s with segs := s.segs.set r v }

/-- The linear address of an offset in a segment: base plus offset (R41). A sum past FFFFFFFFh is counted modulo 2^32, for
every access and for the fetch of an instruction: R41 gives no rule for it, and R12 says that the source is silent on
wrap-around (DESIGN CHOICE, log entry 42). -/
def State.lin (s : State) (r : SegName) (off : Word) : Word := (s.seg r).base + off

/-! ### Memory (R41, R43) -/

/-- What an unlisted address reads as (log entry 2). -/
def unlistedByte : Byte := 0

/-- The byte at a physical address. Every address below 2^32 is ordinary memory, readable and writable: R41 says that
physical memory is at most 2^32 bytes and R46 leaves the map to configuration, so an absent range, a read-only one or a
device's is left out (DESIGN CHOICE, log entry 2). -/
def Memory.read : Memory → Nat → Byte
  | [], _ => unlistedByte
  | (b, v) :: m, a => if b = a then v else Memory.read m a

/-- Memory with one byte written; the canonical form is kept, so writing `unlistedByte` removes the entry. A write takes
effect at every physical address below 2^32, none being absent or read-only, where R46 leaves the map to configuration
(DESIGN CHOICE, log entry 2). -/
def Memory.write : Memory → Nat → Byte → Memory
  | [], a, v => if v = unlistedByte then [] else [(a, v)]
  | (b, w) :: m, a, v =>
    if a < b then (if v = unlistedByte then (b, w) :: m else (a, v) :: (b, w) :: m)
    else if a = b then (if v = unlistedByte then m else (a, v) :: m)
    else (b, w) :: Memory.write m a v

/-- The canonical form: addresses strictly rising and below 2^32, no entry equal to what an unlisted address reads as. -/
abbrev Memory.wf (m : Memory) : Prop :=
  m.Pairwise (fun c d => c.1 < d.1) ∧ ∀ c ∈ m, c.1 < 2 ^ 32 ∧ c.2 ≠ unlistedByte

/-- Several bytes written, one after the other. -/
def Memory.writeAll (m : Memory) : List Host.Cell → Memory
  | [] => m
  | (a, v) :: cs => Memory.writeAll (m.write a v) cs

/-- The physical address of a linear address: itself without paging; with CR0.PG the frame of its 4096-byte page is a
free value (R41; log entry 7). -/
def phys (s : State) (lin : Word) : Nat :=
  if s.cr0PG then
    (Config.pageFrame s.cr3 s.mem s.draws (lin.extractLsb' 12 20)).toNat * 4096 + (lin.extractLsb' 0 12).toNat
  else lin.toNat

/-- The number a list of bytes in address order stands for (R43: the least significant byte first). -/
def leValue : List Byte → Nat
  | [] => 0
  | b :: bs => b.toNat + 256 * leValue bs

/-- The `n` bytes of memory from a linear address upward. Those past FFFFFFFFh are at address 0 onward: the spec speaks of
no wrap-around of an access (DESIGN CHOICE, log entry 42). -/
def bytesAt (s : State) (lin : Word) : Nat → List Byte
  | 0 => []
  | n + 1 => s.mem.read (phys s lin) :: bytesAt s (lin + 1) n

/-- The `n` bytes of memory at a linear address as one little-endian number (R43). -/
def readLin (s : State) (lin : Word) (n : Nat) : Nat := leValue (bytesAt s lin n)

/-- The `n` bytes of memory from a physical address upward as one little-endian number (R46: the real-mode vector table). -/
def readPhys (m : Memory) (a : Nat) : Nat → Nat
  | 0 => 0
  | n + 1 => (m.read a).toNat + 256 * readPhys m (a + 1) n

/-- Of a list of bytes written to memory, those to the physical address `a`, in order. -/
def outsideAt (l : List Host.Cell) (a : Nat) : List Byte := (l.filter (fun c => decide (c.1 = a))).map Prod.snd

/-- The byte an access sees at a physical address (R49): the one in memory, which is the latest store in program order, or
one that another agent writes to it while the step runs, a free choice (log entry 36). -/
def seenAt (s : State) (access : Word × Nat) (a : Nat) : Byte :=
  (outsideAt s.amid a).getD (Config.outsideSeen s access a) (s.mem.read a)

/-- The bytes an access sees from a linear address upward, each byte for itself (R44, D13), addresses modulo 2^32 (DESIGN
CHOICE, log entry 42). -/
def loadBytes (s : State) (access : Word × Nat) (lin : Word) : Nat → List Byte
  | 0 => []
  | n + 1 => seenAt s access (phys s lin) :: loadBytes s access (lin + 1) n

/-- What a load of `n` bytes at a linear address gives, as one little-endian number (R43, R49). -/
def loadLin (s : State) (lin : Word) (n : Nat) : Nat := leValue (loadBytes s (lin, n) lin n)

/-- What a load of two bytes at a physical address gives (R46: the real-mode vector table). -/
def loadPhys (s : State) (a : Nat) : Nat :=
  (seenAt s (BitVec.ofNat 32 a, 2) a).toNat + 256 * (seenAt s (BitVec.ofNat 32 a, 2) (a + 1)).toNat

/-- The physical cells a list of bytes is stored to, from a linear address upward. Those past FFFFFFFFh are at address 0
onward: the spec speaks of no wrap-around of an access (DESIGN CHOICE, log entry 42). -/
def cellsAt (s : State) (lin : Word) : List Byte → List Host.Cell
  | [] => []
  | b :: bs => (phys s lin, b) :: cellsAt s (lin + 1) bs

/-- The record of stores that a stale prefetch may miss (R52), with a store to `cells` of memory `m` added. -/
def noteStored (m : Memory) (writer : Word) (l : List StoredByte) (cells : List Host.Cell) : List StoredByte :=
  cells.map (fun c => { addr := c.1, old := m.read c.1, writer := writer }) ++ l

/-- A list of bytes written to memory without the first `n` of those to the address `a`. -/
def dropFirst (a : Nat) : List Host.Cell → Nat → List Host.Cell
  | [], _ => []
  | c :: cs, n => if c.1 = a then (if n = 0 then c :: cs else dropFirst a cs (n - 1)) else c :: dropFirst a cs n

/-- What other agents are still writing after a store of the step to `cells`: of the bytes to each of these addresses, a
free number came before the store and are gone (R49; log entry 36). -/
def overtake (s : State) (cells l : List Host.Cell) : List Host.Cell :=
  cells.foldl (fun l c => dropFirst c.1 l (Config.outsideBefore s c.1)) l

/-- Stores bytes from a linear address upward (R43), and notes them for R52 and R49. The address of the storing instruction
is the linear one of CS:EIP, modulo 2^32 (DESIGN CHOICE, log entry 42). -/
def storeBytes (s : State) (lin : Word) (bs : List Byte) : State :=
  { s with
    mem := s.mem.writeAll (cellsAt s lin bs)
    amid := overtake s (cellsAt s lin bs) s.amid
    stored := noteStored s.mem (s.segs.cs.base + s.eip) s.stored (cellsAt s lin bs) }

/-- Stores the low `n` bytes of a value at a linear address, least significant first (R43). -/
def store (s : State) (lin : Word) (n : Nat) (v : Word) : State := storeBytes s lin (numberBytes n v.toNat)

/-! ### The access oracle (R48) -/

/-- The vector number of an `AccessCheck` answer. -/
def AccessVector.number : AccessVector → BitVec 8
  | .notPresent => 11 | .stackFault => 12 | .generalProtection => 13 | .pageFault => 14

/-- `AccessCheck`: none when the access is admitted (R48; log entry 4). -/
def accessDenial (s : State) (key : AccessKey) : Option AccessDenial :=
  s.pins.denials.find? (fun d => decide (d.key = key))

/-- The error code an `AccessCheck` answer reports: in the selector format of 11, 12 and 13 bit 0 is EXT, whatever the
answer holds there (R137, R152); a page fault has a format of its own and keeps its code (log entry 38). -/
def deniedErr (d : AccessDenial) (ext : Bool) : Half :=
  if d.vector = .pageFault then d.err else (d.err &&& 0xFFFE) ||| (if ext then 1 else 0)

/-- The exception an `AccessCheck` answer reports: its vector and error code, and for a page fault the linear address that
CR2 receives (R135). -/
def Origin.denied (o : Origin) (d : AccessDenial) (lin : Word) : Stop :=
  .raised
    { vector := d.vector.number, cls := .fault, savedCS := o.cs, savedEIP := o.eip
      err := some (deniedErr d o.ext)
      faultAddr := if d.vector = .pageFault then some lin else none
      newTask := o.newTask }
    o.home

/-- Asks `AccessCheck` about an access at a linear address. -/
def check (o : Origin) (s : State) (key : AccessKey) (lin : Word) : Res Unit :=
  match accessDenial s key with
  | none => .ok ()
  | some d => .error (o.denied d lin)

/-- The question `MemRead(seg, off, n)` asks of `AccessCheck` (R8, R48). -/
def dataKey (s : State) (r : SegName) (off : Word) (n : Nat) : AccessKey :=
  { kind := .data, seg := .sreg r, off := off, n := n, write := false, cpl := cpl s }

/-- `MemRead(seg, off, n)` (R8): `AccessCheck`, then the bytes as one little-endian number. -/
def memRead (o : Origin) (s : State) (r : SegName) (off : Word) (n : Nat) : Res Word :=
  match check o s (dataKey s r off n) (s.lin r off) with
  | .ok _ => .ok (BitVec.ofNat 32 (loadLin s (s.lin r off) n))
  | .error e => .error e

/-! ### The stack (R24) -/

/-- ESP after a push of the operand size (R24). Where ESP is smaller than the operand size it is taken modulo 2^32, so the
push is at the top of the segment's offsets: R24 gives no rule for the wrap of ESP (DESIGN CHOICE, log entry 12). -/
def pushOff (s : State) (z : WSize) : Word := s.reg .esp - BitVec.ofNat 32 z.bytes

/-- The question a push asks of `AccessCheck`. -/
def pushKey (s : State) (z : WSize) : AccessKey :=
  { kind := .stack, seg := .sreg .ss, off := pushOff s z, n := z.bytes, write := true, cpl := cpl s }

/-- What a push that is admitted does: ESP decremented by the operand size, then the value written at SS:ESP (R24). -/
def pushed (s : State) (z : WSize) (v : Word) : State :=
  (store s (s.lin .ss (pushOff s z)) z.bytes v).setReg .esp (pushOff s z)

/-- `Push(v)` (R8, R24). -/
def push (o : Origin) (s : State) (z : WSize) (v : Word) : Res State :=
  match check o s (pushKey s z) (s.lin .ss (pushOff s z)) with
  | .ok _ => .ok (pushed s z v)
  | .error e => .error e

/-- Several pushes, the first of the list first. -/
def pushAll (o : Origin) (s : State) (z : WSize) : List Word → Res State
  | [] => .ok s
  | v :: vs =>
    match push o s z v with
    | .ok s' => pushAll o s' z vs
    | .error e => .error e

/-- A pop of the operand size: the value at SS:ESP, then ESP incremented (the inverse of R24's push; R142). ESP past
FFFFFFFFh goes on at 0: R24 gives no rule for the wrap of ESP (DESIGN CHOICE, log entry 12). -/
def pop (o : Origin) (s : State) (z : WSize) : Res (Word × State) :=
  match check o s
      { kind := .stack, seg := .sreg .ss, off := s.reg .esp, n := z.bytes, write := false, cpl := cpl s }
      (s.lin .ss (s.reg .esp)) with
  | .ok _ =>
    .ok (BitVec.ofNat 32 (loadLin s (s.lin .ss (s.reg .esp)) z.bytes),
      s.setReg .esp (s.reg .esp + BitVec.ofNat 32 z.bytes))
  | .error e => .error e

/-! ### The instruction pointer (R12) -/

/-- `EIP + len`, refused past FFFFFFFFh (R12, D3). -/
def nextEip (s : State) (len : Nat) : Res Word :=
  if s.eip.toNat + len ≤ 0xFFFFFFFF then .ok (s.eip + BitVec.ofNat 32 len) else .error (.refused .eipOverflow)

/-- `EIP <- EIP + len` (R12). -/
def advance (s : State) (len : Nat) : Res State :=
  match nextEip s len with
  | .ok e => .ok { s with eip := e }
  | .error x => .error x

/-- A control transfer within the code segment: EIP set, the prefetched bytes discarded (R52). -/
def jump (s : State) (eip : Word) : State := { s with eip := eip, stored := [] }

/-! ### Selectors and descriptors (R19, R20) -/

/-- RPL, bits 1:0 of a selector. -/
def selRpl (sel : Half) : BitVec 2 := sel.extractLsb' 0 2

/-- TI, bit 2 of a selector: the entry is in the current LDT. -/
def selTI (sel : Half) : Bool := sel.getLsbD 2

/-- Eight times the index, bits 15:3: the offset of the entry in its table. -/
def selOff (sel : Half) : Word := (sel &&& 0xFFF8).setWidth 32

/-- A selector with its RPL field replaced. -/
def withRpl (sel : Half) (rpl : BitVec 2) : Half := (sel &&& 0xFFFC) ||| rpl.setWidth 16

/-- A null selector: index 0 of the global table (R131). -/
def selNull (sel : Half) : Bool := decide (sel &&& 0xFFFC = 0)

/-- The limit of the table a selector indexes. -/
def tableLimit (s : State) (sel : Half) : Nat :=
  if selTI sel then s.ldtr.limit.toNat else s.gdtr.limit.toNat

/-- The linear base of the table a selector indexes. -/
def tableBase (s : State) (sel : Half) : Word := if selTI sel then s.ldtr.base else s.gdtr.base

/-- The selector is inside its table's limit: all eight bytes of its entry are. R19 and Table 9-5 speak of a selector
"outside table limit" without saying whether an entry that begins inside the limit and ends beyond it is outside; the model
takes it to be (DESIGN CHOICE, log entry 11). -/
def inTable (s : State) (sel : Half) : Bool := decide ((selOff sel).toNat + 7 ≤ tableLimit s sel)

/-- A descriptor as one little-endian number of eight bytes (R20). -/
abbrev Desc := BitVec 64

/-- The base: bytes 4:2 and byte 7. -/
def descBase (d : Desc) : Word := d.extractLsb' 56 8 ++ d.extractLsb' 16 24

/-- The limit in bytes: bytes 1:0 and bits 3:0 of byte 6, in units of 4096 bytes when G is set (log entry 28). -/
def descLimit (d : Desc) : Word :=
  let raw : BitVec 20 := d.extractLsb' 48 4 ++ d.extractLsb' 0 16
  if d.getLsbD 55 then raw ++ 0xFFF#12 else raw.setWidth 32

/-- The access byte, byte 5. -/
def descAccess (d : Desc) : Byte := d.extractLsb' 40 8

/-- P, bit 7 of the access byte. -/
def descPresent (d : Desc) : Bool := d.getLsbD 47

/-- DPL, bits 6:5 of the access byte. -/
def descDpl (d : Desc) : BitVec 2 := d.extractLsb' 45 2

/-- D/B, bit 6 of byte 6. -/
def descBig (d : Desc) : Bool := d.getLsbD 54

/-- The selector of a gate: bytes 3:2 (log entry 13). -/
def gateSel (d : Desc) : Half := d.extractLsb' 16 16

/-- The offset of a gate: bytes 7:6 and 1:0 (log entry 13). -/
def gateOff (d : Desc) : Word := d.extractLsb' 48 16 ++ d.extractLsb' 0 16

/-- What a descriptor describes (R20; the 286 gate types are log entry 13). -/
inductive DescKind where
  | code (conforming readable : Bool)
  | data (writable : Bool)
  | ldt | tss386 | tss286 | taskGate | callGate
  | intGate (z : WSize) | trapGate (z : WSize)
  | other
  deriving DecidableEq, Repr

/-- The system types, S = 0 (R20). -/
def systemKind (t : BitVec 4) : DescKind :=
  if t = 2 then .ldt
  else if t = 9 ∨ t = 11 then .tss386
  else if t = 1 ∨ t = 3 then .tss286
  else if t = 5 then .taskGate
  else if t = 12 ∨ t = 4 then .callGate
  else if t = 14 then .intGate .o32
  else if t = 15 then .trapGate .o32
  else if t = 6 then .intGate .o16
  else if t = 7 then .trapGate .o16
  else .other

/-- The kind of a descriptor, from S and the type field of its access byte (R20). -/
def descKind (d : Desc) : DescKind :=
  if d.getLsbD 44 then
    (if d.getLsbD 43 then .code (d.getLsbD 42) (d.getLsbD 41) else .data (d.getLsbD 41))
  else systemKind (d.extractLsb' 40 4)

/-- The hidden part of a register loaded from a descriptor. -/
def segOfDesc (sel : Half) (d : Desc) : SegReg :=
  { sel := sel, base := descBase d, limit := descLimit d, access := descAccess d, big := descBig d }

/-- A register that holds a selector and no usable descriptor. -/
def segNull (sel : Half) : SegReg := { sel := sel, base := 0, limit := 0, access := 0, big := false }

/-- A segment register loaded in real-address or virtual-8086 mode: base sixteen times the selector (log entry 8). -/
def segReal (sel : Half) : SegReg :=
  { sel := sel, base := (sel.setWidth 32) <<< 4, limit := 0xFFFF, access := 0x93, big := false }

/-- The question reading a descriptor asks of `AccessCheck`. -/
def descKey (s : State) (sel : Half) : AccessKey :=
  { kind := .systemTable, seg := if selTI sel then .ldt else .gdt, off := selOff sel, n := 8, write := false
    cpl := cpl s }

/-- The linear address of the descriptor a selector names. -/
def descAddr (s : State) (sel : Half) : Word := tableBase s sel + selOff sel

/-- The descriptor a selector names, as a load sees it (R19, R20, R49). -/
def descAt (s : State) (sel : Half) : Desc := BitVec.ofNat 64 (loadLin s (descAddr s sel) 8)

/-- Reads the descriptor a selector names (R19, R20). -/
def readDesc (o : Origin) (s : State) (sel : Half) : Res Desc :=
  match check o s (descKey s sel) (descAddr s sel) with
  | .ok _ => .ok (descAt s sel)
  | .error e => .error e

/-- The question loading a segment register asks of `AccessCheck`: the protection checks of the load (R98, R103). -/
def loadKey (s : State) (r : SegName) (sel : Half) : AccessKey :=
  { kind := .segmentLoad, seg := .sreg r, off := sel.setWidth 32, n := 2, write := false, cpl := cpl s }

/-- Loads a segment register in protected mode: a null selector in DS, ES, FS or GS is loaded as such (R131); a selector
that names no descriptor raises interrupt 13 (log entry 11). -/
def loadProtected (o : Origin) (s : State) (r : SegName) (sel : Half) : Res SegReg :=
  if selNull sel then
    (if r = .cs ∨ r = .ss then .error (o.fault 13 (some (selErr sel o.ext))) else .ok (segNull sel))
  else if inTable s sel then
    match readDesc o s sel with
    | .ok d => .ok (segOfDesc sel d)
    | .error e => .error e
  else .error (o.fault 13 (some (selErr sel o.ext)))

/-- The value a segment register takes from a selector (R103, R98). The question of `AccessCheck` about the load comes before
the tests on a null selector and on the table's limit and before the descriptor is read; the spec gives no order among
them (DESIGN CHOICE, log entry 11). -/
def loadSegment (o : Origin) (s : State) (r : SegName) (sel : Half) : Res SegReg :=
  match check o s (loadKey s r sel) (descAddr s sel) with
  | .error e => .error e
  | .ok _ => if mode s = .protMode then loadProtected o s r sel else .ok (segReal sel)

/-- A transfer from `s` to `t` that changes no privilege level; one that does is refused (D28, R101, R145; log entry 10). -/
def sameLevel (s t : State) : Res State := if cpl t = cpl s then .ok t else .error (.refused .privilegeChange)

/-- `CS:EIP <- (sel, off)` of R98 and R101, after the checks of the segment load. CS holds the selector as it is, its RPL
field included, which would be the CPL from then on (R21), so it must be the CPL already. -/
def farJump (o : Origin) (s : State) (sel : Half) (off : Word) : Res State :=
  match loadSegment o s .cs sel with
  | .ok g => sameLevel s (jump (s.setSeg .cs g) off)
  | .error e => .error e

/-- What the selector of a far transfer names (R98, R101): a TSS or a task gate, a call gate, or anything else. -/
inductive FarTarget where
  | segment | task (tss : Half) | gate
  deriving DecidableEq, Repr

/-- Looks the selector of a far transfer up; only protected mode has tasks and gates (R29). Of a task gate neither the
present bit nor the DPL is tested, which the spec does not speak of (DESIGN CHOICE, log entry 39). -/
def farTarget (o : Origin) (s : State) (sel : Half) : Res FarTarget :=
  if mode s = .protMode ∧ selNull sel = false ∧ inTable s sel = true then
    match readDesc o s sel with
    | .error e => .error e
    | .ok d =>
      match descKind d with
      | .tss386 | .tss286 => .ok (.task sel)
      | .taskGate => .ok (.task (gateSel d))
      | .callGate => .ok .gate
      | .code .. | .data .. | .ldt | .intGate .. | .trapGate .. | .other => .ok .segment
  else .ok .segment

/-! ### The task switch (R102, R131, R133) -/

/-- What a task switch is due to (R102). -/
inductive Cause where
  | jmp | call | interrupt | ret
  deriving DecidableEq, Repr

/-- The switches that set the backlink of the new TSS: "due to a CALL or interrupt" (R102). -/
def Cause.links : Cause → Bool
  | .call | .interrupt => true
  | .jmp | .ret => false

/-- Stores fields `(offset, bytes, value)` of a TSS at its base. -/
def storeFields (base : Word) : List (Nat × Nat × Word) → State → State
  | [], s => s
  | (off, n, v) :: fs, s => storeFields base fs (store s (base + BitVec.ofNat 32 off) n v)

/-- The fields a task switch saves in the old TSS (R23, R102): EIP, EFLAGS, the general registers, the segment
selectors. A selector is saved in the low 16 bits of its 32-bit slot; whether the reserved high 16 bits are written the
spec does not say, and the model leaves them as they were (DESIGN CHOICE, log entry 16). -/
def savedFields (s : State) (cs : Half) (eip flags : Word) : List (Nat × Nat × Word) :=
  [(32, 4, eip), (36, 4, flags), (40, 4, s.gpr.eax), (44, 4, s.gpr.ecx), (48, 4, s.gpr.edx), (52, 4, s.gpr.ebx),
   (56, 4, s.gpr.esp), (60, 4, s.gpr.ebp), (64, 4, s.gpr.esi), (68, 4, s.gpr.edi),
   (72, 2, s.segs.es.sel.setWidth 32), (76, 2, cs.setWidth 32), (80, 2, s.segs.ss.sel.setWidth 32),
   (84, 2, s.segs.ds.sel.setWidth 32), (88, 2, s.segs.fs.sel.setWidth 32), (92, 2, s.segs.gs.sel.setWidth 32)]

/-- What a task switch reads from the new TSS (R23). -/
structure TssImage where
  cr3 : Word
  eip : Word
  eflags : Word
  gpr : Gprs
  es : Half
  cs : Half
  ss : Half
  ds : Half
  fs : Half
  gs : Half
  ldt : Half
  trap : Bool
  deriving DecidableEq, Repr

/-- A 32-bit field of a TSS. -/
def tssWord (s : State) (base : Word) (off : Nat) : Word :=
  BitVec.ofNat 32 (loadLin s (base + BitVec.ofNat 32 off) 4)

/-- A selector field of a TSS: the low 16 bits of its slot (R23). -/
def tssSel (s : State) (base : Word) (off : Nat) : Half :=
  BitVec.ofNat 16 (loadLin s (base + BitVec.ofNat 32 off) 2)

/-- Reads the fields of a TSS at their offsets (R23). -/
def readTss (s : State) (b : Word) : TssImage :=
  { cr3 := tssWord s b 28, eip := tssWord s b 32, eflags := tssWord s b 36
    gpr :=
      { eax := tssWord s b 40, ecx := tssWord s b 44, edx := tssWord s b 48, ebx := tssWord s b 52
        esp := tssWord s b 56, ebp := tssWord s b 60, esi := tssWord s b 64, edi := tssWord s b 68 }
    es := tssSel s b 72, cs := tssSel s b 76, ss := tssSel s b 80, ds := tssSel s b 84
    fs := tssSel s b 88, gs := tssSel s b 92, ldt := tssSel s b 96
    trap := (tssSel s b 100).getLsbD 0 }

/-- Writes the busy bit (bit 1 of the type) of the TSS descriptor a selector names (R20, R102). -/
def setBusy (s : State) (sel : Half) (busy : Bool) : State :=
  let a := descAddr s sel + 5
  let old : Byte := BitVec.ofNat 8 (loadLin s a 1)
  store s a 1 ((if busy then old ||| 2 else old &&& 0xFD).setWidth 32)

/-- A check that is made only under a condition. -/
def checkIf (c : Bool) (r : Res Unit) : Res Unit := if c then r else .ok ()

/-- The question about reading or writing the access byte of a TSS descriptor, where its busy bit is. -/
def busyKey (s : State) (sel : Half) (write : Bool) : AccessKey :=
  { kind := .systemTable, seg := if selTI sel then .ldt else .gdt, off := selOff sel + 5, n := 1, write := write
    cpl := cpl s }

/-- Asks `AccessCheck` about the read and the write by which a busy bit changes (R48). -/
def checkBusy (o : Origin) (s : State) (sel : Half) : Res Unit := do
  check o s (busyKey s sel false) (descAddr s sel + 5)
  check o s (busyKey s sel true) (descAddr s sel + 5)

/-- The question about reading or writing part of a TSS. -/
def tssKey (s : State) (sel : Half) (off : Word) (n : Nat) (write : Bool) : AccessKey :=
  { kind := .systemTable, seg := .tss sel, off := off, n := n, write := write, cpl := cpl s }

/-- The switch marks the old TSS available: a JMP or a return, when TR names one (log entry 16). -/
def freesOld (s : State) (cause : Cause) : Bool := !(cause.links || selNull s.tr.sel)

/-- EFLAGS as the old TSS keeps them (R102). A JMP, a CALL or a return has completed, so RF, which suppresses a breakpoint
for one instruction (R117; log entry 22), is clear; a return clears NT (log entry 16). An interrupted task keeps its
flags. -/
def oldFlags (s : State) : Cause → Word
  | .interrupt => s.eflags
  | .jmp | .call => setBit s.eflags 16 false
  | .ret => setBit (setBit s.eflags 14 false) 16 false

/-- Memory at the commit point (R102 step 3): the old task saved in its TSS, the old TSS marked available after a JMP or
a return when TR names one, the backlink of the new TSS set to the old TSS after a CALL or interrupt, the new TSS marked
busy. With TR null, as after reset, the old task is saved all the same, from TR's base + 32 on (DESIGN CHOICE, log
entry 16). The backlink is written as 2 bytes, the high half of its slot left as it was (DESIGN CHOICE, log entry 16). The
stores come in this order, one after the other; R102 gives none for the saves and the busy bits, and it matters where they
overlap, as in a switch to the current task's own TSS (DESIGN CHOICE, log entry 16). -/
def commitTables (s : State) (sel : Half) (base : Word) (cause : Cause) (cs : Half) (eip : Word) : State :=
  let s1 := storeFields s.tr.base (savedFields s cs eip (oldFlags s cause)) s
  let s2 := if freesOld s cause then setBusy s1 s.tr.sel false else s1
  let s3 := if cause.links then store s2 base 2 (s.tr.sel.setWidth 32) else s2
  setBusy s3 sel true

/-- The new task's context before its selectors are checked (R102): TR updated, CR3, EIP, EFLAGS, the general registers
and the selectors loaded from the new TSS, NT set after a CALL or interrupt (R101; log entry 16), CR0.TS set (R15),
no descriptor loaded yet, the prefetched bytes discarded. VM is clear until the selectors have been loaded, because task
switches exist only in protected mode (R29; log entry 17). `switched` holds the T bit of this TSS: of two switches in one
step, the second made by the handler of a fault found in the first's task, only the last one's T bit counts (DESIGN
CHOICE, log entry 22). -/
def newContext (s : State) (tr : SegReg) (img : TssImage) (cause : Cause) : State :=
  { s with
    tr := tr
    cr3 := img.cr3
    cr0 := setBit s.cr0 3 true
    eip := img.eip
    eflags := (let v := setBit (fixedFlags img.eflags) 17 false; if cause.links then setBit v 14 true else v)
    gpr := img.gpr
    ldtr := segNull img.ldt
    segs :=
      { es := segNull img.es, cs := segNull img.cs, ss := segNull img.ss, ds := segNull img.ds
        fs := segNull img.fs, gs := segNull img.gs }
    stored := []
    switched := some img.trap }

/-- Row 2 of Table 9-5: the LDT selector names a present LDT descriptor of the global table; one with TI = 1 is invalid
whatever it names (DEDUCED, log entry 17). -/
def loadLdt (o : Origin) (s : State) (sel : Half) : Res State :=
  if selTI sel = true ∨ selNull sel = true ∨ inTable s sel = false then .error (o.fault 10 (some (selErr sel o.ext)))
  else
    match readDesc o s sel with
    | .error e => .error e
    | .ok d =>
      if descKind d = .ldt ∧ descPresent d = true then .ok { s with ldtr := segOfDesc sel d }
      else .error (o.fault 10 (some (selErr sel o.ext)))

/-- Rows 3 to 6 of Table 9-5, in order; a stack segment that is not present raises interrupt 12 (R131), after its own rows
and before rows 7 to 12, an order the spec does not give, since no row of the table is about presence here (DESIGN CHOICE,
log entry 17). A null selector refuses once row 2 has passed, before rows 3 to 6 (DESIGN CHOICE, log entry 17). -/
def loadTaskStack (o : Origin) (s : State) (newCpl : BitVec 2) (sel : Half) : Res State :=
  if selNull sel then .error (.refused .nullSelector)
  else if inTable s sel = false then .error (o.fault 10 (some (selErr sel o.ext)))
  else
    match readDesc o s sel with
    | .error e => .error e
    | .ok d =>
      if descKind d ≠ .data true then .error (o.fault 10 (some (selErr sel o.ext)))
      else if descDpl d ≠ newCpl then .error (o.fault 10 (some (selErr sel o.ext)))
      else if selRpl sel ≠ newCpl then .error (o.fault 10 (some (selErr sel o.ext)))
      else if descPresent d = false then .error (o.fault 12 (some (selErr sel o.ext)))
      else .ok (s.setSeg .ss (segOfDesc sel d))

/-- Rows 7 to 10 of Table 9-5, in order; a code segment that is not present raises interrupt 11 (R131), after its own rows
and before rows 11 and 12, an order the spec does not give (DESIGN CHOICE, log entry 17). A null selector refuses once rows
2 to 6 have passed, before rows 7 to 10 (DESIGN CHOICE, log entry 17). -/
def loadTaskCode (o : Origin) (s : State) (newCpl : BitVec 2) (sel : Half) : Res State :=
  if selNull sel then .error (.refused .nullSelector)
  else if inTable s sel = false then .error (o.fault 10 (some (selErr sel o.ext)))
  else
    match readDesc o s sel with
    | .error e => .error e
    | .ok d =>
      match descKind d with
      | .code conforming _ =>
        if conforming = false ∧ descDpl d ≠ newCpl then .error (o.fault 10 (some (selErr sel o.ext)))
        else if conforming = true ∧ newCpl.toNat < (descDpl d).toNat then
          .error (o.fault 10 (some (selErr sel o.ext)))
        else if descPresent d = false then .error (o.fault 11 (some (selErr sel o.ext)))
        else .ok (s.setSeg .cs (segOfDesc sel d))
      | .data .. | .ldt | .tss386 | .tss286 | .taskGate | .callGate | .intGate .. | .trapGate .. | .other =>
        .error (o.fault 10 (some (selErr sel o.ext)))

/-- Row 11 of Table 9-5 for a list of data selectors: each that is not null is inside its table's limit. -/
def checkTaskLimits (o : Origin) (s : State) : List Half → Res Unit
  | [] => .ok ()
  | sel :: sels =>
    if selNull sel = false ∧ inTable s sel = false then .error (o.fault 10 (some (selErr sel o.ext)))
    else checkTaskLimits o s sels

/-- A readable segment: data, or code with R set (R20). -/
def readableKind : DescKind → Bool
  | .data _ => true
  | .code _ r => r
  | .ldt | .tss386 | .tss286 | .taskGate | .callGate | .intGate _ | .trapGate _ | .other => false

/-- Row 12 of Table 9-5 for one of DS, ES, FS, GS; a null selector is loaded as such, a segment that is not present
raises interrupt 11 (R131), after row 12 for this register and before it is tested for the next one, an order the spec does
not give (DESIGN CHOICE, log entry 17). -/
def loadTaskData (o : Origin) (s : State) (r : SegName) (sel : Half) : Res State :=
  if selNull sel then .ok (s.setSeg r (segNull sel))
  else
    match readDesc o s sel with
    | .error e => .error e
    | .ok d =>
      if readableKind (descKind d) = false then .error (o.fault 10 (some (selErr sel o.ext)))
      else if descPresent d = false then .error (o.fault 11 (some (selErr sel o.ext)))
      else .ok (s.setSeg r (segOfDesc sel d))

/-- Row 12, and the test for presence, for several registers in turn (DESIGN CHOICE, log entry 17). -/
def loadTaskDatas (o : Origin) (s : State) : List (SegName × Half) → Res State
  | [] => .ok s
  | (r, sel) :: l =>
    match loadTaskData o s r sel with
    | .error e => .error e
    | .ok s' => loadTaskDatas o s' l

/-- R102 step 4: the rows 2 to 12 of Table 9-5 in the table's order (D11, the default `TssCheckOrder`), each selector loaded
as its rows pass. The tests for presence, which are in no row, come after the rows of their own register: 12 for SS before
rows 7 to 12, 11 for CS before rows 11 and 12, 11 for each of DS, ES, FS and GS before row 12 of the next one (DESIGN
CHOICE, log entry 17). The new CPL is the RPL of the new CS selector (R21, D26). A fault is reported from the state of `o`,
in which no descriptor is loaded, those of rows that have passed included (DESIGN CHOICE, log entry 16). -/
def loadContext (o : Origin) (s : State) (img : TssImage) : Res State := do
  let s1 ← loadLdt o s img.ldt
  let s2 ← loadTaskStack o s1 (selRpl img.cs) img.ss
  let s3 ← loadTaskCode o s2 (selRpl img.cs) img.cs
  checkTaskLimits o s3 [img.ds, img.es, img.fs, img.gs]
  loadTaskDatas o s3 [(.ds, img.ds), (.es, img.es), (.fs, img.fs), (.gs, img.gs)]

/-- The origin of a fault in the new task's context (R133): the new task's state and its first instruction. In a task
switch that is the state before any descriptor is loaded: LDTR, SS and CS hold their selectors and empty descriptors,
whichever row fails (DESIGN CHOICE, log entry 16). -/
def Origin.inTask (s : State) (ext : Bool) : Origin :=
  { home := s, cs := s.segs.cs.sel, eip := s.eip, ext := ext, newTask := true }

/-- R102 step 2, in the context of the old task: the selector names a present TSS of the global table (log entry 16), whose
limit is at least 103 (row 1 of Table 9-5), and the accesses to both TSSs and to the busy bits of their descriptors are
admitted (R48). Answers the descriptor. The spec does not divide the accesses to a TSS into questions: the model asks one
about reading the 104 bytes of the new TSS, one about writing the 64 bytes from 32 on in the old one, one about the backlink
(DESIGN CHOICE, log entry 4). Nor does it give their order, on which depends which of several refusals is reported: the
model asks about the new TSS, the old one, the backlink, the busy bit of the new TSS, that of the old one (DESIGN CHOICE,
log entry 4). The tests come in this order: the selector, the kind of the descriptor, its presence (interrupt 11), its limit
(row 1, interrupt 10), a 286 TSS; so a TSS that is both not present and too short raises 11, an order the spec does not give
(DESIGN CHOICE, log entry 16). The DPL of the TSS descriptor is not tested, whatever the cause, which the spec does not
speak of (DESIGN CHOICE, log entry 16). -/
def verifyTss (o : Origin) (s : State) (sel : Half) (cause : Cause) : Res Desc := do
  if selTI sel = true ∨ selNull sel = true ∨ inTable s sel = false then
    .error (o.fault 13 (some (selErr sel o.ext)))
  else
    let d ← readDesc o s sel
    if descKind d ≠ .tss386 ∧ descKind d ≠ .tss286 then .error (o.fault 13 (some (selErr sel o.ext)))
    else if descPresent d = false then .error (o.fault 11 (some (selErr sel o.ext)))
    else if (descLimit d).toNat < Config.tssMinLimit then .error (o.fault 10 (some (selErr sel o.ext)))
    else if descKind d = .tss286 then .error (.refused .tss286)
    else
      check o s (tssKey s sel 0 104 false) (descBase d)
      check o s (tssKey s s.tr.sel 32 64 true) (s.tr.base + 32)
      checkIf cause.links (check o s (tssKey s sel 0 2 true) (descBase d))
      checkBusy o s sel
      checkIf (freesOld s cause) (checkBusy o s s.tr.sel)
      .ok d

/-- VM as the new TSS's EFLAGS have it, set once the new task's selectors have been loaded (R29; log entry 17). -/
def enterMode (img : TssImage) (s : State) : State :=
  { s with eflags := setBit s.eflags 17 (img.eflags.getLsbD 17) }

/-- `TaskSwitch(sel, cause)` (R102). `cs` and `eip` are what the old TSS keeps: where the old task goes on. R102 says only
that its registers are saved: after a JMP, a CALL or a return the model keeps the address of the next instruction, after an
interrupt the CS:EIP the event saves (DESIGN CHOICE, log entry 16). The new TSS is read after all stores of the commit, so a
switch to the current task's own TSS loads what it has just saved there, an order R102 does not give (DESIGN CHOICE, log
entry 16). -/
def taskSwitch (o : Origin) (s : State) (sel : Half) (cause : Cause) (cs : Half) (eip : Word) : Res State := do
  let d ← verifyTss o s sel cause
  let s1 := commitTables s sel (descBase d) cause cs eip
  let img := readTss s1 (descBase d)
  let s2 := newContext s1 { segOfDesc sel d with access := descAccess d ||| 2 } img cause
  let s3 ← loadContext (Origin.inTask s2 o.ext) s2 img
  .ok (enterMode img s3)

/-! ### Invoking a handler (R139) -/

/-- EXT of a second exception (R152): 0 while INT 3 or INTO, the software interrupt instructions, is being delivered
(log entry 24), 1 while an external interrupt or any other exception is. -/
def Event.ext (e : Event) : Bool := !(decide (e.cls = .trap) && (decide (e.vector = 3) || decide (e.vector = 4)))

/-- The origin of an exception met while an event is delivered: the same saved CS:EIP (R138). -/
def Origin.ofEvent (s : State) (e : Event) : Origin :=
  { home := s, cs := e.savedCS, eip := e.savedEIP, ext := e.ext, newTask := e.newTask }

/-- The question about a vector's entry in the real-mode vector table or the interrupt descriptor table. -/
def vectorKey (s : State) (seg : AccessSeg) (v : BitVec 8) (n : Nat) : AccessKey :=
  { kind := .systemTable, seg := seg, off := BitVec.ofNat 32 (v.toNat * n), n := n, write := false, cpl := cpl s }

/-- Real-address mode (R139): FLAGS, CS and IP pushed, 16 bits each, IF and TF cleared, CS:IP loaded from the 4-byte entry
at physical address 4 * v (offset, then segment, R46). Before the first intersegment transfer after reset this entry ends
the high address bits of R170 too, because CS takes the base sixteen times its selector (DESIGN CHOICE, log entry 8). -/
def invokeReal (e : Event) (s : State) : Res State := do
  let o := Origin.ofEvent s e
  let s1 ← pushAll o s .o16 [s.eflags, e.savedCS.setWidth 32, e.savedEIP]
  check o s (vectorKey s .ivt e.vector 4) (BitVec.ofNat 32 (4 * e.vector.toNat))
  let ip := loadPhys s1 (4 * e.vector.toNat)
  let sel : Half := BitVec.ofNat 16 (loadPhys s1 (4 * e.vector.toNat + 2))
  .ok (jump { s1.setSeg .cs (segReal sel) with eflags := realEntryFlags s.eflags } (BitVec.ofNat 32 ip))

/-- The error code of an event as it is pushed (R137): 16 bits by a 16-bit handler gate; by a 32-bit one with bits 31:16
free, except the double fault's, which is all zeros. No error code, no push. -/
def pushErr (o : Origin) (s : State) (z : WSize) (e : Event) : Res State :=
  match e.err with
  | none => .ok s
  | some c =>
    match z with
    | .o16 => push o s .o16 (c.setWidth 32)
    | .o32 => push o s.tick .o32 ((if e.vector = 8 then 0#16 else Config.errHigh s.draws) ++ c)

/-- The stack of a more privileged level, from the current TSS (R139, R23: SSn:ESPn at offsets 4 + 8n and 8 + 8n); an SS
selector that names no descriptor raises interrupt 10, or 13 in virtual-8086 mode, where interrupt 10 does not exist (R29,
D25; log entry 14). One question covers the 8 bytes of both (DESIGN CHOICE, log entry 4). With TR null, as after reset, they
are read at TR's base all the same (DESIGN CHOICE, log entry 16). -/
def innerStack (o : Origin) (s : State) (level : BitVec 2) : Res (SegReg × Word) := do
  check o s (tssKey s s.tr.sel (BitVec.ofNat 32 (4 + 8 * level.toNat)) 8 false)
    (s.tr.base + BitVec.ofNat 32 (4 + 8 * level.toNat))
  let esp := tssWord s s.tr.base (4 + 8 * level.toNat)
  let ss := tssSel s s.tr.base (8 + 8 * level.toNat)
  if selNull ss = true ∨ inTable s ss = false then
    .error (o.fault (if mode s = .protMode then 10 else 13) (some (selErr ss o.ext)))
  else
    let d ← readDesc o s ss
    .ok (segOfDesc ss d, esp)

/-- The registers a handler entered from virtual-8086 mode finds pushed and cleared (log entry 15), each selector
zero-extended in a 32-bit push (log entry 41). -/
def leaveV86 (o : Origin) (old s : State) (z : WSize) : Res State :=
  if mode old = .v86Mode then
    match pushAll o s z
        [old.segs.gs.sel.setWidth 32, old.segs.fs.sel.setWidth 32, old.segs.ds.sel.setWidth 32,
         old.segs.es.sel.setWidth 32] with
    | .error e => .error e
    | .ok s' =>
      .ok { s' with segs := { s'.segs with gs := segNull 0, fs := segNull 0, ds := segNull 0, es := segNull 0 } }
  else .ok s

/-- The state with the handler's code segment, its level and its flags in force (R139). -/
def enterSegment (s : State) (g : SegReg) (clearIF : Bool) : State :=
  { s.setSeg .cs g with eflags := entryFlags s.eflags clearIF }

/-- The pushes of EFLAGS, CS, EIP and the error code, then CS:EIP set to the handler's entry (R139). A 32-bit push of CS is
zero-extended, as R101 has it for a far CALL; R24 and R139 do not say (DESIGN CHOICE, log entry 41). -/
def finishEntry (o : Origin) (old s : State) (z : WSize) (e : Event) (entry : Word) : Res State := do
  let s1 ← pushAll o s z [old.eflags, e.savedCS.setWidth 32, e.savedEIP]
  let s2 ← pushErr o s1 z e
  .ok (jump s2 (truncZ z entry))

/-- Entry at the same privilege level. CS takes the gate's selector with the CPL as its RPL field, so that the level stays
(R21); R139 does not speak of the RPL of the gate's selector (DESIGN CHOICE, log entry 13). -/
def enterSame (o : Origin) (s : State) (e : Event) (z : WSize) (clearIF : Bool) (g : SegReg) (entry : Word) :
    Res State :=
  finishEntry o s (enterSegment s { g with sel := withRpl g.sel (cpl s) } clearIF) z e entry

/-- Entry at a more privileged level: the stack of that level, the old SS and ESP pushed first (R139), SS zero-extended in a
32-bit push (log entry 41). The new CS, and with it the new CPL, is in force before the pushes, so `AccessCheck` is asked
about each of them at the new level, and at the old one about the TSS and the descriptor of the new stack: neither R48 nor
R139, which names the load of CS after the pushes, says which CPL it is (DESIGN CHOICE, log entry 4). CS takes the gate's
selector with the new level as its RPL field, which is the CPL (R21); R139 does not speak of the RPL of the
gate's selector (DESIGN CHOICE, log entry 13). -/
def enterInner (o : Origin) (s : State) (e : Event) (z : WSize) (clearIF : Bool) (g : SegReg) (level : BitVec 2)
    (entry : Word) : Res State := do
  let (ss, esp) ← innerStack o s level
  let s1 := ((enterSegment s { g with sel := withRpl g.sel level } clearIF).setSeg .ss ss).setReg .esp esp
  let s2 ← leaveV86 o s s1 z
  let s3 ← pushAll o s2 z [s.segs.ss.sel.setWidth 32, s.reg .esp]
  finishEntry o s s3 z e entry

/-- An interrupt or trap gate (R139): the handler's code segment decides between the same and a more privileged level
(log entry 13 for the checks on it; P5 of 95_test_vectors.md for a segment that is not present). The order of these checks is
the model's, too (DESIGN CHOICE, log entry 13). -/
def enterGate (o : Origin) (s : State) (e : Event) (z : WSize) (clearIF : Bool) (gate : Desc) : Res State :=
  let sel := gateSel gate
  if selNull sel = true ∨ inTable s sel = false then .error (o.fault 13 (some (selErr sel o.ext)))
  else
    match readDesc o s sel with
    | .error x => .error x
    | .ok d =>
      match descKind d with
      | .code conforming _ =>
        if descPresent d = false then .error (o.fault 11 (some (selErr sel o.ext)))
        else if mode s = .v86Mode ∧ (conforming = true ∨ descDpl d ≠ 0) then
          .error (o.fault 13 (some (selErr sel o.ext)))
        else if (cpl s).toNat < (descDpl d).toNat then .error (o.fault 13 (some (selErr sel o.ext)))
        else if conforming = true ∨ descDpl d = cpl s then
          enterSame o s e z clearIF (segOfDesc sel d) (gateOff gate)
        else enterInner o s e z clearIF (segOfDesc sel d) (descDpl d) (gateOff gate)
      | .data .. | .ldt | .tss386 | .tss286 | .taskGate | .callGate | .intGate .. | .trapGate .. | .other =>
        .error (o.fault 13 (some (selErr sel o.ext)))

/-- A task gate (R139): the task switch with cause interrupt, then the error code on the new task's stack; no byte
prefetched before is left (R52, D15). -/
def enterTask (o : Origin) (s : State) (e : Event) (gate : Desc) : Res State := do
  let s1 ← taskSwitch o s (gateSel gate) .interrupt e.savedCS e.savedEIP
  let s2 ← pushErr (Origin.inTask s1 o.ext) s1 .o32 e
  .ok (jump s2 s2.eip)

/-- The entry of a vector in the interrupt descriptor table (R46, R139). -/
def gateAt (s : State) (v : BitVec 8) : Desc :=
  BitVec.ofNat 64 (loadLin s (s.idtr.base + BitVec.ofNat 32 (8 * v.toNat)) 8)

/-- Protected mode (R139): the 8-byte gate at IDTR.base + 8 * v, interrupt 13 beyond IDTR.limit. A vector-10 event taken in
the new task's context must go through a task gate (R134). In virtual-8086 mode a task gate raises interrupt 13, because
task switches exist only in protected mode (R29, D25; log entry 15). The DPL of a gate is not tested against the CPL, not
under INT 3 and INTO either, which the spec does not speak of, and the order of the tests is the model's (DESIGN CHOICE, log
entry 13). -/
def invokeProtected (e : Event) (s : State) : Res State := do
  let o := Origin.ofEvent s e
  if s.idtr.limit.toNat < 8 * e.vector.toNat + 7 then .error (o.fault 13 (some (idtErr e.vector o.ext)))
  else
    check o s (vectorKey s .idt e.vector 8) (s.idtr.base + BitVec.ofNat 32 (8 * e.vector.toNat))
    let gate := gateAt s e.vector
    if e.vector = 10 ∧ e.newTask = true ∧ descKind gate ≠ .taskGate then .error (.refused .handlerNotTask)
    else
      match descKind gate with
      | .taskGate =>
        if mode s = .v86Mode then .error (o.fault 13 (some (idtErr e.vector o.ext)))
        else if descPresent gate then enterTask o s e gate else .error (o.fault 11 (some (idtErr e.vector o.ext)))
      | .intGate z =>
        if descPresent gate then enterGate o s e z true gate else .error (o.fault 11 (some (idtErr e.vector o.ext)))
      | .trapGate z =>
        if descPresent gate then enterGate o s e z false gate else .error (o.fault 11 (some (idtErr e.vector o.ext)))
      | .code .. | .data .. | .ldt | .tss386 | .tss286 | .callGate | .other =>
        .error (o.fault 13 (some (idtErr e.vector o.ext)))

/-- `InvokeHandler` (R139, with the general-knowledge account the rule gives of it; log entries 3 and 15). -/
def invokeHandler (e : Event) (s : State) : Res State :=
  if mode s = .realMode then invokeReal e s else invokeProtected e s

/-! ### Taking an exception (R138) -/

/-- `DFClass` of an identifier (R125). -/
def dfClass (v : BitVec 8) : DFClass :=
  if v = 1 ∨ v = 2 ∨ v = 3 ∨ v = 4 ∨ v = 5 ∨ v = 6 ∨ v = 7 ∨ v = 16 then .benign
  else if v = 0 ∨ v = 9 ∨ v = 10 ∨ v = 11 ∨ v = 12 ∨ v = 13 then .contributory
  else if v = 14 then .pageFault
  else Config.dfClassOther v

/-- The double-fault class of an event: that of its identifier, but `dfClassOther` for an interrupt from INTR, whatever its
vector (R140; log entry 40). -/
def Event.doubleClass (e : Event) : DFClass := if e.intr then Config.dfClassOther e.vector else dfClass e.vector

/-- `Table94(f, s) = DOUBLE` (R126). -/
def isDouble : DFClass → DFClass → Bool
  | .contributory, .contributory => true
  | .pageFault, .contributory => true
  | .pageFault, .pageFault => true
  | .benign, _ => false
  | .contributory, .benign | .contributory, .pageFault => false
  | .pageFault, .benign => false

/-- An abort (R114): its saved CS:EIP are free values. -/
def abortEvent (v : BitVec 8) (err : Option Half) (draws : Nat) : Event :=
  { vector := v, cls := .abort, savedCS := Config.abortCS draws, savedEIP := Config.abortEIP draws, err := err
    faultAddr := none, newTask := false }

/-- Interrupt 8 (R127): an abort whose error code is always zero. -/
def doubleFault (draws : Nat) : Event := abortEvent 8 (some 0) draws

/-- Interrupt 9, coprocessor segment overrun (R129): an abort with no error code. No step raises it, because every ESC
that reaches the coprocessor is refused (R94). -/
def segmentOverrun (draws : Nat) : Event := abortEvent 9 none draws

/-- The number `a` lies among those from `base` up to `base + limit`, modulo 2^32. -/
def inRange (base : Word) (limit a : Nat) : Bool := decide ((BitVec.ofNat 32 a - base).toNat ≤ limit)

/-- The address lies in a TSS that the entry of vector `v` names, when that is a task gate. -/
def inHandlerTss (s : State) (v : BitVec 8) (a : Nat) : Bool :=
  decide (descKind (gateAt s v) = .taskGate) &&
    inRange (descBase (descAt s (gateSel (gateAt s v)))) (descLimit (descAt s (gateSel (gateAt s v)))).toNat a

/-- The address lies in a system table by which vector `v` is delivered (R46): the real-mode vector table; or the interrupt
and global descriptor tables, the LDT and the TSS in force, and the TSS of the handler's task. The number of the physical
cell, `a`, is compared with the tables' linear base and limit. With CR0.PG set the cells so kept need not be those that hold
the tables, whose bytes can then be free, and a cell of the program's can be kept: R114 says nothing of which bytes an abort
leaves (DESIGN CHOICE, log entry 25). -/
def systemByte (s : State) (v : BitVec 8) (a : Nat) : Bool :=
  if mode s = .realMode then decide (a < 1024)
  else
    inRange s.idtr.base s.idtr.limit.toNat a || inRange s.gdtr.base s.gdtr.limit.toNat a
      || (!selNull s.ldtr.sel && inRange s.ldtr.base s.ldtr.limit.toNat a)
      || (!selNull s.tr.sel && inRange s.tr.base s.tr.limit.toNat a) || inHandlerTss s v a

/-- A byte given for any number as address, modulo 2^32 (R41; DESIGN CHOICE, log entry 36). -/
def wrapCell (c : Host.Cell) : Host.Cell := (c.1 % 2 ^ 32, c.2)

/-- The bytes of memory an abort of vector `v` leaves free (R114): any but those of the system tables. -/
def abortCells (s : State) (v : BitVec 8) : List Host.Cell :=
  ((Config.abortCells s.draws).map wrapCell).filter (fun c => !systemByte s v c.1)

/-- A segment register with free contents; its four words are counted from `n`. -/
def abortSeg (draws n : Nat) : SegReg :=
  { sel := (Config.abortWord draws n).setWidth 16, base := Config.abortWord draws (n + 1)
    limit := Config.abortWord draws (n + 2), access := (Config.abortWord draws (n + 3)).setWidth 8
    big := (Config.abortWord draws (n + 3)).getLsbD 8 }

/-- CS after an abort: free but for the CPL, which its RPL field is in protected mode (R21; log entry 25). -/
def abortCode (s : State) : SegReg :=
  let g := abortSeg s.draws 14
  { g with sel := if mode s = .protMode then withRpl g.sel (selRpl s.segs.cs.sel) else g.sel }

/-- The state in which an abort of vector `v` is delivered (R114, U1): what the interrupted program's registers, flags and
memory hold is free, its stack pointer and segments included. Left as they are: the mode and the CPL, the system
registers, and the system tables through which the handler is found (log entry 25). -/
def abortState (v : BitVec 8) (s : State) : State :=
  { s.tick with
    gpr :=
      { eax := Config.abortWord s.draws 0, ecx := Config.abortWord s.draws 1, edx := Config.abortWord s.draws 2
        ebx := Config.abortWord s.draws 3, esp := Config.abortWord s.draws 4, ebp := Config.abortWord s.draws 5
        esi := Config.abortWord s.draws 6, edi := Config.abortWord s.draws 7 }
    eip := Config.abortWord s.draws 8
    eflags := setBit (fixedFlags (Config.abortWord s.draws 9)) 17 s.flagVM
    segs :=
      { es := abortSeg s.draws 10, cs := abortCode s, ss := abortSeg s.draws 18
        ds := abortSeg s.draws 22, fs := abortSeg s.draws 26, gs := abortSeg s.draws 30 }
    mem := s.mem.writeAll (abortCells s v) }

/-- Reporting an event (R138): it is recorded, `delivering` remembers it (R31), and CR2 receives a page fault's linear
address (R135). -/
def report (e : Event) (s : State) : State :=
  { s with
    reported := e :: s.reported
    delivering := some e.vector
    cr2 := e.faultAddr.getD s.cr2 }

/-- `Deliver` and `Second` (R138); the double fault is delivered from the state an abort leaves (R114). The first argument
bounds the chain: by Tables 9-3 and 9-4 a benign event is followed by a contributory exception, then a page fault, then the
double fault, so `deliver` gives it 3 and it is never used up. A second page fault that a double fault replaces is not
reported, so it leaves CR2 as the first event left it; the spec does not say whether CR2 takes its address (DESIGN CHOICE,
log entry 38). -/
def deliverChain : Nat → Event → State → Host.Outcome State Fault Refusal
  | n, e, s =>
    match invokeHandler e (report e s) with
    | .ok s' => .next { s' with delivering := none }
    | .error (.refused r) => .refused r
    | .error (.raised e2 ctx) =>
      if e.vector = 8 then .next { ctx with shutdown := true }
      else
        match n with
        | 0 => .next { ctx with shutdown := true }
        | n + 1 =>
          if isDouble e.doubleClass e2.doubleClass then
            deliverChain n (doubleFault ctx.draws) (abortState 8 ctx)
          else deliverChain n e2 ctx

/-- `Deliver(e)` (R138): the one operation by which every exception and interrupt is taken. -/
def deliver (e : Event) (s : State) : Host.Outcome State Fault Refusal := deliverChain 3 e s

/-- The end of an instruction: its completed state, the delivery of the exception it raised, or its refusal. -/
def complete (r : Res State) : Host.Outcome State Fault Refusal :=
  match r with
  | .ok s => .next s
  | .error (.raised e ctx) => deliver e ctx
  | .error (.refused x) => .refused x

/-- A fault of vector `v` without an error code, raised by the instruction at `s` (R111). -/
def raiseFault (v : BitVec 8) (s : State) : Host.Outcome State Fault Refusal :=
  complete (.error ((Origin.ofInstr s).fault v none))

/-- The event of a trap or of an external interrupt (R112, R140): it saves the CS:EIP of `s`, the next instruction, and has
no error code. -/
def eventAt (v : BitVec 8) (c : EventClass) (s : State) : Event :=
  { vector := v, cls := c, savedCS := s.segs.cs.sel, savedEIP := s.eip, err := none, faultAddr := none
    newTask := false }

/-- RF suppresses a breakpoint for one instruction (R117): it is clear after one that has completed. -/
def clearRF (s : State) : State := { s with eflags := setBit s.eflags 16 false }

/-- A trap of vector `v` reported by an instruction of length `len` that has completed (R112), so with RF clear (R117). -/
def raiseTrap (v : BitVec 8) (len : Nat) (s : State) : Host.Outcome State Fault Refusal :=
  match advance s len with
  | .ok s' => deliver (eventAt v .trap s') (clearRF s')
  | .error e => complete (.error e)

/-! ### Return from a handler (R142) -/

/-- The return of a nested task: a switch to the task the backlink of the current TSS names (R142), which is read at TR's
base also when TR is null (DESIGN CHOICE, log entry 16). The TSS left keeps the address of the next instruction, a value
R142 and R102 do not name (DESIGN CHOICE, log entry 16). -/
def returnToTask (o : Origin) (s : State) (len : Nat) : Res State := do
  let e ← nextEip s len
  check o s (tssKey s s.tr.sel 0 2 false) s.tr.base
  taskSwitch o s (tssSel s s.tr.base 0) .ret s.segs.cs.sel e

/-- CS, ESP and SS after the pops of a return in protected mode: the level of the popped CS selector, and SS:ESP popped
too when it is less privileged (R142). Points on which R142 is silent (DESIGN CHOICE, log entry 27): the load of CS, with its
question of `AccessCheck` and its tests, comes before the pops of ESP and SS; a popped CS selector more privileged than the
CPL is loaded like one of the same level, without ESP and SS, unless `AccessCheck` refuses it, and the level is its RPL; a
16-bit return writes the popped 2 bytes of ESP zero-extended to all of ESP; DS, ES, FS and GS stay as they are. -/
def returnProtected (o : Origin) (s : State) (z : WSize) (sel : Half) (eip flags : Word) : Res State := do
  let g ← loadSegment o s .cs sel
  let s1 := { s with eflags := fixedFlags flags }
  if (cpl s).toNat < (selRpl sel).toNat then
    let (esp, s2) ← pop o s z
    let (ss, _) ← pop o s2 z
    let h ← loadSegment o s .ss (ss.setWidth 16)
    .ok (jump (((s1.setSeg .cs g).setSeg .ss h).setReg .esp esp) eip)
  else .ok (jump (s1.setSeg .cs g) eip)

/-- The pops of EIP, CS and EFLAGS (R142). A 16-bit return leaves bits 31:16 of EFLAGS. -/
def returnSameTask (o : Origin) (s : State) (z : WSize) : Res State := do
  let (eip, s1) ← pop o s z
  let (cs, s2) ← pop o s1 z
  let (fl, s3) ← pop o s2 z
  let flags : Word := match z with | .o16 => s.eflags.extractLsb' 16 16 ++ fl.setWidth 16 | .o32 => fl
  if mode s = .protMode then returnProtected o s3 z (cs.setWidth 16) eip flags
  else .ok (jump { s3.setSeg .cs (segReal (cs.setWidth 16)) with eflags := fixedFlags flags } eip)

/-- `ReturnFromHandler` (R142, its general-knowledge account; log entry 27): the return instruction itself is outside the
opcode table. Refused once an abort has been reported; RESET keeps the record of events, so the refusal outlasts it, on which
the spec is silent (DESIGN CHOICE, log entry 29). NT selects the return to another task; further NMIs are admitted
again (R140). -/
def returnFromHandler (z : WSize) (len : Nat) (s : State) : Host.Outcome State Fault Refusal :=
  if s.reported.any (fun e => decide (e.cls = .abort)) then .refused .returnAfterAbort
  else
    complete
      (match
          (if mode s = .protMode ∧ s.flagNT = true then returnToTask (Origin.ofInstr s) s len
           else returnSameTask (Origin.ofInstr s) s z) with
        | .ok s' => .ok { s' with nmiBlocked := false }
        | .error e => .error e)

end Sys2Proof.Machine
end

