-- ==== Sys2Proof/Machine/Operands.lean ====
section
/-! DEFINITION. Every operand form of the spec: effective addresses in both address sizes with their default segments and
overrides (R57, R58, R59), register and memory operands (R58), relative targets and far pointers (R60). -/

namespace Sys2Proof.Machine

/-- A 16-bit displacement as a 16-bit number: `disp8` is sign-extended (R59). -/
def Disp16.value : Disp16 → Half
  | .none => 0
  | .d8 d => d.signExtend 16
  | .d16 d => d

/-- A 32-bit displacement as a 32-bit number: `disp8` is sign-extended (R58). -/
def Disp32.value : Disp32 → Word
  | .none => 0
  | .d8 d => d.signExtend 32
  | .d32 d => d

/-- The sum of the 16-bit registers of a base, modulo 2^16 (R59). -/
def base16Value (s : State) : Base16 → Half
  | .bxsi => s.reg16 .ebx + s.reg16 .esi
  | .bxdi => s.reg16 .ebx + s.reg16 .edi
  | .bpsi => s.reg16 .ebp + s.reg16 .esi
  | .bpdi => s.reg16 .ebp + s.reg16 .edi
  | .si => s.reg16 .esi
  | .di => s.reg16 .edi
  | .bp => s.reg16 .ebp
  | .bx => s.reg16 .ebx

/-- The scaled index of a SIB byte; no index adds nothing (R58). -/
def indexValue (s : State) (scale : BitVec 2) : Option Reg → Word
  | none => 0
  | some r => s.reg r <<< scale.toNat

/-- The offset of an effective address: sums modulo 2^16 in the 16-bit forms (R59), modulo 2^32 in the 32-bit forms
(R58). -/
def eaOff (s : State) : EA → Word
  | .ea16 b d => (base16Value s b + Disp16.value d).setWidth 32
  | .abs16 d => d.setWidth 32
  | .ea32 r d => s.reg r + Disp32.value d
  | .abs32 d => d
  | .sib sc i b d => s.reg b + indexValue s sc i + Disp32.value d
  | .sibAbs sc i d => indexValue s sc i + d

/-- A 16-bit base in which BP takes part has SS as its default segment (R59). -/
def Base16.usesBP : Base16 → Bool
  | .bpsi | .bpdi | .bp => true
  | .bxsi | .bxdi | .si | .di | .bx => false

/-- The default segment of an effective address: SS when the base is BP, EBP or ESP, else DS (R58, R59). -/
def eaDefaultSeg : EA → SegName
  | .ea16 b _ => if Base16.usesBP b then .ss else .ds
  | .abs16 _ => .ds
  | .ea32 r _ => if r = .ebp then .ss else .ds
  | .abs32 _ => .ds
  | .sib _ _ b _ => if b = .esp ∨ b = .ebp then .ss else .ds
  | .sibAbs _ _ _ => .ds

/-- The segment override among the leading bytes, the last one if there are several (R57; log entry 19). -/
def segOverride : List Pfx → Option SegName
  | [] => none
  | .seg r :: ps => (segOverride ps).orElse (fun _ => some r)
  | .opSize :: ps | .addrSize :: ps | .lock :: ps | .repne :: ps | .rep :: ps => segOverride ps

/-- The segment a memory operand is accessed through (R57, R58, R59). -/
def eaSeg (pre : List Pfx) (m : EA) : SegName := (segOverride pre).getD (eaDefaultSeg m)

/-- Reads `n` bytes of a memory operand, `add` bytes beyond its effective address (R60, R84; log entry 31). -/
def readEA (s : State) (pre : List Pfx) (m : EA) (add n : Nat) : Res Word :=
  memRead (Origin.ofInstr s) s (eaSeg pre m) (eaOff s m + BitVec.ofNat 32 add) n

/-- Reads an 8-bit operand, zero-extended. -/
def readOpnd8 (s : State) (pre : List Pfx) : Opnd Reg8 → Res Word
  | .reg r => .ok ((s.reg8 r).setWidth 32)
  | .mem m => readEA s pre m 0 1

/-- Reads an operand of the operand size, zero-extended. -/
def readOpndZ (s : State) (pre : List Pfx) (z : WSize) : Opnd Reg → Res Word
  | .reg r => .ok (s.regZ z r)
  | .mem m => readEA s pre m 0 z.bytes

/-- A relative displacement sign-extended to 32 bits (R60). -/
def Rel.value : Rel → Word
  | .rel16 d => d.signExtend 32
  | .rel32 d => d

/-- The offset of an immediate far pointer, zero-extended (R60). -/
def FarPtr.off : FarPtr → Word
  | .ptr16 o _ => o.setWidth 32
  | .ptr32 o _ => o

/-- The selector of an immediate far pointer (R60). -/
def FarPtr.sel : FarPtr → Half
  | .ptr16 _ s => s
  | .ptr32 _ s => s

/-- Reads a far pointer from memory: the offset at the effective address, the selector after it (R60). It takes two accesses,
so two questions of `AccessCheck`, the offset first, as R103 has it for LES and its kin; R98 and R101 do not say how JMP
and CALL read theirs, and the model reads it the same way (DESIGN CHOICE, log entry 31). -/
def readFar (s : State) (pre : List Pfx) (z : WSize) (m : EA) : Res (Half × Word) := do
  let off ← readEA s pre m 0 z.bytes
  let sel ← readEA s pre m z.bytes 2
  .ok (sel.setWidth 16, off)

end Sys2Proof.Machine
end

