-- ==== Sys2Proof/Machine/ControlTransfer.lean ====
section
/-! DEFINITION. JMP and CALL, near and far (43_control_transfer.md, R97, R98, R100, R101). -/

namespace Sys2Proof.Machine

/-! ### Near forms -/

/-- The target of a relative transfer: `EIP + len + sext(rel)`, truncated at operand size 16 (R60, R97). -/
def relTarget (next : Word) (z : WSize) (rel : Word) : Word := truncZ z (next + rel)

/-- A relative JMP (R97). -/
def jmpRelative (z : WSize) (rel : Word) (len : Nat) (s : State) : Res State := do
  let n ← nextEip s len
  .ok (jump s (relTarget n z rel))

/-- An indirect JMP (R97): the target is the operand, zero-extended. -/
def jmpIndirect (pre : List Pfx) (z : WSize) (src : Opnd Reg) (s : State) : Res State := do
  let t ← readOpndZ s pre z src
  .ok (jump s t)

/-- CALL after its target is known (R100): the address of the next instruction pushed, then the transfer. -/
def callTo (z : WSize) (next target : Word) (s : State) : Res State := do
  let s1 ← push (Origin.ofInstr s) s z next
  .ok (jump s1 target)

/-- A relative CALL (R100). -/
def callRelative (z : WSize) (rel : Word) (len : Nat) (s : State) : Res State := do
  let n ← nextEip s len
  callTo z n (relTarget n z rel) s

/-- An indirect CALL (R100): the operand is read before the push. -/
def callIndirect (pre : List Pfx) (z : WSize) (src : Opnd Reg) (len : Nat) (s : State) : Res State := do
  let t ← readOpndZ s pre z src
  let n ← nextEip s len
  callTo z n t s

/-- JMP rel8 (R97). -/
def execJmpRel8 (pre : List Pfx) (z : WSize) (rel : Byte) (s : State) : Host.Outcome State Fault Refusal :=
  complete (jmpRelative z (rel.signExtend 32) (Instr.len (.jmpRel8 pre z rel)) s)

/-- JMP rel16, JMP rel32 (R97). -/
def execJmpRel (pre : List Pfx) (rel : Rel) (s : State) : Host.Outcome State Fault Refusal :=
  complete (jmpRelative rel.wsize (Rel.value rel) (Instr.len (.jmpRel pre rel)) s)

/-- JMP r/m16, JMP r/m32 (R97). -/
def execJmpRm (pre : List Pfx) (z : WSize) (src : Opnd Reg) (s : State) : Host.Outcome State Fault Refusal :=
  complete (jmpIndirect pre z src s)

/-- CALL rel16, CALL rel32 (R100). -/
def execCallRel (pre : List Pfx) (rel : Rel) (s : State) : Host.Outcome State Fault Refusal :=
  complete (callRelative rel.wsize (Rel.value rel) (Instr.len (.callRel pre rel)) s)

/-- CALL r/m16, CALL r/m32 (R100). -/
def execCallRm (pre : List Pfx) (z : WSize) (src : Opnd Reg) (s : State) : Host.Outcome State Fault Refusal :=
  complete (callIndirect pre z src (Instr.len (.callRm pre z src)) s)

/-! ### Far forms -/

/-- A far JMP (R98): a task switch when the selector names a TSS or a task gate, otherwise the transfer; a call gate and
a change of level are refused (D28). A task switched from keeps the address of the next instruction, which R102 does not
name (DESIGN CHOICE, log entry 16). -/
def jmpFarTo (len : Nat) (s : State) (ptr : Half × Word) : Res State := do
  let o := Origin.ofInstr s
  let t ← farTarget o s ptr.1
  match t with
  | .task tss => do
    let n ← nextEip s len
    taskSwitch o s tss .jmp s.segs.cs.sel n
  | .gate => .error (.refused .callGate)
  | .segment => farJump o s ptr.1 ptr.2

/-- A far CALL (R101): as a far JMP, with CS and the address of the next instruction pushed before an ordinary transfer;
a task switched from keeps that address too, which R102 does not name (DESIGN CHOICE, log entry 16). -/
def callFarTo (z : WSize) (len : Nat) (s : State) (ptr : Half × Word) : Res State := do
  let o := Origin.ofInstr s
  let t ← farTarget o s ptr.1
  let n ← nextEip s len
  match t with
  | .task tss => taskSwitch o s tss .call s.segs.cs.sel n
  | .gate => .error (.refused .callGate)
  | .segment => do
    let s1 ← push o s z (s.segs.cs.sel.setWidth 32)
    let s2 ← push o s1 z n
    farJump o s2 ptr.1 ptr.2

/-- JMP ptr16:16, JMP ptr16:32 (R98). -/
def execJmpFar (pre : List Pfx) (ptr : FarPtr) (s : State) : Host.Outcome State Fault Refusal :=
  complete (jmpFarTo (Instr.len (.jmpFar pre ptr)) s (FarPtr.sel ptr, FarPtr.off ptr))

/-- JMP m16:16, JMP m16:32 (R98). -/
def execJmpFarM (pre : List Pfx) (z : WSize) (m : EA) (s : State) : Host.Outcome State Fault Refusal :=
  complete (readFar s pre z m >>= jmpFarTo (Instr.len (.jmpFarM pre z m)) s)

/-- CALL ptr16:16, CALL ptr16:32 (R101). -/
def execCallFar (pre : List Pfx) (ptr : FarPtr) (s : State) : Host.Outcome State Fault Refusal :=
  complete (callFarTo ptr.wsize (Instr.len (.callFar pre ptr)) s (FarPtr.sel ptr, FarPtr.off ptr))

/-- CALL m16:16, CALL m16:32 (R101). -/
def execCallFarM (pre : List Pfx) (z : WSize) (m : EA) (s : State) : Host.Outcome State Fault Refusal :=
  complete (readFar s pre z m >>= callFarTo z (Instr.len (.callFarM pre z m)) s)

end Sys2Proof.Machine
end

