-- ==== Sys2Proof/Machine/Coprocessor.lean ====
section
/-! DEFINITION. ESC and WAIT (42_coprocessor_escape.md, R90, R92, R93). -/

namespace Sys2Proof.Machine

/-- The second condition of interrupt 7: MP and TS both set (R90, R92). -/
def State.monitorSwitched (s : State) : Bool := s.cr0MP && s.cr0TS

/-- ESC (R90): interrupt 7 when EM is set, or MP and TS are; with TS alone the spec refuses (C5), and otherwise the
instruction goes to the coprocessor, which is not modelled (D23). -/
def escape (s : State) : Res State :=
  if s.cr0EM || s.monitorSwitched then .error ((Origin.ofInstr s).fault 7 none)
  else if s.cr0TS then .error (.refused .escTaskSwitched)
  else .error (.refused .coprocessorInstruction)

/-- ESC, any coprocessor instruction (R90). Its operand is not accessed before the tests. -/
def execEsc (_pre : List Pfx) (_low _ext : BitVec 3) (_src : Opnd Reg) (s : State) :
    Host.Outcome State Fault Refusal :=
  complete (escape s)

/-- WAIT is held: no interrupt 7, no coprocessor error, and the coprocessor busy (R92; log entry 21). -/
def waitHeld (s : State) : Bool := !s.monitorSwitched && !s.pins.npxError && s.pins.npxBusy

/-- WAIT (R92): interrupt 7 when MP and TS are both set; refused on a coprocessor error (D22); held, the state unchanged,
while the coprocessor is busy; otherwise only EIP advances. -/
def waitFor (len : Nat) (s : State) : Res State :=
  if s.monitorSwitched then .error ((Origin.ofInstr s).fault 7 none)
  else if s.pins.npxError then .error (.refused .coprocessorError)
  else if s.pins.npxBusy then .ok s
  else advance s len

/-- WAIT (R92). -/
def execWait (pre : List Pfx) (s : State) : Host.Outcome State Fault Refusal :=
  complete (waitFor (Instr.len (.wait pre)) s)

end Sys2Proof.Machine
end

