-- ==== Sys2Proof/Machine/Divide.lean ====
section
/-! DEFINITION. DIV and IDIV (40_divide.md, R75 to R77). -/

namespace Sys2Proof.Machine

/-- Whether the values of a division are read unsigned (DIV) or as two's complement (IDIV). -/
inductive Signedness where
  | unsigned | signed
  deriving DecidableEq, Repr

/-- The operand sizes of a division: 8 bits, or the operand size. -/
inductive DivSize where
  | d8 | dz (z : WSize)
  deriving DecidableEq, Repr

/-- The operand size in bits. -/
def DivSize.bits : DivSize → Nat
  | .d8 => 8 | .dz .o16 => 16 | .dz .o32 => 32

/-- The dividend of R77: AX, DX ++ AX or EDX ++ EAX. -/
def dividend (s : State) (sg : Signedness) : DivSize → Int
  | .d8 => (match sg with | .unsigned => ((s.reg16 .eax).toNat : Int) | .signed => (s.reg16 .eax).toInt)
  | .dz .o16 =>
    (match sg with
      | .unsigned => ((s.reg16 .edx ++ s.reg16 .eax).toNat : Int)
      | .signed => (s.reg16 .edx ++ s.reg16 .eax).toInt)
  | .dz .o32 =>
    (match sg with
      | .unsigned => ((s.reg .edx ++ s.reg .eax).toNat : Int)
      | .signed => (s.reg .edx ++ s.reg .eax).toInt)

/-- The divisor, an operand read zero-extended, as a number (R75, R76). -/
def divisor (sg : Signedness) (sz : DivSize) (d : Word) : Int :=
  match sg with
  | .unsigned => (d.toNat : Int)
  | .signed => (d.setWidth sz.bits).toInt

/-- The quotient fits the destination (R77): 2^n - 1 is the largest unsigned one, -2^(n-1) to 2^(n-1) - 1 the signed ones. -/
def quotientFits (sg : Signedness) (n : Nat) (q : Int) : Bool :=
  match sg with
  | .unsigned => decide (q ≤ 2 ^ n - 1)
  | .signed => decide (q ≤ 2 ^ (n - 1) - 1) && decide (-2 ^ (n - 1) ≤ q)

/-- Quotient and remainder written to AL and AH, AX and DX, or EAX and EDX (R77). -/
def writeQuotient (s : State) (sz : DivSize) (q r : Int) : State :=
  match sz with
  | .d8 => s.setReg16 .eax (BitVec.ofInt 8 r ++ BitVec.ofInt 8 q)
  | .dz .o16 => (s.setReg16 .eax (BitVec.ofInt 16 q)).setReg16 .edx (BitVec.ofInt 16 r)
  | .dz .o32 => (s.setReg .eax (BitVec.ofInt 32 q)).setReg .edx (BitVec.ofInt 32 r)

/-- The state after a completed division but for EIP: quotient truncated toward zero, remainder with the sign of the
dividend, the six status flags free (R77). -/
def divided (s : State) (sg : Signedness) (sz : DivSize) (d : Word) : State :=
  let n := dividend s sg sz
  let v := divisor sg sz d
  { (writeQuotient s sz (n.tdiv v) (n.tmod v)).tick with eflags := withStatus s.eflags (Config.divFlags s.draws) }

/-- The divide error of R75 to R77: a zero divisor, or a quotient that does not fit. -/
def divideError (s : State) (sg : Signedness) (sz : DivSize) (d : Word) : Bool :=
  decide (divisor sg sz d = 0) || !quotientFits sg sz.bits ((dividend s sg sz).tdiv (divisor sg sz d))

/-- DIV and IDIV after the divisor operand has been read (R75, R76, R77): interrupt 0, or the division. -/
def divide (s : State) (sg : Signedness) (sz : DivSize) (len : Nat) (d : Word) : Res State :=
  if divideError s sg sz d then .error ((Origin.ofInstr s).fault 0 none)
  else advance (divided s sg sz d) len

/-- DIV r/m8 (R75). -/
def execDivRm8 (pre : List Pfx) (src : Opnd Reg8) (s : State) : Host.Outcome State Fault Refusal :=
  complete (readOpnd8 s pre src >>= divide s .unsigned .d8 (Instr.len (.divRm8 pre src)))

/-- DIV r/m16, DIV r/m32 (R75). -/
def execDivRm (pre : List Pfx) (z : WSize) (src : Opnd Reg) (s : State) : Host.Outcome State Fault Refusal :=
  complete (readOpndZ s pre z src >>= divide s .unsigned (.dz z) (Instr.len (.divRm pre z src)))

/-- IDIV r/m8 (R76). -/
def execIdivRm8 (pre : List Pfx) (src : Opnd Reg8) (s : State) : Host.Outcome State Fault Refusal :=
  complete (readOpnd8 s pre src >>= divide s .signed .d8 (Instr.len (.idivRm8 pre src)))

/-- IDIV r/m16, IDIV r/m32 (R76). -/
def execIdivRm (pre : List Pfx) (z : WSize) (src : Opnd Reg) (s : State) : Host.Outcome State Fault Refusal :=
  complete (readOpndZ s pre z src >>= divide s .signed (.dz z) (Instr.len (.idivRm pre z src)))

end Sys2Proof.Machine
end

