-- ==== Sys2Proof/Machine/FarLoad.lean ====
section
/-! DEFINITION. LES, LDS, LSS, LFS and LGS (43_control_transfer.md, R103). -/

namespace Sys2Proof.Machine

/-- The load of a far pointer into segment register `r` and a general register (R103): both reads use the effective
address computed before any write. -/
def loadFar (r : SegName) (pre : List Pfx) (z : WSize) (dst : Reg) (m : EA) (len : Nat) (s : State) : Res State := do
  let ptr ← readFar s pre z m
  let g ← loadSegment (Origin.ofInstr s) s r ptr.1
  advance ((s.setSeg r g).setRegZ z dst ptr.2) len

/-- LES (R103). -/
def execLes (pre : List Pfx) (z : WSize) (dst : Reg) (m : EA) (s : State) : Host.Outcome State Fault Refusal :=
  complete (loadFar .es pre z dst m (Instr.len (.les pre z dst m)) s)

/-- LDS (R103). -/
def execLds (pre : List Pfx) (z : WSize) (dst : Reg) (m : EA) (s : State) : Host.Outcome State Fault Refusal :=
  complete (loadFar .ds pre z dst m (Instr.len (.lds pre z dst m)) s)

/-- LSS (R103). -/
def execLss (pre : List Pfx) (z : WSize) (dst : Reg) (m : EA) (s : State) : Host.Outcome State Fault Refusal :=
  complete (loadFar .ss pre z dst m (Instr.len (.lss pre z dst m)) s)

/-- LFS (R103). -/
def execLfs (pre : List Pfx) (z : WSize) (dst : Reg) (m : EA) (s : State) : Host.Outcome State Fault Refusal :=
  complete (loadFar .fs pre z dst m (Instr.len (.lfs pre z dst m)) s)

/-- LGS (R103). -/
def execLgs (pre : List Pfx) (z : WSize) (dst : Reg) (m : EA) (s : State) : Host.Outcome State Fault Refusal :=
  complete (loadFar .gs pre z dst m (Instr.len (.lgs pre z dst m)) s)

end Sys2Proof.Machine
end

