-- ==== Sys2Proof/Machine/Invalid.lean ====
section
/-! DEFINITION. The invalid operand forms of R64: each raises interrupt 6 when it is executed, a fault without an error
code that saves the CS:EIP of the instruction (R63, R122). -/

namespace Sys2Proof.Machine

/-- Interrupt 6, invalid opcode (R122). -/
def invalidOpcode (s : State) : Host.Outcome State Fault Refusal := raiseFault 6 s

/-- Invalid: JMP far with a register operand (R64). -/
def execInvJmpFarReg (_pre : List Pfx) (_rm : Reg) (s : State) : Host.Outcome State Fault Refusal :=
  invalidOpcode s

/-- Invalid: LES with a register source (R64). -/
def execInvLesReg (_pre : List Pfx) (_dst _rm : Reg) (s : State) : Host.Outcome State Fault Refusal :=
  invalidOpcode s

/-- Invalid: CALL far with a register operand (R64). -/
def execInvCallFarReg (_pre : List Pfx) (_rm : Reg) (s : State) : Host.Outcome State Fault Refusal :=
  invalidOpcode s

/-- Invalid: LDS with a register source (R64). -/
def execInvLdsReg (_pre : List Pfx) (_dst _rm : Reg) (s : State) : Host.Outcome State Fault Refusal :=
  invalidOpcode s

/-- Invalid: LSS with a register source (R64). -/
def execInvLssReg (_pre : List Pfx) (_dst _rm : Reg) (s : State) : Host.Outcome State Fault Refusal :=
  invalidOpcode s

/-- Invalid: LFS with a register source (R64). -/
def execInvLfsReg (_pre : List Pfx) (_dst _rm : Reg) (s : State) : Host.Outcome State Fault Refusal :=
  invalidOpcode s

/-- Invalid: LGS with a register source (R64). -/
def execInvLgsReg (_pre : List Pfx) (_dst _rm : Reg) (s : State) : Host.Outcome State Fault Refusal :=
  invalidOpcode s

/-- Invalid: BOUND with a register second operand (R64). -/
def execInvBoundReg (_pre : List Pfx) (_dst _rm : Reg) (s : State) : Host.Outcome State Fault Refusal :=
  invalidOpcode s

/-- Invalid: FF /7, no instruction (R64). -/
def execInvFf7 (_pre : List Pfx) (_src : Opnd Reg) (s : State) : Host.Outcome State Fault Refusal :=
  invalidOpcode s

end Sys2Proof.Machine
end

