-- ==== Sys2Proof/Machine/SoftwareTraps.lean ====
section
/-! DEFINITION. INT 3, INTO and BOUND (41_software_traps.md, R80, R82, R84). -/

namespace Sys2Proof.Machine

/-- INT 3 (R80): the breakpoint trap, unconditionally; the saved CS:EIP point to the byte after it. -/
def execInt3 (pre : List Pfx) (s : State) : Host.Outcome State Fault Refusal :=
  raiseTrap 3 (Instr.len (.int3 pre)) s

/-- INTO (R82): the overflow trap when OF is set, otherwise only EIP advances. -/
def execInto (pre : List Pfx) (s : State) : Host.Outcome State Fault Refusal :=
  if s.flagOF then raiseTrap 4 (Instr.len (.into pre)) s else complete (advance s (Instr.len (.into pre)))

/-- A value of the operand size read as two's complement (R84). -/
def signedZ (z : WSize) (v : Word) : Int :=
  match z with
  | .o16 => (v.setWidth 16).toInt
  | .o32 => v.toInt

/-- The index lies outside the limits, both inclusive, compared as signed numbers (R84, R85). -/
def outOfBounds (z : WSize) (idx lower upper : Word) : Bool :=
  decide (signedZ z idx < signedZ z lower) || decide (signedZ z upper < signedZ z idx)

/-- BOUND (R84): the two limits, lower first, then interrupt 5 or the next instruction. -/
def boundCheck (pre : List Pfx) (z : WSize) (idx : Reg) (m : EA) (len : Nat) (s : State) : Res State := do
  let lower ← readEA s pre m 0 z.bytes
  let upper ← readEA s pre m z.bytes z.bytes
  if outOfBounds z (s.regZ z idx) lower upper then .error ((Origin.ofInstr s).fault 5 none) else advance s len

/-- BOUND r16, m16&16 and BOUND r32, m32&32 (R84). -/
def execBound (pre : List Pfx) (z : WSize) (idx : Reg) (m : EA) (s : State) : Host.Outcome State Fault Refusal :=
  complete (boundCheck pre z idx m (Instr.len (.bound pre z idx m)) s)

end Sys2Proof.Machine
end

