-- ==== Sys2Proof/Machine/Dispatch.lean ====
section
/-! DEFINITION. One arm for each constructor of `Instr`, each one direct call of its meaning. -/

namespace Sys2Proof.Machine

def exec (i : Instr) (s : State) : Host.Outcome State Fault Refusal :=
  match i with
  | .divRm8 pre src => Sys2Proof.Machine.execDivRm8 pre src s
  | .divRm pre z src => Sys2Proof.Machine.execDivRm pre z src s
  | .idivRm8 pre src => Sys2Proof.Machine.execIdivRm8 pre src s
  | .idivRm pre z src => Sys2Proof.Machine.execIdivRm pre z src s
  | .int3 pre => Sys2Proof.Machine.execInt3 pre s
  | .into pre => Sys2Proof.Machine.execInto pre s
  | .bound pre z idx m => Sys2Proof.Machine.execBound pre z idx m s
  | .esc pre low ext src => Sys2Proof.Machine.execEsc pre low ext src s
  | .wait pre => Sys2Proof.Machine.execWait pre s
  | .jmpRel8 pre z rel => Sys2Proof.Machine.execJmpRel8 pre z rel s
  | .jmpRel pre rel => Sys2Proof.Machine.execJmpRel pre rel s
  | .jmpRm pre z src => Sys2Proof.Machine.execJmpRm pre z src s
  | .jmpFar pre ptr => Sys2Proof.Machine.execJmpFar pre ptr s
  | .jmpFarM pre z m => Sys2Proof.Machine.execJmpFarM pre z m s
  | .callRel pre rel => Sys2Proof.Machine.execCallRel pre rel s
  | .callRm pre z src => Sys2Proof.Machine.execCallRm pre z src s
  | .callFar pre ptr => Sys2Proof.Machine.execCallFar pre ptr s
  | .callFarM pre z m => Sys2Proof.Machine.execCallFarM pre z m s
  | .les pre z dst m => Sys2Proof.Machine.execLes pre z dst m s
  | .lds pre z dst m => Sys2Proof.Machine.execLds pre z dst m s
  | .lss pre z dst m => Sys2Proof.Machine.execLss pre z dst m s
  | .lfs pre z dst m => Sys2Proof.Machine.execLfs pre z dst m s
  | .lgs pre z dst m => Sys2Proof.Machine.execLgs pre z dst m s
  | .invJmpFarReg pre rm => Sys2Proof.Machine.execInvJmpFarReg pre rm s
  | .invLesReg pre dst rm => Sys2Proof.Machine.execInvLesReg pre dst rm s
  | .invCallFarReg pre rm => Sys2Proof.Machine.execInvCallFarReg pre rm s
  | .invLdsReg pre dst rm => Sys2Proof.Machine.execInvLdsReg pre dst rm s
  | .invLssReg pre dst rm => Sys2Proof.Machine.execInvLssReg pre dst rm s
  | .invLfsReg pre dst rm => Sys2Proof.Machine.execInvLfsReg pre dst rm s
  | .invLgsReg pre dst rm => Sys2Proof.Machine.execInvLgsReg pre dst rm s
  | .invBoundReg pre dst rm => Sys2Proof.Machine.execInvBoundReg pre dst rm s
  | .invFf7 pre src => Sys2Proof.Machine.execInvFf7 pre src s

end Sys2Proof.Machine
end

