-- ==== Sys2Proof/Machine/Debug.lean ====
section
/-! DEFINITION. The debug exceptions (R17, R18, R116 to R118): the five conditions, each an input of `pins.debug` or armed
by the mechanism R117 gives for it, and their report as interrupt 1 with DR6 set. -/

namespace Sys2Proof.Machine

/-- The input predicates for the next instruction; all false when the queue is empty (log entry 5). -/
def debugInput (s : State) : DebugCond := (s.pins.debug).head?.getD DebugCond.none

/-- The breakpoint address DR0 to DR3 (R18). -/
def DebugRegs.addr (d : DebugRegs) : Nat → Word
  | 0 => d.dr0 | 1 => d.dr1 | 2 => d.dr2 | _ => d.dr3

/-- Breakpoint `n` is enabled, locally or globally (R18: Ln bit 2n, Gn bit 2n + 1 of DR7). -/
def DebugRegs.enabled (d : DebugRegs) (n : Nat) : Bool := d.dr7.getLsbD (2 * n) || d.dr7.getLsbD (2 * n + 1)

/-- RWn, bits 17+4n:16+4n of DR7 (R18). -/
def DebugRegs.rw (d : DebugRegs) (n : Nat) : BitVec 2 := d.dr7.extractLsb' (16 + 4 * n) 2

/-- The bytes breakpoint `n` covers, from LENn, bits 19+4n:18+4n of DR7 (R18), for a data breakpoint; the undefined code 10
covers none (log entry 5). -/
def DebugRegs.len (d : DebugRegs) (n : Nat) : Nat :=
  let l : BitVec 2 := d.dr7.extractLsb' (18 + 4 * n) 2
  if l = 0 then 1 else if l = 1 then 2 else if l = 3 then 4 else 0

/-- The mask of the breakpoints 0 to 3 for which `f` holds, bit n for breakpoint n (R18: B0 to B3). -/
def bpMask (f : Nat → Bool) : BitVec 4 :=
  (if f 0 then 1 else 0) ||| (if f 1 then 2 else 0) ||| (if f 2 then 4 else 0) ||| (if f 3 then 8 else 0)

/-- A data access of an instruction: linear address, bytes, write. -/
structure DataAccess where
  lin : Word
  n : Nat
  write : Bool
  deriving DecidableEq, Repr

/-- A read of `n` bytes of a memory operand. -/
def eaAccess (s : State) (pre : List Pfx) (m : EA) (add n : Nat) : DataAccess :=
  { lin := s.lin (eaSeg pre m) (eaOff s m + BitVec.ofNat 32 add), n := n, write := false }

/-- The read of an operand, if it is in memory. -/
def opndAccess {ρ : Type} (s : State) (pre : List Pfx) (n : Nat) : Opnd ρ → List DataAccess
  | .reg _ => []
  | .mem m => [eaAccess s pre m 0 n]

/-- The reads of a far pointer in memory. -/
def farAccess (s : State) (pre : List Pfx) (z : WSize) (m : EA) : List DataAccess :=
  [eaAccess s pre m 0 z.bytes, eaAccess s pre m z.bytes 2]

/-- The `k`-th push of an instruction, counted from 1. -/
def pushAccess (s : State) (z : WSize) (k : Nat) : DataAccess :=
  { lin := s.lin .ss (s.reg .esp - BitVec.ofNat 32 (k * z.bytes)), n := z.bytes, write := true }

/-- The pushes of a far CALL: two when its selector names an ordinary segment, none when it switches tasks (R101). -/
def farPushes (s : State) (z : WSize) (sel : Half) : List DataAccess :=
  match farTarget (Origin.ofInstr s) s sel with
  | .ok .segment => [pushAccess s z 1, pushAccess s z 2]
  | .ok (.task _) | .ok .gate | .error _ => []

/-- The data accesses of an instruction (R45) that a data breakpoint watches: its memory operand and its pushes. Accesses to
descriptor tables and TSSs and the pushes of an exception's entry are not watched, on which the spec is silent (DESIGN
CHOICE, log entry 5). -/
def dataAccesses (s : State) : Instr → List DataAccess
  | .divRm8 p o | .idivRm8 p o => opndAccess s p 1 o
  | .divRm p z o | .idivRm p z o | .jmpRm p z o => opndAccess s p z.bytes o
  | .bound p z _ m => [eaAccess s p m 0 z.bytes, eaAccess s p m z.bytes z.bytes]
  | .jmpFarM p z m => farAccess s p z m
  | .les p z _ m | .lds p z _ m | .lss p z _ m | .lfs p z _ m | .lgs p z _ m => farAccess s p z m
  | .callRel _ r => [pushAccess s r.wsize 1]
  | .callRm p z o => opndAccess s p z.bytes o ++ [pushAccess s z 1]
  | .callFar _ f => farPushes s f.wsize (FarPtr.sel f)
  | .callFarM p z m =>
    farAccess s p z m ++ (match readFar s p z m with | .ok ptr => farPushes s z ptr.1 | .error _ => [])
  | .int3 _ | .into _ | .esc .. | .wait _ | .jmpRel8 .. | .jmpRel .. | .jmpFar .. => []
  | .invJmpFarReg .. | .invLesReg .. | .invCallFarReg .. | .invLdsReg .. | .invLssReg .. => []
  | .invLfsReg .. | .invLgsReg .. | .invBoundReg .. | .invFf7 .. => []

/-- Breakpoint `n` covers a byte of the access and watches its kind: RWn 01 writes, 11 reads and writes (R18, R117).
It covers the bytes from its address upward; of an address that is no multiple of the length the spec does not speak, and
the model takes it as it is (DESIGN CHOICE, log entry 5). Past FFFFFFFFh both the access and what the breakpoint covers go on
at 0 (DESIGN CHOICE, log entry 42). -/
def dataHit (d : DebugRegs) (a : DataAccess) (n : Nat) : Bool :=
  d.enabled n && ((decide (d.rw n = 1) && a.write) || decide (d.rw n = 3)) && decide (0 < d.len n)
    && (decide ((a.lin - d.addr n).toNat < d.len n) || decide ((d.addr n - a.lin).toNat < a.n))

/-- The data breakpoints an instruction hits. -/
def dataHits (s : State) (i : Instr) : BitVec 4 :=
  bpMask (fun n => (dataAccesses s i).any (fun a => dataHit s.dr a n))

/-- The instruction breakpoints at CS:EIP: RWn 00, enabled, at its linear address; suppressed by RF (R117). LENn is not
read: R117 names the address alone, so a breakpoint with the undefined code 10 hits too (DESIGN CHOICE, log entry 5). -/
def instrHits (s : State) : BitVec 4 :=
  if s.flagRF then 0
  else bpMask (fun n => s.dr.enabled n && decide (s.dr.rw n = 0) && decide (s.dr.addr n = s.lin .cs s.eip))

/-- The state an instruction begins in: its debug answer taken from the queue, a new draw, no task switch yet. -/
def beginInstr (s : State) : State :=
  { s.tick with pins := { s.pins with debug := (s.pins.debug).tail }, switched := none }

/-- The fault conditions before the instruction at CS:EIP (R117, R118). No instruction of the opcode table accesses a debug
register, so general detect holds by its input alone. -/
def faultConds (s : State) : DebugCond :=
  { DebugCond.none with
    instrBp := (debugInput s).instrBp ||| instrHits s, generalDetect := (debugInput s).generalDetect }

/-- The trap conditions after an instruction that began at `s` and completed at `t` (R117, R118): data breakpoint, single
step (TF at the start), task-switch breakpoint (the T bit of the new TSS). The accesses are those of the state the
instruction begins in, so that a far pointer in memory is the one it reads. -/
def trapConds (s : State) (i : Instr) (t : State) : DebugCond :=
  { DebugCond.none with
    dataBp := (debugInput s).dataBp ||| dataHits (beginInstr s) i
    singleStep := (debugInput s).singleStep || s.flagTF
    taskSwitchBp := (debugInput s).taskSwitchBp || t.switched == some true }

/-- The conditions of either set. -/
def DebugCond.union (a b : DebugCond) : DebugCond :=
  { instrBp := a.instrBp ||| b.instrBp
    dataBp := a.dataBp ||| b.dataBp
    generalDetect := a.generalDetect || b.generalDetect
    singleStep := a.singleStep || b.singleStep
    taskSwitchBp := a.taskSwitchBp || b.taskSwitchBp }

/-- The trap condition that a switch to a task whose T bit is set leaves (R117): of several switches in one step, the last
(DESIGN CHOICE, log entry 22). -/
def switchTrap (s : State) : DebugCond := { DebugCond.none with taskSwitchBp := s.switched == some true }

/-- Some condition holds. -/
def DebugCond.any (c : DebugCond) : Bool :=
  decide (c.instrBp ≠ 0) || decide (c.dataBp ≠ 0) || c.generalDetect || c.singleStep || c.taskSwitchBp

/-- The bits of DR6 a set of conditions sets: B0 to B3, BD 13, BS 14, BT 15 (R18). -/
def dr6Bits (c : DebugCond) : Word :=
  (c.instrBp ||| c.dataBp).setWidth 32 ||| (if c.generalDetect then 1#32 <<< 13 else 0)
    ||| (if c.singleStep then 1#32 <<< 14 else 0) ||| (if c.taskSwitchBp then 1#32 <<< 15 else 0)

/-- DR6 after a report: the processor sets bits in it and never clears them (R18). -/
def noteDebug (c : DebugCond) (s : State) : State :=
  { s with dr := { s.dr with dr6 := s.dr.dr6 ||| dr6Bits c } }

/-- One interrupt 1 with the set of conditions that hold (R118), without an error code (R116). -/
def reportDebug (cls : EventClass) (c : DebugCond) (s : State) : Host.Outcome State Fault Refusal :=
  deliver (eventAt 1 cls (noteDebug c s)) (noteDebug c s)

end Sys2Proof.Machine
end

