-- ==== Sys2Proof/Machine/Fetch.lean ====
section
/-! DEFINITION. Fetching an instruction: bytes in address order from CS:EIP (R43, R45), `AccessCheck` for each (R48), the
stale prefetch of R52, and the decoder's answer turned into an instruction, an exception or a refusal. -/

namespace Sys2Proof.Machine

/-- The old values a fetch at a linear address may show: those before each store to the byte since the last control
transfer by an instruction less than `PrefetchDepth` bytes before it (R52, D15). The distance is one of linear addresses,
counted modulo 2^32: R52 gives no rule for a code segment that passes FFFFFFFFh (DESIGN CHOICE, log entry 42). -/
def staleBytes (s : State) (lin : Word) : List Byte :=
  (s.stored.filter (fun e =>
    decide (e.addr = phys s lin) && decide ((lin - e.writer).toNat < Config.prefetchDepth))).map StoredByte.old

/-- The byte a fetch at an offset of the code segment returns: the byte a load sees (R49), or, where the byte may have been
prefetched before it was stored to, that or one of the old bytes, a free choice (R52, D15). Its linear address is counted
modulo 2^32 (`State.lin`; DESIGN CHOICE, log entry 42). -/
def fetchByte (s : State) (off : Word) : Byte :=
  let lin := s.lin .cs off
  (staleBytes s lin).getD (Config.prefetchStale s.draws (phys s lin)) (seenAt s (lin, 1) (phys s lin))

/-- The question one fetched byte asks of `AccessCheck` (R45, R48). -/
def fetchKey (s : State) (off : Word) : AccessKey :=
  { kind := .fetch, seg := .sreg .cs, off := off, n := 1, write := false, cpl := cpl s }

/-- Up to `n` bytes from an offset upward, and what ends them early: a refused access, or offset FFFFFFFFh (D3). -/
def fetchWindow (s : State) : Nat → Word → List Byte × Option Stop
  | 0, _ => ([], none)
  | n + 1, off =>
    match check (Origin.ofInstr s) s (fetchKey s off) (s.lin .cs off) with
    | .error e => ([], some e)
    | .ok _ =>
      if off = 0xFFFFFFFF then ([fetchByte s off], some (.refused .eipOverflow))
      else (fetchByte s off :: (fetchWindow s n (off + 1)).1, (fetchWindow s n (off + 1)).2)

/-- The bytes an instruction at CS:EIP may have: at most 15 (R57). -/
def window (s : State) : List Byte × Option Stop := fetchWindow s Config.maxLength s.eip

/-- What decoding the bytes of a window comes to: an instruction; the refusal of an unlisted encoding (R65); or, when the
instruction does not end within the window, what ended the window, or interrupt 13 for an instruction longer than 15
bytes (R57; log entry 32). These come before any exception of the instruction itself, which is raised once all of its bytes
have been fetched: before the interrupt 6 of FF /7 and the interrupt 7 of an ESC whose SIB or displacement bytes are refused
or pass 15 bytes, an order the spec does not give (DESIGN CHOICE, log entry 32). -/
def decodeWindow (s : State) (w : List Byte × Option Stop) : Res Instr :=
  match decode (codeBig s) w.1 with
  | .ok i _ => .ok i
  | .unlisted => .error (.refused .unlistedEncoding)
  | .short =>
    match w.2 with
    | some e => .error e
    | none => .error ((Origin.ofInstr s).fault 13 (some 0))

/-- The instruction at CS:EIP. -/
def fetchInstr (s : State) : Res Instr := decodeWindow s (window s)

end Sys2Proof.Machine
end

