-- ==== Sys2Proof/Machine/Boundary.lean ====
section
/-! DEFINITION. What happens between instructions and around one: reset (R170, R171), the writes of other agents (R44, R49),
the debug traps and debug faults, NMI and INTR in the priority of R141, the hold of WAIT (R92) and of the halt state (R150).
-/

namespace Sys2Proof.Machine

/-- The machine after the RESET input (R170, R171): registers and hidden state as after reset, memory and the other inputs
kept; what R170 leaves undefined is as in `State.reset` (log entries 1, 29). ET is set when a coprocessor is present: the
input does not tell an 80287 from the 80387 R170 speaks of, and the model takes it for an 80387 (DESIGN CHOICE, log entry
1). RESET ends the hold on further NMIs, which R140 does not say, and drops the debug traps still pending, which R170 does
not name (DESIGN CHOICE, log entry 29). -/
def State.afterReset (s : State) : State :=
  { State.reset with
    mem := s.mem
    cr0 := if s.pins.npxPresent then 1#32 <<< 4 else 0
    reported := s.reported
    pins := { s.pins with reset := false }
    draws := s.draws + 1 }

/-- The end of a step that took an event: the trap conditions `c` of what went before stay pending, behind the event
(R118, R141), unless the machine has shut down; the record of a task switch is cleared. -/
def settle (c : DebugCond) (s : State) : State :=
  { s with
    switched := none
    debugTrap := if s.shutdown then DebugCond.none else DebugCond.union s.debugTrap c }

/-- After the delivery of an event: the task-switch breakpoint trap is pending when the delivery switched to a task whose T
bit is set, whatever the event was (R117; log entry 22). -/
def afterDelivery (o : Host.Outcome State Fault Refusal) : Host.Outcome State Fault Refusal :=
  match o with
  | .next s => .next (settle (switchTrap s) s)
  | .fault r => .fault r
  | .refused r => .refused r

/-- The first event reported between `s` and `t` is a trap: the instruction completed and reported it (R112). -/
def trapped (s t : State) : Bool :=
  (t.reported[t.reported.length - s.reported.length - 1]?).any (fun e => decide (e.cls = .trap))

/-- After an instruction that began at `s`. One that completed without an event has RF clear, which suppresses a
breakpoint for one instruction (R117), and gets its debug traps at once (R118), reported at the CS:EIP it left (R112,
R113). The debug traps of INT 3 or INTO come after its own trap (R141), so they are pending; after a fault only a task
switch's is (log entry 22). -/
def finishInstr (s : State) (i : Instr) (o : Host.Outcome State Fault Refusal) :
    Host.Outcome State Fault Refusal :=
  match o with
  | .next t =>
    if t.reported.length ≠ s.reported.length then
      .next (settle (if trapped s t then trapConds s i t else switchTrap t) t)
    else
      let u := { (if t.switched = none then clearRF t else t) with switched := none }
      if (trapConds s i t).any then afterDelivery (reportDebug .trap (trapConds s i t) u) else .next u
  | .fault r => .fault r
  | .refused r => .refused r

/-- A WAIT the coprocessor holds: no step of the instruction happens (R92). Nothing in the state records the hold; it is
asked for anew in each step (DESIGN CHOICE, log entry 21). -/
def heldAt (s : State) : Instr → Bool
  | .wait _ => waitHeld s
  | .divRm8 .. | .divRm .. | .idivRm8 .. | .idivRm .. | .int3 .. | .into .. | .bound .. | .esc .. => false
  | .jmpRel8 .. | .jmpRel .. | .jmpRm .. | .jmpFar .. | .jmpFarM .. => false
  | .callRel .. | .callRm .. | .callFar .. | .callFarM .. => false
  | .les .. | .lds .. | .lss .. | .lfs .. | .lgs .. => false
  | .invJmpFarReg .. | .invLesReg .. | .invCallFarReg .. | .invLdsReg .. | .invLssReg .. => false
  | .invLfsReg .. | .invLgsReg .. | .invBoundReg .. | .invFf7 .. => false

/-- An instruction run: held, or executed from `beginInstr s` with what follows it. -/
def runInstr (s : State) (i : Instr) : Host.Outcome State Fault Refusal :=
  if heldAt s i then .next s else finishInstr s i (exec i (beginInstr s))

/-- The instruction at CS:EIP fetched and run; a fault of the fetch is taken like any other. A held WAIT is fetched, decoded
and decided anew in each of its steps, so that a write of another agent to its byte makes another instruction run, and a
changed answer of `AccessCheck` raises a fault of the fetch, while the coprocessor is still busy; R92 says only "hold"
(DESIGN CHOICE, log entry 21). -/
def runNext (s : State) : Host.Outcome State Fault Refusal :=
  match fetchInstr s with
  | .ok i => runInstr s i
  | .error e => afterDelivery (complete (.error e))

/-- An NMI is pending and not held off (R140). -/
def nmiReady (s : State) : Bool := s.pins.nmi && !s.nmiBlocked

/-- NMI accepted (R140): vector 2, further NMIs held off, the halt state left (R150). NMI is edge-triggered: the acceptance
uses up the edge that the input records. -/
def acceptNmi (s : State) : Host.Outcome State Fault Refusal :=
  let t := { s.tick with pins := { s.pins with nmi := false }, nmiBlocked := true, halted := false }
  afterDelivery (deliver (eventAt 2 .interrupt t) t)

/-- INTR accepted (R140): its vector read from the controller, the halt state left (R150). INTR is level-sensitive: the
acceptance leaves the input as it is, and while the line is active it is accepted again whenever IF is set. The outside
world lowers the line, or gives it another vector, between steps, as for every input (log entry 23). -/
def acceptIntr (s : State) (v : BitVec 8) : Host.Outcome State Fault Refusal :=
  let t := { s.tick with halted := false }
  afterDelivery (deliver { eventAt v .interrupt t with intr := true } t)

/-- The debug fault before the instruction at CS:EIP (R117, R118); the instruction is not executed. -/
def debugFault (s : State) : Host.Outcome State Fault Refusal :=
  afterDelivery (reportDebug .fault (faultConds s) (beginInstr s))

/-- The pending debug traps reported (R141: before the debug faults of the next instruction), as one trap at the present
CS:EIP, which is that of the instruction to execute next (R112; log entry 22). -/
def takeDebugTrap (s : State) : Host.Outcome State Fault Refusal :=
  afterDelivery (reportDebug .trap s.debugTrap { s.tick with debugTrap := DebugCond.none })

/-- The bytes other agents have written are in memory (R49, D14; log entry 36). -/
def State.takeExternal (s : State) : State :=
  { s with
    mem := s.mem.writeAll ((s.pins.external).map wrapCell)
    pins := { s.pins with external := [] } }

/-- The state in which a step among the writes of other agents begins: what they write is under way (R44, R49; log entry
36). -/
def State.openStep (s : State) : State :=
  { s.tick with amid := (s.pins.inside).map wrapCell, pins := { s.pins with inside := [] } }

/-- The end of a step among the writes of other agents: what they were still writing is in memory (R49). -/
def State.closeStep (s : State) : State := { s with mem := s.mem.writeAll s.amid, amid := [] }

/-- A step's outcome with the writes of other agents during it ended. -/
def landRest (o : Host.Outcome State Fault Refusal) : Host.Outcome State Fault Refusal :=
  match o with
  | .next s => .next s.closeStep
  | .fault r => .fault r
  | .refused r => .refused r

/-- INTR with interrupts enabled, or else the next instruction; nothing in the halt state (R140, R150). -/
def intrOrRun (s : State) : Host.Outcome State Fault Refusal :=
  match (if s.flagIF then s.pins.intr else none) with
  | some v => acceptIntr s v
  | none => if s.halted then .next s else runNext s

/-- What is due next, in the order of R141: the pending debug traps, a debug fault of the next instruction, NMI, INTR;
otherwise the next instruction. While a WAIT is held, each step asks for all of these first, so an NMI, an INTR or a debug
fault is taken there and saves the CS:EIP of the WAIT, which R92 leaves open (DESIGN CHOICE, log entry 21). -/
def nextEvent (s : State) : Host.Outcome State Fault Refusal :=
  if !s.halted && s.debugTrap.any then takeDebugTrap s
  else if !s.halted && (faultConds s).any then debugFault s
  else if nmiReady s then acceptNmi s
  else intrOrRun s

/-- What is due next, among the writes of other agents: each of its loads may see for each byte what is in memory or what
they write there, whatever an earlier load saw (R44, R49, D13, D14). -/
def eventAmid (s : State) : Host.Outcome State Fault Refusal := landRest (nextEvent s.openStep)

end Sys2Proof.Machine
end

