-- ==== Sys2Proof/Machine/Step.lean ====
section
/-! DEFINITION. One step of the machine, and a state with an instruction placed where the next step fetches it. -/

namespace Sys2Proof.Machine

/-- One step: RESET first (R171); in shutdown nothing (R32, D10); the writes of other agents before it (R49); then what is
due next (R141), among the writes of other agents while it runs, where there are any (R44, D13). -/
def step (s : State) : Host.Outcome State Fault Refusal :=
  if s.pins.reset then .next s.afterReset
  else if s.shutdown then .fault .shutdown
  else if s.pins.external ≠ [] then .next s.takeExternal
  else if s.pins.inside ≠ [] then eventAmid s
  else nextEvent s

/-- The state with an instruction of `nbits` bits `w`, numbered as spec/opcode_table.json numbers them and followed by
zeros, stored where `step` fetches its next instruction; the record of stale prefetches is emptied, so that the bytes
fetched are these (log entry 30). -/
def State.withFetchWord (s : State) (nbits w : Nat) : State :=
  { s with
    mem := s.mem.writeAll (cellsAt s (s.lin .cs s.eip) (numberBytes Config.maxLength (w % 2 ^ nbits)))
    stored := [] }

end Sys2Proof.Machine
end

