-- ==== Sys2Proof/Safety.lean ====
section
/-! DEFINITION. The terms the statements use: accesses admitted by `AccessCheck` (R48), a step that no event outside the
instruction disturbs, the conditions and the effect of entering a handler in real-address mode (R139), what a near or far
push does to the stack (R24), and the invariants every step keeps. -/

namespace Sys2Proof.Machine

/-- `AccessCheck` admits an access (R48). -/
abbrev admits (s : State) (key : AccessKey) : Prop := accessDenial s key = none

/-! ### Invariants -/

/-- Memory is in its canonical form. -/
abbrev MemoryCanonical (s : State) : Prop := Memory.wf s.mem

/-- EFLAGS holds the fixed bits of R14. -/
abbrev FlagsCanonical (s : State) : Prop := flagsWf s.eflags

/-- Between steps: `delivering` is none while instructions execute (R31) and names the double fault after a shutdown (R128,
R138); no write of another agent is under way (R49; log entry 36). -/
abbrev Settled (s : State) : Prop :=
  s.delivering = (if s.shutdown then some 8 else none) ∧ s.amid = []

/-! ### A step undisturbed -/

/-- Nothing but the next instruction decides the step: no RESET, no shutdown or halt, no write of another agent before or
during the step, no pending debug trap, no debug fault, no accepted NMI or INTR. -/
abbrev Undisturbed (s : State) : Prop :=
  s.pins.reset = false ∧ s.shutdown = false ∧ s.halted = false ∧ s.pins.external = [] ∧ s.pins.inside = [] ∧
    s.debugTrap.any = false ∧ (faultConds s).any = false ∧ nmiReady s = false ∧ (s.flagIF = true → s.pins.intr = none)

/-! ### Exceptions -/

/-- The event of a fault without an error code that the instruction at `s` raises (R111). -/
def faultOf (v : BitVec 8) (s : State) : Event :=
  { vector := v, cls := .fault, savedCS := s.segs.cs.sel, savedEIP := s.eip, err := none, faultAddr := none
    newTask := false }

/-- The event of a divide error, bounds check or other fault with an error code. -/
def faultWith (v : BitVec 8) (err : Half) (s : State) : Event := { faultOf v s with err := some err }

/-- The `k`-th slot below a stack pointer, counted from 0: where the `k`-th of a row of pushes stores (R24), ESP
counted modulo 2^32 (log entry 12). -/
def slotOff (esp : Word) (z : WSize) (k : Nat) : Word := esp - BitVec.ofNat 32 ((k + 1) * z.bytes)

/-- The question the `k`-th of a row of pushes asks of `AccessCheck` at level `c`. -/
def slotKey (esp : Word) (c : BitVec 2) (z : WSize) (k : Nat) : AccessKey :=
  { kind := .stack, seg := .sreg .ss, off := slotOff esp z k, n := z.bytes, write := true, cpl := c }

/-- No byte that another agent writes while the step runs is at the address `a` (R49): a load sees the byte in memory. -/
abbrev Unshared (s : State) (a : Nat) : Prop := ∀ c ∈ s.amid, c.1 ≠ a

/-- In real-address mode, without paging, the three pushes and the vector table entry of `v` are admitted (R139, R48), and no
other agent is writing to that entry (R49). -/
abbrev RealReady (s : State) (v : BitVec 8) : Prop :=
  mode s = .realMode ∧ s.cr0PG = false ∧ (∀ k < 3, admits s (slotKey (s.reg .esp) 0 .o16 k)) ∧
    admits s (vectorKey s .ivt v 4) ∧ ∀ k < 4, Unshared s (4 * v.toNat + k)

/-- Everything a state holds but the registers, flags, memory and record of a delivery is the same in both, but that a store
may come after what another agent has been writing to its bytes (R49). -/
abbrev SystemKept (s t : State) : Prop :=
  t.ldtr = s.ldtr ∧ t.tr = s.tr ∧ t.gdtr = s.gdtr ∧ t.idtr = s.idtr ∧ t.cr0 = s.cr0 ∧ t.cr3 = s.cr3 ∧ t.dr = s.dr ∧
    t.tr6 = s.tr6 ∧ t.tr7 = s.tr7 ∧ t.shutdown = s.shutdown ∧ t.halted = s.halted ∧ t.nmiBlocked = s.nmiBlocked ∧
    t.switched = s.switched ∧ t.debugTrap = s.debugTrap ∧ t.pins = s.pins ∧ ∀ c ∈ t.amid, c ∈ s.amid

/-- Every byte of memory outside the `n` bytes from linear address `lin` upward, modulo 2^32 (log entry 42), reads as before;
without paging the linear address is the physical one. -/
abbrev OnlyBytes (s t : State) (lin : Word) (n : Nat) : Prop :=
  ∀ a : Nat, (∀ k < n, a ≠ (lin + BitVec.ofNat 32 k).toNat) → t.mem.read a = s.mem.read a

/-- `t` is `s` after the event `e` has been delivered in real-address mode (R138, R139): the event recorded, FLAGS, CS and
IP on the stack with IP lowest, IF, TF and RF clear, CS:IP from the entry at physical address 4 * v, the rest as it was. ESP
and the linear addresses of the stack count modulo 2^32 (log entries 12 and 42). -/
structure RealEntered (e : Event) (s t : State) : Prop where
  reported : t.reported = e :: s.reported
  delivering : t.delivering = none
  esp : t.gpr = s.gpr.set .esp (s.reg .esp - 6)
  ip : readLin t (s.lin .ss (s.reg .esp - 6)) 2 = e.savedEIP.toNat % 2 ^ 16
  cs : readLin t (s.lin .ss (s.reg .esp - 4)) 2 = e.savedCS.toNat
  flags : readLin t (s.lin .ss (s.reg .esp - 2)) 2 = s.eflags.toNat % 2 ^ 16
  stackOnly : OnlyBytes s t (s.lin .ss (s.reg .esp - 6)) 6
  eflags : t.eflags = realEntryFlags s.eflags
  entryIp : t.eip = BitVec.ofNat 32 (readPhys t.mem (4 * e.vector.toNat) 2)
  entryCs : t.segs = s.segs.set .cs (segReal (BitVec.ofNat 16 (readPhys t.mem (4 * e.vector.toNat + 2) 2)))
  prefetch : t.stored = []
  cr2 : t.cr2 = e.faultAddr.getD s.cr2
  draws : t.draws = s.draws
  kept : SystemKept s t

/-- The event a task switch, or the question of `AccessCheck`, reports from an origin. -/
def Origin.event (o : Origin) (v : BitVec 8) (err : Option Half) (addr : Option Word) : Event :=
  { vector := v, cls := .fault, savedCS := o.cs, savedEIP := o.eip, err := err, faultAddr := addr
    newTask := o.newTask }

/-- The event of an access of the instruction at `s` that `AccessCheck` refuses (R48): the interrupt it names with its error
code, EXT clear (R152), a fault at the instruction; a page fault carries the linear address (R135). -/
def deniedEvent (s : State) (d : AccessDenial) (lin : Word) : Event :=
  (Origin.ofInstr s).event d.vector.number (some (deniedErr d false))
    (if d.vector = .pageFault then some lin else none)

/-- The bytes of memory `m` after `n` bytes of `v` have been stored at a linear address, `s` being the state before the
store: every byte outside the stored ones, whose addresses count modulo 2^32 (log entry 42), is as before, and, where no two
of the `n` linear addresses share a physical one, each stored byte is the byte of `v` in little-endian order (R43). -/
abbrev StoredAt (s : State) (m : Memory) (lin : Word) (n : Nat) (v : Word) : Prop :=
  (∀ a : Nat, (∀ k < n, a ≠ phys s (lin + BitVec.ofNat 32 k)) → m.read a = s.mem.read a) ∧
    ((∀ j < n, ∀ k < n, phys s (lin + BitVec.ofNat 32 j) = phys s (lin + BitVec.ofNat 32 k) → j = k) →
      ∀ k < n, m.read (phys s (lin + BitVec.ofNat 32 k)) = BitVec.ofNat 8 (v.toNat / 256 ^ k))

/-- The state with another memory. -/
def withMem (s : State) (m : Memory) : State := { s with mem := m }

/-- No load sees a write of another agent: a step among no such writes (R49). -/
abbrev Alone (s : State) : Prop := s.amid = []

/-- A general register after a write of the operand size: 16 bits leave bits 31:16 (R25, R103). -/
def merged (z : WSize) (old v : Word) : Word :=
  match z with
  | .o16 => old.extractLsb' 16 16 ++ v.setWidth 16
  | .o32 => v

/-- A selector that names an entry of a descriptor table, the reading of which is admitted (R19, R48). -/
abbrev selReadable (s : State) (sel : Half) : Prop :=
  selNull sel = false ∧ inTable s sel = true ∧ admits s (descKey s sel)

/-- A code segment descriptor (R20). -/
def isCode (d : Desc) : Bool :=
  match descKind d with
  | .code .. => true
  | .data .. | .ldt | .tss386 | .tss286 | .taskGate | .callGate | .intGate .. | .trapGate .. | .other => false

/-- `q` and `r` are the quotient truncated toward zero and the remainder of `n` by `v` (R77). -/
abbrev truncatedDivision (n v q r : Int) : Prop :=
  n = q * v + r ∧ |r| < |v| ∧ (0 ≤ n → 0 ≤ r) ∧ (n ≤ 0 → r ≤ 0)

/-! ### Debug conditions (R18, R117) -/

/-- Breakpoint `n` is enabled, locally or globally, and its RW code is `rw`: bits 2n, 2n+1 and 17+4n:16+4n of DR7 (R18). -/
abbrev BpArmed (d : DebugRegs) (n : Nat) (rw : BitVec 2) : Prop :=
  (d.dr7.getLsbD (2 * n) = true ∨ d.dr7.getLsbD (2 * n + 1) = true) ∧ d.dr7.extractLsb' (16 + 4 * n) 2 = rw

/-- One of the `w` bytes from a linear address upward is among those breakpoint `n` covers from its address upward: one, two
or four by its LEN code, 00, 01 or 11, bits 19+4n:18+4n of DR7 (R18). -/
abbrev BpCovers (d : DebugRegs) (n : Nat) (lin : Word) (w : Nat) : Prop :=
  ∃ j k len : Nat, j < w ∧ k < len ∧
    ((d.dr7.extractLsb' (18 + 4 * n) 2 = 0#2 ∧ len = 1) ∨ (d.dr7.extractLsb' (18 + 4 * n) 2 = 1#2 ∧ len = 2) ∨
      (d.dr7.extractLsb' (18 + 4 * n) 2 = 3#2 ∧ len = 4)) ∧
    lin + BitVec.ofNat 32 j = d.addr n + BitVec.ofNat 32 k

/-- DR6 after the conditions `c` have been reported, `old` before: B0 to B3, BD, BS and BT set for the conditions that hold,
no bit cleared and no other bit set (R18). -/
abbrev Dr6Gains (old : Word) (c : DebugCond) (new : Word) : Prop :=
  (∀ n < 4, new.getLsbD n = (old.getLsbD n || c.instrBp.getLsbD n || c.dataBp.getLsbD n)) ∧
    new.getLsbD 13 = (old.getLsbD 13 || c.generalDetect) ∧ new.getLsbD 14 = (old.getLsbD 14 || c.singleStep) ∧
    new.getLsbD 15 = (old.getLsbD 15 || c.taskSwitchBp) ∧
    ∀ k, 4 ≤ k → k ≠ 13 → k ≠ 14 → k ≠ 15 → new.getLsbD k = old.getLsbD k

/-! ### A gate entered (R139) -/

/-- `t` is `s` after the event `e` has been delivered through an interrupt or trap gate: the event recorded, the words
`vs` pushed in order with `z` bytes each on the stack `ss`:`esp`, the code segment `cs`, the stack segment `ss`, the flags
and the entry in force, the rest as it was (R138, R139). -/
structure GateEntered (e : Event) (s t : State) (z : WSize) (cs ss : SegReg) (esp : Word) (vs : List Word)
    (clearIF : Bool) (entry : Word) : Prop where
  reported : t.reported = e :: s.reported
  delivering : t.delivering = none
  gpr : t.gpr = s.gpr.set .esp (esp - BitVec.ofNat 32 (vs.length * z.bytes))
  stack : ∀ (k : Nat) (h : k < vs.length), readLin t (ss.base + slotOff esp z k) z.bytes = (truncZ z vs[k]).toNat
  stackOnly : OnlyBytes s t (ss.base + (esp - BitVec.ofNat 32 (vs.length * z.bytes))) (vs.length * z.bytes)
  eflags : t.eflags = entryFlags s.eflags clearIF
  eip : t.eip = truncZ z entry
  segs : t.segs = (s.segs.set .cs cs).set .ss ss
  prefetch : t.stored = []
  cr2 : t.cr2 = e.faultAddr.getD s.cr2
  kept : SystemKept s t

/-- The words pushed for the error code of an event: bits 31:16 of a 32-bit push are `hi` (R137). -/
def errWords (z : WSize) (hi : Half) : Option Half → List Word
  | none => []
  | some c => [match z with | .o16 => c.setWidth 32 | .o32 => hi ++ c]

/-- Without paging, the interrupt descriptor table holds for `v`, as loads see it, a present gate of kind `gk`, whose
selector names a present code segment that is readable as a descriptor (R139). -/
abbrev GateReady (s : State) (v : BitVec 8) (gk : DescKind) : Prop :=
  s.cr0PG = false ∧ 8 * v.toNat + 7 ≤ s.idtr.limit.toNat ∧ admits s (vectorKey s .idt v 8) ∧
    descKind (gateAt s v) = gk ∧ descPresent (gateAt s v) = true ∧ selReadable s (gateSel (gateAt s v)) ∧
    isCode (descAt s (gateSel (gateAt s v))) = true ∧ descPresent (descAt s (gateSel (gateAt s v))) = true

/-! ### A task switch (R102, R131) -/

/-- No row of Table 9-5 holds for the new TSS `img`, no null SS or CS, every segment present, every descriptor readable
(R131): the LDT in `s`, the other segments once that LDT is loaded. No other agent is writing, so that every load of a
descriptor sees the same (R49). -/
structure TssValid (s : State) (img : TssImage) : Prop where
  alone : Alone s
  ldtGlobal : selTI img.ldt = false
  ldtSel : selReadable s img.ldt
  ldtKind : descKind (descAt s img.ldt) = .ldt
  ldtPresent : descPresent (descAt s img.ldt) = true
  ssSel : selReadable { s with ldtr := segOfDesc img.ldt (descAt s img.ldt) } img.ss
  ssKind : descKind (descAt { s with ldtr := segOfDesc img.ldt (descAt s img.ldt) } img.ss) = .data true
  ssDpl : descDpl (descAt { s with ldtr := segOfDesc img.ldt (descAt s img.ldt) } img.ss) = selRpl img.cs
  ssRpl : selRpl img.ss = selRpl img.cs
  ssPresent : descPresent (descAt { s with ldtr := segOfDesc img.ldt (descAt s img.ldt) } img.ss) = true
  csSel : selReadable { s with ldtr := segOfDesc img.ldt (descAt s img.ldt) } img.cs
  csKind : ∃ conf rd, descKind (descAt { s with ldtr := segOfDesc img.ldt (descAt s img.ldt) } img.cs) = .code conf rd ∧
    (conf = false → descDpl (descAt { s with ldtr := segOfDesc img.ldt (descAt s img.ldt) } img.cs) = selRpl img.cs) ∧
    (conf = true →
      (descDpl (descAt { s with ldtr := segOfDesc img.ldt (descAt s img.ldt) } img.cs)).toNat ≤ (selRpl img.cs).toNat)
  csPresent : descPresent (descAt { s with ldtr := segOfDesc img.ldt (descAt s img.ldt) } img.cs) = true
  data : ∀ sel ∈ [img.ds, img.es, img.fs, img.gs], selNull sel = false →
    selReadable { s with ldtr := segOfDesc img.ldt (descAt s img.ldt) } sel ∧
    readableKind (descKind (descAt { s with ldtr := segOfDesc img.ldt (descAt s img.ldt) } sel)) = true ∧
    descPresent (descAt { s with ldtr := segOfDesc img.ldt (descAt s img.ldt) } sel) = true

/-- A segment register a task switch loads: null as such, otherwise from its descriptor (R131). -/
def taskSeg (s : State) (sel : Half) : SegReg :=
  if selNull sel then segNull sel else segOfDesc sel (descAt s sel)

/-! ### Instructions by what they do -/

/-- The nine invalid operand forms of R64. -/
def invalidForm : Instr → Bool
  | .invJmpFarReg .. | .invLesReg .. | .invCallFarReg .. | .invLdsReg .. | .invLssReg .. => true
  | .invLfsReg .. | .invLgsReg .. | .invBoundReg .. | .invFf7 .. => true
  | .divRm8 .. | .divRm .. | .idivRm8 .. | .idivRm .. | .int3 .. | .into .. | .bound .. | .esc .. | .wait .. => false
  | .jmpRel8 .. | .jmpRel .. | .jmpRm .. | .jmpFar .. | .jmpFarM .. => false
  | .callRel .. | .callRm .. | .callFar .. | .callFarM .. => false
  | .les .. | .lds .. | .lss .. | .lfs .. | .lgs .. => false

/-- The instruction that loads a segment register with a far pointer (R103). -/
def farLoad (r : SegName) (pre : List Pfx) (z : WSize) (dst : Reg) (m : EA) : Option Instr :=
  match r with
  | .es => some (.les pre z dst m) | .ds => some (.lds pre z dst m) | .ss => some (.lss pre z dst m)
  | .fs => some (.lfs pre z dst m) | .gs => some (.lgs pre z dst m) | .cs => none

/-- The first data read of an instruction that has a memory operand: leading bytes, effective address, bytes (R45). -/
def firstRead : Instr → Option (List Pfx × EA × Nat)
  | .divRm8 p (.mem m) | .idivRm8 p (.mem m) => some (p, m, 1)
  | .divRm p z (.mem m) | .idivRm p z (.mem m) | .jmpRm p z (.mem m) | .callRm p z (.mem m) => some (p, m, z.bytes)
  | .bound p z _ m | .jmpFarM p z m | .callFarM p z m => some (p, m, z.bytes)
  | .les p z _ m | .lds p z _ m | .lss p z _ m | .lfs p z _ m | .lgs p z _ m => some (p, m, z.bytes)
  | .divRm8 _ (.reg _) | .idivRm8 _ (.reg _) | .divRm _ _ (.reg _) | .idivRm _ _ (.reg _) => none
  | .jmpRm _ _ (.reg _) | .callRm _ _ (.reg _) => none
  | .int3 _ | .into _ | .esc .. | .wait _ | .jmpRel8 .. | .jmpRel .. | .jmpFar .. | .callRel .. | .callFar .. => none
  | .invJmpFarReg .. | .invLesReg .. | .invCallFarReg .. | .invLdsReg .. | .invLssReg .. => none
  | .invLfsReg .. | .invLgsReg .. | .invBoundReg .. | .invFf7 .. => none

/-- The second data read of an instruction that has one: the upper limit of BOUND, the selector of a far pointer; leading
bytes, effective address, how far beyond it, bytes (R45, R60, R84). -/
def secondRead : Instr → Option (List Pfx × EA × Nat × Nat)
  | .bound p z _ m => some (p, m, z.bytes, z.bytes)
  | .jmpFarM p z m | .callFarM p z m => some (p, m, z.bytes, 2)
  | .les p z _ m | .lds p z _ m | .lss p z _ m | .lfs p z _ m | .lgs p z _ m => some (p, m, z.bytes, 2)
  | .divRm8 .. | .divRm .. | .idivRm8 .. | .idivRm .. | .int3 _ | .into _ | .esc .. | .wait _ => none
  | .jmpRel8 .. | .jmpRel .. | .jmpRm .. | .jmpFar .. | .callRel .. | .callRm .. | .callFar .. => none
  | .invJmpFarReg .. | .invLesReg .. | .invCallFarReg .. | .invLdsReg .. | .invLssReg .. => none
  | .invLfsReg .. | .invLgsReg .. | .invBoundReg .. | .invFf7 .. => none

/-- The exception vector an instruction raises by its own rule, beside those of memory accesses and of a task switch (R136):
0 DIV and IDIV, 3 INT 3, 4 INTO, 5 BOUND, 6 an invalid form, 7 ESC and WAIT. -/
def ownVector : Instr → Option (BitVec 8)
  | .divRm8 .. | .divRm .. | .idivRm8 .. | .idivRm .. => some 0
  | .int3 _ => some 3
  | .into _ => some 4
  | .bound .. => some 5
  | .invJmpFarReg .. | .invLesReg .. | .invCallFarReg .. | .invLdsReg .. | .invLssReg .. => some 6
  | .invLfsReg .. | .invLgsReg .. | .invBoundReg .. | .invFf7 .. => some 6
  | .esc .. | .wait _ => some 7
  | .jmpRel8 .. | .jmpRel .. | .jmpRm .. | .jmpFar .. | .jmpFarM .. => none
  | .callRel .. | .callRm .. | .callFar .. | .callFarM .. => none
  | .les .. | .lds .. | .lss .. | .lfs .. | .lgs .. => none

/-! ### The opcode table as data (R61, R62, R64) -/

/-- A row of spec/opcode_table.json: its place, the match and mask of each byte after the leading bytes, and whether its
ModR/M byte, the last of them, must not have `mod` 11. -/
structure OpRow where
  place : Nat
  pattern : List (Byte × Byte)
  memOnly : Bool
  deriving DecidableEq, Repr

/-- The 32 rows in the order of spec/opcode_table.json. -/
def opcodeRows : List OpRow :=
  [⟨0, [(0xF6, 0xFF), (0x30, 0x38)], false⟩,
   ⟨1, [(0xF7, 0xFF), (0x30, 0x38)], false⟩,
   ⟨2, [(0xF6, 0xFF), (0x38, 0x38)], false⟩,
   ⟨3, [(0xF7, 0xFF), (0x38, 0x38)], false⟩,
   ⟨4, [(0xCC, 0xFF)], false⟩,
   ⟨5, [(0xCE, 0xFF)], false⟩,
   ⟨6, [(0x62, 0xFF), (0x00, 0x00)], true⟩,
   ⟨7, [(0xD8, 0xF8), (0x00, 0x00)], false⟩] ++
  [⟨8, [(0x9B, 0xFF)], false⟩,
   ⟨9, [(0xEB, 0xFF)], false⟩,
   ⟨10, [(0xE9, 0xFF)], false⟩,
   ⟨11, [(0xFF, 0xFF), (0x20, 0x38)], false⟩,
   ⟨12, [(0xEA, 0xFF)], false⟩,
   ⟨13, [(0xFF, 0xFF), (0x28, 0x38)], true⟩,
   ⟨14, [(0xE8, 0xFF)], false⟩,
   ⟨15, [(0xFF, 0xFF), (0x10, 0x38)], false⟩] ++
  [⟨16, [(0x9A, 0xFF)], false⟩,
   ⟨17, [(0xFF, 0xFF), (0x18, 0x38)], true⟩,
   ⟨18, [(0xC4, 0xFF), (0x00, 0x00)], true⟩,
   ⟨19, [(0xC5, 0xFF), (0x00, 0x00)], true⟩,
   ⟨20, [(0x0F, 0xFF), (0xB2, 0xFF), (0x00, 0x00)], true⟩,
   ⟨21, [(0x0F, 0xFF), (0xB4, 0xFF), (0x00, 0x00)], true⟩,
   ⟨22, [(0x0F, 0xFF), (0xB5, 0xFF), (0x00, 0x00)], true⟩,
   ⟨23, [(0xFF, 0xFF), (0xE8, 0xF8)], false⟩] ++
  [⟨24, [(0xC4, 0xFF), (0xC0, 0xC0)], false⟩,
   ⟨25, [(0xFF, 0xFF), (0xD8, 0xF8)], false⟩,
   ⟨26, [(0xC5, 0xFF), (0xC0, 0xC0)], false⟩,
   ⟨27, [(0x0F, 0xFF), (0xB2, 0xFF), (0xC0, 0xC0)], false⟩,
   ⟨28, [(0x0F, 0xFF), (0xB4, 0xFF), (0xC0, 0xC0)], false⟩,
   ⟨29, [(0x0F, 0xFF), (0xB5, 0xFF), (0xC0, 0xC0)], false⟩,
   ⟨30, [(0x62, 0xFF), (0xC0, 0xC0)], false⟩,
   ⟨31, [(0xFF, 0xFF), (0x38, 0x38)], false⟩]

/-- `(bytes AND mask) = match` for every byte of a pattern (R62). -/
def patternFits : List (Byte × Byte) → List Byte → Bool
  | [], _ => true
  | _ :: _, [] => false
  | (v, mask) :: ps, b :: bs => decide (b &&& mask = v) && patternFits ps bs

/-- The bytes after the leading bytes match a row (R62). -/
def OpRow.fits (r : OpRow) (bs : List Byte) : Bool :=
  patternFits r.pattern bs &&
    !(r.memOnly && decide ((bs.getD (r.pattern.length - 1) 0).extractLsb' 6 2 = 3))

/-- The place in spec/opcode_table.json of the row an instruction is of. -/
def tablePlace : Instr → Nat
  | .divRm8 .. => 0 | .divRm .. => 1 | .idivRm8 .. => 2 | .idivRm .. => 3
  | .int3 .. => 4 | .into .. => 5 | .bound .. => 6 | .esc .. => 7
  | .wait .. => 8 | .jmpRel8 .. => 9 | .jmpRel .. => 10 | .jmpRm .. => 11
  | .jmpFar .. => 12 | .jmpFarM .. => 13 | .callRel .. => 14 | .callRm .. => 15
  | .callFar .. => 16 | .callFarM .. => 17 | .les .. => 18 | .lds .. => 19
  | .lss .. => 20 | .lfs .. => 21 | .lgs .. => 22 | .invJmpFarReg .. => 23
  | .invLesReg .. => 24 | .invCallFarReg .. => 25 | .invLdsReg .. => 26 | .invLssReg .. => 27
  | .invLfsReg .. => 28 | .invLgsReg .. => 29 | .invBoundReg .. => 30 | .invFf7 .. => 31

end Sys2Proof.Machine
end

