-- ==== Sys2Proof/Certificates/Slice0/Obligations.lean ====
section
/-! DEFINITION. The statements for the provers. Each says in its docstring which rule of spec/ it formalises, and names the
assumption-log entry where a clause rests on a choice of the model. An `exec` that answers `deliver e c` takes the event
`e` in the state `c`; what taking an event comes to is said by the statements about `deliver`. -/

section

open Sys2Proof Sys2Proof.Machine

/-! ### Encoding -/

/-- R57 to R64: decoding the bytes of a well-formed instruction, whatever follows them, gives it back, with every operand
and every leading byte. -/
def Obligations.DecodeOfEncode : Prop :=
  ∀ (big : Bool) (i : Instr) (rest : List Byte),
    i.wf big = true → decode big (encode i ++ rest) = .ok i rest

/-- R57 to R64: an instruction the decoder reads has operands of the sizes and address forms in force, and its encoding is
the bytes it was read from. -/
def Obligations.EncodeOfDecode : Prop :=
  ∀ (big : Bool) (bs : List Byte) (i : Instr) (rest : List Byte),
    decode big bs = .ok i rest → i.operandsWf big = true ∧ encode i ++ rest = bs

/-- R61, R62, R64, R65: the decoder follows the table. An instruction it reads is of the one row whose match and mask fit
the bytes after the leading bytes; it calls unlisted only bytes that fit no row. -/
def Obligations.DecodeFollowsOpcodeTable : Prop :=
  ∀ (big : Bool) (bs : List Byte),
    (∀ i rest, decode big bs = .ok i rest →
      (opcodeRows.filter (fun r => r.fits (takePfx bs).2)).map OpRow.place = [tablePlace i]) ∧
    (decode big bs = .unlisted → opcodeRows.filter (fun r => r.fits (takePfx bs).2) = [])

/-- Words of 95_test_vectors.md decode to the instructions the spec names for them. -/
def Obligations.SampleWordsDecode : Prop :=
  decode true [0xF7, 0xF1] = .ok (.divRm [] .o32 (.reg .ecx)) [] ∧
  decode true [0xF6, 0xFB] = .ok (.idivRm8 [] (.reg .bl)) [] ∧
  decode true [0x66, 0x62, 0x03] = .ok (.bound [.opSize] .o16 .eax (.ea32 .ebx .none)) [] ∧
  decode true [0xD9, 0xD0] = .ok (.esc [] 1 2 (.reg .eax)) [] ∧
  decode true [0xE9, 0xFB, 0xFF, 0xFF, 0xFF] = .ok (.jmpRel [] (.rel32 0xFFFFFFFB)) [] ∧
  decode true [0xEA, 0x00, 0x50, 0x00, 0x00, 0x10, 0x00] = .ok (.jmpFar [] (.ptr32 0x5000 0x10)) [] ∧
  decode true [0xFF, 0xD0] = .ok (.callRm [] .o32 (.reg .eax)) [] ∧
  decode true [0xC4, 0x1B] = .ok (.les [] .o32 .ebx (.ea32 .ebx .none)) [] ∧
  decode true [0xFF, 0xE8] = .ok (.invJmpFarReg [] .eax) []

/-! ### Fetching -/

/-- R43, R45, R57: the bytes of a well-formed instruction at CS:EIP, each fetch admitted, none of them stored to since the
last control transfer and none being written by another agent (R49), are fetched as that instruction. Their linear addresses
count modulo 2^32 by the model's choice (log entry 42). -/
def Obligations.EncodedBytesFetched : Prop :=
  ∀ (s : State) (i : Instr),
    i.wf (codeBig s) = true → s.stored = [] → s.eip.toNat + Instr.len i ≤ 2 ^ 32 →
    (∀ (k : Nat) (h : k < (encode i).length),
      admits s (fetchKey s (s.eip + BitVec.ofNat 32 k)) ∧
      Unshared s (phys s (s.lin .cs (s.eip + BitVec.ofNat 32 k))) ∧
      s.mem.read (phys s (s.lin .cs (s.eip + BitVec.ofNat 32 k))) = (encode i)[k]) →
    fetchInstr s = .ok i

/-- R65, U8: bytes that match no row are refused, and the model does not guess an exception for them. -/
def Obligations.UnlistedEncodingRefused : Prop :=
  ∀ s : State, Undisturbed s → decode (codeBig s) (window s).1 = .unlisted → step s = .refused .unlistedEncoding

/-- R57, R48: an instruction that does not end within 15 admitted bytes raises interrupt 13 (error code 0: R135, log entry
32); a refused fetch of its first byte, or of a later one that the instruction needs, raises the interrupt `AccessCheck`
names. Both are faults at CS:EIP. That they come before the instruction's own interrupt 6 or 7, for FF /7 and ESC whose
first bytes have been fetched and whose later ones are refused or pass 15 bytes, is the model's choice (log entry 32); the
spec gives no order there. So is that linear addresses count modulo 2^32 (log entry 42). -/
def Obligations.FetchFaultsDelivered : Prop :=
  ∀ s : State, Undisturbed s →
    (decode (codeBig s) (window s).1 = .short → (window s).2 = none →
      step s = afterDelivery (deliver (faultWith 13 0 s) s)) ∧
    (∀ (k : Nat) (d : AccessDenial), k < 15 → s.eip.toNat + k ≤ 0xFFFFFFFF →
      (∀ j < k, admits s (fetchKey s (s.eip + BitVec.ofNat 32 j))) →
      accessDenial s (fetchKey s (s.eip + BitVec.ofNat 32 k)) = some d →
      (k = 0 ∨ decode (codeBig s) (window s).1 = .short) →
      step s = afterDelivery (deliver (deniedEvent s d (s.lin .cs (s.eip + BitVec.ofNat 32 k))) s))

/-- R52: a byte stored to by the instruction at CS:EIP is fetched old or new while it lies less than 16 bytes beyond that
instruction; farther bytes, and every byte after a control transfer, are fetched new. (Where another agent is writing to the
byte, a fetch is a load like any other: R49, `StoresAndLoads`.) Linear addresses and the distance count modulo 2^32 by the
model's choice (log entry 42). -/
def Obligations.StaleFetchOldOrNew : Prop :=
  ∀ (s : State) (lin : Word) (n : Nat) (v off : Word), s.stored = [] →
    Unshared s (phys (store s lin n v) (s.lin .cs off)) →
    (fetchByte (store s lin n v) off = (store s lin n v).mem.read (phys (store s lin n v) (s.lin .cs off)) ∨
      fetchByte (store s lin n v) off = s.mem.read (phys (store s lin n v) (s.lin .cs off))) ∧
    (16 ≤ (s.lin .cs off - (s.segs.cs.base + s.eip)).toNat →
      fetchByte (store s lin n v) off = (store s lin n v).mem.read (phys (store s lin n v) (s.lin .cs off))) ∧
    (∀ target, fetchByte (jump (store s lin n v) target) off =
      (store s lin n v).mem.read (phys (store s lin n v) (s.lin .cs off)))

/-! ### A step -/

/-- Where nothing else is due, a step is `exec` of the instruction decoded at CS:EIP, begun with its debug answer taken from
the queue, and what follows it; without an event and without a debug trap that is its next state, RF cleared unless it
switched tasks (R117, log entry 22). -/
def Obligations.StepRunsDecoded : Prop :=
  ∀ (s : State) (i : Instr) (rest : List Byte),
    Undisturbed s → decode (codeBig s) (window s).1 = .ok i rest → heldAt s i = false →
    step s = finishInstr s i (exec i (beginInstr s)) ∧
    (∀ t, exec i (beginInstr s) = .next t → t.reported = s.reported → (trapConds s i t).any = false →
      step s = .next { (if t.switched = none then clearRF t else t) with switched := none })

/-- R92: a WAIT that neither raises interrupt 7 nor meets a coprocessor error is held while the coprocessor is busy. R92
says "no step"; that a held WAIT is a step that answers the same state, and that each such step fetches it and decides the
hold anew, is the model's choice (log entry 21). -/
def Obligations.HeldWaitWaits : Prop :=
  ∀ (s : State) (pre : List Pfx) (rest : List Byte),
    Undisturbed s → decode (codeBig s) (window s).1 = .ok (.wait pre) rest →
    (s.cr0MP && s.cr0TS) = false → s.pins.npxError = false → s.pins.npxBusy = true → step s = .next s

/-- R32, R128, R171: in shutdown no instruction executes; the RESET input ends it. -/
def Obligations.ShutdownUntilReset : Prop :=
  ∀ s : State, s.shutdown = true →
    (s.pins.reset = false → step s = .fault .shutdown) ∧
    (s.pins.reset = true → ∃ t, step s = .next t ∧ t.shutdown = false)

/-- R170: what the RESET input leaves, in the values the rule gives. The model's choices: memory is kept (log entry 29), and
ET is 1 whenever a coprocessor is present, taken for an 80387, the only one for which R170 sets it (log entry 1). -/
def Obligations.ResetValues : Prop :=
  ∀ s : State, s.pins.reset = true → ∃ t, step s = .next t ∧
    t.eflags = 0x00000002 ∧ t.eip = 0x0000FFF0 ∧
    t.segs.cs.sel = 0xF000 ∧ t.segs.cs.base = 0xFFFF0000 ∧ t.segs.cs.limit = 0xFFFF ∧
    (∀ r ∈ [SegName.ss, .ds, .es, .fs, .gs],
      (t.seg r).sel = 0 ∧ (t.seg r).base = 0 ∧ (t.seg r).limit = 0xFFFF) ∧
    t.cr0PE = false ∧ t.cr0MP = false ∧ t.cr0EM = false ∧ t.cr0TS = false ∧ t.cr0PG = false ∧
    t.cr0.getLsbD 4 = s.pins.npxPresent ∧
    t.idtr = { base := 0, limit := 0x03FF } ∧ t.dr.dr7 = 0 ∧ t.reg8 .dh = 0x03 ∧
    mode t = .realMode ∧ cpl t = 0 ∧ t.delivering = none ∧ t.shutdown = false ∧ t.stored = [] ∧
    phys t (t.lin .cs t.eip) = 0xFFFFFFF0 ∧ t.mem = s.mem

/-- R18, R117, R118, R141: the fault conditions of the next instruction are the input's answer for it (R17), and an
instruction breakpoint besides where RF is clear and an enabled DRn with RWn = 00 holds the linear address of CS:EIP,
whatever its LENn (log entry 5). One that holds is reported before the instruction, as one fault of vector 1 without error
code at its CS:EIP; DR6 gains the bits of the conditions; the instruction is not executed, and nothing else changes but
the model's queue of answers and its bookkeeping. That the linear address of CS:EIP counts modulo 2^32 is the model's choice
(log entry 42). -/
def Obligations.DebugFaultComesFirst : Prop :=
  (∀ s : State,
    (∀ n < 4, ((faultConds s).instrBp.getLsbD n = true ↔
      (∃ c, (s.pins.debug).head? = some c ∧ c.instrBp.getLsbD n = true) ∨
      (s.flagRF = false ∧ BpArmed s.dr n 0 ∧ s.dr.addr n = s.lin .cs s.eip))) ∧
    ((faultConds s).generalDetect = true ↔ ∃ c, (s.pins.debug).head? = some c ∧ c.generalDetect = true)) ∧
  (∀ s : State, s.pins.reset = false → s.shutdown = false → s.halted = false → s.pins.external = [] →
    s.pins.inside = [] → s.debugTrap.any = false → (faultConds s).any = true →
    ∃ t, step s = afterDelivery (deliver (faultOf 1 s) t) ∧
      t = { s with
        dr := { s.dr with dr6 := t.dr.dr6 }, switched := none, draws := t.draws
        pins := { s.pins with debug := (s.pins.debug).tail } } ∧
      Dr6Gains s.dr.dr6 (faultConds s) t.dr.dr6)

/-- R18, R45, R112, R113, R117, R118, R141: the trap conditions of an instruction are the input's answer for it (R17), and
besides: a data breakpoint where an enabled DRn covers a byte of one of its accesses and RWn is 11, or 01 and the access a
write; single step where TF was set at its start; the task-switch breakpoint where it switched to a task with T = 1. The
accesses watched are the reads of its memory operand and its pushes; which others are not, breakpoint addresses that are no
multiple of the length, and that the codes 10 of LENn and RWn, which R18 calls undefined, never give a data breakpoint, is
the model's choice (log entry 5), and so is that linear addresses count modulo 2^32 (log entry 42). After an instruction
that reported no event, the conditions that hold are reported as one trap of vector 1 without error code, saving the CS:EIP
the instruction left, DR6 gaining their bits, nothing else changed but RF (log entry 22). Those of an INT 3 or INTO that
took its own trap are pending after it, and pending ones are reported before anything else, at the CS:EIP then in force
(that they wait one step is log entry 22). -/
def Obligations.DebugTrapSavesWhatFollows : Prop :=
  (∀ (s : State) (i : Instr) (t : State),
    (∀ n < 4, ((trapConds s i t).dataBp.getLsbD n = true ↔
      (∃ c, (s.pins.debug).head? = some c ∧ c.dataBp.getLsbD n = true) ∨
      (∃ a ∈ dataAccesses (beginInstr s) i, (BpArmed s.dr n 3 ∨ (BpArmed s.dr n 1 ∧ a.write = true)) ∧
        BpCovers s.dr n a.lin a.n))) ∧
    ((trapConds s i t).singleStep = true ↔
      (∃ c, (s.pins.debug).head? = some c ∧ c.singleStep = true) ∨ s.flagTF = true) ∧
    ((trapConds s i t).taskSwitchBp = true ↔
      (∃ c, (s.pins.debug).head? = some c ∧ c.taskSwitchBp = true) ∨ t.switched = some true)) ∧
  (∀ (s : State) (i : Instr) (a : DataAccess), a ∈ dataAccesses s i ↔
    (∃ pre m w, firstRead i = some (pre, m, w) ∧
      a = { lin := s.lin (eaSeg pre m) (eaOff s m), n := w, write := false }) ∨
    (∃ pre m add w, secondRead i = some (pre, m, add, w) ∧
      a = { lin := s.lin (eaSeg pre m) (eaOff s m + BitVec.ofNat 32 add), n := w, write := false }) ∨
    (∃ pre z, ((∃ rel, i = .callRel pre rel ∧ rel.wsize = z) ∨ ∃ src, i = .callRm pre z src) ∧
      a = { lin := s.lin .ss (slotOff (s.reg .esp) z 0), n := z.bytes, write := true }) ∨
    (∃ pre z m sel off, farTarget (Origin.ofInstr s) s sel = .ok .segment ∧
      ((∃ ptr, i = .callFar pre ptr ∧ ptr.wsize = z ∧ FarPtr.sel ptr = sel) ∨
        (i = .callFarM pre z m ∧ readFar s pre z m = .ok (sel, off))) ∧
      ∃ k < 2, a = { lin := s.lin .ss (slotOff (s.reg .esp) z k), n := z.bytes, write := true })) ∧
  (∀ (s : State) (i : Instr) (rest : List Byte) (t : State),
    Undisturbed s → decode (codeBig s) (window s).1 = .ok i rest → heldAt s i = false →
    exec i (beginInstr s) = .next t →
    (t.reported = s.reported → (trapConds s i t).any = true →
      ∃ u, step s = afterDelivery (deliver
          { vector := 1, cls := .trap, savedCS := t.segs.cs.sel, savedEIP := t.eip, err := none, faultAddr := none
            newTask := false } u) ∧
        u = { t with
          dr := { s.dr with dr6 := u.dr.dr6 }, switched := none
          eflags := if t.switched = none then setBit t.eflags 16 false else t.eflags } ∧
        Dr6Gains s.dr.dr6 (trapConds s i t) u.dr.dr6) ∧
    (t.reported ≠ s.reported → (∃ pre, i = .int3 pre ∨ i = .into pre) → t.shutdown = false →
      step s = .next { t with switched := none, debugTrap := trapConds s i t })) ∧
  (∀ s : State, s.pins.reset = false → s.shutdown = false → s.halted = false → s.pins.external = [] →
    s.pins.inside = [] → s.debugTrap.any = true →
    ∃ u, step s = afterDelivery (deliver
        { vector := 1, cls := .trap, savedCS := s.segs.cs.sel, savedEIP := s.eip, err := none, faultAddr := none
          newTask := false } u) ∧
      u = { s with dr := { s.dr with dr6 := u.dr.dr6 }, debugTrap := DebugCond.none, draws := u.draws } ∧
      Dr6Gains s.dr.dr6 s.debugTrap u.dr.dr6)

/-- R44, R49, R140, R141, R150: what the outside world does between instructions and during one. Bytes other agents have
written are in memory before anything else happens, the last write to an address counting (that this is a step of its own is
log entry 36). A step during which they write is the step of the state that holds what they write as under way, which each
of its loads may see, byte by byte, and each of its stores may come after (`StoresAndLoads`); what they are still writing at
its end is then in memory. That all of it is in memory before the next instruction is log entry 36. A pending NMI that is
not held off is delivered with vector 2 before an INTR; an INTR is delivered with its vector when IF is set; both save the
CS:EIP of the next instruction, have no error code and leave the halt state. In the halt state without either, nothing
happens. Accepting an NMI uses up its edge; INTR is a level, which no step changes, so that a line still active is accepted
again whenever IF is set. The model's choice: in the halt state both, and the unchanged step, come before a pending debug
trap and a debug fault, which wait there, although R141 puts these first (log entry 22). -/
def Obligations.InterruptsTaken : Prop :=
  (∀ s t : State, step s = .next t → t.pins.intr = s.pins.intr) ∧
  ∀ s : State, s.pins.reset = false → s.shutdown = false →
    (s.pins.external ≠ [] →
      ∃ m, step s = .next { s with mem := m, pins := { s.pins with external := [] } } ∧
        (∀ a, (∀ c ∈ s.pins.external, c.1 % 2 ^ 32 ≠ a) → m.read a = s.mem.read a) ∧
        (MemoryCanonical s → ∀ before a v after, s.pins.external = before ++ (a, v) :: after →
          (∀ c ∈ after, c.1 % 2 ^ 32 ≠ a % 2 ^ 32) → m.read (a % 2 ^ 32) = v)) ∧
    (s.pins.external = [] → s.pins.inside ≠ [] →
      ∃ u, u = { s with amid := (s.pins.inside).map wrapCell, pins := { s.pins with inside := [] }, draws := u.draws } ∧
        (∀ t, step u = .next t → step s = .next { t with mem := t.mem.writeAll t.amid, amid := [] }) ∧
        (∀ f, step u = .fault f → step s = .fault f) ∧ (∀ r, step u = .refused r → step s = .refused r)) ∧
    (s.pins.external = [] → s.pins.inside = [] →
      (s.halted = true ∨ (s.debugTrap.any = false ∧ (faultConds s).any = false)) →
      (s.pins.nmi = true → s.nmiBlocked = false →
        ∃ t, step s = afterDelivery (deliver { faultOf 2 s with cls := .interrupt } t) ∧
          t = { s with pins := { s.pins with nmi := false }, nmiBlocked := true, halted := false, draws := t.draws }) ∧
      (∀ v, (s.pins.nmi = false ∨ s.nmiBlocked = true) → s.flagIF = true → s.pins.intr = some v →
        ∃ t, step s = afterDelivery (deliver { faultOf v s with cls := .interrupt, intr := true } t) ∧
          t = { s with halted := false, draws := t.draws }) ∧
      ((s.pins.nmi = false ∨ s.nmiBlocked = true) → (s.flagIF = false ∨ s.pins.intr = none) → s.halted = true →
        step s = .next s))

/-! ### Delivering an event -/

/-- R138, R124, R127: delivering an event records it; whatever is recorded after it in the same delivery has vector 8, 10,
11, 12, 13 or 14, and a double fault is an abort whose error code is zero. Afterwards `delivering` is none or the machine
has shut down. -/
def Obligations.DeliveryRecords : Prop :=
  ∀ (e : Event) (s t : State), deliver e s = .next t →
    (∃ l, t.reported = l ++ e :: s.reported ∧
      ∀ x ∈ l, x.vector ∈ [8, 10, 11, 12, 13, 14] ∧ (x.vector = 8 → x.cls = .abort ∧ x.err = some 0)) ∧
    (t.delivering = none ∨ t.shutdown = true)

/-- R125, Table 9-3. -/
def Obligations.DoubleFaultClasses : Prop :=
  (∀ v ∈ [1, 2, 3, 4, 5, 6, 7, 16], dfClass v = .benign) ∧
  (∀ v ∈ [0, 9, 10, 11, 12, 13], dfClass v = .contributory) ∧
  dfClass 14 = .pageFault ∧
  (∀ v, v ∉ [1, 2, 3, 4, 5, 6, 7, 16, 0, 9, 10, 11, 12, 13, 14] → dfClass v = Config.dfClassOther v)

/-- R126, Table 9-4. -/
def Obligations.DoubleFaultPairs : Prop :=
  ∀ f g : DFClass, isDouble f g = true ↔
    (f = .contributory ∧ g = .contributory) ∨ (f = .pageFault ∧ (g = .contributory ∨ g = .pageFault))

/-- R124, R125, R126, R138, R140: an exception met while the handler of another event is being invoked is replaced by a
double fault, an abort with error code zero whose CS:EIP are free, exactly when Table 9-4 says so, an INTR having the
class dfClassOther whatever its vector (log entry 40); otherwise it is delivered in turn. Of the program's registers and
memory after the abort nothing is said (R114); that CR2 stays (log entry 38), and that the mode, the CPL, the system
registers and the entry of vector 8 are those at the second exception (log entry 25), is the model's choice. Of that entry
with paging, where it need not be kept, nothing is said in protected mode. -/
def Obligations.SecondEventRule : Prop :=
  ∀ (e e2 : Event) (s ctx : State) (first : DFClass),
    e.vector ≠ 8 → invokeHandler e (report e s) = .error (.raised e2 ctx) →
    first = (if e.intr then Config.dfClassOther e.vector else dfClass e.vector) →
    (isDouble first (dfClass e2.vector) = false → deliver e s = deliver e2 ctx) ∧
    (isDouble first (dfClass e2.vector) = true →
      ∃ cs eip c, deliver e s = deliver
        { vector := 8, cls := .abort, savedCS := cs, savedEIP := eip, err := some 0, faultAddr := none, newTask := false } c ∧
        SystemKept ctx c ∧ c.reported = ctx.reported ∧ c.cr2 = ctx.cr2 ∧ mode c = mode ctx ∧ cpl c = cpl ctx ∧
        (mode ctx ≠ .realMode → ctx.cr0PG = false → 8 * 8 + 7 ≤ ctx.idtr.limit.toNat →
          readLin c (c.idtr.base + 64) 8 = readLin ctx (ctx.idtr.base + 64) 8) ∧
        (mode ctx = .realMode → readPhys c.mem 32 4 = readPhys ctx.mem 32 4))

/-- R139 item 3, R152: a second exception is a fault of vector 10, 11, 12, 13 or 14 with an error code, whose EXT bit (but
in the page fault's own format) is 0 while INT 3 or INTO is being delivered and 1 otherwise (log entry 24); it saves the
CS:EIP of the event being delivered unless it is taken in a new task. -/
def Obligations.SecondEventContract : Prop :=
  ∀ (e e2 : Event) (s ctx : State), invokeHandler e s = .error (.raised e2 ctx) →
    e2.vector ∈ [10, 11, 12, 13, 14] ∧ e2.cls = .fault ∧
    (∃ c, e2.err = some c ∧
      (e2.vector ≠ 14 → (c.getLsbD 0 = true ↔ ¬ (e.cls = .trap ∧ (e.vector = 3 ∨ e.vector = 4))))) ∧
    (e2.newTask = false → e2.savedCS = e.savedCS ∧ e2.savedEIP = e.savedEIP)

/-- R128: an exception met while the double fault's handler is invoked shuts the machine down, and there is no further step
but by the RESET input, the default `ShutdownExit` (D10, log entry 29). That `delivering` still names the double fault is
the model's choice (log entry 26). -/
def Obligations.DoubleFaultFailureShutsDown : Prop :=
  ∀ (e e2 : Event) (s ctx : State),
    e.vector = 8 → invokeHandler e (report e s) = .error (.raised e2 ctx) →
    ∃ t, deliver e s = .next t ∧ t.shutdown = true ∧ t.delivering = some 8 ∧
      (t.pins.reset = false → step t = .fault .shutdown) ∧
      (t.pins.reset = true → ∃ u, step t = .next u ∧ u.shutdown = false)

/-- R138, R139, R46: in real-address mode an event whose accesses are admitted enters its handler: FLAGS, CS and IP pushed,
IF and TF cleared, CS:IP from the vector table. The account is R139's general-knowledge one (log entry 3); RF is cleared
too, because it suppresses breakpoints for the interrupted instruction only (R117; log entry 22). The model's
choices in it: an event with an error code pushes none here, although R139 item 1 and R127 speak of a push without naming
a mode (log entry 33); CS takes the base sixteen times its selector (log entry 8); the pushes use the whole ESP, which wraps
modulo 2^32 (log entry 12). -/
def Obligations.RealModeDelivery : Prop :=
  ∀ (e : Event) (s : State), MemoryCanonical s → RealReady s e.vector →
    ∃ t, deliver e s = .next t ∧ RealEntered e s t

/-- R139, R137: in protected mode an event whose gate names a code segment of the current level, or a conforming one of a
level at least as privileged, enters it on the same stack: EFLAGS, CS, EIP and the error code pushed, TF and NT cleared, and
IF by an interrupt gate. Bits 31:16 of a 32-bit error code are free, but zero for the double fault (R127). The tables are
what loads see once the event has been reported (R138, R49), in the state `r`. That CS takes the CPL as its RPL field, and
that the DPL of the gate is not tested, is the model's choice (log entry 13). (VM is cleared by log entry 15, RF by log
entry 22; a 32-bit push of a selector is zero-extended by log entry 41; ESP wraps by log entry 12, addresses by log entry
42.) -/
def Obligations.GateDeliverySameLevel : Prop :=
  ∀ (e : Event) (s r : State) (z : WSize) (clearIF : Bool),
    MemoryCanonical s → mode s = .protMode → r = report e s →
    GateReady r e.vector (if clearIF then .intGate z else .trapGate z) →
    (e.vector = 10 → e.newTask = false) →
    ((∃ rd, descKind (descAt r (gateSel (gateAt r e.vector))) = .code true rd ∧
        (descDpl (descAt r (gateSel (gateAt r e.vector)))).toNat ≤ (cpl s).toNat) ∨
      descDpl (descAt r (gateSel (gateAt r e.vector))) = cpl s) →
    (∀ k < 4, admits s (slotKey (s.reg .esp) (cpl s) z k)) →
    ∃ t hi, (e.vector = 8 → hi = 0) ∧ deliver e s = .next t ∧
      GateEntered e s t z
        { segOfDesc (gateSel (gateAt r e.vector)) (descAt r (gateSel (gateAt r e.vector))) with
          sel := withRpl (gateSel (gateAt r e.vector)) (cpl s) }
        s.segs.ss (s.reg .esp) ([s.eflags, e.savedCS.setWidth 32, e.savedEIP] ++ errWords z hi e.err) clearIF
        (gateOff (gateAt r e.vector))

/-- R139, R23, R127: a gate to a more privileged, non-conforming code segment takes the stack of that level from the current
TSS and pushes the old SS and ESP first. The tables and the TSS are what loads see in `r`, once the event has been reported.
That `AccessCheck` is asked about the pushes at the new level, and about the TSS and the new stack's descriptor at the old
one, is the model's choice (log entry 4); so is that CS takes the new level as its RPL field and that the DPL of the gate is
not tested (log entry 13); so is that the stack is read at TR's base where TR is null, as after reset (log entry 16). (Log
entries 12, 15, 22, 41 and 42 as for the same level.) From virtual-8086 mode, of which R139 does not speak, the model enters
a code segment of level 0 in the same way, with GS, FS, DS and ES pushed before SS and then null, in protected mode, VM
being clear (log entry 15). Bits 31:16 of a 32-bit error code are free, but zero for the double fault. -/
def Obligations.GateDeliveryInnerLevel : Prop :=
  (∀ (e : Event) (s r : State) (z : WSize) (clearIF : Bool) (level : BitVec 2) (rd : Bool) (ss : Half) (esp : Word),
    MemoryCanonical s → mode s = .protMode → r = report e s →
    GateReady r e.vector (if clearIF then .intGate z else .trapGate z) →
    (e.vector = 10 → e.newTask = false) →
    descKind (descAt r (gateSel (gateAt r e.vector))) = .code false rd →
    descDpl (descAt r (gateSel (gateAt r e.vector))) = level → level.toNat < (cpl s).toNat →
    admits s (tssKey s s.tr.sel (BitVec.ofNat 32 (4 + 8 * level.toNat)) 8 false) →
    tssWord r s.tr.base (4 + 8 * level.toNat) = esp → tssSel r s.tr.base (8 + 8 * level.toNat) = ss →
    selReadable s ss → (∀ k < 6, admits s (slotKey esp level z k)) →
    ∃ t hi, (e.vector = 8 → hi = 0) ∧ deliver e s = .next t ∧
      GateEntered e s t z
        { segOfDesc (gateSel (gateAt r e.vector)) (descAt r (gateSel (gateAt r e.vector))) with
          sel := withRpl (gateSel (gateAt r e.vector)) level }
        (segOfDesc ss (descAt r ss)) esp
        ([s.segs.ss.sel.setWidth 32, s.reg .esp, s.eflags, e.savedCS.setWidth 32, e.savedEIP] ++ errWords z hi e.err)
        clearIF (gateOff (gateAt r e.vector))) ∧
  (∀ (e : Event) (s r : State) (z : WSize) (clearIF : Bool) (rd : Bool) (ss : Half) (esp : Word),
    MemoryCanonical s → mode s = .v86Mode → r = report e s →
    GateReady r e.vector (if clearIF then .intGate z else .trapGate z) →
    (e.vector = 10 → e.newTask = false) →
    descKind (descAt r (gateSel (gateAt r e.vector))) = .code false rd →
    descDpl (descAt r (gateSel (gateAt r e.vector))) = 0 →
    admits s (tssKey s s.tr.sel 4 8 false) → tssWord r s.tr.base 4 = esp → tssSel r s.tr.base 8 = ss →
    selReadable s ss → (∀ k < 10, admits s (slotKey esp 0 z k)) →
    ∃ t hi, (e.vector = 8 → hi = 0) ∧ deliver e s = .next t ∧ mode t = .protMode ∧ cpl t = 0 ∧
      GateEntered e
        { s with segs := { s.segs with gs := segNull 0, fs := segNull 0, ds := segNull 0, es := segNull 0 } } t z
        { segOfDesc (gateSel (gateAt r e.vector)) (descAt r (gateSel (gateAt r e.vector))) with
          sel := withRpl (gateSel (gateAt r e.vector)) 0 }
        (segOfDesc ss (descAt r ss)) esp
        ([s.segs.gs.sel.setWidth 32, s.segs.fs.sel.setWidth 32, s.segs.ds.sel.setWidth 32, s.segs.es.sel.setWidth 32,
          s.segs.ss.sel.setWidth 32, s.reg .esp, s.eflags, e.savedCS.setWidth 32, e.savedEIP] ++ errWords z hi e.err)
        clearIF (gateOff (gateAt r e.vector)))

/-- R139, R102: what the interrupt descriptor table's limit and a task gate in it come to. A vector beyond the limit raises
interrupt 13 while its handler is invoked. So does a task gate in virtual-8086 mode, where no task switch exists (R29; that
it is interrupt 13 is log entry 15). The error code names the entry, I set and the index in bits 15:3 (R137; that it does is
log entry 13); its EXT bit is 1, but 0 while INT 3 or INTO is being delivered (log entry 24). In protected mode an event
whose entry is a present task gate, as a load sees it once the event has been reported, is delivered by the task switch with
cause interrupt, whatever the DPL of the gate (log entry 13), the old task keeping the event's saved CS:EIP (log entry 16),
and then its error code, if any, is pushed on the new task's stack as 32 bits (log entry 16; ESP wraps by log entry 12),
bits 31:16 free but zero for a double fault; an exception the switch raises is the second one. -/
def Obligations.TableLimitAndTaskGates : Prop :=
  (∀ (e : Event) (s : State), mode s ≠ .realMode →
    (s.idtr.limit.toNat < 8 * e.vector.toNat + 7 ∨
      (mode s = .v86Mode ∧ 8 * e.vector.toNat + 7 ≤ s.idtr.limit.toNat ∧ admits s (vectorKey s .idt e.vector 8) ∧
        descKind (gateAt s e.vector) = .taskGate)) →
    ∃ c, invokeHandler e s = .error (.raised ((Origin.ofEvent s e).event 13 (some c) none) s) ∧
      c.extractLsb' 3 13 = e.vector.setWidth 13 ∧ c.getLsbD 2 = false ∧ c.getLsbD 1 = true ∧ c.getLsbD 0 = e.ext) ∧
  (∀ (e : Event) (s r : State) (sw : Res State), mode s = .protMode →
    8 * e.vector.toNat + 7 ≤ s.idtr.limit.toNat → admits s (vectorKey s .idt e.vector 8) → r = report e s →
    descKind (gateAt r e.vector) = .taskGate → descPresent (gateAt r e.vector) = true →
    sw = taskSwitch (Origin.ofEvent r e) r (gateSel (gateAt r e.vector)) .interrupt e.savedCS e.savedEIP →
    (∀ x, sw = .error x → invokeHandler e r = .error x) ∧
    (∀ t, sw = .ok t → e.err = none → deliver e s = .next { t with delivering := none, stored := [] }) ∧
    (∀ t c, sw = .ok t → e.err = some c → admits t (slotKey (t.reg .esp) (cpl t) .o32 0) →
      ∃ (hi : Half) (mem : Memory) (amid : List Host.Cell), (e.vector = 8 → hi = 0) ∧ (∀ x ∈ amid, x ∈ t.amid) ∧
        deliver e s = .next { t with
          gpr := t.gpr.set .esp (slotOff (t.reg .esp) .o32 0), mem := mem, amid := amid, delivering := none, stored := []
          draws := t.draws + 1 } ∧
        (MemoryCanonical t → t.cr0PG = false → StoredAt t mem (t.lin .ss (slotOff (t.reg .esp) .o32 0)) 4 (hi ++ c))))

/-- R134: interrupt 10 taken in the context of the new task is refused when its entry is anything but a task gate. -/
def Obligations.VectorTenNeedsTask : Prop :=
  ∀ (e : Event) (s : State), mode s ≠ .realMode → e.vector = 10 → e.newTask = true →
    8 * e.vector.toNat + 7 ≤ s.idtr.limit.toNat → admits s (vectorKey s .idt e.vector 8) →
    descKind (gateAt (report e s) e.vector) ≠ .taskGate → deliver e s = .refused .handlerNotTask

/-- R142: once an abort has been reported, a return from a handler is refused. -/
def Obligations.ReturnAfterAbortRefused : Prop :=
  ∀ (z : WSize) (len : Nat) (s : State), (∃ e ∈ s.reported, e.cls = .abort) →
    returnFromHandler z len s = .refused .returnAfterAbort

/-- R142, R139: a 16-bit return right after a real-mode delivery, no other agent writing meanwhile, restores the general
registers, FLAGS, the other segment registers, and the saved CS and IP, and admits NMIs again (R140); of EFLAGS it leaves
bits 31:16, in which the delivery cleared RF (log entry 22). The return is R142's general-knowledge account (log entry 27).
It covers events with an error code because none is pushed in real-address mode (log entry 33), and CS takes the base
sixteen times its selector (log entry 8). -/
def Obligations.ReturnUndoesRealDelivery : Prop :=
  ∀ (e : Event) (s t : State) (len : Nat),
    MemoryCanonical s → FlagsCanonical s → Alone s → s.pins.denials = [] → RealReady s e.vector →
    (∀ x ∈ e :: s.reported, x.cls ≠ .abort) → deliver e s = .next t →
    ∃ u, returnFromHandler .o16 len t = .next u ∧ u.gpr = s.gpr ∧ u.eflags = setBit s.eflags 16 false ∧
      u.segs = s.segs.set .cs (segReal e.savedCS) ∧ u.eip = (e.savedEIP.setWidth 16).setWidth 32 ∧
      u.nmiBlocked = false ∧ u.mem = t.mem

/-! ### The task switch -/

/-- R102 step 2, R131 row 1, R132, R133: the new TSS is verified in the context of the original task: a fault there has the
CS:EIP of its origin and the TSS selector with EXT as error code, and no state has changed. A limit below 103 raises
interrupt 10. The rest is the model's: interrupt 13 for a selector that is local, null, outside the table or of no TSS, 11
for a TSS that is not present, whatever its limit (log entry 16, for the order too), and the refusal of a 286 TSS (log entry
18); the DPL of the descriptor is not tested (log entry 16). A present 80386 TSS of the global table with a limit of at
least 103, the accesses to both TSSs and to the access bytes of their descriptors admitted (log entry 4), passes, as its
descriptor stands in the table. -/
def Obligations.NewTssVerified : Prop :=
  ∀ (o : Origin) (s : State) (sel err : Half) (cause : Cause) (cs : Half) (eip : Word),
    err = (sel &&& 0xFFFC) ||| (if o.ext then 1 else 0) →
    (selTI sel = true ∨ selNull sel = true ∨ inTable s sel = false →
      taskSwitch o s sel cause cs eip = .error (.raised (o.event 13 (some err) none) o.home)) ∧
    (selTI sel = false → selReadable s sel →
      (descKind (descAt s sel) ≠ .tss386 → descKind (descAt s sel) ≠ .tss286 →
        taskSwitch o s sel cause cs eip = .error (.raised (o.event 13 (some err) none) o.home)) ∧
      (descKind (descAt s sel) = .tss386 ∨ descKind (descAt s sel) = .tss286 →
        (descPresent (descAt s sel) = false →
          taskSwitch o s sel cause cs eip = .error (.raised (o.event 11 (some err) none) o.home)) ∧
        (descPresent (descAt s sel) = true → (descLimit (descAt s sel)).toNat < 103 →
          taskSwitch o s sel cause cs eip = .error (.raised (o.event 10 (some err) none) o.home))) ∧
      (descKind (descAt s sel) = .tss286 → descPresent (descAt s sel) = true →
        103 ≤ (descLimit (descAt s sel)).toNat → taskSwitch o s sel cause cs eip = .error (.refused .tss286)) ∧
      (descKind (descAt s sel) = .tss386 → descPresent (descAt s sel) = true →
        103 ≤ (descLimit (descAt s sel)).toNat →
        admits s (tssKey s sel 0 104 false) → admits s (tssKey s s.tr.sel 32 64 true) →
        (cause = .call ∨ cause = .interrupt → admits s (tssKey s sel 0 2 true)) →
        (∀ w, admits s (busyKey s sel w)) →
        (cause = .jmp ∨ cause = .ret → selNull s.tr.sel = false → ∀ w, admits s (busyKey s s.tr.sel w)) →
        verifyTss o s sel cause = .ok (descAt s sel)))

/-- R131 row 2: an LDT selector that names no LDT descriptor of the global table, or one that is not present, raises
interrupt 10 with the LDT selector and EXT. The model's choices (log entry 17): a null selector, and one with TI = 1
whatever it names, is invalid; a failing row 2 is reported before the refusal of a TSS whose SS or CS selector is null. -/
def Obligations.LdtRowFaults : Prop :=
  ∀ (o : Origin) (s : State) (img : TssImage),
    (selTI img.ldt = true ∨ selNull img.ldt = true ∨ inTable s img.ldt = false ∨
      (admits s (descKey s img.ldt) ∧
        (descKind (descAt s img.ldt) ≠ .ldt ∨ descPresent (descAt s img.ldt) = false))) →
    loadContext o s img =
      .error (.raised (o.event 10 (some ((img.ldt &&& 0xFFFC) ||| if o.ext then 1 else 0)) none) o.home)

/-- R131 rows 3 to 6: once row 2 has passed, an SS selector outside its table, or whose descriptor is no writable data
segment, or whose DPL or RPL is not the new CPL, raises interrupt 10 with the SS selector and EXT; a null one is refused.
That failing rows 3 to 6 are reported before the refusal of a TSS whose CS selector is null is the model's choice (log entry
17). -/
def Obligations.StackRowsFault : Prop :=
  ∀ (o : Origin) (s s1 : State) (img : TssImage), loadLdt o s img.ldt = .ok s1 →
    (selNull img.ss = true → loadContext o s img = .error (.refused .nullSelector)) ∧
    (selNull img.ss = false →
      (inTable s1 img.ss = false ∨
        (admits s1 (descKey s1 img.ss) ∧
          (descKind (descAt s1 img.ss) ≠ .data true ∨ descDpl (descAt s1 img.ss) ≠ selRpl img.cs ∨
            selRpl img.ss ≠ selRpl img.cs))) →
      loadContext o s img =
        .error (.raised (o.event 10 (some ((img.ss &&& 0xFFFC) ||| if o.ext then 1 else 0)) none) o.home))

/-- R131 rows 7 to 10: once rows 2 to 6 have passed, a CS selector outside its table, or whose descriptor is no code
segment, or a non-conforming one whose DPL is not the new CPL, or a conforming one whose DPL is greater, raises interrupt
10 with the CS selector and EXT; a null one is refused. -/
def Obligations.CodeRowsFault : Prop :=
  ∀ (o : Origin) (s s1 s2 : State) (img : TssImage),
    loadLdt o s img.ldt = .ok s1 → loadTaskStack o s1 (selRpl img.cs) img.ss = .ok s2 →
    (selNull img.cs = true → loadContext o s img = .error (.refused .nullSelector)) ∧
    (selNull img.cs = false →
      (inTable s2 img.cs = false ∨
        (admits s2 (descKey s2 img.cs) ∧
          (isCode (descAt s2 img.cs) = false ∨
            (∃ rd, descKind (descAt s2 img.cs) = .code false rd ∧ descDpl (descAt s2 img.cs) ≠ selRpl img.cs) ∨
            (∃ rd, descKind (descAt s2 img.cs) = .code true rd ∧
              (selRpl img.cs).toNat < (descDpl (descAt s2 img.cs)).toNat)))) →
      loadContext o s img =
        .error (.raised (o.event 10 (some ((img.cs &&& 0xFFFC) ||| if o.ext then 1 else 0)) none) o.home))

/-- R131 rows 11 and 12: once rows 2 to 10 have passed, the first of the DS, ES, FS and GS selectors that is not null and
outside its table, and, if none is, the first that is not null and names no readable segment, raises interrupt 10 with
that selector and EXT. (The order among the four is log entry 17.) -/
def Obligations.DataRowsFault : Prop :=
  ∀ (o : Origin) (s s1 s2 s3 : State) (img : TssImage) (before after : List (SegName × Half)) (r : SegName) (sel : Half),
    loadLdt o s img.ldt = .ok s1 → loadTaskStack o s1 (selRpl img.cs) img.ss = .ok s2 →
    loadTaskCode o s2 (selRpl img.cs) img.cs = .ok s3 →
    [(.ds, img.ds), (.es, img.es), (.fs, img.fs), (.gs, img.gs)] = before ++ (r, sel) :: after →
    selNull sel = false →
    (((∀ x ∈ before, selNull x.2 = true ∨ inTable s3 x.2 = true) ∧ inTable s3 sel = false) ∨
      ((∀ x ∈ [img.ds, img.es, img.fs, img.gs], selNull x = true ∨ inTable s3 x = true) ∧
        ∃ s4, loadTaskDatas o s3 before = .ok s4 ∧ admits s4 (descKey s4 sel) ∧
          readableKind (descKind (descAt s4 sel)) = false)) →
    loadContext o s img =
      .error (.raised (o.event 10 (some ((sel &&& 0xFFFC) ||| if o.ext then 1 else 0)) none) o.home)

/-- R102, R133: past the commit point, the switch goes on in the new task's context: TR names the new TSS; EIP, the flags,
the general registers, CR3, the selectors and, as the record of the switch, the T bit (R23, R117) are those read from the
new TSS as the commit left it; TS is set (R15), NT too after a CALL or interrupt (R101); a fault found from there on saves
the new task's CS:EIP, with VM clear, which is set last (log entry 17). That the new TSS is read after all stores of the
commit, and that the new busy bit is the last of them, so that it is set even where they overlap, is the model's choice (log
entry 16). Without paging, the commit changes no byte of memory but the fields saved in the old TSS, the backlink after a
CALL or interrupt, and the access bytes of the new TSS descriptor, which it marks busy, and after a JMP or a return of the
old one. Where these do not overlap, the old TSS holds, for a load among no writes of other agents, the registers, flags and
selectors of the old task and the CS:EIP at which it goes on (that this is the one the switch was given, for an instruction
the next one's, is log entry 16), and the backlink is the old TSS after a CALL or interrupt and as before otherwise (log
entry 16); in the saved flags NT is clear after a return (log entry 16) and RF after a JMP, a CALL or a return (log entry
22). The fields of a TSS lie at their offsets from its base modulo 2^32 (log entry 42). -/
def Obligations.TaskSwitchCommits : Prop :=
  ∀ (o : Origin) (s : State) (sel : Half) (cause : Cause) (cs : Half) (eip fl : Word) (d : Desc),
    verifyTss o s sel cause = .ok d →
    fl = (if cause = .interrupt then s.eflags
      else if cause = .ret then setBit (setBit s.eflags 14 false) 16 false else setBit s.eflags 16 false) →
    ∃ s1 s2 img, s1 = commitTables s sel (descBase d) cause cs eip ∧ img = readTss s1 (descBase d) ∧
      taskSwitch o s sel cause cs eip =
        (match loadContext (Origin.inTask s2 o.ext) s2 img with
          | .ok t => .ok { t with eflags := setBit t.eflags 17 (img.eflags.getLsbD 17) }
          | .error x => .error x) ∧
      s2.mem = s1.mem ∧ s2.stored = [] ∧ s2.switched = some img.trap ∧
      (img.trap = true ↔ loadLin s1 (descBase d + 100) 2 % 2 = 1) ∧
      s2.tr = { segOfDesc sel d with access := descAccess d ||| 2 } ∧
      (Origin.inTask s2 o.ext).cs = img.cs ∧ (Origin.inTask s2 o.ext).eip = img.eip ∧
      s2.gpr = img.gpr ∧ s2.cr3 = img.cr3 ∧ s2.cr0TS = true ∧ s2.ldtr.sel = img.ldt ∧
      (∀ p ∈ [(SegName.es, img.es), (.cs, img.cs), (.ss, img.ss), (.ds, img.ds), (.fs, img.fs), (.gs, img.gs)],
        (s2.seg p.1).sel = p.2) ∧
      s2.eflags = (if cause = .call ∨ cause = .interrupt then setBit (setBit (fixedFlags img.eflags) 17 false) 14 true
        else setBit (fixedFlags img.eflags) 17 false) ∧
      (MemoryCanonical s → s.cr0PG = false →
        (∀ a : Nat,
          (∀ f ∈ savedFields s cs eip fl,
            ∀ k < f.2.1, a ≠ (s.tr.base + BitVec.ofNat 32 f.1 + BitVec.ofNat 32 k).toNat) →
          (cause = .call ∨ cause = .interrupt → ∀ j < 2, a ≠ (descBase d + BitVec.ofNat 32 j).toNat) →
          (cause = .jmp ∨ cause = .ret → selNull s.tr.sel = false → a ≠ (descAddr s s.tr.sel + 5).toNat) →
          a ≠ (descAddr s sel + 5).toNat → s1.mem.read a = s.mem.read a) ∧
        (s1.mem.read (descAddr s sel + 5).toNat).getLsbD 1 = true ∧
        ((∀ k < 64, descAddr s sel + 5 ≠ s.tr.base + 32 + BitVec.ofNat 32 k ∧
            descAddr s s.tr.sel + 5 ≠ s.tr.base + 32 + BitVec.ofNat 32 k) →
          (∀ j < 2, ∀ k < 64, descBase d + BitVec.ofNat 32 j ≠ s.tr.base + 32 + BitVec.ofNat 32 k) →
          (Alone s → readTss s1 s.tr.base = { readTss s1 s.tr.base with
            eip := eip, eflags := fl, gpr := s.gpr
            es := s.segs.es.sel, cs := cs, ss := s.segs.ss.sel, ds := s.segs.ds.sel, fs := s.segs.fs.sel
            gs := s.segs.gs.sel }) ∧
          ((∀ j < 2, descBase d + BitVec.ofNat 32 j ≠ descAddr s sel + 5) →
            (∀ j < 2, descBase d + BitVec.ofNat 32 j ≠ descAddr s s.tr.sel + 5) →
            bytesAt s1 (descBase d) 2 =
              if cause = .call ∨ cause = .interrupt then halfBytes s.tr.sel else bytesAt s (descBase d) 2)))

/-- R131, R102, R21: a new TSS for which no row of Table 9-5 holds is loaded: the LDT register and the segment registers
take their descriptors, null DS, ES, FS and GS selectors are loaded as such. -/
def Obligations.ValidTssLoads : Prop :=
  ∀ (o : Origin) (s : State) (img : TssImage),
    s.segs.cs.sel = img.cs → TssValid s img →
    loadContext o s img = .ok { s with
      ldtr := segOfDesc img.ldt (descAt s img.ldt)
      segs :=
        { es := taskSeg { s with ldtr := segOfDesc img.ldt (descAt s img.ldt) } img.es
          cs := taskSeg { s with ldtr := segOfDesc img.ldt (descAt s img.ldt) } img.cs
          ss := taskSeg { s with ldtr := segOfDesc img.ldt (descAt s img.ldt) } img.ss
          ds := taskSeg { s with ldtr := segOfDesc img.ldt (descAt s img.ldt) } img.ds
          fs := taskSeg { s with ldtr := segOfDesc img.ldt (descAt s img.ldt) } img.fs
          gs := taskSeg { s with ldtr := segOfDesc img.ldt (descAt s img.ldt) } img.gs } }

/-- R98, R101, R102, D28: a far JMP or CALL, immediate or through memory, whose selector names a TSS switches to it, one
whose selector names a task gate switches to the TSS of the gate, with cause JMP or CALL; through a call gate both are
refused. The model's choices: the old task keeps the next instruction's address (log entry 16); the present bit and the DPL
of the task gate are not tested (log entry 39), nor is the DPL of the TSS (log entry 16). -/
def Obligations.FarTransfersToTasks : Prop :=
  ∀ (s : State) (pre : List Pfx) (ptr : FarPtr) (z : WSize) (m : EA) (sel tss : Half) (off : Word),
    mode s = .protMode → selReadable s sel →
    ((((descKind (descAt s sel) = .tss386 ∨ descKind (descAt s sel) = .tss286) ∧ tss = sel) ∨
        (descKind (descAt s sel) = .taskGate ∧ tss = gateSel (descAt s sel))) →
      (FarPtr.sel ptr = sel → s.eip.toNat + Instr.len (.jmpFar pre ptr) ≤ 0xFFFFFFFF →
        exec (.jmpFar pre ptr) s = complete (taskSwitch (Origin.ofInstr s) s tss .jmp s.segs.cs.sel
          (s.eip + BitVec.ofNat 32 (Instr.len (.jmpFar pre ptr))))) ∧
      (FarPtr.sel ptr = sel → s.eip.toNat + Instr.len (.callFar pre ptr) ≤ 0xFFFFFFFF →
        exec (.callFar pre ptr) s = complete (taskSwitch (Origin.ofInstr s) s tss .call s.segs.cs.sel
          (s.eip + BitVec.ofNat 32 (Instr.len (.callFar pre ptr))))) ∧
      (readFar s pre z m = .ok (sel, off) → s.eip.toNat + Instr.len (.jmpFarM pre z m) ≤ 0xFFFFFFFF →
        exec (.jmpFarM pre z m) s = complete (taskSwitch (Origin.ofInstr s) s tss .jmp s.segs.cs.sel
          (s.eip + BitVec.ofNat 32 (Instr.len (.jmpFarM pre z m))))) ∧
      (readFar s pre z m = .ok (sel, off) → s.eip.toNat + Instr.len (.callFarM pre z m) ≤ 0xFFFFFFFF →
        exec (.callFarM pre z m) s = complete (taskSwitch (Origin.ofInstr s) s tss .call s.segs.cs.sel
          (s.eip + BitVec.ofNat 32 (Instr.len (.callFarM pre z m)))))) ∧
    (descKind (descAt s sel) = .callGate →
      (FarPtr.sel ptr = sel → exec (.jmpFar pre ptr) s = .refused .callGate) ∧
      (FarPtr.sel ptr = sel → s.eip.toNat + Instr.len (.callFar pre ptr) ≤ 0xFFFFFFFF →
        exec (.callFar pre ptr) s = .refused .callGate) ∧
      (readFar s pre z m = .ok (sel, off) → exec (.jmpFarM pre z m) s = .refused .callGate) ∧
      (readFar s pre z m = .ok (sel, off) → s.eip.toNat + Instr.len (.callFarM pre z m) ≤ 0xFFFFFFFF →
        exec (.callFarM pre z m) s = .refused .callGate))

/-! ### DIV and IDIV -/

/-- R75, R77: DIV of every operand size, where the quotient fits: quotient and remainder of the unsigned dividend in their
registers, the other bits of the 32-bit registers kept, the six status flags free (whatever they come to is `f`), EIP
advanced, everything else unchanged. -/
def Obligations.DivCompletes : Prop :=
  ∀ (s : State) (pre : List Pfx) (d : Word) (q r : Nat), r < d.toNat →
    (∀ src : Opnd Reg8, readOpnd8 s pre src = .ok d → (s.reg16 .eax).toNat = q * d.toNat + r → q < 2 ^ 8 →
      s.eip.toNat + Instr.len (.divRm8 pre src) ≤ 0xFFFFFFFF →
      ∃ f, exec (.divRm8 pre src) s = .next { s with
        gpr := s.gpr.set .eax ((s.reg .eax).extractLsb' 16 16 ++ (BitVec.ofNat 8 r ++ BitVec.ofNat 8 q))
        eflags := withStatus s.eflags f
        eip := s.eip + BitVec.ofNat 32 (Instr.len (.divRm8 pre src))
        draws := s.draws + 1 }) ∧
    (∀ src : Opnd Reg, readOpndZ s pre .o16 src = .ok d →
      (s.reg16 .edx ++ s.reg16 .eax).toNat = q * d.toNat + r → q < 2 ^ 16 →
      s.eip.toNat + Instr.len (.divRm pre .o16 src) ≤ 0xFFFFFFFF →
      ∃ f, exec (.divRm pre .o16 src) s = .next { s with
        gpr := (s.gpr.set .eax ((s.reg .eax).extractLsb' 16 16 ++ BitVec.ofNat 16 q)).set .edx
          ((s.reg .edx).extractLsb' 16 16 ++ BitVec.ofNat 16 r)
        eflags := withStatus s.eflags f
        eip := s.eip + BitVec.ofNat 32 (Instr.len (.divRm pre .o16 src))
        draws := s.draws + 1 }) ∧
    (∀ src : Opnd Reg, readOpndZ s pre .o32 src = .ok d →
      (s.reg .edx ++ s.reg .eax).toNat = q * d.toNat + r → q < 2 ^ 32 →
      s.eip.toNat + Instr.len (.divRm pre .o32 src) ≤ 0xFFFFFFFF →
      ∃ f, exec (.divRm pre .o32 src) s = .next { s with
        gpr := (s.gpr.set .eax (BitVec.ofNat 32 q)).set .edx (BitVec.ofNat 32 r)
        eflags := withStatus s.eflags f
        eip := s.eip + BitVec.ofNat 32 (Instr.len (.divRm pre .o32 src))
        draws := s.draws + 1 })

/-- R76, R77: IDIV of every operand size, where the quotient, the most negative one included, fits: as DIV, with every value
read as two's complement, the quotient truncated toward zero and the remainder with the dividend's sign. -/
def Obligations.IdivCompletes : Prop :=
  ∀ (s : State) (pre : List Pfx) (d : Word) (q r : Int),
    (∀ src : Opnd Reg8, readOpnd8 s pre src = .ok d →
      truncatedDivision (s.reg16 .eax).toInt (d.setWidth 8).toInt q r → -2 ^ 7 ≤ q → q ≤ 2 ^ 7 - 1 →
      s.eip.toNat + Instr.len (.idivRm8 pre src) ≤ 0xFFFFFFFF →
      ∃ f, exec (.idivRm8 pre src) s = .next { s with
        gpr := s.gpr.set .eax ((s.reg .eax).extractLsb' 16 16 ++ (BitVec.ofInt 8 r ++ BitVec.ofInt 8 q))
        eflags := withStatus s.eflags f
        eip := s.eip + BitVec.ofNat 32 (Instr.len (.idivRm8 pre src))
        draws := s.draws + 1 }) ∧
    (∀ src : Opnd Reg, readOpndZ s pre .o16 src = .ok d →
      truncatedDivision (s.reg16 .edx ++ s.reg16 .eax).toInt (d.setWidth 16).toInt q r → -2 ^ 15 ≤ q → q ≤ 2 ^ 15 - 1 →
      s.eip.toNat + Instr.len (.idivRm pre .o16 src) ≤ 0xFFFFFFFF →
      ∃ f, exec (.idivRm pre .o16 src) s = .next { s with
        gpr := (s.gpr.set .eax ((s.reg .eax).extractLsb' 16 16 ++ BitVec.ofInt 16 q)).set .edx
          ((s.reg .edx).extractLsb' 16 16 ++ BitVec.ofInt 16 r)
        eflags := withStatus s.eflags f
        eip := s.eip + BitVec.ofNat 32 (Instr.len (.idivRm pre .o16 src))
        draws := s.draws + 1 }) ∧
    (∀ src : Opnd Reg, readOpndZ s pre .o32 src = .ok d →
      truncatedDivision (s.reg .edx ++ s.reg .eax).toInt d.toInt q r → -2 ^ 31 ≤ q → q ≤ 2 ^ 31 - 1 →
      s.eip.toNat + Instr.len (.idivRm pre .o32 src) ≤ 0xFFFFFFFF →
      ∃ f, exec (.idivRm pre .o32 src) s = .next { s with
        gpr := (s.gpr.set .eax (BitVec.ofInt 32 q)).set .edx (BitVec.ofInt 32 r)
        eflags := withStatus s.eflags f
        eip := s.eip + BitVec.ofNat 32 (Instr.len (.idivRm pre .o32 src))
        draws := s.draws + 1 })

/-- R75, R76, R77, R115, R111: a zero divisor, or a quotient that does not fit, raises interrupt 0: a fault without error
code at the instruction, nothing changed. -/
def Obligations.DivideErrors : Prop :=
  ∀ (s : State) (pre : List Pfx) (d : Word),
    (∀ src : Opnd Reg8, readOpnd8 s pre src = .ok d →
      (d = 0 ∨ (∃ q r, (s.reg16 .eax).toNat = q * d.toNat + r ∧ r < d.toNat ∧ 2 ^ 8 ≤ q) →
        exec (.divRm8 pre src) s = deliver (faultOf 0 s) s) ∧
      (d = 0 ∨ (∃ q r, truncatedDivision (s.reg16 .eax).toInt (d.setWidth 8).toInt q r ∧ (q < -2 ^ 7 ∨ 2 ^ 7 - 1 < q)) →
        exec (.idivRm8 pre src) s = deliver (faultOf 0 s) s)) ∧
    (∀ src : Opnd Reg, readOpndZ s pre .o16 src = .ok d →
      (d = 0 ∨ (∃ q r, (s.reg16 .edx ++ s.reg16 .eax).toNat = q * d.toNat + r ∧ r < d.toNat ∧ 2 ^ 16 ≤ q) →
        exec (.divRm pre .o16 src) s = deliver (faultOf 0 s) s) ∧
      (d = 0 ∨ (∃ q r, truncatedDivision (s.reg16 .edx ++ s.reg16 .eax).toInt (d.setWidth 16).toInt q r ∧
          (q < -2 ^ 15 ∨ 2 ^ 15 - 1 < q)) →
        exec (.idivRm pre .o16 src) s = deliver (faultOf 0 s) s)) ∧
    (∀ src : Opnd Reg, readOpndZ s pre .o32 src = .ok d →
      (d = 0 ∨ (∃ q r, (s.reg .edx ++ s.reg .eax).toNat = q * d.toNat + r ∧ r < d.toNat ∧ 2 ^ 32 ≤ q) →
        exec (.divRm pre .o32 src) s = deliver (faultOf 0 s) s) ∧
      (d = 0 ∨ (∃ q r, truncatedDivision (s.reg .edx ++ s.reg .eax).toInt d.toInt q r ∧
          (q < -2 ^ 31 ∨ 2 ^ 31 - 1 < q)) →
        exec (.idivRm pre .o32 src) s = deliver (faultOf 0 s) s))

/-! ### INT 3, INTO, BOUND -/

/-- R80, R112, R117, R119: INT 3 completes, RF clear after it (log entry 22), by taking the breakpoint trap,
unconditionally: no error code, the saved CS:EIP the byte after it; in real-address mode with the accesses admitted its
handler is entered (R138, R139; log entry 3; CS takes the base sixteen times its selector, log entry 8). -/
def Obligations.Int3TakesBreakpoint : Prop :=
  ∀ (s : State) (pre : List Pfx), s.eip.toNat + Instr.len (.int3 pre) ≤ 0xFFFFFFFF →
    ∃ u e, u = { s with eip := s.eip + BitVec.ofNat 32 (pre.length + 1), eflags := setBit s.eflags 16 false } ∧
      e = { vector := 3, cls := .trap, savedCS := s.segs.cs.sel, savedEIP := u.eip, err := none, faultAddr := none
            newTask := false } ∧
      exec (.int3 pre) s = deliver e u ∧
      (MemoryCanonical s → RealReady s 3 → ∃ t, exec (.int3 pre) s = .next t ∧ RealEntered e u t)

/-- R82, R112, R117, R120: INTO with OF clear only advances EIP; with OF set it completes, RF clear after it (log entry 22),
and takes the overflow trap, no error code, the saved CS:EIP those of the next instruction, OF left as it is. -/
def Obligations.IntoTestsOverflow : Prop :=
  ∀ (s : State) (pre : List Pfx), s.eip.toNat + Instr.len (.into pre) ≤ 0xFFFFFFFF →
    (s.flagOF = false →
      exec (.into pre) s = .next { s with eip := s.eip + BitVec.ofNat 32 (pre.length + 1) }) ∧
    (s.flagOF = true →
      exec (.into pre) s = deliver
        { vector := 4, cls := .trap, savedCS := s.segs.cs.sel
          savedEIP := s.eip + BitVec.ofNat 32 (pre.length + 1), err := none, faultAddr := none, newTask := false }
        { s with eip := s.eip + BitVec.ofNat 32 (pre.length + 1), eflags := setBit s.eflags 16 false })

/-- R84, R85, R121: BOUND, both limits read, lower first: inside the inclusive signed limits only EIP advances; outside them
it raises interrupt 5, a fault without error code at the instruction, nothing changed. -/
def Obligations.BoundChecksLimits : Prop :=
  ∀ (s : State) (pre : List Pfx) (z : WSize) (idx : Reg) (m : EA) (lower upper : Word),
    readEA s pre m 0 z.bytes = .ok lower → readEA s pre m z.bytes z.bytes = .ok upper →
    (signedZ z lower ≤ signedZ z (s.reg idx) ∧ signedZ z (s.reg idx) ≤ signedZ z upper →
      s.eip.toNat + Instr.len (.bound pre z idx m) ≤ 0xFFFFFFFF →
      exec (.bound pre z idx m) s = .next { s with eip := s.eip + BitVec.ofNat 32 (Instr.len (.bound pre z idx m)) }) ∧
    (signedZ z (s.reg idx) < signedZ z lower ∨ signedZ z upper < signedZ z (s.reg idx) →
      exec (.bound pre z idx m) s = deliver (faultOf 5 s) s)

/-! ### ESC and WAIT -/

/-- R93, R90, R92, R123: the truth table of interrupt 7. ESC raises it when EM is set, or MP and TS are, and is refused
otherwise; WAIT raises it when MP and TS are both set, whatever EM and the coprocessor's inputs are, and with the
coprocessor idle and without error otherwise only advances EIP; a busy one holds it, an error refuses it (D22). That the
error is tested before busy, and that a held WAIT answers the same state, are the model's choices (log entry 21).
Interrupt 7 is a fault without error code at the instruction; in real-address mode with the accesses admitted ESC enters
its handler (R138, R139; log entries 3 and 8), RF clear there by the model's choice (log entry 22). -/
def Obligations.EscAndWaitTruthTable : Prop :=
  ∀ (s : State) (pre : List Pfx) (low ext : BitVec 3) (src : Opnd Reg),
    ((s.cr0EM = true ∨ (s.cr0MP = true ∧ s.cr0TS = true)) →
      exec (.esc pre low ext src) s = deliver (faultOf 7 s) s ∧
      (MemoryCanonical s → RealReady s 7 →
        ∃ t, exec (.esc pre low ext src) s = .next t ∧ RealEntered (faultOf 7 s) s t)) ∧
    (s.cr0EM = false → s.cr0MP = false → s.cr0TS = true →
      exec (.esc pre low ext src) s = .refused .escTaskSwitched) ∧
    (s.cr0EM = false → s.cr0TS = false → exec (.esc pre low ext src) s = .refused .coprocessorInstruction) ∧
    (s.cr0MP = true ∧ s.cr0TS = true → exec (.wait pre) s = deliver (faultOf 7 s) s) ∧
    (¬ (s.cr0MP = true ∧ s.cr0TS = true) →
      (s.pins.npxError = true → exec (.wait pre) s = .refused .coprocessorError) ∧
      (s.pins.npxError = false → s.pins.npxBusy = false → s.eip.toNat + Instr.len (.wait pre) ≤ 0xFFFFFFFF →
        exec (.wait pre) s = .next { s with eip := s.eip + BitVec.ofNat 32 (pre.length + 1) }) ∧
      (s.pins.npxError = false → s.pins.npxBusy = true → exec (.wait pre) s = .next s))

/-! ### JMP, CALL, the far loads, the invalid forms -/

/-- R97, R60: a near JMP sets EIP to its target and changes nothing else but the prefetched bytes, which it discards (R52):
relative to the next instruction, the displacement sign-extended, truncated to 16 bits at that operand size; or the
operand, zero-extended. -/
def Obligations.JmpNearCompletes : Prop :=
  ∀ (s : State) (pre : List Pfx),
    (∀ (z : WSize) (rel : Byte), s.eip.toNat + Instr.len (.jmpRel8 pre z rel) ≤ 0xFFFFFFFF →
      exec (.jmpRel8 pre z rel) s = .next { s with
        eip := truncZ z (s.eip + BitVec.ofNat 32 (pre.length + 2) + rel.signExtend 32), stored := [] }) ∧
    (∀ rel : Half, s.eip.toNat + Instr.len (.jmpRel pre (.rel16 rel)) ≤ 0xFFFFFFFF →
      exec (.jmpRel pre (.rel16 rel)) s = .next { s with
        eip := truncZ .o16 (s.eip + BitVec.ofNat 32 (pre.length + 3) + rel.signExtend 32), stored := [] }) ∧
    (∀ rel : Word, s.eip.toNat + Instr.len (.jmpRel pre (.rel32 rel)) ≤ 0xFFFFFFFF →
      exec (.jmpRel pre (.rel32 rel)) s = .next { s with
        eip := s.eip + BitVec.ofNat 32 (pre.length + 5) + rel, stored := [] }) ∧
    (∀ (z : WSize) (src : Opnd Reg) (t : Word), readOpndZ s pre z src = .ok t →
      exec (.jmpRm pre z src) s = .next { s with eip := t, stored := [] })

/-- R98, R60: a far JMP to an ordinary segment, immediate or through memory, loads CS and EIP and changes nothing else but
the prefetched bytes. In real-address and virtual-8086 mode the base is sixteen times the selector (log entry 8); in
protected mode CS takes the code segment's descriptor and the selector, whose RPL must be the CPL: with another one CS would
change the privilege level (R21), which only gates and returns do (R145), and the JMP is refused (D28, log entry 10). -/
def Obligations.JmpFarCompletes : Prop :=
  ∀ (s : State) (pre : List Pfx) (ptr : FarPtr) (z : WSize) (m : EA) (sel : Half) (off : Word),
    admits s (loadKey s .cs sel) →
    (mode s ≠ .protMode →
      (FarPtr.sel ptr = sel → FarPtr.off ptr = off →
        exec (.jmpFar pre ptr) s = .next { s with segs := s.segs.set .cs (segReal sel), eip := off, stored := [] }) ∧
      (readFar s pre z m = .ok (sel, off) →
        exec (.jmpFarM pre z m) s = .next { s with segs := s.segs.set .cs (segReal sel), eip := off, stored := [] })) ∧
    (mode s = .protMode → selReadable s sel → isCode (descAt s sel) = true → selRpl sel = cpl s →
      (FarPtr.sel ptr = sel → FarPtr.off ptr = off →
        exec (.jmpFar pre ptr) s = .next { s with
          segs := s.segs.set .cs (segOfDesc sel (descAt s sel)), eip := off, stored := [] }) ∧
      (readFar s pre z m = .ok (sel, off) →
        exec (.jmpFarM pre z m) s = .next { s with
          segs := s.segs.set .cs (segOfDesc sel (descAt s sel)), eip := off, stored := [] })) ∧
    (mode s = .protMode → selReadable s sel → isCode (descAt s sel) = true → selRpl sel ≠ cpl s →
      (FarPtr.sel ptr = sel → exec (.jmpFar pre ptr) s = .refused .privilegeChange) ∧
      (readFar s pre z m = .ok (sel, off) → exec (.jmpFarM pre z m) s = .refused .privilegeChange))

/-- R100, R97, R24: a near CALL pushes the address of the next instruction, 2 or 4 bytes by operand size, and transfers to
its target: memory changes only in the bytes pushed (ESP and addresses modulo 2^32: log entries 12 and 42), ESP by their
number, EIP, and the prefetched bytes are discarded; the push may come after what another agent has been writing (R49). -/
def Obligations.CallNearCompletes : Prop :=
  ∀ (s : State) (pre : List Pfx), MemoryCanonical s →
    (∀ rel : Rel, s.eip.toNat + Instr.len (.callRel pre rel) ≤ 0xFFFFFFFF →
      admits s (slotKey (s.reg .esp) (cpl s) rel.wsize 0) →
      ∃ mem amid, exec (.callRel pre rel) s = .next { s with
          gpr := s.gpr.set .esp (slotOff (s.reg .esp) rel.wsize 0)
          eip := truncZ rel.wsize (s.eip + BitVec.ofNat 32 (Instr.len (.callRel pre rel)) + Rel.value rel)
          mem := mem, amid := amid, stored := [] } ∧ (∀ c ∈ amid, c ∈ s.amid) ∧
        StoredAt s mem (s.lin .ss (slotOff (s.reg .esp) rel.wsize 0)) rel.wsize.bytes
          (s.eip + BitVec.ofNat 32 (Instr.len (.callRel pre rel)))) ∧
    (∀ (z : WSize) (src : Opnd Reg) (t : Word), readOpndZ s pre z src = .ok t →
      s.eip.toNat + Instr.len (.callRm pre z src) ≤ 0xFFFFFFFF → admits s (slotKey (s.reg .esp) (cpl s) z 0) →
      ∃ mem amid, exec (.callRm pre z src) s = .next { s with
          gpr := s.gpr.set .esp (slotOff (s.reg .esp) z 0), eip := t, mem := mem, amid := amid, stored := [] } ∧
        (∀ c ∈ amid, c ∈ s.amid) ∧
        StoredAt s mem (s.lin .ss (slotOff (s.reg .esp) z 0)) z.bytes
          (s.eip + BitVec.ofNat 32 (Instr.len (.callRm pre z src))))

/-- R101, R24, R60: a far CALL to an ordinary segment, immediate or through memory, pushes CS, zero-extended, then the
address of the next instruction, and loads CS:EIP as a far JMP does; in protected mode the descriptor is read after the
pushes (log entry 39), in the state `u` they leave. Memory changes only in the bytes pushed (ESP and addresses modulo 2^32:
log entries 12 and 42), which may come after what another agent has been writing (R49). In protected mode a selector whose
RPL is not the CPL would change the privilege level, which is refused (R101, D28; that this is how a far CALL changes it is
log entry 10). -/
def Obligations.CallFarCompletes : Prop :=
  ∀ (s : State) (pre : List Pfx) (ptr : FarPtr) (z : WSize) (m : EA) (sel : Half) (off next : Word) (i : Instr),
    MemoryCanonical s → admits s (loadKey s .cs sel) →
    (∀ k < 2, admits s (slotKey (s.reg .esp) (cpl s) z k)) →
    ((i = .callFar pre ptr ∧ ptr.wsize = z ∧ FarPtr.sel ptr = sel ∧ FarPtr.off ptr = off) ∨
      (i = .callFarM pre z m ∧ readFar s pre z m = .ok (sel, off))) →
    s.eip.toNat + Instr.len i ≤ 0xFFFFFFFF → next = s.eip + BitVec.ofNat 32 (Instr.len i) →
    (mode s ≠ .protMode ∨ (selReadable s sel ∧ isCode (descAt s sel) = true)) →
    ((mode s = .protMode → selRpl sel = cpl s) →
      ∃ (m1 : Memory) (u : State),
        u = { s with
          gpr := s.gpr.set .esp (slotOff (s.reg .esp) z 1), mem := u.mem, amid := u.amid, stored := u.stored } ∧
        exec i s = .next { u with
          segs := s.segs.set .cs (if mode s = .protMode then segOfDesc sel (descAt u sel) else segReal sel)
          eip := off, stored := [] } ∧
        (∀ c ∈ u.amid, c ∈ s.amid) ∧
        StoredAt s m1 (s.lin .ss (slotOff (s.reg .esp) z 0)) z.bytes (s.segs.cs.sel.setWidth 32) ∧
        StoredAt (withMem s m1) u.mem (s.lin .ss (slotOff (s.reg .esp) z 1)) z.bytes next) ∧
    (mode s = .protMode → selRpl sel ≠ cpl s → exec i s = .refused .privilegeChange)

/-- R103, R60: LES, LDS, LSS, LFS and LGS load the segment register with the selector, the general register with the offset,
16 bits leaving its upper half, advance EIP and change nothing else. In real-address and virtual-8086 mode the base is
sixteen times the selector (log entry 8); in protected mode the descriptor is loaded; a null selector is loaded as such
but in SS, where it raises interrupt 13 (log entry 11). -/
def Obligations.FarLoadsComplete : Prop :=
  ∀ (s : State) (r : SegName) (pre : List Pfx) (z : WSize) (dst : Reg) (m : EA) (i : Instr) (sel : Half) (off : Word),
    farLoad r pre z dst m = some i → readFar s pre z m = .ok (sel, off) → admits s (loadKey s r sel) →
    (s.eip.toNat + Instr.len i ≤ 0xFFFFFFFF →
      (mode s ≠ .protMode →
        exec i s = .next { s with
          segs := s.segs.set r (segReal sel), gpr := s.gpr.set dst (merged z (s.reg dst) off)
          eip := s.eip + BitVec.ofNat 32 (Instr.len i) }) ∧
      (mode s = .protMode → selReadable s sel →
        exec i s = .next { s with
          segs := s.segs.set r (segOfDesc sel (descAt s sel)), gpr := s.gpr.set dst (merged z (s.reg dst) off)
          eip := s.eip + BitVec.ofNat 32 (Instr.len i) }) ∧
      (mode s = .protMode → selNull sel = true → r ≠ .ss →
        exec i s = .next { s with
          segs := s.segs.set r (segNull sel), gpr := s.gpr.set dst (merged z (s.reg dst) off)
          eip := s.eip + BitVec.ofNat 32 (Instr.len i) })) ∧
    (mode s = .protMode → selNull sel = true → r = .ss → exec i s = deliver (faultWith 13 (sel &&& 0xFFFC) s) s)

/-- R64, R63, R122: each of the nine invalid operand forms raises interrupt 6 when it is executed: a fault without error
code at the instruction, nothing changed; in real-address mode with the accesses admitted its handler is entered (R138,
R139; log entries 3 and 8), RF clear there by the model's choice (log entry 22). -/
def Obligations.InvalidFormsRaiseSix : Prop :=
  ∀ (s : State) (i : Instr), invalidForm i = true →
    exec i s = deliver (faultOf 6 s) s ∧
    (MemoryCanonical s → RealReady s 6 → ∃ t, exec i s = .next t ∧ RealEntered (faultOf 6 s) s t)

/-- R48, R75, R84, R100, R101, R103, R135, R137: where `AccessCheck` refuses an access of an instruction, the instruction
raises the interrupt it names, with its error code, EXT clear in it (R152), as a fault at the instruction with nothing
changed, ESP included: the first read of its memory operand, before any test on the operand; the second read, of BOUND's
upper limit or of a far pointer's selector; a push of a CALL; the load of a segment register. The model's choices: JMP and
CALL read their far pointer in two accesses, the offset first (log entry 31), and the question about the load comes before
the tests on a null selector and on the table's limit (log entry 11), and a push counts ESP (log entry 12) and every access
its linear address (log entry 42) modulo 2^32. A page fault's linear address goes to CR2; that of an access of several bytes
is the address of its first byte (log entry 38), that of a load the address of the descriptor (log entry 38). -/
def Obligations.OperandDenialFaults : Prop :=
  ∀ (s : State) (i : Instr) (pre : List Pfx) (m : EA) (n : Nat) (d : AccessDenial),
    (firstRead i = some (pre, m, n) → accessDenial s (dataKey s (eaSeg pre m) (eaOff s m) n) = some d →
      exec i s = deliver (deniedEvent s d (s.lin (eaSeg pre m) (eaOff s m))) s) ∧
    (∀ add k, firstRead i = some (pre, m, n) → admits s (dataKey s (eaSeg pre m) (eaOff s m) n) →
      secondRead i = some (pre, m, add, k) →
      accessDenial s (dataKey s (eaSeg pre m) (eaOff s m + BitVec.ofNat 32 add) k) = some d →
      exec i s = deliver (deniedEvent s d (s.lin (eaSeg pre m) (eaOff s m + BitVec.ofNat 32 add))) s) ∧
    (∀ z, s.eip.toNat + Instr.len i ≤ 0xFFFFFFFF → accessDenial s (slotKey (s.reg .esp) (cpl s) z 0) = some d →
      ((∃ rel, i = .callRel pre rel ∧ rel.wsize = z) ∨
        (∃ src t, i = .callRm pre z src ∧ readOpndZ s pre z src = .ok t)) →
      exec i s = deliver (deniedEvent s d (s.lin .ss (slotOff (s.reg .esp) z 0))) s) ∧
    (∀ z sel off, s.eip.toNat + Instr.len i ≤ 0xFFFFFFFF → farTarget (Origin.ofInstr s) s sel = .ok .segment →
      ((∃ ptr, i = .callFar pre ptr ∧ ptr.wsize = z ∧ FarPtr.sel ptr = sel) ∨
        (i = .callFarM pre z m ∧ readFar s pre z m = .ok (sel, off))) →
      (∀ k < 2, (∀ j < k, admits s (slotKey (s.reg .esp) (cpl s) z j)) →
        accessDenial s (slotKey (s.reg .esp) (cpl s) z k) = some d →
        exec i s = deliver (deniedEvent s d (s.lin .ss (slotOff (s.reg .esp) z k))) s) ∧
      ((∀ j < 2, admits s (slotKey (s.reg .esp) (cpl s) z j)) → accessDenial s (loadKey s .cs sel) = some d →
        exec i s = deliver (deniedEvent s d (descAddr s sel)) s)) ∧
    (∀ z sel off, farTarget (Origin.ofInstr s) s sel = .ok .segment →
      ((∃ ptr, i = .jmpFar pre ptr ∧ FarPtr.sel ptr = sel) ∨
        (i = .jmpFarM pre z m ∧ readFar s pre z m = .ok (sel, off))) →
      accessDenial s (loadKey s .cs sel) = some d → exec i s = deliver (deniedEvent s d (descAddr s sel)) s) ∧
    (∀ r z dst sel off, farLoad r pre z dst m = some i → readFar s pre z m = .ok (sel, off) →
      accessDenial s (loadKey s r sel) = some d → exec i s = deliver (deniedEvent s d (descAddr s sel)) s)

/-- R12, D3: where the address of the next instruction passes FFFFFFFFh, an instruction that goes on to it, or keeps it
for a return, is refused (where that is, is log entry 20): INT 3, INTO, the relative transfers, the CALLs, a far JMP that
switches tasks, DIV and IDIV without a divide error, BOUND inside its limits, an idle WAIT and the far loads. -/
def Obligations.EipOverflowRefused : Prop :=
  ∀ (s : State) (pre : List Pfx),
    (0xFFFFFFFF < s.eip.toNat + Instr.len (.int3 pre) → exec (.int3 pre) s = .refused .eipOverflow) ∧
    (0xFFFFFFFF < s.eip.toNat + Instr.len (.into pre) → exec (.into pre) s = .refused .eipOverflow) ∧
    (∀ z rel, 0xFFFFFFFF < s.eip.toNat + Instr.len (.jmpRel8 pre z rel) →
      exec (.jmpRel8 pre z rel) s = .refused .eipOverflow) ∧
    (∀ rel, 0xFFFFFFFF < s.eip.toNat + Instr.len (.jmpRel pre rel) →
      exec (.jmpRel pre rel) s = .refused .eipOverflow) ∧
    (∀ rel, 0xFFFFFFFF < s.eip.toNat + Instr.len (.callRel pre rel) →
      exec (.callRel pre rel) s = .refused .eipOverflow) ∧
    (∀ z src t, readOpndZ s pre z src = .ok t → 0xFFFFFFFF < s.eip.toNat + Instr.len (.callRm pre z src) →
      exec (.callRm pre z src) s = .refused .eipOverflow) ∧
    (∀ ptr t, farTarget (Origin.ofInstr s) s (FarPtr.sel ptr) = .ok t →
      0xFFFFFFFF < s.eip.toNat + Instr.len (.callFar pre ptr) → exec (.callFar pre ptr) s = .refused .eipOverflow) ∧
    (∀ z m sel off t, readFar s pre z m = .ok (sel, off) → farTarget (Origin.ofInstr s) s sel = .ok t →
      0xFFFFFFFF < s.eip.toNat + Instr.len (.callFarM pre z m) → exec (.callFarM pre z m) s = .refused .eipOverflow) ∧
    (∀ ptr tss, farTarget (Origin.ofInstr s) s (FarPtr.sel ptr) = .ok (.task tss) →
      0xFFFFFFFF < s.eip.toNat + Instr.len (.jmpFar pre ptr) → exec (.jmpFar pre ptr) s = .refused .eipOverflow) ∧
    (∀ z m sel off tss, readFar s pre z m = .ok (sel, off) → farTarget (Origin.ofInstr s) s sel = .ok (.task tss) →
      0xFFFFFFFF < s.eip.toNat + Instr.len (.jmpFarM pre z m) → exec (.jmpFarM pre z m) s = .refused .eipOverflow) ∧
    (∀ src d, readOpnd8 s pre src = .ok d →
      (∀ q r : Nat, (s.reg16 .eax).toNat = q * d.toNat + r → r < d.toNat → q < 2 ^ 8 →
        0xFFFFFFFF < s.eip.toNat + Instr.len (.divRm8 pre src) → exec (.divRm8 pre src) s = .refused .eipOverflow) ∧
      (∀ q r, truncatedDivision (s.reg16 .eax).toInt (d.setWidth 8).toInt q r → -2 ^ 7 ≤ q → q ≤ 2 ^ 7 - 1 →
        0xFFFFFFFF < s.eip.toNat + Instr.len (.idivRm8 pre src) → exec (.idivRm8 pre src) s = .refused .eipOverflow)) ∧
    (∀ src d, readOpndZ s pre .o16 src = .ok d →
      (∀ q r : Nat, (s.reg16 .edx ++ s.reg16 .eax).toNat = q * d.toNat + r → r < d.toNat → q < 2 ^ 16 →
        0xFFFFFFFF < s.eip.toNat + Instr.len (.divRm pre .o16 src) → exec (.divRm pre .o16 src) s = .refused .eipOverflow) ∧
      (∀ q r, truncatedDivision (s.reg16 .edx ++ s.reg16 .eax).toInt (d.setWidth 16).toInt q r →
        -2 ^ 15 ≤ q → q ≤ 2 ^ 15 - 1 →
        0xFFFFFFFF < s.eip.toNat + Instr.len (.idivRm pre .o16 src) →
        exec (.idivRm pre .o16 src) s = .refused .eipOverflow)) ∧
    (∀ src d, readOpndZ s pre .o32 src = .ok d →
      (∀ q r : Nat, (s.reg .edx ++ s.reg .eax).toNat = q * d.toNat + r → r < d.toNat → q < 2 ^ 32 →
        0xFFFFFFFF < s.eip.toNat + Instr.len (.divRm pre .o32 src) → exec (.divRm pre .o32 src) s = .refused .eipOverflow) ∧
      (∀ q r, truncatedDivision (s.reg .edx ++ s.reg .eax).toInt d.toInt q r → -2 ^ 31 ≤ q → q ≤ 2 ^ 31 - 1 →
        0xFFFFFFFF < s.eip.toNat + Instr.len (.idivRm pre .o32 src) →
        exec (.idivRm pre .o32 src) s = .refused .eipOverflow)) ∧
    (∀ z idx m lower upper, readEA s pre m 0 z.bytes = .ok lower → readEA s pre m z.bytes z.bytes = .ok upper →
      signedZ z lower ≤ signedZ z (s.reg idx) → signedZ z (s.reg idx) ≤ signedZ z upper →
      0xFFFFFFFF < s.eip.toNat + Instr.len (.bound pre z idx m) →
      exec (.bound pre z idx m) s = .refused .eipOverflow) ∧
    (¬ (s.cr0MP = true ∧ s.cr0TS = true) → s.pins.npxError = false → s.pins.npxBusy = false →
      0xFFFFFFFF < s.eip.toNat + Instr.len (.wait pre) → exec (.wait pre) s = .refused .eipOverflow) ∧
    (∀ r z dst m i sel off g, farLoad r pre z dst m = some i → readFar s pre z m = .ok (sel, off) →
      loadSegment (Origin.ofInstr s) s r sel = .ok g → 0xFFFFFFFF < s.eip.toNat + Instr.len i →
      exec i s = .refused .eipOverflow)

/-! ### Invariants of every step -/

/-- The canonical form of memory is kept by every step. -/
def Obligations.StepKeepsMemoryForm : Prop :=
  ∀ s t : State, MemoryCanonical s → step s = .next t → MemoryCanonical t

/-- R14: bits 1, 3, 5 and 15 of EFLAGS keep their fixed values in every step. -/
def Obligations.StepKeepsFixedFlags : Prop :=
  ∀ s t : State, FlagsCanonical s → step s = .next t → FlagsCanonical t

/-- R31, R128, R138: `delivering` is none between steps, and the double fault's vector once the machine has shut down; no
write of another agent is under way between steps (log entry 36). -/
def Obligations.StepSettlesDelivery : Prop :=
  ∀ s t : State, Settled s → step s = .next t → Settled t

/-- The three invariants hold right after reset. -/
def Obligations.ResetMeetsInvariants : Prop :=
  MemoryCanonical State.reset ∧ FlagsCanonical State.reset ∧ Settled State.reset

/-! ### Whole-machine rules -/

/-- R145, R21, R98, R101: an instruction that reports no event and switches no task leaves the mode and the CPL as they
were: levels change through gates and returns. A far JMP or CALL that would change the level is refused (D28, log entry
10). -/
def Obligations.PrivilegeKept : Prop :=
  ∀ (i : Instr) (s t : State), exec i s = .next t → t.reported = s.reported → s.switched = none → t.switched = none →
    mode t = mode s ∧ cpl t = cpl s

/-- R83, R94, R136: an instruction reports no event but of its own vector and those of memory accesses, task switches and
double faults; so only INTO raises interrupt 4 and no instruction raises interrupt 9. -/
def Obligations.VectorsByInstruction : Prop :=
  ∀ (i : Instr) (s t : State), exec i s = .next t →
    ∃ l, t.reported = l ++ s.reported ∧
      ∀ e ∈ l, e.vector ∈ [8, 10, 11, 12, 13, 14] ∨ ownVector i = some e.vector

/-- R111, R112, R133, R151: exceptions are precise. An instruction is refused, or completes without an event, or takes one
event: a fault, in the state before it and with its own CS:EIP, or in a new task's context with that task's CS:EIP; or a
trap, with the CS:EIP of the next instruction and in the state that has advanced to it, RF clear (log entry 22). -/
def Obligations.ExceptionsArePrecise : Prop :=
  ∀ (i : Instr) (s : State),
    (∃ r, exec i s = .refused r) ∨ (∃ t, exec i s = .next t ∧ t.reported = s.reported) ∨
    (∃ e c, exec i s = deliver e c ∧
      ((e.cls = .fault ∧ e.newTask = false ∧ c = s ∧ e.savedCS = s.segs.cs.sel ∧ e.savedEIP = s.eip) ∨
        (e.cls = .fault ∧ e.newTask = true ∧ c.switched ≠ none ∧ e.savedCS = c.segs.cs.sel ∧ e.savedEIP = c.eip) ∨
        (e.cls = .trap ∧ e.savedCS = s.segs.cs.sel ∧ e.savedEIP = s.eip + BitVec.ofNat 32 (Instr.len i) ∧
          c = { s with eip := e.savedEIP, eflags := setBit s.eflags 16 false })))

/-- No instruction of the table writes GDTR, IDTR, the debug registers, TR6, TR7 or the inputs, nor any bit of CR0 but TS
(R15, R102); CR2 changes only with a page fault (R135); LDTR, TR and CR3 only with a task switch (R102). -/
def Obligations.SystemRegistersKept : Prop :=
  ∀ (i : Instr) (s t : State), exec i s = .next t →
    t.gdtr = s.gdtr ∧ t.idtr = s.idtr ∧ t.dr = s.dr ∧ t.debugTrap = s.debugTrap ∧ t.tr6 = s.tr6 ∧ t.tr7 = s.tr7 ∧
    t.pins = s.pins ∧
    t.halted = s.halted ∧ t.nmiBlocked = s.nmiBlocked ∧
    (t.cr0 = s.cr0 ∨ t.cr0 = setBit s.cr0 3 true) ∧
    ((∀ l, t.reported = l ++ s.reported → ∀ e ∈ l, e.vector ≠ 14) → t.cr2 = s.cr2) ∧
    (s.switched = none → t.switched = none → t.ldtr = s.ldtr ∧ t.tr = s.tr ∧ t.cr3 = s.cr3 ∧ t.cr0 = s.cr0)

/-- R43, R44, R49: without paging, a stored value of 1 to 4 bytes is in memory, least significant byte at the lowest
address, also byte by byte, and every byte outside is as before. A load gives for each of its bytes what memory holds, which
is the latest store in program order, or what another agent is writing there; each byte is open by itself (D13), and where
no other agent is writing, a load after a store gives what was stored. Of what other agents are writing to an address, a
store may come after the first few, which are then gone; the rest stays, all of it where nothing is stored. By the model's
choice addresses count modulo 2^32 (log entry 42), and each is ordinary memory, none absent or read-only (log entry 2). -/
def Obligations.StoresAndLoads : Prop :=
  (∀ (s : State) (lin : Word) (n : Nat) (v : Word), MemoryCanonical s → s.cr0PG = false → n ≤ 4 →
    readLin (store s lin n v) lin n = v.toNat % 256 ^ n ∧
    (∀ k < n, readLin (store s lin n v) (lin + BitVec.ofNat 32 k) 1 = v.toNat / 256 ^ k % 256) ∧
    OnlyBytes s (store s lin n v) lin n ∧
    (Alone s → loadLin (store s lin n v) lin n = v.toNat % 256 ^ n)) ∧
  (∀ (s : State) (lin : Word) (n : Nat), ∃ bs : List Byte, bs.length = n ∧ loadLin s lin n = leValue bs ∧
    ∀ (k : Nat) (h : k < bs.length),
      bs[k] = s.mem.read (phys s (lin + BitVec.ofNat 32 k)) ∨ (phys s (lin + BitVec.ofNat 32 k), bs[k]) ∈ s.amid) ∧
  (∀ (s : State) (lin : Word) (n : Nat) (v : Word) (a : Nat),
    (store s lin n v).amid.filter (fun c => decide (c.1 = a)) <:+ s.amid.filter (fun c => decide (c.1 = a)) ∧
    ((∀ k < n, a ≠ phys s (lin + BitVec.ofNat 32 k)) →
      (store s lin n v).amid.filter (fun c => decide (c.1 = a)) = s.amid.filter (fun c => decide (c.1 = a))))

end
end

