-- ==== Sys2Proof/Laws/Debug.lean ====
section
/-! SUPPORT. The debug conditions (R18, R117), said once: the bits of a mask of breakpoints, the answer of the input, when
an enabled breakpoint is hit by a data access, and what a report leaves in DR6. -/

namespace Sys2Proof.Machine

theorem bpMask_bit (f : Nat → Bool) {n : Nat} (hn : n < 4) : (bpMask f).getLsbD n = f n := by
  unfold bpMask
  interval_cases n <;> cases f 0 <;> cases f 1 <;> cases f 2 <;> cases f 3 <;> rfl

/-- A condition the input names: one of the answer at the head of the queue, if there is one (R17). -/
theorem debugInput_iff (s : State) {g : DebugCond → Bool} (hg : g DebugCond.none = false) :
    g (debugInput s) = true ↔ ∃ c, (s.pins.debug).head? = some c ∧ g c = true := by
  unfold debugInput
  cases (s.pins.debug).head? <;> simp [hg]

theorem bpArmed_iff (d : DebugRegs) (n : Nat) (v : BitVec 2) : BpArmed d n v ↔ d.enabled n = true ∧ d.rw n = v := by
  simp [BpArmed, DebugRegs.enabled, DebugRegs.rw]

theorem bpLen_iff (d : DebugRegs) (n : Nat) {len : Nat} (h0 : 0 < len) :
    ((d.dr7.extractLsb' (18 + 4 * n) 2 = 0#2 ∧ len = 1) ∨ (d.dr7.extractLsb' (18 + 4 * n) 2 = 1#2 ∧ len = 2) ∨
      (d.dr7.extractLsb' (18 + 4 * n) 2 = 3#2 ∧ len = 4)) ↔ d.len n = len := by
  unfold DebugRegs.len
  dsimp only
  generalize d.dr7.extractLsb' (18 + 4 * n) 2 = l
  have h : l = 0#2 ∨ l = 1#2 ∨ l = 2#2 ∨ l = 3#2 := by revert l; decide
  rcases h with rfl | rfl | rfl | rfl <;> simp <;> omega

/-- The two distances `dataHit` compares say that the access and the bytes of the breakpoint have one in common. -/
theorem bpCovers_iff (d : DebugRegs) (n : Nat) (lin : Word) {w : Nat} (hw : 0 < w) (hw' : w < 2 ^ 31) :
    BpCovers d n lin w ↔
      0 < d.len n ∧ ((lin - d.addr n).toNat < d.len n ∨ (d.addr n - lin).toNat < w) := by
  constructor
  · rintro ⟨j, k, len, hj, hk, hl, he⟩
    obtain rfl := (bpLen_iff d n (by omega)).1 hl
    have hl4 : d.len n ≤ 4 := by unfold DebugRegs.len; dsimp only; split_ifs <;> omega
    refine ⟨by omega, ?_⟩
    generalize d.addr n = a at *
    generalize d.len n = l at *
    rcases Nat.le_total j k with h | h
    · left; bv_omega
    · right; bv_omega
  · rintro ⟨h0, h | h⟩
    · exact ⟨0, (lin - d.addr n).toNat, d.len n, hw, h, (bpLen_iff d n h0).2 rfl, by bv_omega⟩
    · exact ⟨(d.addr n - lin).toNat, 0, d.len n, h, h0, (bpLen_iff d n h0).2 rfl, by bv_omega⟩

theorem dataHit_iff (d : DebugRegs) (n : Nat) {a : DataAccess} (h0 : 0 < a.n) (h1 : a.n < 2 ^ 31) :
    dataHit d a n = true ↔
      (BpArmed d n 3 ∨ (BpArmed d n 1 ∧ a.write = true)) ∧ BpCovers d n a.lin a.n := by
  rw [bpCovers_iff d n a.lin h0 h1]
  simp only [dataHit, bpArmed_iff, Bool.and_eq_true, Bool.or_eq_true, decide_eq_true_eq]
  tauto

theorem dr6Bits_bit (c : DebugCond) {k : Nat} (hk : k < 32) : (dr6Bits c).getLsbD k =
    (c.instrBp.getLsbD k || c.dataBp.getLsbD k || (decide (k = 13) && c.generalDetect) ||
      (decide (k = 14) && c.singleStep) || (decide (k = 15) && c.taskSwitchBp)) := by
  obtain ⟨ib, db, gd, ss, ts⟩ := c
  simp only [dr6Bits, BitVec.getLsbD_or, BitVec.getLsbD_setWidth]
  interval_cases k <;> cases gd <;> cases ss <;> cases ts <;> simp

/-- What a report leaves in DR6 (R18). -/
theorem noteDebug_dr6 (c : DebugCond) (s : State) : Dr6Gains s.dr.dr6 c (noteDebug c s).dr.dr6 := by
  show Dr6Gains s.dr.dr6 c (s.dr.dr6 ||| dr6Bits c)
  have z : ∀ (x : BitVec 4) {k : Nat}, 4 ≤ k → x.getLsbD k = false := fun x _ h => BitVec.getLsbD_of_ge _ _ h
  refine ⟨fun n hn => ?_, ?_, ?_, ?_, fun k h4 h13 h14 h15 => ?_⟩ <;> rw [BitVec.getLsbD_or]
  · rw [dr6Bits_bit c (by omega)]; interval_cases n <;> simp [Bool.or_assoc]
  · rw [dr6Bits_bit c (by omega)]; simp
  · rw [dr6Bits_bit c (by omega)]; simp
  · rw [dr6Bits_bit c (by omega)]; simp
  · rcases Nat.lt_or_ge k 32 with h | h
    · rw [dr6Bits_bit c h]; simp [z _ h4, h13, h14, h15]
    · simp [BitVec.getLsbD_of_ge _ _ h]

end Sys2Proof.Machine
end

