-- ==== Sys2Proof/Laws/PerInstr.lean ====
section
/-! SUPPORT. The length of every instruction's encoding (R8, R57): the encoder writes as many bytes as `Instr.byteLength`
counts, one lemma a constructor. -/

namespace Sys2Proof

theorem encodeEA_length (reg : BitVec 3) (m : EA) : (encodeEA reg m).length = m.size := by
  cases m with
  | ea16 b d => cases d <;> simp [encodeEA, EA.size, Disp16.bytes, Disp16.size, halfBytes]
  | abs16 d => simp [encodeEA, EA.size, halfBytes]
  | ea32 r d => cases d <;> simp [encodeEA, EA.size, Disp32.bytes, Disp32.size, wordBytes]
  | abs32 d => simp [encodeEA, EA.size, wordBytes]
  | sib s i b d => cases d <;> simp [encodeEA, EA.size, Disp32.bytes, Disp32.size, wordBytes]
  | sibAbs s i d => simp [encodeEA, EA.size, wordBytes]

theorem encodeRm_length (reg : BitVec 3) (o : Opnd Reg) : (encodeRm reg o).length = o.size := by
  cases o with
  | reg r => rfl
  | mem m => exact encodeEA_length reg m

theorem ofR8_size (o : Opnd Reg8) : o.ofR8.size = o.size := by cases o <;> rfl

namespace Laws.Length

/-- The encoding of an instruction has the length `Instr.byteLength` counts. -/
def Statement (i : Instr) : Prop := (encode i).length = i.byteLength

theorem divRm8 (pre : List Pfx) (src : Opnd Reg8) : Statement (.divRm8 pre src) := by
  simp only [Statement, encode, Instr.byteLength, List.length_append, List.length_map, List.length_cons, encodeRm_length,
    ofR8_size]
  omega

theorem divRm (pre : List Pfx) (z : WSize) (src : Opnd Reg) : Statement (.divRm pre z src) := by
  simp only [Statement, encode, Instr.byteLength, List.length_append, List.length_map, List.length_cons, encodeRm_length]
  omega

theorem idivRm8 (pre : List Pfx) (src : Opnd Reg8) : Statement (.idivRm8 pre src) := by
  simp only [Statement, encode, Instr.byteLength, List.length_append, List.length_map, List.length_cons, encodeRm_length,
    ofR8_size]
  omega

theorem idivRm (pre : List Pfx) (z : WSize) (src : Opnd Reg) : Statement (.idivRm pre z src) := by
  simp only [Statement, encode, Instr.byteLength, List.length_append, List.length_map, List.length_cons, encodeRm_length]
  omega

theorem int3 (pre : List Pfx) : Statement (.int3 pre) := by
  simp [Statement, encode, Instr.byteLength]

theorem into (pre : List Pfx) : Statement (.into pre) := by
  simp [Statement, encode, Instr.byteLength]

theorem bound (pre : List Pfx) (z : WSize) (idx : Reg) (m : EA) : Statement (.bound pre z idx m) := by
  simp only [Statement, encode, Instr.byteLength, List.length_append, List.length_map, List.length_cons, encodeEA_length]
  omega

theorem esc (pre : List Pfx) (low : BitVec 3) (ext : BitVec 3) (src : Opnd Reg) : Statement (.esc pre low ext src) := by
  simp only [Statement, encode, Instr.byteLength, List.length_append, List.length_map, List.length_cons, encodeRm_length]
  omega

theorem wait (pre : List Pfx) : Statement (.wait pre) := by
  simp [Statement, encode, Instr.byteLength]

theorem jmpRel8 (pre : List Pfx) (z : WSize) (rel : Byte) : Statement (.jmpRel8 pre z rel) := by
  simp [Statement, encode, Instr.byteLength]

theorem jmpRel (pre : List Pfx) (rel : Rel) : Statement (.jmpRel pre rel) := by
  cases rel <;> simp [Statement, encode, Instr.byteLength, Rel.bytes, Rel.wsize, halfBytes, wordBytes]

theorem jmpRm (pre : List Pfx) (z : WSize) (src : Opnd Reg) : Statement (.jmpRm pre z src) := by
  simp only [Statement, encode, Instr.byteLength, List.length_append, List.length_map, List.length_cons, encodeRm_length]
  omega

theorem jmpFar (pre : List Pfx) (ptr : FarPtr) : Statement (.jmpFar pre ptr) := by
  cases ptr <;> simp [Statement, encode, Instr.byteLength, FarPtr.bytes, FarPtr.wsize, halfBytes, wordBytes]

theorem jmpFarM (pre : List Pfx) (z : WSize) (m : EA) : Statement (.jmpFarM pre z m) := by
  simp only [Statement, encode, Instr.byteLength, List.length_append, List.length_map, List.length_cons, encodeEA_length]
  omega

theorem callRel (pre : List Pfx) (rel : Rel) : Statement (.callRel pre rel) := by
  cases rel <;> simp [Statement, encode, Instr.byteLength, Rel.bytes, Rel.wsize, halfBytes, wordBytes]

theorem callRm (pre : List Pfx) (z : WSize) (src : Opnd Reg) : Statement (.callRm pre z src) := by
  simp only [Statement, encode, Instr.byteLength, List.length_append, List.length_map, List.length_cons, encodeRm_length]
  omega

theorem callFar (pre : List Pfx) (ptr : FarPtr) : Statement (.callFar pre ptr) := by
  cases ptr <;> simp [Statement, encode, Instr.byteLength, FarPtr.bytes, FarPtr.wsize, halfBytes, wordBytes]

theorem callFarM (pre : List Pfx) (z : WSize) (m : EA) : Statement (.callFarM pre z m) := by
  simp only [Statement, encode, Instr.byteLength, List.length_append, List.length_map, List.length_cons, encodeEA_length]
  omega

theorem les (pre : List Pfx) (z : WSize) (dst : Reg) (m : EA) : Statement (.les pre z dst m) := by
  simp only [Statement, encode, Instr.byteLength, List.length_append, List.length_map, List.length_cons, encodeEA_length]
  omega

theorem lds (pre : List Pfx) (z : WSize) (dst : Reg) (m : EA) : Statement (.lds pre z dst m) := by
  simp only [Statement, encode, Instr.byteLength, List.length_append, List.length_map, List.length_cons, encodeEA_length]
  omega

theorem lss (pre : List Pfx) (z : WSize) (dst : Reg) (m : EA) : Statement (.lss pre z dst m) := by
  simp only [Statement, encode, Instr.byteLength, List.length_append, List.length_map, List.length_cons, encodeEA_length]
  omega

theorem lfs (pre : List Pfx) (z : WSize) (dst : Reg) (m : EA) : Statement (.lfs pre z dst m) := by
  simp only [Statement, encode, Instr.byteLength, List.length_append, List.length_map, List.length_cons, encodeEA_length]
  omega

theorem lgs (pre : List Pfx) (z : WSize) (dst : Reg) (m : EA) : Statement (.lgs pre z dst m) := by
  simp only [Statement, encode, Instr.byteLength, List.length_append, List.length_map, List.length_cons, encodeEA_length]
  omega

theorem invJmpFarReg (pre : List Pfx) (rm : Reg) : Statement (.invJmpFarReg pre rm) := by
  simp [Statement, encode, Instr.byteLength, encodeRm]

theorem invLesReg (pre : List Pfx) (dst : Reg) (rm : Reg) : Statement (.invLesReg pre dst rm) := by
  simp [Statement, encode, Instr.byteLength, encodeRm]

theorem invCallFarReg (pre : List Pfx) (rm : Reg) : Statement (.invCallFarReg pre rm) := by
  simp [Statement, encode, Instr.byteLength, encodeRm]

theorem invLdsReg (pre : List Pfx) (dst : Reg) (rm : Reg) : Statement (.invLdsReg pre dst rm) := by
  simp [Statement, encode, Instr.byteLength, encodeRm]

theorem invLssReg (pre : List Pfx) (dst : Reg) (rm : Reg) : Statement (.invLssReg pre dst rm) := by
  simp [Statement, encode, Instr.byteLength, encodeRm]

theorem invLfsReg (pre : List Pfx) (dst : Reg) (rm : Reg) : Statement (.invLfsReg pre dst rm) := by
  simp [Statement, encode, Instr.byteLength, encodeRm]

theorem invLgsReg (pre : List Pfx) (dst : Reg) (rm : Reg) : Statement (.invLgsReg pre dst rm) := by
  simp [Statement, encode, Instr.byteLength, encodeRm]

theorem invBoundReg (pre : List Pfx) (dst : Reg) (rm : Reg) : Statement (.invBoundReg pre dst rm) := by
  simp [Statement, encode, Instr.byteLength, encodeRm]

theorem invFf7 (pre : List Pfx) (src : Opnd Reg) : Statement (.invFf7 pre src) := by
  simp only [Statement, encode, Instr.byteLength, List.length_append, List.length_map, List.length_cons, encodeRm_length]
  omega

end Laws.Length

/-- `len` of R8 is the length of the encoding's parts. -/
theorem Instr.len_eq (i : Instr) : i.len = i.byteLength := by
  cases i with
  | divRm8 pre src => exact Laws.Length.divRm8 pre src
  | divRm pre z src => exact Laws.Length.divRm pre z src
  | idivRm8 pre src => exact Laws.Length.idivRm8 pre src
  | idivRm pre z src => exact Laws.Length.idivRm pre z src
  | int3 pre => exact Laws.Length.int3 pre
  | into pre => exact Laws.Length.into pre
  | bound pre z idx m => exact Laws.Length.bound pre z idx m
  | esc pre low ext src => exact Laws.Length.esc pre low ext src
  | wait pre => exact Laws.Length.wait pre
  | jmpRel8 pre z rel => exact Laws.Length.jmpRel8 pre z rel
  | jmpRel pre rel => exact Laws.Length.jmpRel pre rel
  | jmpRm pre z src => exact Laws.Length.jmpRm pre z src
  | jmpFar pre ptr => exact Laws.Length.jmpFar pre ptr
  | jmpFarM pre z m => exact Laws.Length.jmpFarM pre z m
  | callRel pre rel => exact Laws.Length.callRel pre rel
  | callRm pre z src => exact Laws.Length.callRm pre z src
  | callFar pre ptr => exact Laws.Length.callFar pre ptr
  | callFarM pre z m => exact Laws.Length.callFarM pre z m
  | les pre z dst m => exact Laws.Length.les pre z dst m
  | lds pre z dst m => exact Laws.Length.lds pre z dst m
  | lss pre z dst m => exact Laws.Length.lss pre z dst m
  | lfs pre z dst m => exact Laws.Length.lfs pre z dst m
  | lgs pre z dst m => exact Laws.Length.lgs pre z dst m
  | invJmpFarReg pre rm => exact Laws.Length.invJmpFarReg pre rm
  | invLesReg pre dst rm => exact Laws.Length.invLesReg pre dst rm
  | invCallFarReg pre rm => exact Laws.Length.invCallFarReg pre rm
  | invLdsReg pre dst rm => exact Laws.Length.invLdsReg pre dst rm
  | invLssReg pre dst rm => exact Laws.Length.invLssReg pre dst rm
  | invLfsReg pre dst rm => exact Laws.Length.invLfsReg pre dst rm
  | invLgsReg pre dst rm => exact Laws.Length.invLgsReg pre dst rm
  | invBoundReg pre dst rm => exact Laws.Length.invBoundReg pre dst rm
  | invFf7 pre src => exact Laws.Length.invFf7 pre src

end Sys2Proof
end

