-- ==== Sys2Proof/Laws/Decode.lean ====
section
/-! SUPPORT. The parts of decoding and encoding undo one another: byte order, register numbers, leading bytes, ModR/M and
SIB bytes and displacements (R43, R57 to R60). -/

namespace Sys2Proof

/-! ### Bytes and numbers -/

theorem le2_halfBytes (v : Half) : le2 (v.extractLsb' 0 8) (v.extractLsb' 8 8) = v := by
  apply BitVec.eq_of_getLsbD_eq
  intro i hi
  simp only [le2, BitVec.getLsbD_append, BitVec.getLsbD_extractLsb']
  by_cases h : i < 8
  · simp [h]
  · have : i - 8 < 8 := by omega
    simp [h, this, show 8 + (i - 8) = i by omega]

theorem le4_wordBytes (v : Word) :
    le4 (v.extractLsb' 0 8) (v.extractLsb' 8 8) (v.extractLsb' 16 8) (v.extractLsb' 24 8) = v := by
  apply BitVec.eq_of_getLsbD_eq
  intro i hi
  simp only [le4, BitVec.getLsbD_append, BitVec.getLsbD_extractLsb']
  by_cases h : i < 8
  · simp [h]
  · by_cases h1 : i - 8 < 8
    · simp [h, h1, show 8 + (i - 8) = i by omega]
    · by_cases h2 : i - 8 - 8 < 8
      · simp [h, h1, h2, show 16 + (i - 8 - 8) = i by omega]
      · have h3 : i - 8 - 8 - 8 < 8 := by omega
        simp [h, h1, h2, h3, show 24 + (i - 8 - 8 - 8) = i by omega]

theorem halfBytes_le2 (a b : Byte) : halfBytes (le2 a b) = [a, b] := by
  have e1 : (le2 a b).extractLsb' 0 8 = a := by
    apply BitVec.eq_of_getLsbD_eq
    intro i hi
    simp only [le2, BitVec.getLsbD_extractLsb', BitVec.getLsbD_append]
    simp [hi]
  have e2 : (le2 a b).extractLsb' 8 8 = b := by
    apply BitVec.eq_of_getLsbD_eq
    intro i hi
    simp only [le2, BitVec.getLsbD_extractLsb', BitVec.getLsbD_append]
    simp [hi]
  rw [halfBytes, e1, e2]

theorem wordBytes_le4 (a b c d : Byte) : wordBytes (le4 a b c d) = [a, b, c, d] := by
  have e : ∀ k < 4, (le4 a b c d).extractLsb' (8 * k) 8 = [a, b, c, d].getD k 0 := by
    intro k hk
    apply BitVec.eq_of_getLsbD_eq
    intro i hi
    simp only [le4, BitVec.getLsbD_append, BitVec.getLsbD_extractLsb']
    interval_cases k
    · simp [hi]
    · simp [hi, show ¬ 8 + i < 8 by omega, show 8 + i - 8 = i by omega]
    · simp [hi, show ¬ 16 + i < 8 by omega, show ¬ 16 + i - 8 < 8 by omega, show 16 + i - 8 - 8 = i by omega]
    · simp [hi, show ¬ 24 + i < 8 by omega, show ¬ 24 + i - 8 < 8 by omega, show ¬ 24 + i - 8 - 8 < 8 by omega,
        show 24 + i - 8 - 8 - 8 = i by omega]
  have e0 := e 0 (by omega)
  have e1 := e 1 (by omega)
  have e2 := e 2 (by omega)
  have e3 := e 3 (by omega)
  simp only [Nat.mul_zero, Nat.mul_one, Nat.reduceMul, List.getD_cons_zero, List.getD_cons_succ] at e0 e1 e2 e3
  rw [wordBytes, e0, e1, e2, e3]

@[simp] theorem Reg.ofNum_num (r : Reg) : Reg.ofNum r.num = r := by cases r <;> rfl
@[simp] theorem Reg.num_ofNum (n : BitVec 3) : (Reg.ofNum n).num = n := by revert n; decide
@[simp] theorem Reg.to8_toReg (r : Reg) : r.to8.toReg = r := by cases r <;> rfl
@[simp] theorem Reg8.toReg_to8 (r : Reg8) : r.toReg.to8 = r := by cases r <;> rfl
@[simp] theorem Base16.ofNum_num (b : Base16) : Base16.ofNum b.num = b := by cases b <;> rfl
@[simp] theorem Base16.num_ofNum (n : BitVec 3) : (Base16.ofNum n).num = n := by revert n; decide
@[simp] theorem idxNum_idxOfNum (n : BitVec 3) : idxNum (idxOfNum n) = n := by revert n; decide
@[simp] theorem Opnd.to8_ofR8 (o : Opnd Reg8) : o.ofR8.to8 = o := by cases o <;> simp [Opnd.to8, Opnd.ofR8]
@[simp] theorem Opnd.ofR8_to8 (o : Opnd Reg) : o.to8.ofR8 = o := by cases o <;> simp [Opnd.to8, Opnd.ofR8]

theorem idxOfNum_idxNum {i : Option Reg} (h : i ≠ some .esp) : idxOfNum (idxNum i) = i := by
  cases i with
  | none => rfl
  | some r => cases r <;> first | rfl | exact absurd rfl h

/-! ### The three fields of a ModR/M or SIB byte -/

theorem fields8_hi (hi : BitVec 2) (mid lo : BitVec 3) : (fields8 hi mid lo).extractLsb' 6 2 = hi := by
  revert hi mid lo; decide
theorem fields8_mid (hi : BitVec 2) (mid lo : BitVec 3) : (fields8 hi mid lo).extractLsb' 3 3 = mid := by
  revert hi mid lo; decide
theorem fields8_lo (hi : BitVec 2) (mid lo : BitVec 3) : (fields8 hi mid lo).extractLsb' 0 3 = lo := by
  revert hi mid lo; decide
theorem fields8_split (b : Byte) : fields8 (b.extractLsb' 6 2) (b.extractLsb' 3 3) (b.extractLsb' 0 3) = b := by
  revert b; decide

/-! ### Leading bytes -/

theorem Pfx.ofByte_byte (p : Pfx) : Pfx.ofByte p.byte = some p := by
  cases p with
  | seg r => cases r <;> rfl
  | _ => rfl

theorem Pfx.byte_ofByte {b : Byte} {p : Pfx} (h : Pfx.ofByte b = some p) : p.byte = b := by
  unfold Pfx.ofByte at h
  repeat' split at h
  all_goals first | (cases h; done) | (cases h; subst b; rfl)

theorem takePfx_append (p : List Pfx) {b : Byte} (h : Pfx.ofByte b = none) (bs : List Byte) :
    takePfx (p.map Pfx.byte ++ b :: bs) = (p, b :: bs) := by
  induction p with
  | nil => simp [takePfx, h]
  | cons q p ih => simp [takePfx, Pfx.ofByte_byte, ih]

theorem takePfx_eq (bs : List Byte) : (takePfx bs).1.map Pfx.byte ++ (takePfx bs).2 = bs := by
  induction bs with
  | nil => rfl
  | cons b bs ih =>
    unfold takePfx
    split
    · rename_i p hp
      simp [Pfx.byte_ofByte hp, ih]
    · rfl

/-! ### Operands -/

theorem parseDisp16_bytes (d : Disp16) (r : List Byte) : parseDisp16 d.mod (d.bytes ++ r) = some (d, r) := by
  cases d with
  | none => rfl
  | d8 d => rfl
  | d16 d => simp [parseDisp16, Disp16.mod, Disp16.bytes, halfBytes, le2_halfBytes]

theorem parseDisp32_bytes (d : Disp32) (r : List Byte) : parseDisp32 d.mod (d.bytes ++ r) = some (d, r) := by
  cases d with
  | none => rfl
  | d8 d => rfl
  | d32 d => simp [parseDisp32, Disp32.mod, Disp32.bytes, wordBytes, le4_wordBytes]

theorem Disp16.mod_ne (d : Disp16) : d.mod ≠ 3 := by cases d <;> simp [Disp16.mod]
theorem Disp32.mod_ne (d : Disp32) : d.mod ≠ 3 := by cases d <;> simp [Disp32.mod]
theorem Disp16.mod_zero {d : Disp16} : d.mod = 0 ↔ d = .none := by cases d <;> simp [Disp16.mod]
theorem Disp32.mod_zero {d : Disp32} : d.mod = 0 ↔ d = .none := by cases d <;> simp [Disp32.mod]

theorem parseEA16_encode {b : Base16} {d : Disp16} (h : ¬ (b = .bp ∧ d = .none)) (r : List Byte) :
    parseEA16 d.mod b.num (d.bytes ++ r) = some (.ea16 b d, r) := by
  unfold parseEA16
  rw [if_neg, parseDisp16_bytes, Base16.ofNum_num]
  rintro ⟨h1, h2⟩
  exact h ⟨by cases b <;> first | rfl | exact absurd h2 (by decide), Disp16.mod_zero.1 h1⟩

theorem parseSib_encode {s : BitVec 2} {i : Option Reg} {b : Reg} {d : Disp32} (hi : i ≠ some .esp)
    (h : ¬ (b = .ebp ∧ d = .none)) (r : List Byte) :
    parseSib d.mod (fields8 s (idxNum i) b.num :: d.bytes ++ r) = some (.sib s i b d, r) := by
  simp only [parseSib, List.cons_append, fields8_hi, fields8_mid, fields8_lo]
  rw [if_neg, parseDisp32_bytes, Reg.ofNum_num, idxOfNum_idxNum hi]
  rintro ⟨h1, h2⟩
  exact h ⟨by cases b <;> first | rfl | exact absurd h2 (by decide), Disp32.mod_zero.1 h1⟩

theorem parseSib_abs {s : BitVec 2} {i : Option Reg} {d : Word} (hi : i ≠ some .esp) (r : List Byte) :
    parseSib 0 (fields8 s (idxNum i) 5 :: wordBytes d ++ r) = some (.sibAbs s i d, r) := by
  simp only [parseSib, List.cons_append, fields8_hi, fields8_mid, fields8_lo, wordBytes, List.nil_append]
  rw [if_pos (by simp), le4_wordBytes, idxOfNum_idxNum hi]

theorem parseEA32_encode {b : Reg} {d : Disp32} (hs : b ≠ .esp) (h : ¬ (b = .ebp ∧ d = .none)) (r : List Byte) :
    parseEA32 d.mod b.num (d.bytes ++ r) = some (.ea32 b d, r) := by
  unfold parseEA32
  rw [if_neg (by cases b <;> first | decide | exact absurd rfl hs), if_neg, parseDisp32_bytes, Reg.ofNum_num]
  rintro ⟨h1, h2⟩
  exact h ⟨by cases b <;> first | rfl | exact absurd h2 (by decide), Disp32.mod_zero.1 h1⟩

/-- A memory operand reads back (R58, R59). -/
theorem parseRm_encodeEA {a32 : Bool} (reg : BitVec 3) {m : EA} (h : m.wf a32 = true) (r : List Byte) :
    parseRm a32 (encodeEA reg m ++ r) = some (reg, .mem m, r) := by
  cases m with
  | ea16 b d =>
    simp only [EA.wf, Bool.and_eq_true, Bool.not_eq_true', Bool.and_eq_false_iff, decide_eq_false_iff_not] at h
    have h2 : ¬ (b = .bp ∧ d = .none) := by tauto
    simp only [parseRm, encodeEA, List.cons_append, fields8_hi, fields8_mid, fields8_lo, h.1, if_neg d.mod_ne,
      parseEA16_encode h2, Bool.false_eq_true, if_false]
  | abs16 d =>
    simp only [EA.wf, Bool.not_eq_true'] at h
    simp only [parseRm, encodeEA, List.cons_append, fields8_hi, fields8_mid, fields8_lo, h]
    simp [parseEA16, halfBytes, le2_halfBytes]
  | ea32 b d =>
    simp only [EA.wf, Bool.and_eq_true, Bool.not_eq_true', Bool.and_eq_false_iff, decide_eq_false_iff_not,
      decide_eq_true_eq] at h
    have h2 : ¬ (b = .ebp ∧ d = .none) := by tauto
    simp only [parseRm, encodeEA, List.cons_append, fields8_hi, fields8_mid, fields8_lo, h.1.1, if_neg d.mod_ne,
      parseEA32_encode h.1.2 h2, if_true]
  | abs32 d =>
    simp only [EA.wf] at h
    simp only [parseRm, encodeEA, List.cons_append, fields8_hi, fields8_mid, fields8_lo, h]
    simp [parseEA32, wordBytes, le4_wordBytes]
  | sib s i b d =>
    simp only [EA.wf, Bool.and_eq_true, Bool.not_eq_true', Bool.and_eq_false_iff, decide_eq_false_iff_not,
      decide_eq_true_eq] at h
    have h2 : ¬ (b = .ebp ∧ d = .none) := by tauto
    simp only [parseRm, encodeEA, List.cons_append, fields8_hi, fields8_mid, fields8_lo, h.1.1, if_neg d.mod_ne, if_true,
      parseEA32]
    have := parseSib_encode (s := s) h.1.2 h2 r
    rw [List.cons_append] at this
    rw [this]
  | sibAbs s i d =>
    simp only [EA.wf, Bool.and_eq_true, decide_eq_true_eq] at h
    simp only [parseRm, encodeEA, List.cons_append, fields8_hi, fields8_mid, fields8_lo, h.1, if_true, parseEA32]
    have := parseSib_abs (s := s) (d := d) h.2 r
    rw [List.cons_append] at this
    rw [this]
    rfl

/-- An operand reads back (R58, R59). -/
theorem parseRm_encodeRm {a32 : Bool} (reg : BitVec 3) {o : Opnd Reg} (h : o.wf a32 = true) (r : List Byte) :
    parseRm a32 (encodeRm reg o ++ r) = some (reg, o, r) := by
  cases o with
  | reg x => simp [parseRm, encodeRm, fields8_hi, fields8_mid, fields8_lo]
  | mem m => exact parseRm_encodeEA reg h r

/-! ### What parsing reads is what encoding writes -/

theorem parseDisp16_eq {mod : BitVec 2} (hm : mod ≠ 3) {bs r : List Byte} {d : Disp16}
    (h : parseDisp16 mod bs = some (d, r)) : d.mod = mod ∧ d.bytes ++ r = bs := by
  unfold parseDisp16 at h
  split at h
  · rename_i h0
    cases h
    exact ⟨h0.symm, rfl⟩
  · split at h
    · rename_i h1
      split at h
      · cases h
        exact ⟨h1.symm, rfl⟩
      · cases h
    · rename_i h0 h1
      split at h
      · cases h
        refine ⟨?_, by simp [Disp16.bytes, halfBytes_le2]⟩
        revert mod
        simp only [Disp16.mod]
        decide
      · cases h

theorem parseDisp32_eq {mod : BitVec 2} (hm : mod ≠ 3) {bs r : List Byte} {d : Disp32}
    (h : parseDisp32 mod bs = some (d, r)) : d.mod = mod ∧ d.bytes ++ r = bs := by
  unfold parseDisp32 at h
  split at h
  · rename_i h0
    cases h
    exact ⟨h0.symm, rfl⟩
  · split at h
    · rename_i h1
      split at h
      · cases h
        exact ⟨h1.symm, rfl⟩
      · cases h
    · rename_i h0 h1
      split at h
      · cases h
        refine ⟨?_, by simp [Disp32.bytes, wordBytes_le4]⟩
        revert mod
        simp only [Disp32.mod]
        decide
      · cases h

theorem idxOfNum_ne (n : BitVec 3) : idxOfNum n ≠ some .esp := by revert n; decide

theorem parseEA16_eq {mod : BitVec 2} {rm reg : BitVec 3} (hm : mod ≠ 3) {bs r : List Byte} {m : EA}
    (h : parseEA16 mod rm bs = some (m, r)) : m.wf false = true ∧ encodeEA reg m ++ r = fields8 mod reg rm :: bs := by
  unfold parseEA16 at h
  split at h
  · rename_i h0
    split at h
    · cases h
      simp [EA.wf, encodeEA, halfBytes_le2, h0]
    · cases h
  · rename_i h0
    split at h
    · rename_i d r' hd
      cases h
      obtain ⟨e1, e2⟩ := parseDisp16_eq hm hd
      refine ⟨?_, by simp [encodeEA, e1, e2]⟩
      simp only [EA.wf, Bool.and_eq_true, Bool.not_eq_true', Bool.and_eq_false_iff, decide_eq_false_iff_not, true_and,
        Bool.not_false]
      by_contra hc
      simp only [not_or, not_not] at hc
      refine h0 ⟨by rw [← e1, hc.2]; rfl, ?_⟩
      exact (Base16.num_ofNum _).symm.trans (congrArg Base16.num hc.1)
    · cases h

theorem parseSib_eq {mod : BitVec 2} {reg : BitVec 3} (hm : mod ≠ 3) {bs r : List Byte} {m : EA}
    (h : parseSib mod bs = some (m, r)) : m.wf true = true ∧ encodeEA reg m ++ r = fields8 mod reg 4 :: bs := by
  unfold parseSib at h
  split at h
  · cases h
  · rename_i b bs
    dsimp only at h
    split at h
    · rename_i h0
      split at h
      · cases h
        have e : fields8 (b.extractLsb' 6 2) (b.extractLsb' 3 3) 5 = b := by rw [← h0.2]; exact fields8_split b
        simpa [EA.wf, encodeEA, wordBytes_le4, h0, idxOfNum_ne] using e
      · cases h
    · rename_i h0
      split at h
      · rename_i d r' hd
        cases h
        obtain ⟨e1, e2⟩ := parseDisp32_eq hm hd
        refine ⟨?_, by simp [encodeEA, e1, e2, fields8_split]⟩
        simp only [EA.wf, Bool.and_eq_true, Bool.not_eq_true', Bool.and_eq_false_iff, decide_eq_false_iff_not, true_and,
          decide_eq_true_eq]
        refine ⟨idxOfNum_ne _, ?_⟩
        by_contra hc
        simp only [not_or, not_not] at hc
        refine h0 ⟨by rw [← e1, hc.2]; rfl, ?_⟩
        exact (Reg.num_ofNum _).symm.trans (congrArg Reg.num hc.1)
      · cases h

theorem parseEA32_eq {mod : BitVec 2} {rm reg : BitVec 3} (hm : mod ≠ 3) {bs r : List Byte} {m : EA}
    (h : parseEA32 mod rm bs = some (m, r)) : m.wf true = true ∧ encodeEA reg m ++ r = fields8 mod reg rm :: bs := by
  unfold parseEA32 at h
  split at h
  · rename_i h4
    rw [h4]
    exact parseSib_eq hm h
  · rename_i h4
    split at h
    · rename_i h0
      split at h
      · cases h
        simp [EA.wf, encodeEA, wordBytes_le4, h0]
      · cases h
    · rename_i h0
      split at h
      · rename_i d r' hd
        cases h
        obtain ⟨e1, e2⟩ := parseDisp32_eq hm hd
        refine ⟨?_, by simp [encodeEA, e1, e2]⟩
        simp only [EA.wf, Bool.and_eq_true, Bool.not_eq_true', Bool.and_eq_false_iff, decide_eq_false_iff_not, true_and,
          decide_eq_true_eq]
        refine ⟨fun hc => h4 ?_, ?_⟩
        · exact (Reg.num_ofNum _).symm.trans (congrArg Reg.num hc)
        · by_contra hc
          simp only [not_or, not_not] at hc
          refine h0 ⟨by rw [← e1, hc.2]; rfl, ?_⟩
          exact (Reg.num_ofNum _).symm.trans (congrArg Reg.num hc.1)
      · cases h

/-- What a ModR/M byte and its operand are read from is their encoding (R58, R59). -/
theorem parseRm_eq {a32 : Bool} {bs r : List Byte} {reg : BitVec 3} {o : Opnd Reg}
    (h : parseRm a32 bs = some (reg, o, r)) : o.wf a32 = true ∧ encodeRm reg o ++ r = bs := by
  unfold parseRm at h
  split at h
  · cases h
  · rename_i b bs
    dsimp only at h
    split at h
    · rename_i h3
      cases h
      refine ⟨rfl, ?_⟩
      simp only [encodeRm, Reg.num_ofNum, List.cons_append, List.nil_append]
      rw [← h3, fields8_split]
    · rename_i h3
      split at h
      · rename_i m r' hm
        cases h
        cases a32
        · obtain ⟨h1, h2⟩ := parseEA16_eq (reg := b.extractLsb' 3 3) h3 hm
          exact ⟨h1, by rw [encodeRm, h2, fields8_split]⟩
        · obtain ⟨h1, h2⟩ := parseEA32_eq (reg := b.extractLsb' 3 3) h3 hm
          exact ⟨h1, by rw [encodeRm, h2, fields8_split]⟩
      · cases h

end Sys2Proof
end

