-- ==== Sys2Proof/Laws/State.lean ====
section
/-! SUPPORT. What each named update of the state does to each field: one lemma a field, true by definition, so that no
proof unfolds an update. -/

namespace Sys2Proof.Machine

/-! ### `setReg` -/

@[simp] theorem setReg_gpr (s : State) (r : Reg) (v : Word) : (s.setReg r v).gpr = s.gpr.set r v := rfl
@[simp] theorem setReg_eip (s : State) (r : Reg) (v : Word) : (s.setReg r v).eip = s.eip := rfl
@[simp] theorem setReg_eflags (s : State) (r : Reg) (v : Word) : (s.setReg r v).eflags = s.eflags := rfl
@[simp] theorem setReg_segs (s : State) (r : Reg) (v : Word) : (s.setReg r v).segs = s.segs := rfl
@[simp] theorem setReg_ldtr (s : State) (r : Reg) (v : Word) : (s.setReg r v).ldtr = s.ldtr := rfl
@[simp] theorem setReg_tr (s : State) (r : Reg) (v : Word) : (s.setReg r v).tr = s.tr := rfl
@[simp] theorem setReg_gdtr (s : State) (r : Reg) (v : Word) : (s.setReg r v).gdtr = s.gdtr := rfl
@[simp] theorem setReg_idtr (s : State) (r : Reg) (v : Word) : (s.setReg r v).idtr = s.idtr := rfl
@[simp] theorem setReg_cr0 (s : State) (r : Reg) (v : Word) : (s.setReg r v).cr0 = s.cr0 := rfl
@[simp] theorem setReg_cr2 (s : State) (r : Reg) (v : Word) : (s.setReg r v).cr2 = s.cr2 := rfl
@[simp] theorem setReg_cr3 (s : State) (r : Reg) (v : Word) : (s.setReg r v).cr3 = s.cr3 := rfl
@[simp] theorem setReg_dr (s : State) (r : Reg) (v : Word) : (s.setReg r v).dr = s.dr := rfl
@[simp] theorem setReg_tr6 (s : State) (r : Reg) (v : Word) : (s.setReg r v).tr6 = s.tr6 := rfl
@[simp] theorem setReg_tr7 (s : State) (r : Reg) (v : Word) : (s.setReg r v).tr7 = s.tr7 := rfl
@[simp] theorem setReg_mem (s : State) (r : Reg) (v : Word) : (s.setReg r v).mem = s.mem := rfl
@[simp] theorem setReg_delivering (s : State) (r : Reg) (v : Word) : (s.setReg r v).delivering = s.delivering := rfl
@[simp] theorem setReg_shutdown (s : State) (r : Reg) (v : Word) : (s.setReg r v).shutdown = s.shutdown := rfl
@[simp] theorem setReg_halted (s : State) (r : Reg) (v : Word) : (s.setReg r v).halted = s.halted := rfl
@[simp] theorem setReg_nmiBlocked (s : State) (r : Reg) (v : Word) : (s.setReg r v).nmiBlocked = s.nmiBlocked := rfl
@[simp] theorem setReg_stored (s : State) (r : Reg) (v : Word) : (s.setReg r v).stored = s.stored := rfl
@[simp] theorem setReg_reported (s : State) (r : Reg) (v : Word) : (s.setReg r v).reported = s.reported := rfl
@[simp] theorem setReg_switched (s : State) (r : Reg) (v : Word) : (s.setReg r v).switched = s.switched := rfl
@[simp] theorem setReg_debugTrap (s : State) (r : Reg) (v : Word) : (s.setReg r v).debugTrap = s.debugTrap := rfl
@[simp] theorem setReg_amid (s : State) (r : Reg) (v : Word) : (s.setReg r v).amid = s.amid := rfl
@[simp] theorem setReg_pins (s : State) (r : Reg) (v : Word) : (s.setReg r v).pins = s.pins := rfl
@[simp] theorem setReg_draws (s : State) (r : Reg) (v : Word) : (s.setReg r v).draws = s.draws := rfl

/-! ### `setReg16` -/

@[simp] theorem setReg16_gpr (s : State) (r : Reg) (v : Half) : (s.setReg16 r v).gpr = s.gpr.set r ((s.reg r).extractLsb' 16 16 ++ v) := rfl
@[simp] theorem setReg16_eip (s : State) (r : Reg) (v : Half) : (s.setReg16 r v).eip = s.eip := rfl
@[simp] theorem setReg16_eflags (s : State) (r : Reg) (v : Half) : (s.setReg16 r v).eflags = s.eflags := rfl
@[simp] theorem setReg16_segs (s : State) (r : Reg) (v : Half) : (s.setReg16 r v).segs = s.segs := rfl
@[simp] theorem setReg16_ldtr (s : State) (r : Reg) (v : Half) : (s.setReg16 r v).ldtr = s.ldtr := rfl
@[simp] theorem setReg16_tr (s : State) (r : Reg) (v : Half) : (s.setReg16 r v).tr = s.tr := rfl
@[simp] theorem setReg16_gdtr (s : State) (r : Reg) (v : Half) : (s.setReg16 r v).gdtr = s.gdtr := rfl
@[simp] theorem setReg16_idtr (s : State) (r : Reg) (v : Half) : (s.setReg16 r v).idtr = s.idtr := rfl
@[simp] theorem setReg16_cr0 (s : State) (r : Reg) (v : Half) : (s.setReg16 r v).cr0 = s.cr0 := rfl
@[simp] theorem setReg16_cr2 (s : State) (r : Reg) (v : Half) : (s.setReg16 r v).cr2 = s.cr2 := rfl
@[simp] theorem setReg16_cr3 (s : State) (r : Reg) (v : Half) : (s.setReg16 r v).cr3 = s.cr3 := rfl
@[simp] theorem setReg16_dr (s : State) (r : Reg) (v : Half) : (s.setReg16 r v).dr = s.dr := rfl
@[simp] theorem setReg16_tr6 (s : State) (r : Reg) (v : Half) : (s.setReg16 r v).tr6 = s.tr6 := rfl
@[simp] theorem setReg16_tr7 (s : State) (r : Reg) (v : Half) : (s.setReg16 r v).tr7 = s.tr7 := rfl
@[simp] theorem setReg16_mem (s : State) (r : Reg) (v : Half) : (s.setReg16 r v).mem = s.mem := rfl
@[simp] theorem setReg16_delivering (s : State) (r : Reg) (v : Half) : (s.setReg16 r v).delivering = s.delivering := rfl
@[simp] theorem setReg16_shutdown (s : State) (r : Reg) (v : Half) : (s.setReg16 r v).shutdown = s.shutdown := rfl
@[simp] theorem setReg16_halted (s : State) (r : Reg) (v : Half) : (s.setReg16 r v).halted = s.halted := rfl
@[simp] theorem setReg16_nmiBlocked (s : State) (r : Reg) (v : Half) : (s.setReg16 r v).nmiBlocked = s.nmiBlocked := rfl
@[simp] theorem setReg16_stored (s : State) (r : Reg) (v : Half) : (s.setReg16 r v).stored = s.stored := rfl
@[simp] theorem setReg16_reported (s : State) (r : Reg) (v : Half) : (s.setReg16 r v).reported = s.reported := rfl
@[simp] theorem setReg16_switched (s : State) (r : Reg) (v : Half) : (s.setReg16 r v).switched = s.switched := rfl
@[simp] theorem setReg16_debugTrap (s : State) (r : Reg) (v : Half) : (s.setReg16 r v).debugTrap = s.debugTrap := rfl
@[simp] theorem setReg16_amid (s : State) (r : Reg) (v : Half) : (s.setReg16 r v).amid = s.amid := rfl
@[simp] theorem setReg16_pins (s : State) (r : Reg) (v : Half) : (s.setReg16 r v).pins = s.pins := rfl
@[simp] theorem setReg16_draws (s : State) (r : Reg) (v : Half) : (s.setReg16 r v).draws = s.draws := rfl

/-! ### `setRegZ` -/

@[simp] theorem setRegZ_eip (s : State) (z : WSize) (r : Reg) (v : Word) : (s.setRegZ z r v).eip = s.eip := by cases z <;> rfl
@[simp] theorem setRegZ_eflags (s : State) (z : WSize) (r : Reg) (v : Word) : (s.setRegZ z r v).eflags = s.eflags := by cases z <;> rfl
@[simp] theorem setRegZ_segs (s : State) (z : WSize) (r : Reg) (v : Word) : (s.setRegZ z r v).segs = s.segs := by cases z <;> rfl
@[simp] theorem setRegZ_ldtr (s : State) (z : WSize) (r : Reg) (v : Word) : (s.setRegZ z r v).ldtr = s.ldtr := by cases z <;> rfl
@[simp] theorem setRegZ_tr (s : State) (z : WSize) (r : Reg) (v : Word) : (s.setRegZ z r v).tr = s.tr := by cases z <;> rfl
@[simp] theorem setRegZ_gdtr (s : State) (z : WSize) (r : Reg) (v : Word) : (s.setRegZ z r v).gdtr = s.gdtr := by cases z <;> rfl
@[simp] theorem setRegZ_idtr (s : State) (z : WSize) (r : Reg) (v : Word) : (s.setRegZ z r v).idtr = s.idtr := by cases z <;> rfl
@[simp] theorem setRegZ_cr0 (s : State) (z : WSize) (r : Reg) (v : Word) : (s.setRegZ z r v).cr0 = s.cr0 := by cases z <;> rfl
@[simp] theorem setRegZ_cr2 (s : State) (z : WSize) (r : Reg) (v : Word) : (s.setRegZ z r v).cr2 = s.cr2 := by cases z <;> rfl
@[simp] theorem setRegZ_cr3 (s : State) (z : WSize) (r : Reg) (v : Word) : (s.setRegZ z r v).cr3 = s.cr3 := by cases z <;> rfl
@[simp] theorem setRegZ_dr (s : State) (z : WSize) (r : Reg) (v : Word) : (s.setRegZ z r v).dr = s.dr := by cases z <;> rfl
@[simp] theorem setRegZ_tr6 (s : State) (z : WSize) (r : Reg) (v : Word) : (s.setRegZ z r v).tr6 = s.tr6 := by cases z <;> rfl
@[simp] theorem setRegZ_tr7 (s : State) (z : WSize) (r : Reg) (v : Word) : (s.setRegZ z r v).tr7 = s.tr7 := by cases z <;> rfl
@[simp] theorem setRegZ_mem (s : State) (z : WSize) (r : Reg) (v : Word) : (s.setRegZ z r v).mem = s.mem := by cases z <;> rfl
@[simp] theorem setRegZ_delivering (s : State) (z : WSize) (r : Reg) (v : Word) : (s.setRegZ z r v).delivering = s.delivering := by cases z <;> rfl
@[simp] theorem setRegZ_shutdown (s : State) (z : WSize) (r : Reg) (v : Word) : (s.setRegZ z r v).shutdown = s.shutdown := by cases z <;> rfl
@[simp] theorem setRegZ_halted (s : State) (z : WSize) (r : Reg) (v : Word) : (s.setRegZ z r v).halted = s.halted := by cases z <;> rfl
@[simp] theorem setRegZ_nmiBlocked (s : State) (z : WSize) (r : Reg) (v : Word) : (s.setRegZ z r v).nmiBlocked = s.nmiBlocked := by cases z <;> rfl
@[simp] theorem setRegZ_stored (s : State) (z : WSize) (r : Reg) (v : Word) : (s.setRegZ z r v).stored = s.stored := by cases z <;> rfl
@[simp] theorem setRegZ_reported (s : State) (z : WSize) (r : Reg) (v : Word) : (s.setRegZ z r v).reported = s.reported := by cases z <;> rfl
@[simp] theorem setRegZ_switched (s : State) (z : WSize) (r : Reg) (v : Word) : (s.setRegZ z r v).switched = s.switched := by cases z <;> rfl
@[simp] theorem setRegZ_debugTrap (s : State) (z : WSize) (r : Reg) (v : Word) : (s.setRegZ z r v).debugTrap = s.debugTrap := by cases z <;> rfl
@[simp] theorem setRegZ_amid (s : State) (z : WSize) (r : Reg) (v : Word) : (s.setRegZ z r v).amid = s.amid := by cases z <;> rfl
@[simp] theorem setRegZ_pins (s : State) (z : WSize) (r : Reg) (v : Word) : (s.setRegZ z r v).pins = s.pins := by cases z <;> rfl
@[simp] theorem setRegZ_draws (s : State) (z : WSize) (r : Reg) (v : Word) : (s.setRegZ z r v).draws = s.draws := by cases z <;> rfl

/-! ### `setSeg` -/

@[simp] theorem setSeg_gpr (s : State) (r : SegName) (v : SegReg) : (s.setSeg r v).gpr = s.gpr := rfl
@[simp] theorem setSeg_eip (s : State) (r : SegName) (v : SegReg) : (s.setSeg r v).eip = s.eip := rfl
@[simp] theorem setSeg_eflags (s : State) (r : SegName) (v : SegReg) : (s.setSeg r v).eflags = s.eflags := rfl
@[simp] theorem setSeg_segs (s : State) (r : SegName) (v : SegReg) : (s.setSeg r v).segs = s.segs.set r v := rfl
@[simp] theorem setSeg_ldtr (s : State) (r : SegName) (v : SegReg) : (s.setSeg r v).ldtr = s.ldtr := rfl
@[simp] theorem setSeg_tr (s : State) (r : SegName) (v : SegReg) : (s.setSeg r v).tr = s.tr := rfl
@[simp] theorem setSeg_gdtr (s : State) (r : SegName) (v : SegReg) : (s.setSeg r v).gdtr = s.gdtr := rfl
@[simp] theorem setSeg_idtr (s : State) (r : SegName) (v : SegReg) : (s.setSeg r v).idtr = s.idtr := rfl
@[simp] theorem setSeg_cr0 (s : State) (r : SegName) (v : SegReg) : (s.setSeg r v).cr0 = s.cr0 := rfl
@[simp] theorem setSeg_cr2 (s : State) (r : SegName) (v : SegReg) : (s.setSeg r v).cr2 = s.cr2 := rfl
@[simp] theorem setSeg_cr3 (s : State) (r : SegName) (v : SegReg) : (s.setSeg r v).cr3 = s.cr3 := rfl
@[simp] theorem setSeg_dr (s : State) (r : SegName) (v : SegReg) : (s.setSeg r v).dr = s.dr := rfl
@[simp] theorem setSeg_tr6 (s : State) (r : SegName) (v : SegReg) : (s.setSeg r v).tr6 = s.tr6 := rfl
@[simp] theorem setSeg_tr7 (s : State) (r : SegName) (v : SegReg) : (s.setSeg r v).tr7 = s.tr7 := rfl
@[simp] theorem setSeg_mem (s : State) (r : SegName) (v : SegReg) : (s.setSeg r v).mem = s.mem := rfl
@[simp] theorem setSeg_delivering (s : State) (r : SegName) (v : SegReg) : (s.setSeg r v).delivering = s.delivering := rfl
@[simp] theorem setSeg_shutdown (s : State) (r : SegName) (v : SegReg) : (s.setSeg r v).shutdown = s.shutdown := rfl
@[simp] theorem setSeg_halted (s : State) (r : SegName) (v : SegReg) : (s.setSeg r v).halted = s.halted := rfl
@[simp] theorem setSeg_nmiBlocked (s : State) (r : SegName) (v : SegReg) : (s.setSeg r v).nmiBlocked = s.nmiBlocked := rfl
@[simp] theorem setSeg_stored (s : State) (r : SegName) (v : SegReg) : (s.setSeg r v).stored = s.stored := rfl
@[simp] theorem setSeg_reported (s : State) (r : SegName) (v : SegReg) : (s.setSeg r v).reported = s.reported := rfl
@[simp] theorem setSeg_switched (s : State) (r : SegName) (v : SegReg) : (s.setSeg r v).switched = s.switched := rfl
@[simp] theorem setSeg_debugTrap (s : State) (r : SegName) (v : SegReg) : (s.setSeg r v).debugTrap = s.debugTrap := rfl
@[simp] theorem setSeg_amid (s : State) (r : SegName) (v : SegReg) : (s.setSeg r v).amid = s.amid := rfl
@[simp] theorem setSeg_pins (s : State) (r : SegName) (v : SegReg) : (s.setSeg r v).pins = s.pins := rfl
@[simp] theorem setSeg_draws (s : State) (r : SegName) (v : SegReg) : (s.setSeg r v).draws = s.draws := rfl

/-! ### `tick` -/

@[simp] theorem tick_gpr (s : State) : s.tick.gpr = s.gpr := rfl
@[simp] theorem tick_eip (s : State) : s.tick.eip = s.eip := rfl
@[simp] theorem tick_eflags (s : State) : s.tick.eflags = s.eflags := rfl
@[simp] theorem tick_segs (s : State) : s.tick.segs = s.segs := rfl
@[simp] theorem tick_ldtr (s : State) : s.tick.ldtr = s.ldtr := rfl
@[simp] theorem tick_tr (s : State) : s.tick.tr = s.tr := rfl
@[simp] theorem tick_gdtr (s : State) : s.tick.gdtr = s.gdtr := rfl
@[simp] theorem tick_idtr (s : State) : s.tick.idtr = s.idtr := rfl
@[simp] theorem tick_cr0 (s : State) : s.tick.cr0 = s.cr0 := rfl
@[simp] theorem tick_cr2 (s : State) : s.tick.cr2 = s.cr2 := rfl
@[simp] theorem tick_cr3 (s : State) : s.tick.cr3 = s.cr3 := rfl
@[simp] theorem tick_dr (s : State) : s.tick.dr = s.dr := rfl
@[simp] theorem tick_tr6 (s : State) : s.tick.tr6 = s.tr6 := rfl
@[simp] theorem tick_tr7 (s : State) : s.tick.tr7 = s.tr7 := rfl
@[simp] theorem tick_mem (s : State) : s.tick.mem = s.mem := rfl
@[simp] theorem tick_delivering (s : State) : s.tick.delivering = s.delivering := rfl
@[simp] theorem tick_shutdown (s : State) : s.tick.shutdown = s.shutdown := rfl
@[simp] theorem tick_halted (s : State) : s.tick.halted = s.halted := rfl
@[simp] theorem tick_nmiBlocked (s : State) : s.tick.nmiBlocked = s.nmiBlocked := rfl
@[simp] theorem tick_stored (s : State) : s.tick.stored = s.stored := rfl
@[simp] theorem tick_reported (s : State) : s.tick.reported = s.reported := rfl
@[simp] theorem tick_switched (s : State) : s.tick.switched = s.switched := rfl
@[simp] theorem tick_debugTrap (s : State) : s.tick.debugTrap = s.debugTrap := rfl
@[simp] theorem tick_amid (s : State) : s.tick.amid = s.amid := rfl
@[simp] theorem tick_pins (s : State) : s.tick.pins = s.pins := rfl
@[simp] theorem tick_draws (s : State) : s.tick.draws = s.draws + 1 := rfl

/-! ### `jump` -/

@[simp] theorem jump_gpr (s : State) (e : Word) : (jump s e).gpr = s.gpr := rfl
@[simp] theorem jump_eip (s : State) (e : Word) : (jump s e).eip = e := rfl
@[simp] theorem jump_eflags (s : State) (e : Word) : (jump s e).eflags = s.eflags := rfl
@[simp] theorem jump_segs (s : State) (e : Word) : (jump s e).segs = s.segs := rfl
@[simp] theorem jump_ldtr (s : State) (e : Word) : (jump s e).ldtr = s.ldtr := rfl
@[simp] theorem jump_tr (s : State) (e : Word) : (jump s e).tr = s.tr := rfl
@[simp] theorem jump_gdtr (s : State) (e : Word) : (jump s e).gdtr = s.gdtr := rfl
@[simp] theorem jump_idtr (s : State) (e : Word) : (jump s e).idtr = s.idtr := rfl
@[simp] theorem jump_cr0 (s : State) (e : Word) : (jump s e).cr0 = s.cr0 := rfl
@[simp] theorem jump_cr2 (s : State) (e : Word) : (jump s e).cr2 = s.cr2 := rfl
@[simp] theorem jump_cr3 (s : State) (e : Word) : (jump s e).cr3 = s.cr3 := rfl
@[simp] theorem jump_dr (s : State) (e : Word) : (jump s e).dr = s.dr := rfl
@[simp] theorem jump_tr6 (s : State) (e : Word) : (jump s e).tr6 = s.tr6 := rfl
@[simp] theorem jump_tr7 (s : State) (e : Word) : (jump s e).tr7 = s.tr7 := rfl
@[simp] theorem jump_mem (s : State) (e : Word) : (jump s e).mem = s.mem := rfl
@[simp] theorem jump_delivering (s : State) (e : Word) : (jump s e).delivering = s.delivering := rfl
@[simp] theorem jump_shutdown (s : State) (e : Word) : (jump s e).shutdown = s.shutdown := rfl
@[simp] theorem jump_halted (s : State) (e : Word) : (jump s e).halted = s.halted := rfl
@[simp] theorem jump_nmiBlocked (s : State) (e : Word) : (jump s e).nmiBlocked = s.nmiBlocked := rfl
@[simp] theorem jump_stored (s : State) (e : Word) : (jump s e).stored = [] := rfl
@[simp] theorem jump_reported (s : State) (e : Word) : (jump s e).reported = s.reported := rfl
@[simp] theorem jump_switched (s : State) (e : Word) : (jump s e).switched = s.switched := rfl
@[simp] theorem jump_debugTrap (s : State) (e : Word) : (jump s e).debugTrap = s.debugTrap := rfl
@[simp] theorem jump_amid (s : State) (e : Word) : (jump s e).amid = s.amid := rfl
@[simp] theorem jump_pins (s : State) (e : Word) : (jump s e).pins = s.pins := rfl
@[simp] theorem jump_draws (s : State) (e : Word) : (jump s e).draws = s.draws := rfl

/-! ### `storeBytes` -/

@[simp] theorem storeBytes_gpr (s : State) (l : Word) (bs : List Byte) : (storeBytes s l bs).gpr = s.gpr := rfl
@[simp] theorem storeBytes_eip (s : State) (l : Word) (bs : List Byte) : (storeBytes s l bs).eip = s.eip := rfl
@[simp] theorem storeBytes_eflags (s : State) (l : Word) (bs : List Byte) : (storeBytes s l bs).eflags = s.eflags := rfl
@[simp] theorem storeBytes_segs (s : State) (l : Word) (bs : List Byte) : (storeBytes s l bs).segs = s.segs := rfl
@[simp] theorem storeBytes_ldtr (s : State) (l : Word) (bs : List Byte) : (storeBytes s l bs).ldtr = s.ldtr := rfl
@[simp] theorem storeBytes_tr (s : State) (l : Word) (bs : List Byte) : (storeBytes s l bs).tr = s.tr := rfl
@[simp] theorem storeBytes_gdtr (s : State) (l : Word) (bs : List Byte) : (storeBytes s l bs).gdtr = s.gdtr := rfl
@[simp] theorem storeBytes_idtr (s : State) (l : Word) (bs : List Byte) : (storeBytes s l bs).idtr = s.idtr := rfl
@[simp] theorem storeBytes_cr0 (s : State) (l : Word) (bs : List Byte) : (storeBytes s l bs).cr0 = s.cr0 := rfl
@[simp] theorem storeBytes_cr2 (s : State) (l : Word) (bs : List Byte) : (storeBytes s l bs).cr2 = s.cr2 := rfl
@[simp] theorem storeBytes_cr3 (s : State) (l : Word) (bs : List Byte) : (storeBytes s l bs).cr3 = s.cr3 := rfl
@[simp] theorem storeBytes_dr (s : State) (l : Word) (bs : List Byte) : (storeBytes s l bs).dr = s.dr := rfl
@[simp] theorem storeBytes_tr6 (s : State) (l : Word) (bs : List Byte) : (storeBytes s l bs).tr6 = s.tr6 := rfl
@[simp] theorem storeBytes_tr7 (s : State) (l : Word) (bs : List Byte) : (storeBytes s l bs).tr7 = s.tr7 := rfl
@[simp] theorem storeBytes_mem (s : State) (l : Word) (bs : List Byte) : (storeBytes s l bs).mem = s.mem.writeAll (cellsAt s l bs) := rfl
@[simp] theorem storeBytes_delivering (s : State) (l : Word) (bs : List Byte) : (storeBytes s l bs).delivering = s.delivering := rfl
@[simp] theorem storeBytes_shutdown (s : State) (l : Word) (bs : List Byte) : (storeBytes s l bs).shutdown = s.shutdown := rfl
@[simp] theorem storeBytes_halted (s : State) (l : Word) (bs : List Byte) : (storeBytes s l bs).halted = s.halted := rfl
@[simp] theorem storeBytes_nmiBlocked (s : State) (l : Word) (bs : List Byte) : (storeBytes s l bs).nmiBlocked = s.nmiBlocked := rfl
@[simp] theorem storeBytes_reported (s : State) (l : Word) (bs : List Byte) : (storeBytes s l bs).reported = s.reported := rfl
@[simp] theorem storeBytes_switched (s : State) (l : Word) (bs : List Byte) : (storeBytes s l bs).switched = s.switched := rfl
@[simp] theorem storeBytes_debugTrap (s : State) (l : Word) (bs : List Byte) : (storeBytes s l bs).debugTrap = s.debugTrap := rfl
@[simp] theorem storeBytes_amid (s : State) (l : Word) (bs : List Byte) : (storeBytes s l bs).amid = overtake s (cellsAt s l bs) s.amid := rfl
@[simp] theorem storeBytes_pins (s : State) (l : Word) (bs : List Byte) : (storeBytes s l bs).pins = s.pins := rfl
@[simp] theorem storeBytes_draws (s : State) (l : Word) (bs : List Byte) : (storeBytes s l bs).draws = s.draws := rfl

/-! ### `store` -/

@[simp] theorem store_gpr (s : State) (l : Word) (n : Nat) (v : Word) : (store s l n v).gpr = s.gpr := rfl
@[simp] theorem store_eip (s : State) (l : Word) (n : Nat) (v : Word) : (store s l n v).eip = s.eip := rfl
@[simp] theorem store_eflags (s : State) (l : Word) (n : Nat) (v : Word) : (store s l n v).eflags = s.eflags := rfl
@[simp] theorem store_segs (s : State) (l : Word) (n : Nat) (v : Word) : (store s l n v).segs = s.segs := rfl
@[simp] theorem store_ldtr (s : State) (l : Word) (n : Nat) (v : Word) : (store s l n v).ldtr = s.ldtr := rfl
@[simp] theorem store_tr (s : State) (l : Word) (n : Nat) (v : Word) : (store s l n v).tr = s.tr := rfl
@[simp] theorem store_gdtr (s : State) (l : Word) (n : Nat) (v : Word) : (store s l n v).gdtr = s.gdtr := rfl
@[simp] theorem store_idtr (s : State) (l : Word) (n : Nat) (v : Word) : (store s l n v).idtr = s.idtr := rfl
@[simp] theorem store_cr0 (s : State) (l : Word) (n : Nat) (v : Word) : (store s l n v).cr0 = s.cr0 := rfl
@[simp] theorem store_cr2 (s : State) (l : Word) (n : Nat) (v : Word) : (store s l n v).cr2 = s.cr2 := rfl
@[simp] theorem store_cr3 (s : State) (l : Word) (n : Nat) (v : Word) : (store s l n v).cr3 = s.cr3 := rfl
@[simp] theorem store_dr (s : State) (l : Word) (n : Nat) (v : Word) : (store s l n v).dr = s.dr := rfl
@[simp] theorem store_tr6 (s : State) (l : Word) (n : Nat) (v : Word) : (store s l n v).tr6 = s.tr6 := rfl
@[simp] theorem store_tr7 (s : State) (l : Word) (n : Nat) (v : Word) : (store s l n v).tr7 = s.tr7 := rfl
@[simp] theorem store_mem (s : State) (l : Word) (n : Nat) (v : Word) : (store s l n v).mem = s.mem.writeAll (cellsAt s l (numberBytes n v.toNat)) := rfl
@[simp] theorem store_delivering (s : State) (l : Word) (n : Nat) (v : Word) : (store s l n v).delivering = s.delivering := rfl
@[simp] theorem store_shutdown (s : State) (l : Word) (n : Nat) (v : Word) : (store s l n v).shutdown = s.shutdown := rfl
@[simp] theorem store_halted (s : State) (l : Word) (n : Nat) (v : Word) : (store s l n v).halted = s.halted := rfl
@[simp] theorem store_nmiBlocked (s : State) (l : Word) (n : Nat) (v : Word) : (store s l n v).nmiBlocked = s.nmiBlocked := rfl
@[simp] theorem store_reported (s : State) (l : Word) (n : Nat) (v : Word) : (store s l n v).reported = s.reported := rfl
@[simp] theorem store_switched (s : State) (l : Word) (n : Nat) (v : Word) : (store s l n v).switched = s.switched := rfl
@[simp] theorem store_debugTrap (s : State) (l : Word) (n : Nat) (v : Word) : (store s l n v).debugTrap = s.debugTrap := rfl
@[simp] theorem store_pins (s : State) (l : Word) (n : Nat) (v : Word) : (store s l n v).pins = s.pins := rfl
@[simp] theorem store_draws (s : State) (l : Word) (n : Nat) (v : Word) : (store s l n v).draws = s.draws := rfl

/-! ### `pushed` -/

@[simp] theorem pushed_gpr (s : State) (z : WSize) (v : Word) : (pushed s z v).gpr = s.gpr.set .esp (pushOff s z) := rfl
@[simp] theorem pushed_eip (s : State) (z : WSize) (v : Word) : (pushed s z v).eip = s.eip := rfl
@[simp] theorem pushed_eflags (s : State) (z : WSize) (v : Word) : (pushed s z v).eflags = s.eflags := rfl
@[simp] theorem pushed_segs (s : State) (z : WSize) (v : Word) : (pushed s z v).segs = s.segs := rfl
@[simp] theorem pushed_ldtr (s : State) (z : WSize) (v : Word) : (pushed s z v).ldtr = s.ldtr := rfl
@[simp] theorem pushed_tr (s : State) (z : WSize) (v : Word) : (pushed s z v).tr = s.tr := rfl
@[simp] theorem pushed_gdtr (s : State) (z : WSize) (v : Word) : (pushed s z v).gdtr = s.gdtr := rfl
@[simp] theorem pushed_idtr (s : State) (z : WSize) (v : Word) : (pushed s z v).idtr = s.idtr := rfl
@[simp] theorem pushed_cr0 (s : State) (z : WSize) (v : Word) : (pushed s z v).cr0 = s.cr0 := rfl
@[simp] theorem pushed_cr2 (s : State) (z : WSize) (v : Word) : (pushed s z v).cr2 = s.cr2 := rfl
@[simp] theorem pushed_cr3 (s : State) (z : WSize) (v : Word) : (pushed s z v).cr3 = s.cr3 := rfl
@[simp] theorem pushed_dr (s : State) (z : WSize) (v : Word) : (pushed s z v).dr = s.dr := rfl
@[simp] theorem pushed_tr6 (s : State) (z : WSize) (v : Word) : (pushed s z v).tr6 = s.tr6 := rfl
@[simp] theorem pushed_tr7 (s : State) (z : WSize) (v : Word) : (pushed s z v).tr7 = s.tr7 := rfl
@[simp] theorem pushed_mem (s : State) (z : WSize) (v : Word) : (pushed s z v).mem = (store s (s.lin .ss (pushOff s z)) z.bytes v).mem := rfl
@[simp] theorem pushed_delivering (s : State) (z : WSize) (v : Word) : (pushed s z v).delivering = s.delivering := rfl
@[simp] theorem pushed_shutdown (s : State) (z : WSize) (v : Word) : (pushed s z v).shutdown = s.shutdown := rfl
@[simp] theorem pushed_halted (s : State) (z : WSize) (v : Word) : (pushed s z v).halted = s.halted := rfl
@[simp] theorem pushed_nmiBlocked (s : State) (z : WSize) (v : Word) : (pushed s z v).nmiBlocked = s.nmiBlocked := rfl
@[simp] theorem pushed_reported (s : State) (z : WSize) (v : Word) : (pushed s z v).reported = s.reported := rfl
@[simp] theorem pushed_switched (s : State) (z : WSize) (v : Word) : (pushed s z v).switched = s.switched := rfl
@[simp] theorem pushed_debugTrap (s : State) (z : WSize) (v : Word) : (pushed s z v).debugTrap = s.debugTrap := rfl
@[simp] theorem pushed_pins (s : State) (z : WSize) (v : Word) : (pushed s z v).pins = s.pins := rfl
@[simp] theorem pushed_draws (s : State) (z : WSize) (v : Word) : (pushed s z v).draws = s.draws := rfl

@[simp] theorem store_amid (s : State) (l : Word) (n : Nat) (v : Word) :
    (store s l n v).amid = overtake s (cellsAt s l (numberBytes n v.toNat)) s.amid := rfl
@[simp] theorem pushed_amid (s : State) (z : WSize) (v : Word) :
    (pushed s z v).amid = (store s (s.lin .ss (pushOff s z)) z.bytes v).amid := rfl

/-! ### `report` -/

@[simp] theorem report_gpr (e : Event) (s : State) : (report e s).gpr = s.gpr := rfl
@[simp] theorem report_eip (e : Event) (s : State) : (report e s).eip = s.eip := rfl
@[simp] theorem report_eflags (e : Event) (s : State) : (report e s).eflags = s.eflags := rfl
@[simp] theorem report_segs (e : Event) (s : State) : (report e s).segs = s.segs := rfl
@[simp] theorem report_ldtr (e : Event) (s : State) : (report e s).ldtr = s.ldtr := rfl
@[simp] theorem report_tr (e : Event) (s : State) : (report e s).tr = s.tr := rfl
@[simp] theorem report_gdtr (e : Event) (s : State) : (report e s).gdtr = s.gdtr := rfl
@[simp] theorem report_idtr (e : Event) (s : State) : (report e s).idtr = s.idtr := rfl
@[simp] theorem report_cr0 (e : Event) (s : State) : (report e s).cr0 = s.cr0 := rfl
@[simp] theorem report_cr2 (e : Event) (s : State) : (report e s).cr2 = e.faultAddr.getD s.cr2 := rfl
@[simp] theorem report_cr3 (e : Event) (s : State) : (report e s).cr3 = s.cr3 := rfl
@[simp] theorem report_dr (e : Event) (s : State) : (report e s).dr = s.dr := rfl
@[simp] theorem report_tr6 (e : Event) (s : State) : (report e s).tr6 = s.tr6 := rfl
@[simp] theorem report_tr7 (e : Event) (s : State) : (report e s).tr7 = s.tr7 := rfl
@[simp] theorem report_mem (e : Event) (s : State) : (report e s).mem = s.mem := rfl
@[simp] theorem report_delivering (e : Event) (s : State) : (report e s).delivering = some e.vector := rfl
@[simp] theorem report_shutdown (e : Event) (s : State) : (report e s).shutdown = s.shutdown := rfl
@[simp] theorem report_halted (e : Event) (s : State) : (report e s).halted = s.halted := rfl
@[simp] theorem report_nmiBlocked (e : Event) (s : State) : (report e s).nmiBlocked = s.nmiBlocked := rfl
@[simp] theorem report_stored (e : Event) (s : State) : (report e s).stored = s.stored := rfl
@[simp] theorem report_reported (e : Event) (s : State) : (report e s).reported = e :: s.reported := rfl
@[simp] theorem report_switched (e : Event) (s : State) : (report e s).switched = s.switched := rfl
@[simp] theorem report_debugTrap (e : Event) (s : State) : (report e s).debugTrap = s.debugTrap := rfl
@[simp] theorem report_amid (e : Event) (s : State) : (report e s).amid = s.amid := rfl
@[simp] theorem report_pins (e : Event) (s : State) : (report e s).pins = s.pins := rfl
@[simp] theorem report_draws (e : Event) (s : State) : (report e s).draws = s.draws := rfl

/-! ### `noteDebug` -/

@[simp] theorem noteDebug_gpr (c : DebugCond) (s : State) : (noteDebug c s).gpr = s.gpr := rfl
@[simp] theorem noteDebug_eip (c : DebugCond) (s : State) : (noteDebug c s).eip = s.eip := rfl
@[simp] theorem noteDebug_eflags (c : DebugCond) (s : State) : (noteDebug c s).eflags = s.eflags := rfl
@[simp] theorem noteDebug_segs (c : DebugCond) (s : State) : (noteDebug c s).segs = s.segs := rfl
@[simp] theorem noteDebug_ldtr (c : DebugCond) (s : State) : (noteDebug c s).ldtr = s.ldtr := rfl
@[simp] theorem noteDebug_tr (c : DebugCond) (s : State) : (noteDebug c s).tr = s.tr := rfl
@[simp] theorem noteDebug_gdtr (c : DebugCond) (s : State) : (noteDebug c s).gdtr = s.gdtr := rfl
@[simp] theorem noteDebug_idtr (c : DebugCond) (s : State) : (noteDebug c s).idtr = s.idtr := rfl
@[simp] theorem noteDebug_cr0 (c : DebugCond) (s : State) : (noteDebug c s).cr0 = s.cr0 := rfl
@[simp] theorem noteDebug_cr2 (c : DebugCond) (s : State) : (noteDebug c s).cr2 = s.cr2 := rfl
@[simp] theorem noteDebug_cr3 (c : DebugCond) (s : State) : (noteDebug c s).cr3 = s.cr3 := rfl
@[simp] theorem noteDebug_tr6 (c : DebugCond) (s : State) : (noteDebug c s).tr6 = s.tr6 := rfl
@[simp] theorem noteDebug_tr7 (c : DebugCond) (s : State) : (noteDebug c s).tr7 = s.tr7 := rfl
@[simp] theorem noteDebug_mem (c : DebugCond) (s : State) : (noteDebug c s).mem = s.mem := rfl
@[simp] theorem noteDebug_delivering (c : DebugCond) (s : State) : (noteDebug c s).delivering = s.delivering := rfl
@[simp] theorem noteDebug_shutdown (c : DebugCond) (s : State) : (noteDebug c s).shutdown = s.shutdown := rfl
@[simp] theorem noteDebug_halted (c : DebugCond) (s : State) : (noteDebug c s).halted = s.halted := rfl
@[simp] theorem noteDebug_nmiBlocked (c : DebugCond) (s : State) : (noteDebug c s).nmiBlocked = s.nmiBlocked := rfl
@[simp] theorem noteDebug_stored (c : DebugCond) (s : State) : (noteDebug c s).stored = s.stored := rfl
@[simp] theorem noteDebug_reported (c : DebugCond) (s : State) : (noteDebug c s).reported = s.reported := rfl
@[simp] theorem noteDebug_switched (c : DebugCond) (s : State) : (noteDebug c s).switched = s.switched := rfl
@[simp] theorem noteDebug_debugTrap (c : DebugCond) (s : State) : (noteDebug c s).debugTrap = s.debugTrap := rfl
@[simp] theorem noteDebug_amid (c : DebugCond) (s : State) : (noteDebug c s).amid = s.amid := rfl
@[simp] theorem noteDebug_pins (c : DebugCond) (s : State) : (noteDebug c s).pins = s.pins := rfl
@[simp] theorem noteDebug_draws (c : DebugCond) (s : State) : (noteDebug c s).draws = s.draws := rfl

/-! ### `clearRF` -/

@[simp] theorem clearRF_gpr (s : State) : (clearRF s).gpr = s.gpr := rfl
@[simp] theorem clearRF_eip (s : State) : (clearRF s).eip = s.eip := rfl
@[simp] theorem clearRF_eflags (s : State) : (clearRF s).eflags = setBit s.eflags 16 false := rfl
@[simp] theorem clearRF_segs (s : State) : (clearRF s).segs = s.segs := rfl
@[simp] theorem clearRF_ldtr (s : State) : (clearRF s).ldtr = s.ldtr := rfl
@[simp] theorem clearRF_tr (s : State) : (clearRF s).tr = s.tr := rfl
@[simp] theorem clearRF_gdtr (s : State) : (clearRF s).gdtr = s.gdtr := rfl
@[simp] theorem clearRF_idtr (s : State) : (clearRF s).idtr = s.idtr := rfl
@[simp] theorem clearRF_cr0 (s : State) : (clearRF s).cr0 = s.cr0 := rfl
@[simp] theorem clearRF_cr2 (s : State) : (clearRF s).cr2 = s.cr2 := rfl
@[simp] theorem clearRF_cr3 (s : State) : (clearRF s).cr3 = s.cr3 := rfl
@[simp] theorem clearRF_dr (s : State) : (clearRF s).dr = s.dr := rfl
@[simp] theorem clearRF_tr6 (s : State) : (clearRF s).tr6 = s.tr6 := rfl
@[simp] theorem clearRF_tr7 (s : State) : (clearRF s).tr7 = s.tr7 := rfl
@[simp] theorem clearRF_mem (s : State) : (clearRF s).mem = s.mem := rfl
@[simp] theorem clearRF_delivering (s : State) : (clearRF s).delivering = s.delivering := rfl
@[simp] theorem clearRF_shutdown (s : State) : (clearRF s).shutdown = s.shutdown := rfl
@[simp] theorem clearRF_halted (s : State) : (clearRF s).halted = s.halted := rfl
@[simp] theorem clearRF_nmiBlocked (s : State) : (clearRF s).nmiBlocked = s.nmiBlocked := rfl
@[simp] theorem clearRF_stored (s : State) : (clearRF s).stored = s.stored := rfl
@[simp] theorem clearRF_reported (s : State) : (clearRF s).reported = s.reported := rfl
@[simp] theorem clearRF_switched (s : State) : (clearRF s).switched = s.switched := rfl
@[simp] theorem clearRF_debugTrap (s : State) : (clearRF s).debugTrap = s.debugTrap := rfl
@[simp] theorem clearRF_amid (s : State) : (clearRF s).amid = s.amid := rfl
@[simp] theorem clearRF_pins (s : State) : (clearRF s).pins = s.pins := rfl
@[simp] theorem clearRF_draws (s : State) : (clearRF s).draws = s.draws := rfl

/-! ### `beginInstr` -/

@[simp] theorem beginInstr_gpr (s : State) : (beginInstr s).gpr = s.gpr := rfl
@[simp] theorem beginInstr_eip (s : State) : (beginInstr s).eip = s.eip := rfl
@[simp] theorem beginInstr_eflags (s : State) : (beginInstr s).eflags = s.eflags := rfl
@[simp] theorem beginInstr_segs (s : State) : (beginInstr s).segs = s.segs := rfl
@[simp] theorem beginInstr_ldtr (s : State) : (beginInstr s).ldtr = s.ldtr := rfl
@[simp] theorem beginInstr_tr (s : State) : (beginInstr s).tr = s.tr := rfl
@[simp] theorem beginInstr_gdtr (s : State) : (beginInstr s).gdtr = s.gdtr := rfl
@[simp] theorem beginInstr_idtr (s : State) : (beginInstr s).idtr = s.idtr := rfl
@[simp] theorem beginInstr_cr0 (s : State) : (beginInstr s).cr0 = s.cr0 := rfl
@[simp] theorem beginInstr_cr2 (s : State) : (beginInstr s).cr2 = s.cr2 := rfl
@[simp] theorem beginInstr_cr3 (s : State) : (beginInstr s).cr3 = s.cr3 := rfl
@[simp] theorem beginInstr_dr (s : State) : (beginInstr s).dr = s.dr := rfl
@[simp] theorem beginInstr_tr6 (s : State) : (beginInstr s).tr6 = s.tr6 := rfl
@[simp] theorem beginInstr_tr7 (s : State) : (beginInstr s).tr7 = s.tr7 := rfl
@[simp] theorem beginInstr_mem (s : State) : (beginInstr s).mem = s.mem := rfl
@[simp] theorem beginInstr_delivering (s : State) : (beginInstr s).delivering = s.delivering := rfl
@[simp] theorem beginInstr_shutdown (s : State) : (beginInstr s).shutdown = s.shutdown := rfl
@[simp] theorem beginInstr_halted (s : State) : (beginInstr s).halted = s.halted := rfl
@[simp] theorem beginInstr_nmiBlocked (s : State) : (beginInstr s).nmiBlocked = s.nmiBlocked := rfl
@[simp] theorem beginInstr_stored (s : State) : (beginInstr s).stored = s.stored := rfl
@[simp] theorem beginInstr_reported (s : State) : (beginInstr s).reported = s.reported := rfl
@[simp] theorem beginInstr_switched (s : State) : (beginInstr s).switched = none := rfl
@[simp] theorem beginInstr_debugTrap (s : State) : (beginInstr s).debugTrap = s.debugTrap := rfl
@[simp] theorem beginInstr_amid (s : State) : (beginInstr s).amid = s.amid := rfl
@[simp] theorem beginInstr_draws (s : State) : (beginInstr s).draws = s.draws + 1 := rfl

/-! ### `settle` -/

@[simp] theorem settle_gpr (c : DebugCond) (s : State) : (settle c s).gpr = s.gpr := rfl
@[simp] theorem settle_eip (c : DebugCond) (s : State) : (settle c s).eip = s.eip := rfl
@[simp] theorem settle_eflags (c : DebugCond) (s : State) : (settle c s).eflags = s.eflags := rfl
@[simp] theorem settle_segs (c : DebugCond) (s : State) : (settle c s).segs = s.segs := rfl
@[simp] theorem settle_ldtr (c : DebugCond) (s : State) : (settle c s).ldtr = s.ldtr := rfl
@[simp] theorem settle_tr (c : DebugCond) (s : State) : (settle c s).tr = s.tr := rfl
@[simp] theorem settle_gdtr (c : DebugCond) (s : State) : (settle c s).gdtr = s.gdtr := rfl
@[simp] theorem settle_idtr (c : DebugCond) (s : State) : (settle c s).idtr = s.idtr := rfl
@[simp] theorem settle_cr0 (c : DebugCond) (s : State) : (settle c s).cr0 = s.cr0 := rfl
@[simp] theorem settle_cr2 (c : DebugCond) (s : State) : (settle c s).cr2 = s.cr2 := rfl
@[simp] theorem settle_cr3 (c : DebugCond) (s : State) : (settle c s).cr3 = s.cr3 := rfl
@[simp] theorem settle_dr (c : DebugCond) (s : State) : (settle c s).dr = s.dr := rfl
@[simp] theorem settle_tr6 (c : DebugCond) (s : State) : (settle c s).tr6 = s.tr6 := rfl
@[simp] theorem settle_tr7 (c : DebugCond) (s : State) : (settle c s).tr7 = s.tr7 := rfl
@[simp] theorem settle_mem (c : DebugCond) (s : State) : (settle c s).mem = s.mem := rfl
@[simp] theorem settle_delivering (c : DebugCond) (s : State) : (settle c s).delivering = s.delivering := rfl
@[simp] theorem settle_shutdown (c : DebugCond) (s : State) : (settle c s).shutdown = s.shutdown := rfl
@[simp] theorem settle_halted (c : DebugCond) (s : State) : (settle c s).halted = s.halted := rfl
@[simp] theorem settle_nmiBlocked (c : DebugCond) (s : State) : (settle c s).nmiBlocked = s.nmiBlocked := rfl
@[simp] theorem settle_stored (c : DebugCond) (s : State) : (settle c s).stored = s.stored := rfl
@[simp] theorem settle_reported (c : DebugCond) (s : State) : (settle c s).reported = s.reported := rfl
@[simp] theorem settle_switched (c : DebugCond) (s : State) : (settle c s).switched = none := rfl
@[simp] theorem settle_debugTrap (c : DebugCond) (s : State) : (settle c s).debugTrap = if s.shutdown then DebugCond.none else DebugCond.union s.debugTrap c := rfl
@[simp] theorem settle_amid (c : DebugCond) (s : State) : (settle c s).amid = s.amid := rfl
@[simp] theorem settle_pins (c : DebugCond) (s : State) : (settle c s).pins = s.pins := rfl
@[simp] theorem settle_draws (c : DebugCond) (s : State) : (settle c s).draws = s.draws := rfl

/-! ### `takeExternal` -/

@[simp] theorem takeExternal_gpr (s : State) : (s.takeExternal).gpr = s.gpr := rfl
@[simp] theorem takeExternal_eip (s : State) : (s.takeExternal).eip = s.eip := rfl
@[simp] theorem takeExternal_eflags (s : State) : (s.takeExternal).eflags = s.eflags := rfl
@[simp] theorem takeExternal_segs (s : State) : (s.takeExternal).segs = s.segs := rfl
@[simp] theorem takeExternal_ldtr (s : State) : (s.takeExternal).ldtr = s.ldtr := rfl
@[simp] theorem takeExternal_tr (s : State) : (s.takeExternal).tr = s.tr := rfl
@[simp] theorem takeExternal_gdtr (s : State) : (s.takeExternal).gdtr = s.gdtr := rfl
@[simp] theorem takeExternal_idtr (s : State) : (s.takeExternal).idtr = s.idtr := rfl
@[simp] theorem takeExternal_cr0 (s : State) : (s.takeExternal).cr0 = s.cr0 := rfl
@[simp] theorem takeExternal_cr2 (s : State) : (s.takeExternal).cr2 = s.cr2 := rfl
@[simp] theorem takeExternal_cr3 (s : State) : (s.takeExternal).cr3 = s.cr3 := rfl
@[simp] theorem takeExternal_dr (s : State) : (s.takeExternal).dr = s.dr := rfl
@[simp] theorem takeExternal_tr6 (s : State) : (s.takeExternal).tr6 = s.tr6 := rfl
@[simp] theorem takeExternal_tr7 (s : State) : (s.takeExternal).tr7 = s.tr7 := rfl
@[simp] theorem takeExternal_mem (s : State) : (s.takeExternal).mem = s.mem.writeAll ((s.pins.external).map wrapCell) := rfl
@[simp] theorem takeExternal_delivering (s : State) : (s.takeExternal).delivering = s.delivering := rfl
@[simp] theorem takeExternal_shutdown (s : State) : (s.takeExternal).shutdown = s.shutdown := rfl
@[simp] theorem takeExternal_halted (s : State) : (s.takeExternal).halted = s.halted := rfl
@[simp] theorem takeExternal_nmiBlocked (s : State) : (s.takeExternal).nmiBlocked = s.nmiBlocked := rfl
@[simp] theorem takeExternal_stored (s : State) : (s.takeExternal).stored = s.stored := rfl
@[simp] theorem takeExternal_reported (s : State) : (s.takeExternal).reported = s.reported := rfl
@[simp] theorem takeExternal_switched (s : State) : (s.takeExternal).switched = s.switched := rfl
@[simp] theorem takeExternal_debugTrap (s : State) : (s.takeExternal).debugTrap = s.debugTrap := rfl
@[simp] theorem takeExternal_amid (s : State) : (s.takeExternal).amid = s.amid := rfl
@[simp] theorem takeExternal_pins (s : State) : (s.takeExternal).pins = { s.pins with external := [] } := rfl
@[simp] theorem takeExternal_draws (s : State) : (s.takeExternal).draws = s.draws := rfl

/-! ### `openStep` -/

@[simp] theorem openStep_gpr (s : State) : (s.openStep).gpr = s.gpr := rfl
@[simp] theorem openStep_eip (s : State) : (s.openStep).eip = s.eip := rfl
@[simp] theorem openStep_eflags (s : State) : (s.openStep).eflags = s.eflags := rfl
@[simp] theorem openStep_segs (s : State) : (s.openStep).segs = s.segs := rfl
@[simp] theorem openStep_ldtr (s : State) : (s.openStep).ldtr = s.ldtr := rfl
@[simp] theorem openStep_tr (s : State) : (s.openStep).tr = s.tr := rfl
@[simp] theorem openStep_gdtr (s : State) : (s.openStep).gdtr = s.gdtr := rfl
@[simp] theorem openStep_idtr (s : State) : (s.openStep).idtr = s.idtr := rfl
@[simp] theorem openStep_cr0 (s : State) : (s.openStep).cr0 = s.cr0 := rfl
@[simp] theorem openStep_cr2 (s : State) : (s.openStep).cr2 = s.cr2 := rfl
@[simp] theorem openStep_cr3 (s : State) : (s.openStep).cr3 = s.cr3 := rfl
@[simp] theorem openStep_dr (s : State) : (s.openStep).dr = s.dr := rfl
@[simp] theorem openStep_tr6 (s : State) : (s.openStep).tr6 = s.tr6 := rfl
@[simp] theorem openStep_tr7 (s : State) : (s.openStep).tr7 = s.tr7 := rfl
@[simp] theorem openStep_mem (s : State) : (s.openStep).mem = s.mem := rfl
@[simp] theorem openStep_delivering (s : State) : (s.openStep).delivering = s.delivering := rfl
@[simp] theorem openStep_shutdown (s : State) : (s.openStep).shutdown = s.shutdown := rfl
@[simp] theorem openStep_halted (s : State) : (s.openStep).halted = s.halted := rfl
@[simp] theorem openStep_nmiBlocked (s : State) : (s.openStep).nmiBlocked = s.nmiBlocked := rfl
@[simp] theorem openStep_stored (s : State) : (s.openStep).stored = s.stored := rfl
@[simp] theorem openStep_reported (s : State) : (s.openStep).reported = s.reported := rfl
@[simp] theorem openStep_switched (s : State) : (s.openStep).switched = s.switched := rfl
@[simp] theorem openStep_debugTrap (s : State) : (s.openStep).debugTrap = s.debugTrap := rfl
@[simp] theorem openStep_amid (s : State) : (s.openStep).amid = (s.pins.inside).map wrapCell := rfl
@[simp] theorem openStep_pins (s : State) : (s.openStep).pins = { s.pins with inside := [] } := rfl
@[simp] theorem openStep_draws (s : State) : (s.openStep).draws = s.draws + 1 := rfl

/-! ### `closeStep` -/

@[simp] theorem closeStep_gpr (s : State) : (s.closeStep).gpr = s.gpr := rfl
@[simp] theorem closeStep_eip (s : State) : (s.closeStep).eip = s.eip := rfl
@[simp] theorem closeStep_eflags (s : State) : (s.closeStep).eflags = s.eflags := rfl
@[simp] theorem closeStep_segs (s : State) : (s.closeStep).segs = s.segs := rfl
@[simp] theorem closeStep_ldtr (s : State) : (s.closeStep).ldtr = s.ldtr := rfl
@[simp] theorem closeStep_tr (s : State) : (s.closeStep).tr = s.tr := rfl
@[simp] theorem closeStep_gdtr (s : State) : (s.closeStep).gdtr = s.gdtr := rfl
@[simp] theorem closeStep_idtr (s : State) : (s.closeStep).idtr = s.idtr := rfl
@[simp] theorem closeStep_cr0 (s : State) : (s.closeStep).cr0 = s.cr0 := rfl
@[simp] theorem closeStep_cr2 (s : State) : (s.closeStep).cr2 = s.cr2 := rfl
@[simp] theorem closeStep_cr3 (s : State) : (s.closeStep).cr3 = s.cr3 := rfl
@[simp] theorem closeStep_dr (s : State) : (s.closeStep).dr = s.dr := rfl
@[simp] theorem closeStep_tr6 (s : State) : (s.closeStep).tr6 = s.tr6 := rfl
@[simp] theorem closeStep_tr7 (s : State) : (s.closeStep).tr7 = s.tr7 := rfl
@[simp] theorem closeStep_mem (s : State) : (s.closeStep).mem = s.mem.writeAll s.amid := rfl
@[simp] theorem closeStep_delivering (s : State) : (s.closeStep).delivering = s.delivering := rfl
@[simp] theorem closeStep_shutdown (s : State) : (s.closeStep).shutdown = s.shutdown := rfl
@[simp] theorem closeStep_halted (s : State) : (s.closeStep).halted = s.halted := rfl
@[simp] theorem closeStep_nmiBlocked (s : State) : (s.closeStep).nmiBlocked = s.nmiBlocked := rfl
@[simp] theorem closeStep_stored (s : State) : (s.closeStep).stored = s.stored := rfl
@[simp] theorem closeStep_reported (s : State) : (s.closeStep).reported = s.reported := rfl
@[simp] theorem closeStep_switched (s : State) : (s.closeStep).switched = s.switched := rfl
@[simp] theorem closeStep_debugTrap (s : State) : (s.closeStep).debugTrap = s.debugTrap := rfl
@[simp] theorem closeStep_amid (s : State) : (s.closeStep).amid = [] := rfl
@[simp] theorem closeStep_pins (s : State) : (s.closeStep).pins = s.pins := rfl
@[simp] theorem closeStep_draws (s : State) : (s.closeStep).draws = s.draws := rfl

/-! ### `enterMode` -/

@[simp] theorem enterMode_gpr (img : TssImage) (s : State) : (enterMode img s).gpr = s.gpr := rfl
@[simp] theorem enterMode_eip (img : TssImage) (s : State) : (enterMode img s).eip = s.eip := rfl
@[simp] theorem enterMode_eflags (img : TssImage) (s : State) : (enterMode img s).eflags = setBit s.eflags 17 (img.eflags.getLsbD 17) := rfl
@[simp] theorem enterMode_segs (img : TssImage) (s : State) : (enterMode img s).segs = s.segs := rfl
@[simp] theorem enterMode_ldtr (img : TssImage) (s : State) : (enterMode img s).ldtr = s.ldtr := rfl
@[simp] theorem enterMode_tr (img : TssImage) (s : State) : (enterMode img s).tr = s.tr := rfl
@[simp] theorem enterMode_gdtr (img : TssImage) (s : State) : (enterMode img s).gdtr = s.gdtr := rfl
@[simp] theorem enterMode_idtr (img : TssImage) (s : State) : (enterMode img s).idtr = s.idtr := rfl
@[simp] theorem enterMode_cr0 (img : TssImage) (s : State) : (enterMode img s).cr0 = s.cr0 := rfl
@[simp] theorem enterMode_cr2 (img : TssImage) (s : State) : (enterMode img s).cr2 = s.cr2 := rfl
@[simp] theorem enterMode_cr3 (img : TssImage) (s : State) : (enterMode img s).cr3 = s.cr3 := rfl
@[simp] theorem enterMode_dr (img : TssImage) (s : State) : (enterMode img s).dr = s.dr := rfl
@[simp] theorem enterMode_tr6 (img : TssImage) (s : State) : (enterMode img s).tr6 = s.tr6 := rfl
@[simp] theorem enterMode_tr7 (img : TssImage) (s : State) : (enterMode img s).tr7 = s.tr7 := rfl
@[simp] theorem enterMode_mem (img : TssImage) (s : State) : (enterMode img s).mem = s.mem := rfl
@[simp] theorem enterMode_delivering (img : TssImage) (s : State) : (enterMode img s).delivering = s.delivering := rfl
@[simp] theorem enterMode_shutdown (img : TssImage) (s : State) : (enterMode img s).shutdown = s.shutdown := rfl
@[simp] theorem enterMode_halted (img : TssImage) (s : State) : (enterMode img s).halted = s.halted := rfl
@[simp] theorem enterMode_nmiBlocked (img : TssImage) (s : State) : (enterMode img s).nmiBlocked = s.nmiBlocked := rfl
@[simp] theorem enterMode_stored (img : TssImage) (s : State) : (enterMode img s).stored = s.stored := rfl
@[simp] theorem enterMode_reported (img : TssImage) (s : State) : (enterMode img s).reported = s.reported := rfl
@[simp] theorem enterMode_switched (img : TssImage) (s : State) : (enterMode img s).switched = s.switched := rfl
@[simp] theorem enterMode_debugTrap (img : TssImage) (s : State) : (enterMode img s).debugTrap = s.debugTrap := rfl
@[simp] theorem enterMode_amid (img : TssImage) (s : State) : (enterMode img s).amid = s.amid := rfl
@[simp] theorem enterMode_pins (img : TssImage) (s : State) : (enterMode img s).pins = s.pins := rfl
@[simp] theorem enterMode_draws (img : TssImage) (s : State) : (enterMode img s).draws = s.draws := rfl

/-! ### `abortState` -/

@[simp] theorem abortState_eflags (v : BitVec 8) (s : State) : (abortState v s).eflags = setBit (fixedFlags (Config.abortWord s.draws 9)) 17 s.flagVM := rfl
@[simp] theorem abortState_ldtr (v : BitVec 8) (s : State) : (abortState v s).ldtr = s.ldtr := rfl
@[simp] theorem abortState_tr (v : BitVec 8) (s : State) : (abortState v s).tr = s.tr := rfl
@[simp] theorem abortState_gdtr (v : BitVec 8) (s : State) : (abortState v s).gdtr = s.gdtr := rfl
@[simp] theorem abortState_idtr (v : BitVec 8) (s : State) : (abortState v s).idtr = s.idtr := rfl
@[simp] theorem abortState_cr0 (v : BitVec 8) (s : State) : (abortState v s).cr0 = s.cr0 := rfl
@[simp] theorem abortState_cr2 (v : BitVec 8) (s : State) : (abortState v s).cr2 = s.cr2 := rfl
@[simp] theorem abortState_cr3 (v : BitVec 8) (s : State) : (abortState v s).cr3 = s.cr3 := rfl
@[simp] theorem abortState_dr (v : BitVec 8) (s : State) : (abortState v s).dr = s.dr := rfl
@[simp] theorem abortState_tr6 (v : BitVec 8) (s : State) : (abortState v s).tr6 = s.tr6 := rfl
@[simp] theorem abortState_tr7 (v : BitVec 8) (s : State) : (abortState v s).tr7 = s.tr7 := rfl
@[simp] theorem abortState_mem (v : BitVec 8) (s : State) : (abortState v s).mem = s.mem.writeAll (abortCells s v) := rfl
@[simp] theorem abortState_delivering (v : BitVec 8) (s : State) : (abortState v s).delivering = s.delivering := rfl
@[simp] theorem abortState_shutdown (v : BitVec 8) (s : State) : (abortState v s).shutdown = s.shutdown := rfl
@[simp] theorem abortState_halted (v : BitVec 8) (s : State) : (abortState v s).halted = s.halted := rfl
@[simp] theorem abortState_nmiBlocked (v : BitVec 8) (s : State) : (abortState v s).nmiBlocked = s.nmiBlocked := rfl
@[simp] theorem abortState_stored (v : BitVec 8) (s : State) : (abortState v s).stored = s.stored := rfl
@[simp] theorem abortState_reported (v : BitVec 8) (s : State) : (abortState v s).reported = s.reported := rfl
@[simp] theorem abortState_switched (v : BitVec 8) (s : State) : (abortState v s).switched = s.switched := rfl
@[simp] theorem abortState_debugTrap (v : BitVec 8) (s : State) : (abortState v s).debugTrap = s.debugTrap := rfl
@[simp] theorem abortState_amid (v : BitVec 8) (s : State) : (abortState v s).amid = s.amid := rfl
@[simp] theorem abortState_pins (v : BitVec 8) (s : State) : (abortState v s).pins = s.pins := rfl
@[simp] theorem abortState_draws (v : BitVec 8) (s : State) : (abortState v s).draws = s.draws + 1 := rfl


/-! ### Registers -/

@[simp] theorem Gprs.get_set_self (g : Gprs) (r : Reg) (v : Word) : (g.set r v).get r = v := by cases r <;> rfl

theorem Gprs.get_set_ne (g : Gprs) {r q : Reg} (v : Word) (h : q ≠ r) : (g.set r v).get q = g.get q := by
  cases r <;> cases q <;> first | rfl | exact absurd rfl h

@[simp] theorem Gprs.set_set (g : Gprs) (r : Reg) (v w : Word) : (g.set r v).set r w = g.set r w := by
  cases r <;> rfl

@[simp] theorem Segs.get_set_self (g : Segs) (r : SegName) (v : SegReg) : (g.set r v).get r = v := by cases r <;> rfl

theorem Segs.get_set_ne (g : Segs) {r q : SegName} (v : SegReg) (h : q ≠ r) : (g.set r v).get q = g.get q := by
  cases r <;> cases q <;> first | rfl | exact absurd rfl h

@[simp] theorem setReg_reg (s : State) (r : Reg) (v : Word) : (s.setReg r v).reg r = v := Gprs.get_set_self _ _ _

theorem setReg_reg_ne (s : State) {r q : Reg} (v : Word) (h : q ≠ r) : (s.setReg r v).reg q = s.reg q :=
  Gprs.get_set_ne _ _ h

@[simp] theorem setSeg_seg (s : State) (r : SegName) (v : SegReg) : (s.setSeg r v).seg r = v := Segs.get_set_self _ _ _

@[simp] theorem pushed_esp (s : State) (z : WSize) (v : Word) : (pushed s z v).reg .esp = pushOff s z := rfl

end Sys2Proof.Machine
end

