-- ==== Sys2Proof/Laws/Memory.lean ====
section
/-! SUPPORT. Memory: read after write, the canonical form, and what storing bytes leaves alone. -/

namespace Sys2Proof.Machine

/-! ### One byte -/

theorem Memory.read_eq_unlisted {m : Memory} {a : Nat} (h : ∀ c ∈ m, a < c.1) : m.read a = unlistedByte := by
  induction m with
  | nil => rfl
  | cons c m ih =>
    have hc := h c (by simp)
    simp only [Memory.read]
    rw [if_neg (by omega)]
    exact ih (fun d hd => h d (by simp [hd]))

theorem Memory.read_write_ne (m : Memory) {a b : Nat} (v : Byte) (h : b ≠ a) : (m.write a v).read b = m.read b := by
  induction m with
  | nil => simp only [Memory.write]; split <;> simp [Memory.read, Ne.symm h]
  | cons c m ih =>
    obtain ⟨k, w⟩ := c
    simp only [Memory.write]
    split
    · split <;> simp [Memory.read, Ne.symm h]
    · split
      · subst_vars; split <;> simp [Memory.read, Ne.symm h]
      · simp only [Memory.read, ih]

theorem Memory.read_write_self {m : Memory} (hm : m.wf) (a : Nat) (v : Byte) : (m.write a v).read a = v := by
  induction m with
  | nil => simp only [Memory.write]; split <;> simp_all [Memory.read]
  | cons c m ih =>
    obtain ⟨k, w⟩ := c
    have hp : ∀ d ∈ m, k < d.1 := fun d hd => (List.pairwise_cons.1 hm.1).1 d hd
    have hm' : Memory.wf m := ⟨(List.pairwise_cons.1 hm.1).2, fun d hd => hm.2 d (by simp [hd])⟩
    simp only [Memory.write]
    split
    · rename_i hlt
      split
      · rename_i hv
        rw [hv]
        apply Memory.read_eq_unlisted
        intro d hd
        rcases List.mem_cons.1 hd with rfl | hd
        · exact hlt
        · exact lt_trans hlt (hp d hd)
      · simp [Memory.read]
    · split
      · subst_vars
        split
        · rename_i hv
          rw [hv]
          exact Memory.read_eq_unlisted hp
        · simp [Memory.read]
      · rename_i hne
        simp only [Memory.read]
        rw [if_neg (fun h => hne h.symm)]
        exact ih hm'

theorem Memory.mem_write {m : Memory} {a : Nat} {v : Byte} {c : Host.Cell} (h : c ∈ m.write a v) :
    c ∈ m ∨ (c = (a, v) ∧ v ≠ unlistedByte) := by
  induction m with
  | nil =>
    simp only [Memory.write] at h
    split at h
    · simp at h
    · rename_i hv
      exact .inr ⟨List.mem_singleton.1 h, hv⟩
  | cons d m ih =>
    obtain ⟨k, w⟩ := d
    simp only [Memory.write] at h
    split at h
    · split at h
      · exact .inl h
      · rename_i hv
        rcases List.mem_cons.1 h with rfl | h
        · exact .inr ⟨rfl, hv⟩
        · exact .inl h
    · split at h
      · split at h
        · exact .inl (List.mem_cons_of_mem _ h)
        · rename_i hv
          rcases List.mem_cons.1 h with rfl | h
          · exact .inr ⟨rfl, hv⟩
          · exact .inl (List.mem_cons_of_mem _ h)
      · rcases List.mem_cons.1 h with rfl | h
        · exact .inl (by simp)
        · rcases ih h with h | h
          · exact .inl (List.mem_cons_of_mem _ h)
          · exact .inr h

/-- Writing a byte keeps the canonical form. -/
theorem Memory.wf_write {m : Memory} (hm : m.wf) {a : Nat} (ha : a < 2 ^ 32) (v : Byte) : (m.write a v).wf := by
  refine ⟨?_, fun c hc => ?_⟩
  · induction m with
    | nil => simp only [Memory.write]; split <;> simp
    | cons d m ih =>
      obtain ⟨k, w⟩ := d
      have hp := List.pairwise_cons.1 hm.1
      have hm' : Memory.wf m := ⟨hp.2, fun d hd => hm.2 d (by simp [hd])⟩
      simp only [Memory.write]
      split
      · rename_i hlt
        split
        · exact hm.1
        · refine List.pairwise_cons.2 ⟨fun d hd => ?_, hm.1⟩
          rcases List.mem_cons.1 hd with rfl | hd
          · exact hlt
          · exact lt_trans hlt (hp.1 d hd)
      · split
        · subst_vars
          split
          · exact hp.2
          · exact List.pairwise_cons.2 ⟨hp.1, hp.2⟩
        · rename_i h1 h2
          refine List.pairwise_cons.2 ⟨fun d hd => ?_, ih hm'⟩
          rcases Memory.mem_write hd with hd | ⟨rfl, -⟩
          · exact hp.1 d hd
          · show k < a
            omega
  · rcases Memory.mem_write hc with hc | ⟨rfl, hv⟩
    · exact hm.2 c hc
    · exact ⟨ha, hv⟩

/-! ### Several bytes -/

theorem Memory.wf_writeAll {m : Memory} (hm : m.wf) {cs : List Host.Cell} (h : ∀ c ∈ cs, c.1 < 2 ^ 32) :
    (m.writeAll cs).wf := by
  induction cs generalizing m with
  | nil => exact hm
  | cons c cs ih =>
    obtain ⟨a, v⟩ := c
    exact ih (Memory.wf_write hm (h (a, v) (by simp)) v) (fun d hd => h d (by simp [hd]))

/-- A byte after several writes is as before, or one of those written to its address. -/
theorem Memory.read_writeAll_or {m : Memory} (hm : m.wf) {cs : List Host.Cell} (h : ∀ c ∈ cs, c.1 < 2 ^ 32) (a : Nat) :
    (m.writeAll cs).read a = m.read a ∨ (a, (m.writeAll cs).read a) ∈ cs := by
  induction cs generalizing m with
  | nil => exact .inl rfl
  | cons c cs ih =>
    have hw := Memory.wf_write hm (h c (by simp)) c.2
    rcases ih hw (fun d hd => h d (by simp [hd])) with e | e
    · by_cases ha : a = c.1
      · refine .inr (List.mem_cons.2 (.inl ?_))
        have : (m.writeAll (c :: cs)).read a = c.2 := e.trans (by rw [ha]; exact Memory.read_write_self hm _ _)
        rw [this, ha]
      · exact .inl (e.trans (Memory.read_write_ne m c.2 ha))
    · exact .inr (List.mem_cons_of_mem _ e)

theorem Memory.read_writeAll_of_not_mem {m : Memory} {a : Nat} {cs : List Host.Cell} (h : ∀ c ∈ cs, a ≠ c.1) :
    (m.writeAll cs).read a = m.read a := by
  induction cs generalizing m with
  | nil => rfl
  | cons c cs ih =>
    obtain ⟨b, v⟩ := c
    simp only [Memory.writeAll]
    rw [ih (fun d hd => h d (by simp [hd])), Memory.read_write_ne _ _ (h (b, v) (by simp))]

theorem phys_lt (s : State) (lin : Word) : phys s lin < 2 ^ 32 := by
  simp only [phys]
  split
  · have h1 := (Config.pageFrame s.cr3 s.mem s.draws (lin.extractLsb' 12 20)).isLt
    have h2 := (lin.extractLsb' 0 12).isLt
    omega
  · exact lin.isLt

@[simp] theorem phys_of_no_paging {s : State} (h : s.cr0PG = false) (lin : Word) : phys s lin = lin.toNat := by
  simp [phys, h]

theorem cellsAt_lt (s : State) (lin : Word) (bs : List Byte) : ∀ c ∈ cellsAt s lin bs, c.1 < 2 ^ 32 := by
  induction bs generalizing lin with
  | nil => simp [cellsAt]
  | cons b bs ih =>
    intro c hc
    rcases List.mem_cons.1 hc with rfl | hc
    · exact phys_lt s lin
    · exact ih _ c hc

/-- Storing bytes keeps the canonical form. -/
theorem storeBytes_wf {s : State} (h : MemoryCanonical s) (lin : Word) (bs : List Byte) :
    MemoryCanonical (storeBytes s lin bs) :=
  Memory.wf_writeAll h (cellsAt_lt s lin bs)

/-- Storing a value keeps the canonical form. -/
theorem store_wf {s : State} (h : MemoryCanonical s) (lin : Word) (n : Nat) (v : Word) :
    MemoryCanonical (store s lin n v) :=
  storeBytes_wf h lin _

/-- A push keeps the canonical form. -/
theorem pushed_wf {s : State} (h : MemoryCanonical s) (z : WSize) (v : Word) : MemoryCanonical (pushed s z v) :=
  store_wf h _ _ _

/-- Storing the fields of a TSS keeps the canonical form. -/
theorem storeFields_wf (base : Word) (l : List (Nat × Nat × Word)) {s : State} (h : MemoryCanonical s) :
    MemoryCanonical (storeFields base l s) := by
  induction l generalizing s with
  | nil => exact h
  | cons f fs ih => exact ih (store_wf h _ _ _)

/-- The memory of the state after reset is in canonical form. -/
theorem reset_memory_wf : MemoryCanonical State.reset := by decide

/-- An instruction placed for the next fetch keeps the canonical form. -/
theorem withFetchWord_wf {s : State} (h : MemoryCanonical s) (nbits w : Nat) :
    MemoryCanonical (s.withFetchWord nbits w) :=
  Memory.wf_writeAll h (cellsAt_lt s _ _)

theorem lin_add_succ (lin : Word) (k : Nat) : lin + 1 + BitVec.ofNat 32 k = lin + BitVec.ofNat 32 (k + 1) := by
  rw [BitVec.add_assoc]
  congr 1
  apply BitVec.eq_of_toNat_eq
  simp [BitVec.toNat_add, Nat.add_comm]

/-- The cells of a store are at the physical addresses of its bytes. -/
theorem mem_cellsAt {s : State} {lin : Word} {bs : List Byte} {c : Host.Cell} (h : c ∈ cellsAt s lin bs) :
    ∃ j < bs.length, c.1 = phys s (lin + BitVec.ofNat 32 j) := by
  induction bs generalizing lin with
  | nil => cases h
  | cons d ds ih =>
    rcases List.mem_cons.1 h with rfl | h
    · exact ⟨0, by simp, by simp⟩
    · obtain ⟨j, hj, e⟩ := ih h
      exact ⟨j + 1, by simpa using hj, by rw [e, lin_add_succ]⟩

/-- Without paging a store leaves every byte outside its own alone. -/
theorem storeBytes_read_of_ne {s : State} (hp : s.cr0PG = false) (lin : Word) (bs : List Byte) {a : Nat}
    (h : ∀ k < bs.length, a ≠ (lin + BitVec.ofNat 32 k).toNat) : (storeBytes s lin bs).mem.read a = s.mem.read a := by
  refine Memory.read_writeAll_of_not_mem fun c hc => ?_
  obtain ⟨j, hj, e⟩ := mem_cellsAt hc
  rw [e]
  simpa [hp] using h j hj

@[simp] theorem numberBytes_length (n w : Nat) : (numberBytes n w).length = n := by
  induction n generalizing w with
  | zero => rfl
  | succ n ih => simp [numberBytes, ih]

/-! ### Reading back what was stored -/

/-- Each byte of a row of stores reads back where no later store shares its physical address. -/
theorem Memory.read_writeAll_cellsAt (s : State) (bs : List Byte) (lin : Word) {m : Memory} (hm : m.wf) (k : Nat)
    (hk : k < bs.length)
    (hd : ∀ j < bs.length, phys s (lin + BitVec.ofNat 32 j) = phys s (lin + BitVec.ofNat 32 k) → j = k) :
    (m.writeAll (cellsAt s lin bs)).read (phys s (lin + BitVec.ofNat 32 k)) = bs[k] := by
  induction bs generalizing lin m k with
  | nil => simp at hk
  | cons b bs ih =>
    have hw : (m.write (phys s lin) b).wf := Memory.wf_write hm (phys_lt s lin) b
    cases k with
    | zero =>
      simp only [cellsAt, Memory.writeAll, List.getElem_cons_zero]
      rw [Memory.read_writeAll_of_not_mem]
      · simpa using Memory.read_write_self hm (phys s lin) b
      · intro c hc
        obtain ⟨j, hj, e⟩ := mem_cellsAt hc
        rw [e, lin_add_succ]
        intro h
        have := hd (j + 1) (by simpa using hj) h.symm
        omega
    | succ k =>
      simp only [cellsAt, Memory.writeAll, List.getElem_cons_succ]
      rw [← lin_add_succ]
      refine ih (lin + 1) hw k (by simpa using hk) (fun j hj h => ?_)
      rw [lin_add_succ, lin_add_succ] at h
      have := hd (j + 1) (by simpa using hj) h
      omega

theorem numberBytes_getElem (n w k : Nat) (hk : k < (numberBytes n w).length) :
    (numberBytes n w)[k] = BitVec.ofNat 8 (w / 256 ^ k) := by
  induction n generalizing w k with
  | zero => simp [numberBytes] at hk
  | succ n ih =>
    cases k with
    | zero => simp [numberBytes]
    | succ k =>
      simp only [numberBytes, List.getElem_cons_succ]
      rw [ih, Nat.div_div_eq_div_mul, Nat.pow_succ, Nat.mul_comm]

/-! ### Writes of other agents during a step (R49) -/

/-- A load of a byte to which no other agent is writing sees the byte in memory. -/
theorem seenAt_unshared {s : State} {a : Nat} (h : Unshared s a) (access : Word × Nat) : seenAt s access a = s.mem.read a := by
  have e : outsideAt s.amid a = [] := by
    rw [outsideAt, List.map_eq_nil_iff, List.filter_eq_nil_iff]
    exact fun c hc => by simpa using h c hc
  rw [seenAt, e]
  rfl

/-- A load of a byte sees the byte in memory or one that another agent writes there. -/
theorem seenAt_or (s : State) (access : Word × Nat) (a : Nat) :
    seenAt s access a = s.mem.read a ∨ (a, seenAt s access a) ∈ s.amid := by
  unfold seenAt
  rw [List.getD_eq_getElem?_getD]
  cases h : (outsideAt s.amid a)[Config.outsideSeen s access a]? with
  | none => exact .inl rfl
  | some b =>
    obtain ⟨c, hc, rfl⟩ := List.mem_map.1 (List.mem_of_getElem? h)
    have hc := List.mem_filter.1 hc
    right
    rw [← of_decide_eq_true hc.2]
    exact hc.1

theorem unshared_of_alone {s : State} (h : Alone s) (a : Nat) : Unshared s a := fun c hc => by
  rw [h] at hc
  cases hc

theorem loadBytes_unshared {s : State} (access : Word × Nat) (lin : Word) (n : Nat)
    (h : ∀ k < n, Unshared s (phys s (lin + BitVec.ofNat 32 k))) : loadBytes s access lin n = bytesAt s lin n := by
  induction n generalizing lin with
  | zero => rfl
  | succ n ih =>
    have h0 := h 0 (by omega)
    simp only [BitVec.add_zero] at h0
    rw [loadBytes, bytesAt, seenAt_unshared h0,
      ih (lin + 1) (fun k hk => by rw [lin_add_succ]; exact h (k + 1) (by omega))]

/-- A load of bytes to which no other agent is writing gives what memory holds. -/
theorem loadLin_unshared {s : State} (lin : Word) (n : Nat)
    (h : ∀ k < n, Unshared s (phys s (lin + BitVec.ofNat 32 k))) : loadLin s lin n = readLin s lin n := by
  rw [loadLin, loadBytes_unshared _ _ _ h, readLin]

theorem loadLin_alone {s : State} (h : Alone s) (lin : Word) (n : Nat) : loadLin s lin n = readLin s lin n :=
  loadLin_unshared lin n fun _ _ => unshared_of_alone h _

theorem loadPhys_unshared {s : State} {a : Nat} (h0 : Unshared s a) (h1 : Unshared s (a + 1)) :
    loadPhys s a = readPhys s.mem a 2 := by
  rw [loadPhys, seenAt_unshared h0, seenAt_unshared h1]
  rfl

/-- Of what is written to `b`, dropping the first `n` bytes written to `b` leaves the others, in order. -/
theorem dropFirst_filter_self (b : Nat) (l : List Host.Cell) (n : Nat) :
    (dropFirst b l n).filter (fun c => decide (c.1 = b)) = (l.filter (fun c => decide (c.1 = b))).drop n := by
  induction l generalizing n with
  | nil => simp [dropFirst]
  | cons c l ih =>
    by_cases h : c.1 = b
    · cases n <;> simp [dropFirst, h, ih]
    · simp [dropFirst, h, ih]

theorem dropFirst_filter_ne {a b : Nat} (hb : b ≠ a) (l : List Host.Cell) (n : Nat) :
    (dropFirst a l n).filter (fun c => decide (c.1 = b)) = l.filter (fun c => decide (c.1 = b)) := by
  induction l generalizing n with
  | nil => rfl
  | cons c l ih =>
    by_cases h : c.1 = a
    · cases n with
      | zero => simp [dropFirst, h]
      | succ n => simpa [dropFirst, h, Ne.symm hb] using ih n
    · simp only [dropFirst, h, if_false, List.filter_cons, ih]

/-- What another agent is still writing to an address after a store is the end of what it was writing before, all of it
where the store does not touch the address. -/
theorem overtake_filter (s : State) (cells l : List Host.Cell) (b : Nat) :
    (overtake s cells l).filter (fun c => decide (c.1 = b)) <:+ l.filter (fun c => decide (c.1 = b)) ∧
      ((∀ c ∈ cells, c.1 ≠ b) →
        (overtake s cells l).filter (fun c => decide (c.1 = b)) = l.filter (fun c => decide (c.1 = b))) := by
  induction cells generalizing l with
  | nil => exact ⟨List.suffix_refl _, fun _ => rfl⟩
  | cons d cells ih =>
    obtain ⟨i1, i2⟩ := ih (dropFirst d.1 l (Config.outsideBefore s d.1))
    refine ⟨i1.trans ?_, fun h => (i2 fun c hc => h c (List.mem_cons_of_mem _ hc)).trans
      (dropFirst_filter_ne (Ne.symm (h d List.mem_cons_self)) _ _)⟩
    by_cases h : b = d.1
    · subst h
      rw [dropFirst_filter_self]
      exact List.drop_suffix _ _
    · rw [dropFirst_filter_ne h]

theorem overtake_subset {s : State} {cells l : List Host.Cell} {c : Host.Cell} (h : c ∈ overtake s cells l) : c ∈ l := by
  have hf : c ∈ (overtake s cells l).filter (fun d => decide (d.1 = c.1)) := List.mem_filter.2 ⟨h, by simp⟩
  exact (List.mem_filter.1 ((overtake_filter s cells l c.1).1.subset hf)).1

/-- What a store does to memory, with or without paging. -/
theorem storedAt_store {s : State} (h : MemoryCanonical s) (lin : Word) (n : Nat) (v : Word) :
    StoredAt s (store s lin n v).mem lin n v := by
  refine ⟨fun a ha => ?_, fun hd k hk => ?_⟩
  · refine Memory.read_writeAll_of_not_mem (fun c hc => ?_)
    obtain ⟨j, hj, e⟩ := mem_cellsAt hc
    rw [e]
    exact ha j (by simpa using hj)
  · have hk' : k < (numberBytes n v.toNat).length := by simpa using hk
    show (s.mem.writeAll (cellsAt s lin (numberBytes n v.toNat))).read _ = _
    rw [Memory.read_writeAll_cellsAt s _ lin h k hk' (fun j hj e => hd j (by simpa using hj) k hk e)]
    exact numberBytes_getElem n v.toNat k hk'

theorem leValue_numberBytes (n w : Nat) : leValue (numberBytes n w) = w % 256 ^ n := by
  induction n generalizing w with
  | zero => simp [numberBytes, leValue, Nat.mod_one]
  | succ n ih =>
    simp only [numberBytes, leValue, ih]
    rw [BitVec.toNat_ofNat, show (256 : Nat) ^ (n + 1) = 256 * 256 ^ n by rw [Nat.pow_succ, Nat.mul_comm]]
    exact (Nat.mod_mul (x := w) (a := 256) (b := 256 ^ n)).symm

/-- Without paging the bytes at a linear address are those of memory. -/
theorem bytesAt_congr {s t : State} (hs : s.cr0PG = false) (ht : t.cr0PG = false) (lin : Word) (n : Nat)
    (h : ∀ k < n, s.mem.read (lin + BitVec.ofNat 32 k).toNat = t.mem.read (lin + BitVec.ofNat 32 k).toNat) :
    bytesAt s lin n = bytesAt t lin n := by
  induction n generalizing lin with
  | zero => rfl
  | succ n ih =>
    simp only [bytesAt, hs, ht, phys_of_no_paging]
    rw [ih (lin + 1) (fun k hk => by rw [lin_add_succ]; exact h (k + 1) (by omega))]
    congr 1
    simpa using h 0 (by omega)

theorem readLin_congr {s t : State} (hs : s.cr0PG = false) (ht : t.cr0PG = false) (lin : Word) (n : Nat)
    (h : ∀ k < n, s.mem.read (lin + BitVec.ofNat 32 k).toNat = t.mem.read (lin + BitVec.ofNat 32 k).toNat) :
    readLin s lin n = readLin t lin n := by
  simp only [readLin, bytesAt_congr hs ht lin n h]

/-- What bytes read as depends on memory, CR0, CR3 and the draw alone. -/
theorem bytesAt_of_eq {s t : State} (hm : s.mem = t.mem) (h0 : s.cr0 = t.cr0) (h3 : s.cr3 = t.cr3)
    (hd : s.draws = t.draws) (lin : Word) (n : Nat) : bytesAt s lin n = bytesAt t lin n := by
  have hp : ∀ l, phys s l = phys t l := fun l => by unfold phys State.cr0PG; rw [hm, h0, h3, hd]
  induction n generalizing lin with
  | zero => rfl
  | succ n ih => rw [bytesAt, bytesAt, ih, hp, hm]

theorem readLin_of_eq {s t : State} (hm : s.mem = t.mem) (h0 : s.cr0 = t.cr0) (h3 : s.cr3 = t.cr3)
    (hd : s.draws = t.draws) (lin : Word) (n : Nat) : readLin s lin n = readLin t lin n := by
  simp only [readLin, bytesAt_of_eq hm h0 h3 hd lin n]

theorem lin_add_inj {lin : Word} {j k : Nat} (hj : j < 2 ^ 32) (hk : k < 2 ^ 32)
    (h : (lin + BitVec.ofNat 32 j).toNat = (lin + BitVec.ofNat 32 k).toNat) : j = k := by
  have h1 : BitVec.ofNat 32 j = BitVec.ofNat 32 k := by
    have := BitVec.eq_of_toNat_eq h
    exact (BitVec.add_right_inj lin).1 this
  have h2 := congrArg BitVec.toNat h1
  rw [BitVec.toNat_ofNat, BitVec.toNat_ofNat, Nat.mod_eq_of_lt hj, Nat.mod_eq_of_lt hk] at h2
  exact h2

theorem bytesAt_eq_of_reads {s : State} (hp : s.cr0PG = false) (lin : Word) (bs : List Byte)
    (h : ∀ (k : Nat) (hk : k < bs.length), s.mem.read (lin + BitVec.ofNat 32 k).toNat = bs[k]) :
    bytesAt s lin bs.length = bs := by
  induction bs generalizing lin with
  | nil => rfl
  | cons b bs ih =>
    simp only [List.length_cons, bytesAt, hp, phys_of_no_paging]
    rw [ih (lin + 1) (fun k hk => by rw [lin_add_succ]; exact h (k + 1) (by simpa using hk))]
    have h0 := h 0 (by simp)
    simp only [BitVec.add_zero, List.getElem_cons_zero] at h0
    rw [h0]

/-- A value whose bytes lie in memory in little-endian order reads back (R43). -/
theorem readLin_of_reads {s : State} (hp : s.cr0PG = false) (lin : Word) (n w : Nat)
    (h : ∀ k < n, s.mem.read (lin + BitVec.ofNat 32 k).toNat = BitVec.ofNat 8 (w / 256 ^ k)) :
    readLin s lin n = w % 256 ^ n := by
  have := bytesAt_eq_of_reads hp lin (numberBytes n w) (fun k hk => by
    rw [numberBytes_getElem]; exact h k (by simpa using hk))
  rw [numberBytes_length] at this
  rw [readLin, this, leValue_numberBytes]

/-- A stored value reads back, its low `n` bytes (R43). -/
theorem readLin_store {s : State} (hp : s.cr0PG = false) (h : MemoryCanonical s) (lin : Word) {n : Nat} (hn : n ≤ 2 ^ 32)
    (v : Word) : readLin (store s lin n v) lin n = v.toNat % 256 ^ n := by
  refine readLin_of_reads (s := store s lin n v) hp lin n v.toNat (fun k hk => ?_)
  have := (storedAt_store h lin n v).2 (fun j hj i hi e => by
    rw [phys_of_no_paging hp, phys_of_no_paging hp] at e
    exact lin_add_inj (by omega) (by omega) e) k hk
  rwa [phys_of_no_paging hp] at this

end Sys2Proof.Machine
end

