-- ==== Sys2Proof/Laws/Ops.lean ====
section
/-! SUPPORT. What each shared operation can do, said once. `Evolves s t` collects what every operation below the delivery of
an event keeps; `Yields b V P r` says of a result `r` that a value of it satisfies `P` and that an exception it raises is a
fault of a vector in `V`, reported from a state that evolved from `b`. One lemma an operation follows, each proved from
those of the operations it calls. -/

namespace Sys2Proof.Machine

/-- The registers only a task switch changes. -/
abbrev SameTask (s t : State) : Prop := t.ldtr = s.ldtr ∧ t.tr = s.tr ∧ t.cr3 = s.cr3 ∧ t.cr0 = s.cr0

/-- What no operation on a state changes, what each keeps (the canonical form of memory and the fixed bits of EFLAGS), and
what changes only with a task switch, which `switched` records. -/
structure Evolves (s t : State) : Prop where
  mem : MemoryCanonical s → MemoryCanonical t
  flags : FlagsCanonical s → FlagsCanonical t
  gdtr : t.gdtr = s.gdtr
  idtr : t.idtr = s.idtr
  cr0 : t.cr0 = s.cr0 ∨ t.cr0 = setBit s.cr0 3 true
  cr2 : t.cr2 = s.cr2
  dr : t.dr = s.dr
  tr6 : t.tr6 = s.tr6
  tr7 : t.tr7 = s.tr7
  delivering : t.delivering = s.delivering
  shutdown : t.shutdown = s.shutdown
  halted : t.halted = s.halted
  nmiBlocked : t.nmiBlocked = s.nmiBlocked
  reported : t.reported = s.reported
  debugTrap : t.debugTrap = s.debugTrap
  pins : t.pins = s.pins
  amid : ∀ c ∈ t.amid, c ∈ s.amid
  task : t.switched = none → s.switched = none ∧ SameTask s t

theorem setBit_setBit (v : Word) (i : Nat) : setBit (setBit v i true) i true = setBit v i true := by
  simp [setBit, BitVec.or_assoc]

theorem Evolves.refl (s : State) : Evolves s s :=
  { mem := id, flags := id, gdtr := rfl, idtr := rfl, cr0 := .inl rfl, cr2 := rfl, dr := rfl, tr6 := rfl, tr7 := rfl
    delivering := rfl, shutdown := rfl, halted := rfl, nmiBlocked := rfl, reported := rfl, debugTrap := rfl
    pins := rfl, amid := fun _ => id
    task := fun h => ⟨h, rfl, rfl, rfl, rfl⟩ }

theorem Evolves.trans {a b c : State} (h : Evolves a b) (k : Evolves b c) : Evolves a c where
  mem := fun x => k.mem (h.mem x)
  flags := fun x => k.flags (h.flags x)
  gdtr := k.gdtr.trans h.gdtr
  idtr := k.idtr.trans h.idtr
  cr0 := by
    rcases k.cr0 with e | e <;> rcases h.cr0 with f | f <;> simp [e, f, setBit_setBit]
  cr2 := k.cr2.trans h.cr2
  dr := k.dr.trans h.dr
  tr6 := k.tr6.trans h.tr6
  tr7 := k.tr7.trans h.tr7
  delivering := k.delivering.trans h.delivering
  shutdown := k.shutdown.trans h.shutdown
  halted := k.halted.trans h.halted
  nmiBlocked := k.nmiBlocked.trans h.nmiBlocked
  reported := k.reported.trans h.reported
  debugTrap := k.debugTrap.trans h.debugTrap
  pins := k.pins.trans h.pins
  amid := fun c x => h.amid c (k.amid c x)
  task := fun x =>
    let ⟨y, k1, k2, k3, k4⟩ := k.task x
    let ⟨z, h1, h2, h3, h4⟩ := h.task y
    ⟨z, k1.trans h1, k2.trans h2, k3.trans h3, k4.trans h4⟩

/-! ### The fixed bits of EFLAGS -/

theorem flagsWf_iff (v : Word) :
    flagsWf v ↔ v.getLsbD 1 = true ∧ v.getLsbD 3 = false ∧ v.getLsbD 5 = false ∧ v.getLsbD 15 = false := by
  unfold flagsWf fixedFlags
  constructor
  · intro h
    rw [← h]
    simp
  · rintro ⟨h1, h3, h5, h15⟩
    ext i hi
    have e : ∀ k (hk : k < 32), v.getLsbD k = v[k] := fun k hk => by simp [hk]
    rw [e 1 (by omega)] at h1
    rw [e 3 (by omega)] at h3
    rw [e 5 (by omega)] at h5
    rw [e 15 (by omega)] at h15
    interval_cases i <;> simp_all

theorem flagsWf_fixedFlags (v : Word) : flagsWf (fixedFlags v) := by
  rw [flagsWf_iff]
  simp [fixedFlags]

theorem getLsbD_setBit (v : Word) (i j : Nat) (b : Bool) (hi : i < 32) :
    (setBit v i b).getLsbD j = if j = i then b else v.getLsbD j := by
  unfold setBit
  have one : (1#32 <<< i).getLsbD j = decide (j = i) := by
    simp only [BitVec.getLsbD_shiftLeft]
    by_cases h : j = i
    · subst h; simp [hi]
    · by_cases hk : j < i
      · simp [h, hk]
      · have : j - i ≠ 0 := by omega
        simp [h, BitVec.getLsbD_one, this]
  by_cases hj : j < 32
  · cases b
    · rw [if_neg (by simp), BitVec.getLsbD_and, BitVec.getLsbD_not, one]
      by_cases h : j = i <;> simp [h, hj]
    · rw [if_pos rfl, BitVec.getLsbD_or, one]
      by_cases h : j = i <;> simp [h]
  · have h1 : j ≠ i := by omega
    rw [if_neg h1, BitVec.getLsbD_of_ge _ _ (by omega), BitVec.getLsbD_of_ge _ _ (by omega)]

theorem flagsWf_setBit {v : Word} (h : flagsWf v) {i : Nat} (b : Bool) (hi : i < 32)
    (h1 : i ≠ 1) (h3 : i ≠ 3) (h5 : i ≠ 5) (h15 : i ≠ 15) : flagsWf (setBit v i b) := by
  rw [flagsWf_iff] at h ⊢
  simp only [getLsbD_setBit v i _ b hi]
  rw [if_neg (Ne.symm h1), if_neg (Ne.symm h3), if_neg (Ne.symm h5), if_neg (Ne.symm h15)]
  exact h

theorem flagsWf_withStatus {v : Word} (h : flagsWf v) (free : Word) : flagsWf (withStatus v free) := by
  rw [flagsWf_iff] at h ⊢
  simpa [withStatus, statusMask] using h

theorem flagsWf_entryFlags {v : Word} (h : flagsWf v) (b : Bool) : flagsWf (entryFlags v b) := by
  unfold entryFlags
  have := flagsWf_setBit (flagsWf_setBit (flagsWf_setBit (flagsWf_setBit h (i := 8) false (by omega) (by omega) (by omega)
    (by omega) (by omega)) (i := 14) false (by omega) (by omega) (by omega) (by omega) (by omega)) (i := 17) false
    (by omega) (by omega) (by omega) (by omega) (by omega)) (i := 16) false (by omega) (by omega) (by omega) (by omega)
    (by omega)
  cases b
  · exact this
  · exact flagsWf_setBit this false (by omega) (by omega) (by omega) (by omega) (by omega)

theorem flagsWf_realEntryFlags {v : Word} (h : flagsWf v) : flagsWf (realEntryFlags v) :=
  flagsWf_setBit (flagsWf_setBit (flagsWf_setBit h false (by omega) (by omega) (by omega) (by omega) (by omega)) false
    (by omega) (by omega) (by omega) (by omega) (by omega)) false (by omega) (by omega) (by omega) (by omega) (by omega)

/-! ### Updates -/

/-- An update of registers, segments, the instruction pointer and hidden bookkeeping evolves the state. -/
theorem Evolves.of_eq {s t : State} (mem : t.mem = s.mem) (fl : t.eflags = s.eflags) (gdtr : t.gdtr = s.gdtr)
    (idtr : t.idtr = s.idtr) (cr0 : t.cr0 = s.cr0) (cr2 : t.cr2 = s.cr2) (dr : t.dr = s.dr) (tr6 : t.tr6 = s.tr6)
    (tr7 : t.tr7 = s.tr7) (de : t.delivering = s.delivering) (sh : t.shutdown = s.shutdown)
    (ha : t.halted = s.halted) (nm : t.nmiBlocked = s.nmiBlocked) (re : t.reported = s.reported)
    (dt : t.debugTrap = s.debugTrap) (pi : t.pins = s.pins) (am : t.amid = s.amid) (sw : t.switched = s.switched)
    (ld : t.ldtr = s.ldtr) (tr : t.tr = s.tr) (c3 : t.cr3 = s.cr3) :
    Evolves s t :=
  { mem := fun h => by unfold MemoryCanonical; rw [mem]; exact h
    flags := fun h => by unfold FlagsCanonical; rw [fl]; exact h
    gdtr := gdtr, idtr := idtr, cr0 := .inl cr0, cr2 := cr2, dr := dr, tr6 := tr6, tr7 := tr7, delivering := de
    shutdown := sh, halted := ha, nmiBlocked := nm, reported := re, debugTrap := dt, pins := pi, amid := fun c h => am ▸ h
    task := fun h => ⟨sw.symm.trans h, ld, tr, c3, cr0⟩ }

theorem evolves_setReg (s : State) (r : Reg) (v : Word) : Evolves s (s.setReg r v) := by apply Evolves.of_eq <;> rfl
theorem evolves_setReg16 (s : State) (r : Reg) (v : Half) : Evolves s (s.setReg16 r v) := by
  apply Evolves.of_eq <;> rfl
theorem evolves_setRegZ (s : State) (z : WSize) (r : Reg) (v : Word) : Evolves s (s.setRegZ z r v) := by
  cases z <;> apply Evolves.of_eq <;> rfl
theorem evolves_setSeg (s : State) (r : SegName) (v : SegReg) : Evolves s (s.setSeg r v) := by
  apply Evolves.of_eq <;> rfl
theorem evolves_tick (s : State) : Evolves s s.tick := by apply Evolves.of_eq <;> rfl
theorem evolves_jump (s : State) (e : Word) : Evolves s (jump s e) := by apply Evolves.of_eq <;> rfl
theorem evolves_segs (s : State) (g : Segs) : Evolves s { s with segs := g } := by apply Evolves.of_eq <;> rfl
theorem evolves_ldtr {s : State} (h : s.switched ≠ none) (g : SegReg) : Evolves s { s with ldtr := g } :=
  { Evolves.refl s with task := fun k => absurd k h }
theorem evolves_eip (s : State) (e : Word) : Evolves s { s with eip := e } := by apply Evolves.of_eq <;> rfl

theorem evolves_eflags (s : State) {v : Word} (h : FlagsCanonical s → flagsWf v) :
    Evolves s { s with eflags := v } :=
  { Evolves.refl s with flags := h }

theorem evolves_store (s : State) (lin : Word) (n : Nat) (v : Word) : Evolves s (store s lin n v) :=
  { Evolves.refl s with mem := fun h => store_wf h _ _ _, amid := fun _ => overtake_subset }

theorem evolves_pushed (s : State) (z : WSize) (v : Word) : Evolves s (pushed s z v) :=
  { Evolves.refl s with mem := fun h => pushed_wf h _ _, amid := fun _ => overtake_subset }

theorem evolves_storeFields (base : Word) (l : List (Nat × Nat × Word)) (s : State) :
    Evolves s (storeFields base l s) := by
  induction l generalizing s with
  | nil => exact Evolves.refl s
  | cons f fs ih => exact (evolves_store s _ _ _).trans (ih _)

theorem evolves_setBusy (s : State) (sel : Half) (b : Bool) : Evolves s (setBusy s sel b) := evolves_store s _ _ _

theorem evolves_commitTables (s : State) (sel : Half) (base : Word) (c : Cause) (cs : Half) (eip : Word) :
    Evolves s (commitTables s sel base c cs eip) := by
  unfold commitTables
  refine Evolves.trans ?_ (evolves_setBusy _ sel true)
  split
  · refine Evolves.trans ?_ (evolves_store _ _ _ _)
    split
    · exact (evolves_storeFields _ _ _).trans (evolves_setBusy _ _ _)
    · exact evolves_storeFields _ _ _
  · split
    · exact (evolves_storeFields _ _ _).trans (evolves_setBusy _ _ _)
    · exact evolves_storeFields _ _ _

theorem evolves_newContext (s : State) (tr : SegReg) (img : TssImage) (c : Cause) :
    Evolves s (newContext s tr img c) :=
  { Evolves.refl s with
    cr0 := .inr rfl
    task := fun h => by cases h
    flags := fun _ => by
      show flagsWf _
      dsimp only [newContext]
      have h : flagsWf (setBit (fixedFlags img.eflags) 17 false) :=
        flagsWf_setBit (flagsWf_fixedFlags _) false (by omega) (by omega) (by omega) (by omega) (by omega)
      split
      · exact flagsWf_setBit h true (by omega) (by omega) (by omega) (by omega) (by omega)
      · exact h }

theorem evolves_enterMode (img : TssImage) (s : State) : Evolves s (enterMode img s) :=
  evolves_eflags s fun h => flagsWf_setBit h _ (by omega) (by omega) (by omega) (by omega) (by omega)

theorem abortCells_lt (s : State) (v : BitVec 8) : ∀ c ∈ abortCells s v, c.1 < 2 ^ 32 := by
  intro c hc
  obtain ⟨d, -, rfl⟩ := List.mem_map.1 (List.mem_filter.1 hc).1
  exact Nat.mod_lt _ (by omega)

theorem evolves_abortState (v : BitVec 8) (s : State) : Evolves s (abortState v s) :=
  { evolves_tick s with
    mem := fun h => Memory.wf_writeAll h (abortCells_lt s v)
    flags := fun _ => flagsWf_setBit (flagsWf_fixedFlags _) _ (by omega) (by omega) (by omega) (by omega) (by omega)
    task := fun h => ⟨h, rfl, rfl, rfl, rfl⟩ }

/-- An abort leaves the system tables as they were. -/
theorem abortState_read {s : State} {v : BitVec 8} {a : Nat} (h : systemByte s v a = true) :
    (abortState v s).mem.read a = s.mem.read a :=
  Memory.read_writeAll_of_not_mem fun c hc e => by
    have := (List.mem_filter.1 hc).2
    rw [← e, h] at this
    simp at this

theorem evolves_enterSegment (s : State) (g : SegReg) (b : Bool) : Evolves s (enterSegment s g b) :=
  { evolves_setSeg s .cs g with flags := fun h => flagsWf_entryFlags h b }

/-- An abort leaves the mode as it was. -/
theorem abortState_mode (v : BitVec 8) (s : State) : mode (abortState v s) = mode s := by
  have h : (abortState v s).flagVM = s.flagVM := by
    show (setBit _ 17 _).getLsbD 17 = _
    rw [getLsbD_setBit _ _ _ _ (by omega), if_pos rfl]
  unfold mode
  rw [h]
  rfl

theorem selRpl_withRpl (sel : Half) (r : BitVec 2) : selRpl (withRpl sel r) = r := by
  refine BitVec.eq_of_getLsbD_eq fun i hi => ?_
  have h : i = 0 ∨ i = 1 := by omega
  rcases h with rfl | rfl <;> simp [selRpl, withRpl]

/-- An abort leaves the CPL as it was. -/
theorem abortState_cpl (v : BitVec 8) (s : State) : cpl (abortState v s) = cpl s := by
  unfold cpl
  rw [abortState_mode]
  cases h : mode s
  · rfl
  · show selRpl (if mode s = .protMode then withRpl _ (selRpl s.segs.cs.sel) else _) = selRpl s.segs.cs.sel
    rw [if_pos h, selRpl_withRpl]
  · rfl

theorem inRange_add {base : Word} {limit n : Nat} (hn : n < 2 ^ 32) (h : n ≤ limit) :
    inRange base limit (base + BitVec.ofNat 32 n).toNat = true := by
  have e : base + BitVec.ofNat 32 n - base = BitVec.ofNat 32 n := by bv_omega
  rw [inRange, decide_eq_true_eq, BitVec.ofNat_toNat, BitVec.setWidth_eq, e, BitVec.toNat_ofNat, Nat.mod_eq_of_lt hn]
  exact h

/-- An abort leaves the bytes of the entry of a vector inside the interrupt descriptor table as they were. -/
theorem abortState_entry {s : State} {v : BitVec 8} (hm : mode s ≠ .realMode) (hp : s.cr0PG = false)
    (hl : 8 * v.toNat + 7 ≤ s.idtr.limit.toNat) :
    readLin (abortState v s) (s.idtr.base + BitVec.ofNat 32 (8 * v.toNat)) 8 =
      readLin s (s.idtr.base + BitVec.ofNat 32 (8 * v.toNat)) 8 := by
  have hv := v.isLt
  have hp' : (abortState v s).cr0PG = false := hp
  refine readLin_congr hp' hp _ _ fun k hk => abortState_read ?_
  rw [systemByte, if_neg hm, BitVec.add_assoc, ← BitVec.ofNat_add, inRange_add (by omega) (by omega)]
  simp

/-! ### The logic of results -/

/-- A value satisfies `P`; an exception satisfies `V`, with the state it is reported from, which evolved from `b`. -/
def Yields {α : Type} (b : State) (V : Event → State → Prop) (P : α → Prop) : Res α → Prop
  | .ok a => P a
  | .error (.raised e ctx) => Evolves b ctx ∧ V e ctx
  | .error (.refused _) => True

theorem Yields.bind {α β : Type} {b : State} {V : Event → State → Prop} {P : α → Prop} {Q : β → Prop} {r : Res α}
    {f : α → Res β} (h : Yields b V P r) (k : ∀ a, P a → Yields b V Q (f a)) : Yields b V Q (r >>= f) := by
  cases r with
  | ok a => exact k a h
  | error e => cases e <;> exact h

theorem Yields.bind_eq {α β : Type} {b : State} {V : Event → State → Prop} {P : α → Prop} {Q : β → Prop} {r : Res α}
    {f : α → Res β} (h : Yields b V P r) (k : ∀ a, r = .ok a → P a → Yields b V Q (f a)) : Yields b V Q (r >>= f) := by
  cases r with
  | ok a => exact k a rfl h
  | error e => cases e <;> exact h

theorem Yields.mono {α : Type} {b : State} {V W : Event → State → Prop} {P Q : α → Prop} {r : Res α}
    (h : Yields b V P r) (hv : ∀ e c, V e c → W e c) (k : ∀ a, P a → Q a) : Yields b W Q r := by
  cases r with
  | ok a => exact k a h
  | error e =>
    cases e with
    | raised e ctx => exact ⟨h.1, hv _ _ h.2⟩
    | refused => trivial

theorem Yields.ok {α : Type} {b : State} {V : Event → State → Prop} {P : α → Prop} {r : Res α} {a : α}
    (h : Yields b V P r) (e : r = .ok a) : P a := by subst e; exact h

theorem Yields.raised {α : Type} {b : State} {V : Event → State → Prop} {P : α → Prop} {r : Res α} {e : Event}
    {ctx : State} (h : Yields b V P r) (k : r = .error (.raised e ctx)) : Evolves b ctx ∧ V e ctx := by
  subst k; exact h

/-- The vectors a second exception may have (R139 item 3): 10, 11, 12, 13, 14. -/
abbrev secondVector (v : BitVec 8) : Prop := v = 10 ∨ v = 11 ∨ v = 12 ∨ v = 13 ∨ v = 14

/-- `V` holds of every exception the operations report from `o`: a vector of `secondVector` with an error code, its EXT bit
as `o` has it but for a page fault; from the state `o` names, or in the context of a task switched to (R133). -/
structure Reports (o : Origin) (V : Event → State → Prop) : Prop where
  here : ∀ v c a, secondVector v → (v ≠ 14 → c.getLsbD 0 = o.ext) → (a ≠ none → v = 14) →
    V (o.event v (some c) a) o.home
  there : ∀ s v c a, s.switched ≠ none → secondVector v → (v ≠ 14 → c.getLsbD 0 = o.ext) →
    (a ≠ none → v = 14) → V ((Origin.inTask s o.ext).event v (some c) a) s

theorem Reports.inTask {o : Origin} {V : Event → State → Prop} (h : Reports o V) {s : State} (hs : s.switched ≠ none) :
    Reports (Origin.inTask s o.ext) V :=
  ⟨fun v c a => h.there s v c a hs, h.there⟩

theorem selErr_ext (sel : Half) (x : Bool) : (selErr sel x).getLsbD 0 = x := by cases x <;> simp [selErr]

theorem idtErr_ext (v : BitVec 8) (x : Bool) : (idtErr v x).getLsbD 0 = x := by cases x <;> simp [idtErr]

theorem deniedErr_ext {d : AccessDenial} (h : d.vector ≠ .pageFault) (x : Bool) : (deniedErr d x).getLsbD 0 = x := by
  cases x <;> simp [deniedErr, h]

/-! ### What a task switch loads -/

theorem bind_ok_eq {α β : Type} {r : Res α} {f : α → Res β} {b : β} (h : r >>= f = .ok b) : ∃ a, r = .ok a ∧ f a = .ok b := by
  cases r with
  | ok a => exact ⟨a, rfl, h⟩
  | error e => cases h

theorem loadLdt_ok {o : Origin} {s t : State} {sel : Half} (h : loadLdt o s sel = .ok t) : ∃ l, t = { s with ldtr := l } := by
  unfold loadLdt at h
  repeat' split at h
  all_goals first | cases h; done | (cases h; exact ⟨_, rfl⟩)

theorem loadTaskStack_ok {o : Origin} {s t : State} {c : BitVec 2} {sel : Half} (h : loadTaskStack o s c sel = .ok t) :
    ∃ g, t = { s with segs := g } := by
  unfold loadTaskStack at h
  repeat' split at h
  all_goals first | cases h; done | (cases h; exact ⟨_, rfl⟩)

theorem loadTaskCode_ok {o : Origin} {s t : State} {c : BitVec 2} {sel : Half} (h : loadTaskCode o s c sel = .ok t) :
    ∃ g, t = { s with segs := g } := by
  unfold loadTaskCode at h
  repeat' split at h
  all_goals first | cases h; done | (cases h; exact ⟨_, rfl⟩)

theorem loadTaskData_ok {o : Origin} {s t : State} {r : SegName} {sel : Half} (h : loadTaskData o s r sel = .ok t) :
    ∃ g, t = s.setSeg r g := by
  unfold loadTaskData at h
  repeat' split at h
  all_goals first | cases h; done | (cases h; exact ⟨_, rfl⟩)

theorem loadTaskDatas_ok {o : Origin} {l : List (SegName × Half)} {s t : State} (h : loadTaskDatas o s l = .ok t) :
    ∃ g, t = { s with segs := g } := by
  induction l generalizing s with
  | nil => cases h; exact ⟨_, rfl⟩
  | cons p l ih =>
    simp only [loadTaskDatas] at h
    split at h
    · cases h
    · rename_i s1 h1
      obtain ⟨g, rfl⟩ := loadTaskData_ok h1
      obtain ⟨g', rfl⟩ := ih h
      exact ⟨g', rfl⟩

/-- The selectors of a new task, once loaded, change the segment registers and LDTR alone. -/
theorem loadContext_ok {o : Origin} {s t : State} {img : TssImage} (h : loadContext o s img = .ok t) :
    ∃ l g, t = { s with ldtr := l, segs := g } := by
  obtain ⟨s1, h1, h⟩ := bind_ok_eq h
  obtain ⟨s2, h2, h⟩ := bind_ok_eq h
  obtain ⟨s3, h3, h⟩ := bind_ok_eq h
  obtain ⟨-, -, h⟩ := bind_ok_eq h
  obtain ⟨l, rfl⟩ := loadLdt_ok h1
  obtain ⟨g, rfl⟩ := loadTaskStack_ok h2
  obtain ⟨g, rfl⟩ := loadTaskCode_ok h3
  obtain ⟨g, rfl⟩ := loadTaskDatas_ok h
  exact ⟨l, g, rfl⟩

/-- A completed task switch is recorded until the step ends. -/
theorem taskSwitch_switched {o : Origin} {s t : State} {sel : Half} {c : Cause} {cs : Half} {eip : Word}
    (h : taskSwitch o s sel c cs eip = .ok t) : t.switched ≠ none := by
  obtain ⟨d, -, h⟩ := bind_ok_eq h
  obtain ⟨s3, h, k⟩ := bind_ok_eq h
  obtain ⟨l, g, rfl⟩ := loadContext_ok h
  cases k
  simp [newContext]

theorem yields_checkIf {b : State} {V : Event → State → Prop} (c : Bool) {r : Res Unit}
    (h : Yields b V (fun _ => True) r) : Yields b V (fun _ => True) (checkIf c r) := by
  cases c
  · trivial
  · exact h

section
variable {b : State} {o : Origin} {V : Event → State → Prop} (ho : Evolves b o.home) (hv : Reports o V)
include ho hv

theorem yields_selFault {α : Type} {P : α → Prop} {v : BitVec 8} (sel : Half) (h : secondVector v) :
    Yields b V P (.error (o.fault v (some (selErr sel o.ext))) : Res α) :=
  ⟨ho, hv.here v _ none h (fun _ => selErr_ext sel _) (by simp)⟩

theorem yields_idtFault {α : Type} {P : α → Prop} {v : BitVec 8} (w : BitVec 8) (h : secondVector v) :
    Yields b V P (.error (o.fault v (some (idtErr w o.ext))) : Res α) :=
  ⟨ho, hv.here v _ none h (fun _ => idtErr_ext w _) (by simp)⟩

theorem yields_check (s : State) (key : AccessKey) (lin : Word) :
    Yields b V (fun _ => True) (check o s key lin) := by
  unfold check
  split
  · trivial
  · rename_i d _
    refine ⟨ho, hv.here d.vector.number _ _ ?_ ?_ ?_⟩
    · cases d.vector <;> decide
    · exact fun hn => deniedErr_ext (fun h => hn (by rw [h]; rfl)) _
    · intro h
      by_cases hp : d.vector = .pageFault
      · rw [hp]; rfl
      · rw [if_neg hp] at h
        exact absurd rfl h

theorem yields_memRead (s : State) (r : SegName) (off : Word) (n : Nat) :
    Yields b V (fun _ => True) (memRead o s r off n) := by
  have h := yields_check ho hv s (dataKey s r off n) (s.lin r off)
  unfold memRead
  split
  · trivial
  · rename_i e he
    rw [he] at h
    cases e <;> exact h

theorem yields_readDesc (s : State) (sel : Half) : Yields b V (fun _ => True) (readDesc o s sel) := by
  have h := yields_check ho hv s (descKey s sel) (descAddr s sel)
  unfold readDesc
  split
  · trivial
  · rename_i e he
    rw [he] at h
    cases e <;> exact h

theorem yields_push {s : State} (hs : Evolves b s) (z : WSize) (v : Word) :
    Yields b V (Evolves b) (push o s z v) := by
  have h := yields_check ho hv s (pushKey s z) (s.lin .ss (pushOff s z))
  unfold push
  split
  · exact hs.trans (evolves_pushed s z v)
  · rename_i e he
    rw [he] at h
    cases e <;> exact h

theorem yields_pushAll {s : State} (hs : Evolves b s) (z : WSize) (l : List Word) :
    Yields b V (Evolves b) (pushAll o s z l) := by
  induction l generalizing s with
  | nil => exact hs
  | cons v vs ih =>
    have h := yields_push ho hv hs z v
    unfold pushAll
    split
    · rename_i s' hs'
      rw [hs'] at h
      exact ih h
    · rename_i e he
      rw [he] at h
      cases e <;> exact h

theorem yields_loadProtected (s : State) (r : SegName) (sel : Half) :
    Yields b V (fun g => g.sel = sel) (loadProtected o s r sel) := by
  have h := yields_readDesc ho hv s sel
  unfold loadProtected
  split
  · split
    · exact yields_selFault ho hv _ (by decide)
    · exact rfl
  · split
    · split
      · exact rfl
      · rename_i e he
        rw [he] at h
        cases e <;> exact h
    · exact yields_selFault ho hv _ (by decide)

theorem yields_loadSegment (s : State) (r : SegName) (sel : Half) :
    Yields b V (fun g => g.sel = sel) (loadSegment o s r sel) := by
  have h := yields_check ho hv s (loadKey s r sel) (descAddr s sel)
  unfold loadSegment
  split
  · rename_i e he
    rw [he] at h
    cases e <;> exact h
  · split
    · exact yields_loadProtected ho hv s r sel
    · exact rfl

theorem yields_farJump {s : State} (hs : Evolves b s) (sel : Half) (off : Word) :
    Yields b V (Evolves b) (farJump o s sel off) := by
  have h := yields_loadSegment ho hv s .cs sel
  unfold farJump
  split
  · unfold sameLevel
    split
    · exact hs.trans ((evolves_setSeg _ _ _).trans (evolves_jump _ _))
    · trivial
  · rename_i e he
    rw [he] at h
    cases e <;> exact h

theorem yields_farTarget (s : State) (sel : Half) :
    Yields b V (fun _ => True) (farTarget o s sel) := by
  have h := yields_readDesc ho hv s sel
  unfold farTarget
  split
  · split
    · rename_i e he
      rw [he] at h
      cases e <;> exact h
    · split <;> trivial
  · trivial

/-! ### The task switch -/

theorem yields_loadLdt {s : State} (hs : Evolves b s) (hw : s.switched ≠ none) (sel : Half) :
    Yields b V (Evolves b) (loadLdt o s sel) := by
  have h := yields_readDesc ho hv s sel
  unfold loadLdt
  split
  · exact yields_selFault ho hv _ (by decide)
  · split
    · rename_i e he
      rw [he] at h
      cases e <;> exact h
    · split
      · exact hs.trans (evolves_ldtr hw _)
      · exact yields_selFault ho hv _ (by decide)

theorem yields_loadTaskStack {s : State} (hs : Evolves b s) (c : BitVec 2) (sel : Half) :
    Yields b V (Evolves b) (loadTaskStack o s c sel) := by
  have h := yields_readDesc ho hv s sel
  unfold loadTaskStack
  split
  · trivial
  · split
    · exact yields_selFault ho hv _ (by decide)
    · split
      · rename_i e he
        rw [he] at h
        cases e <;> exact h
      · repeat' split
        all_goals first
          | exact yields_selFault ho hv _ (by decide)
          | exact hs.trans (evolves_setSeg _ _ _)

theorem yields_loadTaskCode {s : State} (hs : Evolves b s) (c : BitVec 2) (sel : Half) :
    Yields b V (Evolves b) (loadTaskCode o s c sel) := by
  have h := yields_readDesc ho hv s sel
  unfold loadTaskCode
  split
  · trivial
  · split
    · exact yields_selFault ho hv _ (by decide)
    · split
      · rename_i e he
        rw [he] at h
        cases e <;> exact h
      · repeat' split
        all_goals first
          | exact yields_selFault ho hv _ (by decide)
          | exact hs.trans (evolves_setSeg _ _ _)

theorem yields_checkTaskLimits (s : State) (l : List Half) :
    Yields b V (fun _ => True) (checkTaskLimits o s l) := by
  induction l with
  | nil => trivial
  | cons sel sels ih =>
    unfold checkTaskLimits
    split
    · exact yields_selFault ho hv _ (by decide)
    · exact ih

theorem yields_loadTaskData {s : State} (hs : Evolves b s) (r : SegName) (sel : Half) :
    Yields b V (Evolves b) (loadTaskData o s r sel) := by
  have h := yields_readDesc ho hv s sel
  unfold loadTaskData
  split
  · exact hs.trans (evolves_setSeg _ _ _)
  · split
    · rename_i e he
      rw [he] at h
      cases e <;> exact h
    · repeat' split
      all_goals first
        | exact yields_selFault ho hv _ (by decide)
        | exact hs.trans (evolves_setSeg _ _ _)

theorem yields_loadTaskDatas {s : State} (hs : Evolves b s) (l : List (SegName × Half)) :
    Yields b V (Evolves b) (loadTaskDatas o s l) := by
  induction l generalizing s with
  | nil => exact hs
  | cons p l ih =>
    obtain ⟨r, sel⟩ := p
    have h := yields_loadTaskData ho hv hs r sel
    unfold loadTaskDatas
    split
    · rename_i e he
      rw [he] at h
      cases e <;> exact h
    · rename_i s' hs'
      rw [hs'] at h
      exact ih h

theorem yields_loadContext {s : State} (hs : Evolves b s) (hw : s.switched ≠ none) (img : TssImage) :
    Yields b V (Evolves b) (loadContext o s img) := by
  unfold loadContext
  refine (yields_loadLdt ho hv hs hw _).bind fun s1 h1 => ?_
  refine (yields_loadTaskStack ho hv h1 _ _).bind fun s2 h2 => ?_
  refine (yields_loadTaskCode ho hv h2 _ _).bind fun s3 h3 => ?_
  exact (yields_checkTaskLimits ho hv s3 _).bind fun _ _ => yields_loadTaskDatas ho hv h3 _

theorem yields_checkBusy (s : State) (sel : Half) : Yields b V (fun _ => True) (checkBusy o s sel) :=
  (yields_check ho hv _ _ _).bind fun _ _ => yields_check ho hv _ _ _

theorem yields_verifyTss (s : State) (sel : Half) (c : Cause) :
    Yields b V (fun _ => True) (verifyTss o s sel c) := by
  unfold verifyTss
  split
  · exact yields_selFault ho hv _ (by decide)
  · refine (yields_readDesc ho hv s sel).bind fun d _ => ?_
    split
    · exact yields_selFault ho hv _ (by decide)
    · split
      · exact yields_selFault ho hv _ (by decide)
      · split
        · exact yields_selFault ho hv _ (by decide)
        · split
          · trivial
          · refine (yields_check ho hv _ _ _).bind fun _ _ => ?_
            refine (yields_check ho hv _ _ _).bind fun _ _ => ?_
            refine (yields_checkIf _ (yields_check ho hv _ _ _)).bind fun _ _ => ?_
            refine (yields_checkBusy ho hv _ _).bind fun _ _ => ?_
            exact (yields_checkIf _ (yields_checkBusy ho hv _ _)).bind fun _ _ => trivial

theorem yields_taskSwitch {s : State} (hs : Evolves b s) (sel : Half) (c : Cause) (cs : Half) (eip : Word) :
    Yields b V (Evolves b) (taskSwitch o s sel c cs eip) := by
  unfold taskSwitch
  refine (yields_verifyTss ho hv s sel c).bind fun d _ => ?_
  have h := hs.trans ((evolves_commitTables s sel (descBase d) c cs eip).trans
    (evolves_newContext _ { segOfDesc sel d with access := descAccess d ||| 2 }
      (readTss (commitTables s sel (descBase d) c cs eip) (descBase d)) c))
  refine (yields_loadContext (o := Origin.inTask _ o.ext) h (hv.inTask (Option.some_ne_none _)) h
    (Option.some_ne_none _) _).bind fun s3 h3 => ?_
  exact Evolves.trans h3 (evolves_enterMode _ s3)

/-! ### Invoking a handler -/

theorem yields_pushErr {s : State} (hs : Evolves b s) (z : WSize) (e : Event) :
    Yields b V (Evolves b) (pushErr o s z e) := by
  unfold pushErr
  split
  · exact hs
  · split
    · exact yields_push ho hv hs _ _
    · exact yields_push ho hv (hs.trans (evolves_tick s)) _ _

theorem yields_innerStack (s : State) (l : BitVec 2) :
    Yields b V (fun _ => True) (innerStack o s l) := by
  unfold innerStack
  refine (yields_check ho hv _ _ _).bind fun _ _ => ?_
  dsimp only
  split
  · refine yields_selFault ho hv _ ?_
    split <;> decide
  · exact (yields_readDesc ho hv _ _).bind fun _ _ => trivial

theorem yields_leaveV86 (old : State) {s : State} (hs : Evolves b s) (z : WSize) :
    Yields b V (Evolves b) (leaveV86 o old s z) := by
  unfold leaveV86
  split
  · have h := yields_pushAll ho hv hs z
      [old.segs.gs.sel.setWidth 32, old.segs.fs.sel.setWidth 32, old.segs.ds.sel.setWidth 32,
       old.segs.es.sel.setWidth 32]
    split
    · rename_i e he
      rw [he] at h
      cases e <;> exact h
    · rename_i s' hs'
      rw [hs'] at h
      exact Evolves.trans h (evolves_segs _ _)
  · exact hs

theorem yields_finishEntry (old : State) {s : State} (hs : Evolves b s) (z : WSize) (e : Event) (entry : Word) :
    Yields b V (Evolves b) (finishEntry o old s z e entry) := by
  unfold finishEntry
  refine (yields_pushAll ho hv hs _ _).bind fun s1 h1 => ?_
  refine (yields_pushErr ho hv h1 _ _).bind fun s2 h2 => ?_
  exact Evolves.trans h2 (evolves_jump _ _)

theorem yields_enterInner {s : State} (hs : Evolves b s) (e : Event) (z : WSize) (clearIF : Bool) (g : SegReg)
    (level : BitVec 2) (entry : Word) :
    Yields b V (Evolves b) (enterInner o s e z clearIF g level entry) := by
  unfold enterInner
  refine (yields_innerStack ho hv s level).bind fun p _ => ?_
  have h1 : Evolves b
      (((enterSegment s { g with sel := withRpl g.sel level } clearIF).setSeg .ss p.1).setReg .esp p.2) :=
    hs.trans ((evolves_enterSegment _ _ _).trans ((evolves_setSeg _ _ _).trans (evolves_setReg _ _ _)))
  refine (yields_leaveV86 ho hv s h1 z).bind fun s2 h2 => ?_
  refine (yields_pushAll ho hv h2 _ _).bind fun s3 h3 => ?_
  exact yields_finishEntry ho hv s h3 z e entry

theorem yields_enterGate {s : State} (hs : Evolves b s) (e : Event) (z : WSize) (clearIF : Bool) (gate : Desc) :
    Yields b V (Evolves b) (enterGate o s e z clearIF gate) := by
  have h := yields_readDesc ho hv s (gateSel gate)
  unfold enterGate
  dsimp only
  split
  · exact yields_selFault ho hv _ (by decide)
  · split
    · rename_i x hx
      rw [hx] at h
      cases x <;> exact h
    · repeat' split
      all_goals first
        | exact yields_selFault ho hv _ (by decide)
        | exact yields_finishEntry ho hv s (hs.trans (evolves_enterSegment _ _ _)) _ _ _
        | exact yields_enterInner ho hv hs _ _ _ _ _ _

theorem yields_enterTask {s : State} (hs : Evolves b s) (e : Event) (gate : Desc) :
    Yields b V (Evolves b) (enterTask o s e gate) := by
  unfold enterTask
  refine (yields_taskSwitch ho hv hs _ _ _ _).bind_eq fun s1 e1 h1 => ?_
  refine (yields_pushErr (o := Origin.inTask s1 o.ext) h1 (hv.inTask (taskSwitch_switched e1)) h1 _ _).bind fun s2 h2 => ?_
  exact Evolves.trans h2 (evolves_jump _ _)

end

section
variable {b s : State} {e : Event} {V : Event → State → Prop} (hs : Evolves b s) (hv : Reports (Origin.ofEvent s e) V)
include hs hv

theorem yields_invokeReal : Yields b V (Evolves b) (invokeReal e s) := by
  unfold invokeReal
  refine (yields_pushAll (o := Origin.ofEvent s e) hs hv hs _ _).bind fun s1 h1 => ?_
  refine (yields_check (o := Origin.ofEvent s e) hs hv _ _ _).bind fun _ _ => ?_
  refine Evolves.trans ?_ (evolves_jump _ _)
  exact { Evolves.trans h1 (evolves_setSeg s1 .cs (segReal (BitVec.ofNat 16 (loadPhys s1 (4 * e.vector.toNat + 2)))))
    with flags := fun h => flagsWf_realEntryFlags (hs.flags h) }

theorem yields_invokeProtected : Yields b V (Evolves b) (invokeProtected e s) := by
  have ho : Evolves b (Origin.ofEvent s e).home := hs
  unfold invokeProtected
  dsimp only
  split
  · exact yields_idtFault ho hv _ (by decide)
  · refine (yields_check ho hv _ _ _).bind fun _ _ => ?_
    split
    · trivial
    · repeat' split
      all_goals first
        | exact yields_idtFault ho hv _ (by decide)
        | exact yields_enterTask ho hv hs _ _
        | exact yields_enterGate ho hv hs _ _ _ _

/-- What invoking a handler can do: the handler is entered in a state that evolved, or a second exception of vector 10, 11,
12, 13 or 14 is raised from one (R139 item 3), or the model refuses. -/
theorem yields_invokeHandler : Yields b V (Evolves b) (invokeHandler e s) := by
  unfold invokeHandler
  split
  · exact yields_invokeReal hs hv
  · exact yields_invokeProtected hs hv

end

/-- A second exception (R139 item 3, R152, R138): its vector, class and error code, and the CS:EIP it saves. -/
structure SecondOf (e : Event) (e2 : Event) : Prop where
  vector : secondVector e2.vector
  cls : e2.cls = .fault
  err : ∃ c, e2.err = some c ∧ (e2.vector ≠ 14 → c.getLsbD 0 = e.ext)
  addr : e2.faultAddr ≠ none → e2.vector = 14
  intr : e2.intr = false
  saved : e2.newTask = false → e2.savedCS = e.savedCS ∧ e2.savedEIP = e.savedEIP

/-- A second exception has the class of its identifier. -/
theorem SecondOf.doubleClass {e e2 : Event} (h : SecondOf e e2) : e2.doubleClass = dfClass e2.vector := by
  rw [Event.doubleClass, h.intr]
  rfl

theorem reports_ofEvent (s : State) (e : Event) : Reports (Origin.ofEvent s e) (fun e2 _ => SecondOf e e2) :=
  ⟨fun _ c _ h k l => ⟨h, rfl, ⟨c, rfl, k⟩, l, rfl, fun _ => ⟨rfl, rfl⟩⟩,
    fun _ _ c _ _ h k l => ⟨h, rfl, ⟨c, rfl, k⟩, l, rfl, fun h => by cases h⟩⟩

theorem invokeHandler_ok {e : Event} {s t : State} (h : invokeHandler e s = .ok t) : Evolves s t :=
  (yields_invokeHandler (Evolves.refl s) (reports_ofEvent s e)).ok h

theorem invokeHandler_raised {e e2 : Event} {s ctx : State} (h : invokeHandler e s = .error (.raised e2 ctx)) :
    Evolves s ctx ∧ SecondOf e e2 :=
  (yields_invokeHandler (Evolves.refl s) (reports_ofEvent s e)).raised h

end Sys2Proof.Machine
end

