-- ==== Sys2Proof/Laws/Stack.lean ====
section
/-! SUPPORT. What a row of pushes does (R24), said once: `Pushed s t z vs`. -/

namespace Sys2Proof.Machine

@[simp] theorem Gprs.set_get (g : Gprs) (r : Reg) : g.set r (g.get r) = g := by cases r <;> rfl

@[simp] theorem Segs.set_get (g : Segs) (r : SegName) : g.set r (g.get r) = g := by cases r <;> rfl

theorem bytes_pos (z : WSize) : 0 < z.bytes := by cases z <;> decide

theorem truncZ_toNat (z : WSize) (v : Word) : (truncZ z v).toNat = v.toNat % 256 ^ z.bytes := by
  cases z
  · show ((v.setWidth 16).setWidth 32).toNat = v.toNat % 256 ^ 2
    simp only [BitVec.toNat_setWidth]
    omega
  · show v.toNat = v.toNat % 256 ^ 4
    have := v.isLt
    omega

theorem sub_sub_add (x a b : Word) : x - a - b = x - (a + b) := by bv_omega

theorem slot_shift (x y a b c : Word) : x + (y - a) + c = x + (y - a - b) + (b + c) := by ring

/-- `t` is `s` after the words `vs` have been pushed with the operand size `z`. -/
structure Pushed (s t : State) (z : WSize) (vs : List Word) : Prop where
  eqs : t = { s with
    gpr := s.gpr.set .esp (s.reg .esp - BitVec.ofNat 32 (vs.length * z.bytes)), mem := t.mem, stored := t.stored
    amid := t.amid }
  amid : ∀ c ∈ t.amid, c ∈ s.amid
  wf : Memory.wf t.mem
  stack : ∀ (k : Nat) (h : k < vs.length),
    readLin t (s.lin .ss (slotOff (s.reg .esp) z k)) z.bytes = (truncZ z vs[k]).toNat
  only : OnlyBytes s t (s.lin .ss (s.reg .esp - BitVec.ofNat 32 (vs.length * z.bytes))) (vs.length * z.bytes)

section
variable {s t : State} {z : WSize} {vs : List Word} (h : Pushed s t z vs)
include h

theorem Pushed.gpr : t.gpr = s.gpr.set .esp (s.reg .esp - BitVec.ofNat 32 (vs.length * z.bytes)) :=
  congrArg State.gpr h.eqs
theorem Pushed.eip : t.eip = s.eip := by rw [h.eqs]
theorem Pushed.eflags : t.eflags = s.eflags := by rw [h.eqs]
theorem Pushed.segs : t.segs = s.segs := by rw [h.eqs]
theorem Pushed.ldtr : t.ldtr = s.ldtr := by rw [h.eqs]
theorem Pushed.tr : t.tr = s.tr := by rw [h.eqs]
theorem Pushed.gdtr : t.gdtr = s.gdtr := by rw [h.eqs]
theorem Pushed.idtr : t.idtr = s.idtr := by rw [h.eqs]
theorem Pushed.cr0 : t.cr0 = s.cr0 := by rw [h.eqs]
theorem Pushed.cr2 : t.cr2 = s.cr2 := by rw [h.eqs]
theorem Pushed.cr3 : t.cr3 = s.cr3 := by rw [h.eqs]
theorem Pushed.dr : t.dr = s.dr := by rw [h.eqs]
theorem Pushed.tr6 : t.tr6 = s.tr6 := by rw [h.eqs]
theorem Pushed.tr7 : t.tr7 = s.tr7 := by rw [h.eqs]
theorem Pushed.delivering : t.delivering = s.delivering := by rw [h.eqs]
theorem Pushed.shutdown : t.shutdown = s.shutdown := by rw [h.eqs]
theorem Pushed.halted : t.halted = s.halted := by rw [h.eqs]
theorem Pushed.nmiBlocked : t.nmiBlocked = s.nmiBlocked := by rw [h.eqs]
theorem Pushed.reported : t.reported = s.reported := by rw [h.eqs]
theorem Pushed.switched : t.switched = s.switched := by rw [h.eqs]
theorem Pushed.debugTrap : t.debugTrap = s.debugTrap := by rw [h.eqs]
theorem Pushed.pins : t.pins = s.pins := by rw [h.eqs]
theorem Pushed.draws : t.draws = s.draws := by rw [h.eqs]

end

theorem slotOff_zero (s : State) (z : WSize) : slotOff (s.reg .esp) z 0 = pushOff s z := by
  simp [slotOff, pushOff]

theorem push_ok (o : Origin) {s : State} {z : WSize} (h : admits s (slotKey (s.reg .esp) (cpl s) z 0)) (v : Word) :
    push o s z v = .ok (pushed s z v) := by
  have h' : accessDenial s (pushKey s z) = none := by
    have e : pushKey s z = slotKey (s.reg .esp) (cpl s) z 0 := by simp [pushKey, slotKey, slotOff_zero]
    rw [e]; exact h
  simp only [push, check, h']

theorem slotOff_succ (s : State) (z : WSize) (v : Word) (k : Nat) :
    slotOff ((pushed s z v).reg .esp) z k = slotOff (s.reg .esp) z (k + 1) := by
  have e : (pushed s z v).reg .esp = pushOff s z := rfl
  rw [e, slotOff, slotOff, pushOff, show (k + 1 + 1) * z.bytes = z.bytes + (k + 1) * z.bytes by ring,
    BitVec.ofNat_add]
  exact sub_sub_add _ _ _

/-- One push. -/
theorem pushed_one {s : State} (hp : s.cr0PG = false) (hm : MemoryCanonical s) (z : WSize) (v : Word) :
    Pushed s (pushed s z v) z [v] := by
  have hb := bytes_pos z
  have hl : [v].length * z.bytes = z.bytes := by simp
  refine ⟨by rw [hl]; rfl, fun c hc => overtake_subset hc, pushed_wf hm z v, fun k hk => ?_, fun a ha => ?_⟩
  · obtain rfl : k = 0 := by simpa using hk
    have h32 : z.bytes ≤ 2 ^ 32 := by cases z <;> decide
    rw [slotOff_zero, List.getElem_cons_zero, truncZ_toNat, ← readLin_store hp hm (s.lin .ss (pushOff s z)) h32 v]
    exact readLin_congr (s := pushed s z v) (t := store s (s.lin .ss (pushOff s z)) z.bytes v) hp hp _ _ fun _ _ => rfl
  · rw [hl] at ha
    exact (storedAt_store hm (s.lin .ss (pushOff s z)) z.bytes v).1 a fun k hk => by
      rw [phys_of_no_paging hp]; exact ha k hk

theorem slotOff_shift (esp : Word) (z : WSize) (n k : Nat) :
    slotOff (esp - BitVec.ofNat 32 (n * z.bytes)) z k = slotOff esp z (n + k) := by
  rw [slotOff, slotOff, show (n + k + 1) * z.bytes = n * z.bytes + (k + 1) * z.bytes by ring, BitVec.ofNat_add]
  exact sub_sub_add _ _ _

/-- Pushes after pushes, from a state that differs in nothing the pushes go by. -/
theorem Pushed.append {s t t' u : State} {z : WSize} {vs ws : List Word} (P : Pushed s t z vs) (Q : Pushed t' u z ws)
    (hp : s.cr0PG = false) (hp' : t'.cr0PG = false) (hg : t'.gpr = t.gpr) (hss : (t'.seg .ss).base = (s.seg .ss).base)
    (hm : t'.mem = t.mem) (ha : ∀ c ∈ t'.amid, c ∈ t.amid) (hl : (vs ++ ws).length * z.bytes ≤ 2 ^ 31) :
    Pushed s { s with gpr := u.gpr, mem := u.mem, stored := u.stored, amid := u.amid } z (vs ++ ws) := by
  have htp : t.cr0PG = false := by simp only [State.cr0PG, P.cr0]; exact hp
  have hup : u.cr0PG = false := by simp only [State.cr0PG, Q.cr0]; exact hp'
  have hesp : t'.reg .esp = s.reg .esp - BitVec.ofNat 32 (vs.length * z.bytes) := by
    simp only [State.reg, hg, P.gpr, Gprs.get_set_self]
  have hlin : ∀ off, t'.lin .ss off = s.lin .ss off := fun off => by simp only [State.lin, hss]
  have htot : (vs ++ ws).length * z.bytes = vs.length * z.bytes + ws.length * z.bytes := by
    rw [List.length_append]; ring
  have hbase : t'.reg .esp - BitVec.ofNat 32 (ws.length * z.bytes) =
      s.reg .esp - BitVec.ofNat 32 ((vs ++ ws).length * z.bytes) := by
    rw [hesp, htot, BitVec.ofNat_add]
    exact sub_sub_add _ _ _
  have only := Q.only
  rw [hlin, hbase] at only
  refine ⟨?_, fun c hc => P.amid c (ha c (Q.amid c hc)), Q.wf, fun k hk => ?_, fun a h => ?_⟩
  · have e : u.gpr = s.gpr.set .esp (s.reg .esp - BitVec.ofNat 32 ((vs ++ ws).length * z.bytes)) := by
      rw [Q.gpr, hbase, hg, P.gpr, Gprs.set_set]
    rw [e]
  · rw [readLin_congr (s := { s with gpr := u.gpr, mem := u.mem, stored := u.stored, amid := u.amid }) (t := u) hp hup _ _
      fun _ _ => rfl]
    by_cases h : k < vs.length
    · rw [List.getElem_append_left h, ← P.stack k h]
      refine readLin_congr hup htp _ _ fun i hi => ?_
      rw [← hm]
      refine only _ fun j hj e => ?_
      have hk : (k + 1) * z.bytes ≤ vs.length * z.bytes := Nat.mul_le_mul_right _ h
      have hz : z.bytes ≤ 4 := by cases z <;> decide
      have e2 : s.lin .ss (slotOff (s.reg .esp) z k) + BitVec.ofNat 32 i =
          s.lin .ss (s.reg .esp - BitVec.ofNat 32 ((vs ++ ws).length * z.bytes)) +
            BitVec.ofNat 32 ((vs ++ ws).length * z.bytes - (k + 1) * z.bytes + i) := by
        rw [BitVec.ofNat_add, State.lin, State.lin, slotOff,
          slot_shift _ _ _ (BitVec.ofNat 32 ((vs ++ ws).length * z.bytes - (k + 1) * z.bytes)), sub_sub_add,
          ← BitVec.ofNat_add, show (k + 1) * z.bytes + ((vs ++ ws).length * z.bytes - (k + 1) * z.bytes) =
            (vs ++ ws).length * z.bytes by omega]
      rw [e2] at e
      have := lin_add_inj (by omega) (by omega) e
      omega
    · rw [List.getElem_append_right (by omega), ← Q.stack (k - vs.length) (by simp at hk; omega), hlin, hesp,
        slotOff_shift, show vs.length + (k - vs.length) = k by omega]
  · have h1 : u.mem.read a = t'.mem.read a := only a fun i hi e => h i (by omega) e
    have h2 : t.mem.read a = s.mem.read a := P.only a fun i hi e => by
      refine h (ws.length * z.bytes + i) (by omega) ?_
      rw [e, BitVec.ofNat_add, State.lin, State.lin, slot_shift _ _ _ (BitVec.ofNat 32 (ws.length * z.bytes)), sub_sub_add,
        ← BitVec.ofNat_add, htot]
    rw [← h2, ← hm]
    exact h1

/-- A row of pushes that `AccessCheck` admits is made. -/
theorem pushAll_ok (o : Origin) {z : WSize} (vs : List Word) {s : State} (hp : s.cr0PG = false)
    (hm : MemoryCanonical s) (hl : vs.length * z.bytes ≤ 2 ^ 31)
    (hadm : ∀ k < vs.length, admits s (slotKey (s.reg .esp) (cpl s) z k)) :
    ∃ t, pushAll o s z vs = .ok t ∧ Pushed s t z vs := by
  induction vs generalizing s with
  | nil =>
    refine ⟨s, rfl, ?_, fun _ => id, hm, fun k h => by simp at h, fun a _ => rfl⟩
    have : s.gpr.set .esp (s.reg .esp - BitVec.ofNat 32 (([] : List Word).length * z.bytes)) = s.gpr := by
      simp [State.reg]
    rw [this]
  | cons v vs ih =>
    have hl' : vs.length * z.bytes ≤ 2 ^ 31 := Nat.le_trans (Nat.mul_le_mul_right _ (by simp)) hl
    obtain ⟨t, ht, P⟩ := ih (s := pushed s z v) hp (pushed_wf hm z v) hl' fun k hk => by
      rw [slotKey, slotOff_succ]
      exact hadm (k + 1) (by simpa using hk)
    have Q := (pushed_one hp hm z v).append P hp hp rfl rfl rfl (fun _ => id) hl
    have e : t = { s with gpr := t.gpr, mem := t.mem, stored := t.stored, amid := t.amid } := by
      conv_lhs => rw [P.eqs, ← P.gpr]
      rfl
    rw [← e] at Q
    exact ⟨t, by rw [pushAll, push_ok o (hadm 0 (by simp))]; exact ht, Q⟩

theorem pushAll_append (o : Origin) (s : State) (z : WSize) (vs ws : List Word) :
    pushAll o s z (vs ++ ws) = (pushAll o s z vs >>= fun t => pushAll o t z ws) := by
  induction vs generalizing s with
  | nil => rfl
  | cons v vs ih =>
    simp only [List.cons_append, pushAll]
    cases push o s z v with
    | error e => rfl
    | ok t => exact ih t

/-- A row of pushes and then that of an event's error code (R137, R139): a 32-bit one advances the counter of free values. -/
theorem pushErr_ok (o : Origin) {z : WSize} (vs : List Word) (e : Event) {s : State} (hp : s.cr0PG = false)
    (hm : MemoryCanonical s) (hl : (vs.length + 1) * z.bytes ≤ 2 ^ 31)
    (hadm : ∀ k < vs.length + 1, admits s (slotKey (s.reg .esp) (cpl s) z k)) :
    ∃ s1 t hi, (e.vector = 8 → hi = 0) ∧ pushAll o s z vs = .ok s1 ∧ pushErr o s1 z e = .ok t ∧
      Pushed s { t with draws := s.draws } z (vs ++ errWords z hi e.err) := by
  have hv : vs.length * z.bytes ≤ 2 ^ 31 := Nat.le_trans (Nat.mul_le_mul_right _ (by omega)) hl
  obtain ⟨s1, h1, P⟩ := pushAll_ok o vs hp hm hv fun k hk => hadm k (by omega)
  have hesp : s1.reg .esp = s.reg .esp - BitVec.ofNat 32 (vs.length * z.bytes) := by
    simp only [State.reg, P.gpr, Gprs.get_set_self]
  have hp1 : s1.cr0PG = false := by simp only [State.cr0PG, P.cr0]; exact hp
  have had : admits s1 (slotKey (s1.reg .esp) (cpl s1) z 0) := by
    have hc : cpl s1 = cpl s := by rw [P.eqs]; rfl
    have := hadm vs.length (by omega)
    rw [admits, accessDenial, P.pins, hc, slotKey, hesp, slotOff_shift]
    exact this
  -- one more push, from the state as it is or with the counter advanced
  have go : ∀ (u : State) (w : Word), u = { s1 with draws := u.draws } →
      push o u z w = .ok (pushed u z w) ∧ Pushed s { pushed u z w with draws := s.draws } z (vs ++ [w]) := by
    intro u w hu
    have hau : admits u (slotKey (u.reg .esp) (cpl u) z 0) := by rw [hu]; exact had
    have hpu : u.cr0PG = false := by rw [hu]; exact hp1
    have hmu : MemoryCanonical u := by rw [hu]; exact P.wf
    have Q := P.append (pushed_one hpu hmu z w) hp hpu (by rw [hu]) (by rw [hu]; simp only [State.seg, P.segs])
      (by rw [hu]) (by rw [hu]; exact fun _ => id) (by simpa using hl)
    refine ⟨push_ok o hau w, ?_⟩
    have e : { pushed u z w with draws := s.draws } = { s with
        gpr := (pushed u z w).gpr, mem := (pushed u z w).mem, stored := (pushed u z w).stored
        amid := (pushed u z w).amid } := by
      show { u with
        gpr := (pushed u z w).gpr, mem := (pushed u z w).mem, stored := (pushed u z w).stored
        amid := (pushed u z w).amid, draws := s.draws } = _
      generalize pushed u z w = q
      rw [hu, P.eqs]
    rw [e]
    exact Q
  cases he : e.err with
  | none =>
    refine ⟨s1, s1, 0, fun _ => rfl, h1, by simp [pushErr, he], ?_⟩
    have : { s1 with draws := s.draws } = s1 := by rw [← P.draws]
    rw [this]
    simpa [errWords] using P
  | some c =>
    cases z with
    | o16 => exact ⟨s1, _, 0, fun _ => rfl, h1, by simp only [pushErr, he]; exact (go s1 _ rfl).1, (go s1 _ rfl).2⟩
    | o32 =>
      exact ⟨s1, _, if e.vector = 8 then 0#16 else Config.errHigh s1.draws, fun h => if_pos h, h1,
        by simp only [pushErr, he]; exact (go s1.tick _ rfl).1, (go s1.tick _ rfl).2⟩

end Sys2Proof.Machine
end

