-- ==== Sys2Proof/Laws/Exec.lean ====
section
/-! SUPPORT. When the operations below an instruction answer a value, and which: one lemma an operation and case. -/

namespace Sys2Proof.Machine

theorem nextEip_ok {s : State} {n : Nat} (h : s.eip.toNat + n ≤ 0xFFFFFFFF) : nextEip s n = .ok (s.eip + BitVec.ofNat 32 n) := if_pos h

theorem nextEip_err {s : State} {n : Nat} (h : 0xFFFFFFFF < s.eip.toNat + n) : nextEip s n = .error (.refused .eipOverflow) := if_neg (by omega)

theorem advance_ok {s : State} {n : Nat} (h : s.eip.toNat + n ≤ 0xFFFFFFFF) : advance s n = .ok { s with eip := s.eip + BitVec.ofNat 32 n } := by
  rw [advance, nextEip_ok h]

theorem bind_ok {α β : Type} (a : α) (f : α → Res β) : ((Except.ok a : Res α) >>= f) = f a := rfl

theorem bind_err {α β : Type} (e : Stop) (f : α → Res β) : ((Except.error e : Res α) >>= f) = .error e := rfl

theorem check_ok (o : Origin) {s : State} {k : AccessKey} (h : admits s k) (l : Word) : check o s k l = .ok () := by
  simp only [check, show accessDenial s k = none from h]

theorem loadSegment_real (o : Origin) {s : State} {r : SegName} {sel : Half} (h : admits s (loadKey s r sel)) (hm : mode s ≠ .protMode) :
    loadSegment o s r sel = .ok (segReal sel) := by
  simp only [loadSegment, check_ok o h, if_neg hm]

theorem readDesc_ok (o : Origin) {s : State} {sel : Half} (h : admits s (descKey s sel)) : readDesc o s sel = .ok (descAt s sel) := by
  simp only [readDesc, check_ok o h, descAt]

theorem loadSegment_prot (o : Origin) {s : State} {r : SegName} {sel : Half} (h : admits s (loadKey s r sel)) (hm : mode s = .protMode)
    (hr : selReadable s sel) : loadSegment o s r sel = .ok (segOfDesc sel (descAt s sel)) := by
  simp only [loadSegment, check_ok o h, if_pos hm, loadProtected, hr.1, hr.2.1, readDesc_ok o hr.2.2]
  simp

theorem farTarget_real (o : Origin) {s : State} {sel : Half} (hm : mode s ≠ .protMode) : farTarget o s sel = .ok .segment := by
  simp [farTarget, hm]

theorem farTarget_code (o : Origin) {s : State} {sel : Half} (hr : selReadable s sel) (h : isCode (descAt s sel) = true) :
    farTarget o s sel = .ok .segment := by
  unfold farTarget
  split
  · rw [readDesc_ok o hr.2.2]
    dsimp only
    unfold isCode at h
    split at h <;> simp_all
  · rfl

/-! ### Accesses that are refused -/

/-- A refused access of the instruction at `s` raises its event from `s`, whatever state it is asked in. -/
theorem check_denied {s t : State} {k : AccessKey} {d : AccessDenial} (h : accessDenial t k = some d) (l : Word) :
    check (Origin.ofInstr s) t k l = .error (.raised (deniedEvent s d l) s) := by
  simp only [check, h]
  rfl

theorem readEA_denied {s : State} {pre : List Pfx} {m : EA} {add n : Nat} {d : AccessDenial}
    (h : accessDenial s (dataKey s (eaSeg pre m) (eaOff s m + BitVec.ofNat 32 add) n) = some d) :
    readEA s pre m add n =
      .error (.raised (deniedEvent s d (s.lin (eaSeg pre m) (eaOff s m + BitVec.ofNat 32 add))) s) := by
  simp only [readEA, memRead, check_denied h]

theorem readEA_admitted {s : State} {pre : List Pfx} {m : EA} {add n : Nat}
    (h : admits s (dataKey s (eaSeg pre m) (eaOff s m + BitVec.ofNat 32 add) n)) :
    ∃ v, readEA s pre m add n = .ok v := by
  simp only [readEA, memRead, check_ok _ h]; exact ⟨_, rfl⟩

theorem push_denied {s t : State} {z : WSize} {d : AccessDenial}
    (h : accessDenial t (slotKey (t.reg .esp) (cpl t) z 0) = some d) (v : Word) :
    push (Origin.ofInstr s) t z v = .error (.raised (deniedEvent s d (t.lin .ss (slotOff (t.reg .esp) z 0))) s) := by
  have e : pushKey t z = slotKey (t.reg .esp) (cpl t) z 0 := by simp [pushKey, slotKey, slotOff_zero]
  simp only [push, e, check_denied h, slotOff_zero]

theorem loadSegment_denied {s t : State} {r : SegName} {sel : Half} {d : AccessDenial}
    (h : accessDenial t (loadKey t r sel) = some d) :
    loadSegment (Origin.ofInstr s) t r sel = .error (.raised (deniedEvent s d (descAddr t sel)) s) := by
  simp only [loadSegment, check_denied h]

/-- The slots below the stack pointer after a push are the further slots below it before. -/
theorem slotKey_pushed (s : State) (z : WSize) (v : Word) (k : Nat) :
    slotKey ((pushed s z v).reg .esp) (cpl (pushed s z v)) z k = slotKey (s.reg .esp) (cpl s) z (k + 1) ∧
    slotOff ((pushed s z v).reg .esp) z k = slotOff (s.reg .esp) z (k + 1) := by
  have : slotOff ((pushed s z v).reg .esp) z k = slotOff (s.reg .esp) z (k + 1) := by
    rw [pushed_esp, pushOff, slotOff, slotOff]
    cases z <;> simp [WSize.bytes] <;> bv_omega
  exact ⟨by rw [slotKey, slotKey, this]; rfl, this⟩

/-- A refused fetch ends a window where it stands. -/
theorem fetchWindow_denied {s : State} {d : AccessDenial} (k : Nat) : ∀ (n : Nat) (off : Word), k < n →
    off.toNat + k ≤ 0xFFFFFFFF → (∀ j < k, admits s (fetchKey s (off + BitVec.ofNat 32 j))) →
    accessDenial s (fetchKey s (off + BitVec.ofNat 32 k)) = some d →
    (fetchWindow s n off).2 = some (.raised (deniedEvent s d (s.lin .cs (off + BitVec.ofNat 32 k))) s) ∧
      (fetchWindow s n off).1.length = k := by
  induction k with
  | zero =>
    intro n off hn hl ha hd
    obtain ⟨n, rfl⟩ := Nat.exists_eq_succ_of_ne_zero (by omega : n ≠ 0)
    simp only [BitVec.add_zero] at hd ⊢
    simp only [fetchWindow, check_denied hd]
    simp
  | succ k ih =>
    intro n off hn hl ha hd
    obtain ⟨n, rfl⟩ := Nat.exists_eq_succ_of_ne_zero (by omega : n ≠ 0)
    have e : ∀ j : Nat, off + BitVec.ofNat 32 (j + 1) = off + 1 + BitVec.ofNat 32 j := fun j => by
      rw [BitVec.ofNat_add]; simp only [BitVec.add_assoc, BitVec.add_comm (BitVec.ofNat 32 j)]; rfl
    have h0 := ha 0 (by omega)
    simp only [BitVec.add_zero] at h0
    have hne : off ≠ 0xFFFFFFFF := by rintro rfl; simp at hl
    have := ih n (off + 1) (by omega) (by bv_omega) (fun j hj => by rw [← e]; exact ha _ (by omega)) (by rw [← e]; exact hd)
    simp only [fetchWindow, check_ok _ h0, if_neg hne]
    rw [e, this.1]
    exact ⟨rfl, congrArg (· + 1) this.2⟩

/-- A step with no write of another agent before or during it is what is due next. -/
theorem step_inside {s : State} (h1 : s.pins.reset = false) (h2 : s.shutdown = false) (h3 : s.pins.external = [])
    (h4 : s.pins.inside = []) : step s = nextEvent s := by
  rw [step, if_neg (by simp [h1]), if_neg (by simp [h2]), if_neg (by simp [h3]), if_neg (by simp [h4])]

/-- A step with writes of other agents during it. -/
theorem step_amid {s : State} (h1 : s.pins.reset = false) (h2 : s.shutdown = false) (h3 : s.pins.external = [])
    (h4 : s.pins.inside ≠ []) : step s = landRest (step s.openStep) := by
  rw [step, if_neg (by simp [h1]), if_neg (by simp [h2]), if_neg (by simp [h3]), if_pos h4, eventAmid,
    step_inside (s := s.openStep) h1 h2 h3 rfl]

/-- Every byte another agent writes during a step is below 2^32. -/
theorem openStep_lt (s : State) : ∀ c ∈ s.openStep.amid, c.1 < 2 ^ 32 := fun c hc => by
  obtain ⟨d, -, rfl⟩ := List.mem_map.1 hc
  exact Nat.mod_lt _ (by omega)

theorem closeStep_wf {s : State} (h : MemoryCanonical s) (hl : ∀ c ∈ s.amid, c.1 < 2 ^ 32) : MemoryCanonical s.closeStep :=
  Memory.wf_writeAll h hl

/-- The next state of a step among the writes of other agents is that of what is due next, with those writes ended. -/
theorem landRest_next {o : Host.Outcome State Fault Refusal} {t : State} (h : landRest o = .next t) :
    ∃ u, o = .next u ∧ t = u.closeStep := by
  cases o with
  | next u => exact ⟨u, rfl, (Host.Outcome.next.inj h).symm⟩
  | fault r => cases h
  | refused r => cases h

/-- A step nothing disturbs runs the next instruction. -/
theorem step_undisturbed {s : State} (h : Undisturbed s) : step s = runNext s := by
  obtain ⟨h1, h2, h3, h4, hi, h5, h6, h7, h8⟩ := h
  rw [step_inside h1 h2 h4 hi, nextEvent, if_neg (by simp [h5]), if_neg (by simp [h6]), if_neg (by simp [h7])]
  unfold intrOrRun
  have : (if s.flagIF then s.pins.intr else none) = none := by
    split
    · rename_i h; exact h8 h
    · rfl
  simp [this, h3]

end Sys2Proof.Machine
end

