-- ==== Sys2Proof/Laws/Deliver.lean ====
section
/-! SUPPORT. Taking an exception (R138), said once: `Delivered e s t` is the four ways the delivery of an event ends, and
`delivered` that `deliver` ends in one of them. By Tables 9-3 and 9-4 the bound of `deliverChain` is never used up. -/

namespace Sys2Proof.Machine

theorem deliverChain_eq (n : Nat) (e : Event) (s : State) : deliverChain n e s =
    match invokeHandler e (report e s) with
    | .ok s' => .next { s' with delivering := none }
    | .error (.refused r) => .refused r
    | .error (.raised e2 ctx) =>
      if e.vector = 8 then .next { ctx with shutdown := true }
      else
        match n with
        | 0 => .next { ctx with shutdown := true }
        | n + 1 =>
          if isDouble e.doubleClass e2.doubleClass then
            deliverChain n (doubleFault ctx.draws) (abortState 8 ctx)
          else deliverChain n e2 ctx := by
  cases n <;> rw [deliverChain] <;> rcases invokeHandler e (report e s) with (⟨_, _⟩ | _) | _ <;> rfl

theorem deliverChain_of_eight (n m : Nat) (e : Event) (s : State) (h : e.vector = 8) : deliverChain n e s = deliverChain m e s := by
  rw [deliverChain_eq, deliverChain_eq]
  split <;> simp [h]

theorem dfClass_second {v : BitVec 8} (h : secondVector v) :
    (dfClass v = .contributory) ∨ (v = 14 ∧ dfClass v = .pageFault) := by
  rcases h with rfl | rfl | rfl | rfl | rfl <;> simp [dfClass]

/-- How many second exceptions may follow an event before its delivery ends. -/
def evRank (e : Event) : Nat :=
  if e.vector = 8 then 0 else match e.doubleClass with | .pageFault => 1 | .contributory => 2 | .benign => 3

theorem evRank_le (e : Event) : evRank e ≤ 3 := by
  unfold evRank
  split
  · omega
  · cases e.doubleClass <;> simp

theorem rank_second {e e2 : Event} (h : SecondOf e e2) (h8 : e.vector ≠ 8)
    (hd : isDouble e.doubleClass e2.doubleClass ≠ true) : evRank e2 < evRank e := by
  have hw := h.vector
  unfold evRank
  rw [if_neg h8]
  have hw8 : e2.vector ≠ 8 := by rcases hw with a | a | a | a | a <;> rw [a] <;> decide
  rw [if_neg hw8, h.doubleClass]
  rw [h.doubleClass] at hd
  rcases dfClass_second hw with h | ⟨-, h⟩ <;> rw [h] at hd ⊢ <;> cases hc : e.doubleClass <;> simp [hc, isDouble] at hd ⊢

theorem deliverChain_stable (n m : Nat) (e : Event) (s : State) (hn : evRank e ≤ n) (hm : evRank e ≤ m) :
    deliverChain n e s = deliverChain m e s := by
  induction n generalizing m e s with
  | zero =>
    have h : e.vector = 8 := by
      unfold evRank at hn; split at hn
      · assumption
      · cases h : e.doubleClass <;> simp [h] at hn
    exact deliverChain_of_eight _ _ _ _ h
  | succ n ih =>
    by_cases h8 : e.vector = 8
    · exact deliverChain_of_eight _ _ _ _ h8
    cases m with
    | zero =>
      exfalso
      unfold evRank at hm; rw [if_neg h8] at hm
      cases h : e.doubleClass <;> simp [h] at hm
    | succ m =>
      rw [deliverChain_eq, deliverChain_eq]
      split
      · rfl
      · rfl
      · rename_i e2 ctx he
        have y := invokeHandler_raised he
        rw [if_neg h8, if_neg h8]
        dsimp only
        split
        · exact deliverChain_of_eight _ _ _ _ rfl
        · rename_i hd
          have hr : evRank e2 < evRank e := rank_second y.2 h8 hd
          exact ih m e2 ctx (by omega) (by omega)

/-- `t` is a state the delivery of `e` from `s` ends in: the handler entered; the machine shut down because the double
fault's handler could not be entered (R128); or a second exception delivered in turn, or the double fault in its place. -/
inductive Delivered : Event → State → State → Prop
  | entered {e : Event} {s t : State} (h : invokeHandler e (report e s) = .ok t) :
      Delivered e s { t with delivering := none }
  | shutdown {e e2 : Event} {s ctx : State} (h8 : e.vector = 8)
      (h : invokeHandler e (report e s) = .error (.raised e2 ctx)) : Delivered e s { ctx with shutdown := true }
  | second {e e2 : Event} {s ctx t : State} (h8 : e.vector ≠ 8)
      (h : invokeHandler e (report e s) = .error (.raised e2 ctx))
      (hd : isDouble e.doubleClass e2.doubleClass = false) (k : Delivered e2 ctx t) : Delivered e s t
  | double {e e2 : Event} {s ctx t : State} (h8 : e.vector ≠ 8)
      (h : invokeHandler e (report e s) = .error (.raised e2 ctx))
      (hd : isDouble e.doubleClass e2.doubleClass = true)
      (k : Delivered (doubleFault ctx.draws) (abortState 8 ctx) t) : Delivered e s t

theorem delivered_of_chain {n : Nat} {e : Event} {s t : State} (hn : evRank e ≤ n)
    (h : deliverChain n e s = .next t) : Delivered e s t := by
  induction n generalizing e s with
  | zero =>
    have h8 : e.vector = 8 := by
      unfold evRank at hn
      split at hn
      · assumption
      · cases h : e.doubleClass <;> simp [h] at hn
    rw [deliverChain_eq] at h
    split at h
    · cases h
      exact .entered (by assumption)
    · cases h
    · rw [if_pos h8] at h
      cases h
      exact .shutdown h8 (by assumption)
  | succ n ih =>
    rw [deliverChain_eq] at h
    split at h
    · cases h
      exact .entered (by assumption)
    · cases h
    · rename_i e2 ctx he
      split at h
      · rename_i h8
        cases h
        exact .shutdown h8 he
      · rename_i h8
        dsimp only at h
        split at h
        · rename_i hd
          exact .double h8 he hd (ih (by show evRank (doubleFault ctx.draws) ≤ n; simp [evRank, doubleFault, abortEvent]) h)
        · rename_i hd
          have := rank_second (invokeHandler_raised he).2 h8 hd
          exact .second h8 he (by simpa using hd) (ih (by omega) h)

/-- Every next state of a delivery is one of the four of `Delivered`. -/
theorem delivered {e : Event} {s t : State} (h : deliver e s = .next t) : Delivered e s t :=
  delivered_of_chain (evRank_le _) h

/-- What the delivery of an event keeps. -/
structure Kept (s t : State) : Prop where
  mem : MemoryCanonical s → MemoryCanonical t
  flags : FlagsCanonical s → FlagsCanonical t
  gdtr : t.gdtr = s.gdtr
  idtr : t.idtr = s.idtr
  cr0 : t.cr0 = s.cr0 ∨ t.cr0 = setBit s.cr0 3 true
  dr : t.dr = s.dr
  tr6 : t.tr6 = s.tr6
  tr7 : t.tr7 = s.tr7
  halted : t.halted = s.halted
  nmiBlocked : t.nmiBlocked = s.nmiBlocked
  debugTrap : t.debugTrap = s.debugTrap
  pins : t.pins = s.pins
  amid : ∀ c ∈ t.amid, c ∈ s.amid
  task : t.switched = none → s.switched = none ∧ SameTask s t

theorem Evolves.kept {s t : State} (h : Evolves s t) : Kept s t :=
  ⟨h.mem, h.flags, h.gdtr, h.idtr, h.cr0, h.dr, h.tr6, h.tr7, h.halted, h.nmiBlocked, h.debugTrap, h.pins, h.amid, h.task⟩

theorem Kept.trans {a b c : State} (h : Kept a b) (k : Kept b c) : Kept a c where
  mem := fun x => k.mem (h.mem x)
  flags := fun x => k.flags (h.flags x)
  gdtr := k.gdtr.trans h.gdtr
  idtr := k.idtr.trans h.idtr
  cr0 := by
    rcases k.cr0 with e | e <;> rcases h.cr0 with f | f <;> simp [e, f, setBit_setBit]
  dr := k.dr.trans h.dr
  tr6 := k.tr6.trans h.tr6
  tr7 := k.tr7.trans h.tr7
  halted := k.halted.trans h.halted
  nmiBlocked := k.nmiBlocked.trans h.nmiBlocked
  debugTrap := k.debugTrap.trans h.debugTrap
  pins := k.pins.trans h.pins
  amid := fun c x => h.amid c (k.amid c x)
  task := fun x =>
    let ⟨y, k1, k2, k3, k4⟩ := k.task x
    let ⟨z, h1, h2, h3, h4⟩ := h.task y
    ⟨z, k1.trans h1, k2.trans h2, k3.trans h3, k4.trans h4⟩

theorem kept_report (e : Event) (s : State) : Kept s (report e s) :=
  ⟨id, id, rfl, rfl, .inl rfl, rfl, rfl, rfl, rfl, rfl, rfl, rfl, fun _ => id,
    fun h => ⟨h, rfl, rfl, rfl, rfl⟩⟩

theorem kept_delivering (s : State) (d : Option (BitVec 8)) : Kept s { s with delivering := d } :=
  ⟨id, id, rfl, rfl, .inl rfl, rfl, rfl, rfl, rfl, rfl, rfl, rfl, fun _ => id,
    fun h => ⟨h, rfl, rfl, rfl, rfl⟩⟩

theorem kept_shutdown (s : State) (b : Bool) : Kept s { s with shutdown := b } :=
  ⟨id, id, rfl, rfl, .inl rfl, rfl, rfl, rfl, rfl, rfl, rfl, rfl, fun _ => id,
    fun h => ⟨h, rfl, rfl, rfl, rfl⟩⟩

theorem Delivered.kept {e : Event} {s t : State} (h : Delivered e s t) : Kept s t := by
  induction h with
  | entered h => exact ((kept_report _ _).trans (invokeHandler_ok h).kept).trans (kept_delivering _ _)
  | shutdown h8 h => exact ((kept_report _ _).trans (invokeHandler_raised h).1.kept).trans (kept_shutdown _ _)
  | second h8 h hd k ih => exact ((kept_report _ _).trans (invokeHandler_raised h).1.kept).trans ih
  | double h8 h hd k ih =>
    exact (((kept_report _ _).trans (invokeHandler_raised h).1.kept).trans (evolves_abortState _ _).kept).trans ih

end Sys2Proof.Machine
end

