-- ==== Sys2Proof/Laws/Instr.lean ====
section
/-! SUPPORT. What the operation below each instruction can do: a completed state that evolved from the one before, or an
exception that satisfies `V`, or a refusal. `V` need only hold of what `Reports` lists and of the instruction's own fault. -/

namespace Sys2Proof.Machine

variable {s : State} {V : Event → State → Prop}

theorem yields_nextEip (n : Nat) : Yields s V (fun e => e = s.eip + BitVec.ofNat 32 n) (nextEip s n) := by
  unfold nextEip
  split
  · rfl
  · trivial

theorem yields_advance {b : State} (h : Evolves b s) (n : Nat) : Yields b V (Evolves b) (advance s n) := by
  unfold advance nextEip
  split
  · rename_i e he
    exact h.trans (evolves_eip _ _)
  · rename_i x hx
    split at hx
    · cases hx
    · cases hx; trivial

section
variable (hv : Reports (Origin.ofInstr s) V)
include hv

theorem yields_readEA (pre : List Pfx) (m : EA) (add n : Nat) : Yields s V (fun _ => True) (readEA s pre m add n) :=
  yields_memRead (o := Origin.ofInstr s) (Evolves.refl s) hv s _ _ _

theorem yields_readOpnd8 (pre : List Pfx) (o : Opnd Reg8) : Yields s V (fun _ => True) (readOpnd8 s pre o) := by
  cases o with
  | reg r => trivial
  | mem m => exact yields_readEA hv pre m 0 1

theorem yields_readOpndZ (pre : List Pfx) (z : WSize) (o : Opnd Reg) : Yields s V (fun _ => True) (readOpndZ s pre z o) := by
  cases o with
  | reg r => trivial
  | mem m => exact yields_readEA hv pre m 0 z.bytes

theorem yields_readFar (pre : List Pfx) (z : WSize) (m : EA) : Yields s V (fun _ => True) (readFar s pre z m) :=
  (yields_readEA hv pre m 0 z.bytes).bind fun _ _ => (yields_readEA hv pre m z.bytes 2).bind fun _ _ => trivial

theorem yields_boundCheck (h5 : V (faultOf 5 s) s) (pre : List Pfx) (z : WSize) (idx : Reg) (m : EA) (len : Nat) :
    Yields s V (Evolves s) (boundCheck pre z idx m len s) := by
  refine (yields_readEA hv pre m 0 z.bytes).bind fun lo _ => (yields_readEA hv pre m z.bytes z.bytes).bind fun up _ => ?_
  split
  · exact ⟨Evolves.refl s, h5⟩
  · exact yields_advance (Evolves.refl s) len

theorem yields_jmpIndirect (pre : List Pfx) (z : WSize) (o : Opnd Reg) :
    Yields s V (Evolves s) (jmpIndirect pre z o s) :=
  (yields_readOpndZ hv pre z o).bind fun _ _ => evolves_jump s _

theorem yields_callTo (z : WSize) (next target : Word) : Yields s V (Evolves s) (callTo z next target s) :=
  (yields_push (o := Origin.ofInstr s) (Evolves.refl s) hv (Evolves.refl s) z next).bind fun _ h => h.trans (evolves_jump _ _)

theorem yields_callRelative (z : WSize) (rel : Word) (len : Nat) : Yields s V (Evolves s) (callRelative z rel len s) :=
  (yields_nextEip len).bind fun _ _ => yields_callTo hv _ _ _

theorem yields_callIndirect (pre : List Pfx) (z : WSize) (o : Opnd Reg) (len : Nat) :
    Yields s V (Evolves s) (callIndirect pre z o len s) :=
  (yields_readOpndZ hv pre z o).bind fun _ _ => (yields_nextEip len).bind fun _ _ => yields_callTo hv _ _ _

theorem yields_jmpFarTo (len : Nat) (ptr : Half × Word) : Yields s V (Evolves s) (jmpFarTo len s ptr) := by
  have ho : Evolves s (Origin.ofInstr s).home := Evolves.refl s
  refine (yields_farTarget ho hv s ptr.1).bind fun t _ => ?_
  cases t with
  | segment => exact yields_farJump ho hv (Evolves.refl s) _ _
  | task tss => exact (yields_nextEip len).bind fun n _ => yields_taskSwitch ho hv (Evolves.refl s) _ _ _ _
  | gate => trivial

theorem yields_callFarTo (z : WSize) (len : Nat) (ptr : Half × Word) : Yields s V (Evolves s) (callFarTo z len s ptr) := by
  have ho : Evolves s (Origin.ofInstr s).home := Evolves.refl s
  refine (yields_farTarget ho hv s ptr.1).bind fun t _ => (yields_nextEip len).bind fun n _ => ?_
  cases t with
  | segment =>
    refine (yields_push ho hv (Evolves.refl s) z _).bind fun s1 h1 => ?_
    exact (yields_push ho hv h1 z _).bind fun s2 h2 => yields_farJump ho hv h2 _ _
  | task tss => exact yields_taskSwitch ho hv (Evolves.refl s) _ _ _ _
  | gate => trivial

theorem yields_loadFar (r : SegName) (pre : List Pfx) (z : WSize) (dst : Reg) (m : EA) (len : Nat) :
    Yields s V (Evolves s) (loadFar r pre z dst m len s) := by
  refine (yields_readFar hv pre z m).bind fun ptr _ => ?_
  refine (yields_loadSegment (o := Origin.ofInstr s) (Evolves.refl s) hv s r ptr.1).bind fun g _ => ?_
  exact yields_advance ((evolves_setSeg s r g).trans (evolves_setRegZ _ _ _ _)) len

end

theorem yields_jmpRelative (z : WSize) (rel : Word) (len : Nat) : Yields s V (Evolves s) (jmpRelative z rel len s) :=
  (yields_nextEip len).bind fun _ _ => evolves_jump s _

theorem evolves_divided (sg : Signedness) (sz : DivSize) (d : Word) : Evolves s (divided s sg sz d) := by
  have h : ∀ t : State, Evolves s t →
      Evolves s { t.tick with eflags := withStatus s.eflags (Config.divFlags s.draws) } := fun t ht =>
    { ht.trans (evolves_tick t) with flags := fun h => flagsWf_withStatus h _ }
  refine h _ ?_
  cases sz with
  | d8 => exact evolves_setReg16 _ _ _
  | dz z =>
    cases z
    · exact (evolves_setReg16 _ _ _).trans (evolves_setReg16 _ _ _)
    · exact (evolves_setReg _ _ _).trans (evolves_setReg _ _ _)

theorem yields_divide (h0 : V (faultOf 0 s) s) (sg : Signedness) (sz : DivSize) (len : Nat) (d : Word) :
    Yields s V (Evolves s) (divide s sg sz len d) := by
  unfold divide
  split
  · exact ⟨Evolves.refl s, h0⟩
  · exact yields_advance (evolves_divided sg sz d) len

theorem yields_escape (h7 : V (faultOf 7 s) s) : Yields s V (Evolves s) (escape s) := by
  unfold escape
  split
  · exact ⟨Evolves.refl s, h7⟩
  · split <;> trivial

theorem yields_waitFor (h7 : V (faultOf 7 s) s) (len : Nat) : Yields s V (Evolves s) (waitFor len s) := by
  unfold waitFor
  split
  · exact ⟨Evolves.refl s, h7⟩
  · split
    · trivial
    · split
      · exact Evolves.refl s
      · exact yields_advance (Evolves.refl s) len

end Sys2Proof.Machine
end

