-- ==== Sys2Proof/Tests/Slice0.lean ====
section
/-! SUPPORT. Tests of the model: ill-formed terms that `Instr.wf` refuses, words written out from the encoding tables of
30_encoding.md, single steps taken from the vectors V1 to V116 of 95_test_vectors.md, and for each statement of
Certificates/Slice0/Obligations.lean that has hypotheses a state and operands that meet them. -/

namespace Sys2Proof.Machine

-- One theorem is checked after the other: each kernel evaluation waits for what stands before it.
set_option Elab.async false

/-! ### Small states -/

/-- Bytes from an address upward, in the canonical form. -/
def cellsFrom : Nat → List Byte → Memory
  | _, [] => []
  | a, b :: bs => if b = unlistedByte then cellsFrom (a + 1) bs else (a, b) :: cellsFrom (a + 1) bs

/-- A flat 32-bit segment of privilege level 0. -/
def flatSeg (sel : Half) (access : Byte) : SegReg :=
  { sel := sel, base := 0, limit := 0xFFFFFFFF, access := access, big := true }

/-- An interrupt gate to 0008h:00009000h. -/
def gateBytes : List Byte := [0x00, 0x90, 0x08, 0x00, 0x00, 0x8E, 0x00, 0x00]

/-- The descriptors 08h to 88h of the global table: code and data of level 0, code and data of level 3, a TSS with limit
103, an LDT, the old TSS, a call gate, a task gate to 28h, a TSS with limit 102, read-only data of level 3, execute-only
code of level 3, conforming code of level 3, conforming code of level 0, data of level 3 not present, code of level 0, an LDT not present. -/
def gdtBytes : List Byte :=
  [0, 0, 0, 0, 0, 0, 0, 0] ++
  [0xFF, 0xFF, 0, 0, 0, 0x9A, 0xCF, 0] ++ [0xFF, 0xFF, 0, 0, 0, 0x92, 0xCF, 0] ++
  [0xFF, 0xFF, 0, 0, 0, 0xFA, 0xCF, 0] ++ [0xFF, 0xFF, 0, 0, 0, 0xF2, 0xCF, 0] ++
  [0x67, 0, 0x00, 0x60, 0, 0x89, 0, 0] ++ [0x27, 0, 0x00, 0x50, 0, 0x82, 0, 0] ++
  [0x67, 0, 0x00, 0x68, 0, 0x8B, 0, 0] ++ [0, 0x90, 0x08, 0, 0, 0x8C, 0, 0] ++
  [0, 0, 0x28, 0, 0, 0x85, 0, 0] ++ [0x66, 0, 0x00, 0x60, 0, 0x89, 0, 0] ++
  [0xFF, 0xFF, 0, 0, 0, 0xF0, 0xCF, 0] ++ [0xFF, 0xFF, 0, 0, 0, 0xF8, 0xCF, 0] ++
  [0xFF, 0xFF, 0, 0, 0, 0xFE, 0xCF, 0] ++ [0xFF, 0xFF, 0, 0, 0, 0x9E, 0xCF, 0] ++
  [0xFF, 0xFF, 0, 0, 0, 0x72, 0xCF, 0] ++ [0xFF, 0xFF, 0, 0, 0, 0x98, 0xCF, 0] ++
  [0x27, 0, 0x00, 0x50, 0, 0x02, 0, 0]

/-- The TSS at 00006000h from the offset of CR3 on: EIP 00003000h, EFLAGS, the general registers, the selectors ES, CS, SS,
DS, FS, GS, and the LDT selector (R23). -/
def tssBytes (cs ss ds gs ldt : Byte) : List Byte :=
  [0x00, 0, 0, 0, 0x00, 0x30, 0, 0, 0x02, 0, 0, 0] ++
  [0x11, 0, 0, 0, 0x22, 0, 0, 0, 0x33, 0, 0, 0, 0x44, 0, 0, 0, 0x00, 0x50, 0, 0, 0x66, 0, 0, 0, 0x77, 0, 0, 0,
   0x88, 0, 0, 0] ++
  [0x23, 0, 0, 0, cs, 0, 0, 0, ss, 0, 0, 0, ds, 0, 0, 0, 0x23, 0, 0, 0, gs, 0, 0, 0, ldt, 0, 0, 0]

/-- Protected mode, level 0, flat segments: `code` at 00001000h, where EIP is, `data` at 00004000h, the new TSS at
00006000h, the interrupt descriptor table (vectors 0 to 16) at 00007000h, the global descriptor table at 00008000h. -/
def flat (code : List Byte) (data : List Byte := []) (tss : List Byte := tssBytes 0x1B 0x23 0x23 0x23 0x30) : State :=
  { State.reset with
    gpr := { State.reset.gpr with ebx := 0x4000, esp := 0x2000 }
    eip := 0x1000
    cr0 := 1
    segs :=
      { es := flatSeg 0x10 0x92, cs := flatSeg 0x08 0x9A, ss := flatSeg 0x10 0x92, ds := flatSeg 0x10 0x92
        fs := flatSeg 0x10 0x92, gs := flatSeg 0x10 0x92 }
    tr := { sel := 0x38, base := 0x6800, limit := 0x67, access := 0x8B, big := false }
    gdtr := { base := 0x8000, limit := 0x8F }
    idtr := { base := 0x7000, limit := 0x87 }
    mem := cellsFrom 0x1000 code ++ cellsFrom 0x4000 data ++ cellsFrom 0x601C tss ++
      cellsFrom 0x7000 (List.replicate 17 gateBytes).flatten ++ cellsFrom 0x8000 gdtBytes }

/-- Real-address mode: `code` at 0000h:0100h, where CS:EIP is, SP 2000h, the vector table entries all 0. -/
def real (code : List Byte) : State :=
  { State.reset with
    gpr := { State.reset.gpr with esp := 0x2000 }
    eip := 0x100
    segs := { State.reset.segs with cs := segReal 0 }
    mem := cellsFrom 0x100 code }

/-- What is asked of a next state, if there is one. -/
def got {α : Type} (o : Host.Outcome State Fault Refusal) (f : State → α) : Option α :=
  match o with
  | .next t => some (f t)
  | .fault _ => none
  | .refused _ => none

/-- The refusal, if the outcome is one. -/
def refusalOf (o : Host.Outcome State Fault Refusal) : Option Refusal :=
  match o with
  | .next _ => none
  | .fault _ => none
  | .refused r => some r

/-- The vector, class, saved EIP and error code of the latest event. -/
def lastEvent (s : State) : Option (BitVec 8 × EventClass × Word × Option Half) :=
  s.reported.head?.map (fun e => (e.vector, e.cls, e.savedEIP, e.err))

/-- The canonical form, neighbour by neighbour. -/
def rising : Memory → Bool
  | [] => true
  | [c] => decide (c.1 < 2 ^ 32) && decide (c.2 ≠ unlistedByte)
  | c :: d :: m => decide (c.1 < d.1) && decide (c.2 ≠ unlistedByte) && rising (d :: m)

theorem wf_of_rising : ∀ {m : Memory}, rising m = true → Memory.wf m
  | [], _ => ⟨List.Pairwise.nil, fun _ h => absurd h List.not_mem_nil⟩
  | [c], h => by
    simp only [rising, Bool.and_eq_true, decide_eq_true_eq] at h
    exact ⟨List.pairwise_singleton _ _, fun x hx => List.mem_singleton.1 hx ▸ h⟩
  | c :: d :: m, h => by
    simp only [rising, Bool.and_eq_true, decide_eq_true_eq] at h
    obtain ⟨hp, hm⟩ := wf_of_rising h.2
    have hlt : ∀ x ∈ d :: m, c.1 < x.1 := fun x hx => by
      rcases List.mem_cons.1 hx with rfl | hx
      · exact h.1.1
      · exact Nat.lt_trans h.1.1 (List.rel_of_pairwise_cons hp hx)
    refine ⟨List.pairwise_cons.2 ⟨hlt, hp⟩, fun x hx => ?_⟩
    rcases List.mem_cons.1 hx with rfl | hx
    · exact ⟨Nat.lt_trans h.1.1 (hm d List.mem_cons_self).1, h.1.2⟩
    · exact hm x hx

/-- Four members, one after the other. -/
theorem four {α : Type} {p : α → Prop} {a b c d : α} (ha : p a) (hb : p b) (hc : p c) (hd : p d) : ∀ x ∈ [a, b, c, d], p x := by
  intro x hx
  simp only [List.mem_cons, List.not_mem_nil, or_false] at hx
  rcases hx with rfl | rfl | rfl | rfl <;> assumption

theorem test_flat_form : Memory.wf (flat [0xCC] [1, 2, 3]).mem := wf_of_rising (by decide +kernel)

/-! ### WellFormed refuses -/

theorem test_wf_ok : (Instr.divRm [.opSize] .o16 (.reg .ecx)).wf true = true := by decide
theorem test_wf_opsize : (Instr.divRm [] .o16 (.reg .ecx)).wf true = false := by decide
theorem test_wf_addrsize : (Instr.divRm [] .o32 (.mem (.ea16 .bxsi .none))).wf true = false := by decide
theorem test_wf_addrsize16 : (Instr.divRm [] .o16 (.mem (.ea32 .ebx .none))).wf false = false := by decide
theorem test_wf_bp_needs_disp : (Instr.jmpRm [] .o16 (.mem (.ea16 .bp .none))).wf false = false := by decide
theorem test_wf_ebp_needs_disp : (Instr.jmpRm [] .o32 (.mem (.ea32 .ebp .none))).wf true = false := by decide
theorem test_wf_esp_needs_sib : (Instr.jmpRm [] .o32 (.mem (.ea32 .esp .none))).wf true = false := by decide
theorem test_wf_sib_ebp_needs_disp : (Instr.jmpRm [] .o32 (.mem (.sib 0 none .ebp .none))).wf true = false := by decide
theorem test_wf_esp_no_index : (Instr.jmpRm [] .o32 (.mem (.sib 1 (some .esp) .eax .none))).wf true = false := by decide
theorem test_wf_esp_no_index_abs : (Instr.jmpRm [] .o32 (.mem (.sibAbs 1 (some .esp) 0))).wf true = false := by decide
theorem test_wf_abs16 : (Instr.les [] .o32 .eax (.abs16 0)).wf true = false := by decide
theorem test_wf_abs32 : (Instr.les [] .o16 .eax (.abs32 0)).wf false = false := by decide
theorem test_wf_rel8_size : (Instr.jmpRel8 [] .o16 0).wf true = false := by decide
theorem test_wf_rel_size : (Instr.callRel [] (.rel16 0)).wf true = false := by decide
theorem test_wf_far_size : (Instr.jmpFar [] (.ptr32 0 0)).wf false = false := by decide
theorem test_wf_length : (Instr.int3 (List.replicate 15 .lock)).wf true = false := by decide

/-! ### Words written out from R57 to R64 -/

/-- DIV BL: F6 /6, `11 110 011`. -/
theorem test_decode_divRm8 : decode true [0xF6, 0b11110011] = .ok (.divRm8 [] (.reg .bl)) [] := by decide
/-- DIV dword at DS:[EBX + ESI*4 + 12345678h]: F7 /6, `10 110 100`, SIB `10 110 011`, the displacement low byte first. -/
theorem test_decode_divRm : decode true [0xF7, 0b10110100, 0b10110011, 0x78, 0x56, 0x34, 0x12] =
    .ok (.divRm [] .o32 (.mem (.sib 2 (some .esi) .ebx (.d32 0x12345678)))) [] := by decide
/-- IDIV byte at [BP + DI - 1], 16-bit addressing: F6 /7, `01 111 011`, FFh. -/
theorem test_decode_idivRm8 : decode false [0xF6, 0b01111011, 0xFF] =
    .ok (.idivRm8 [] (.mem (.ea16 .bpdi (.d8 0xFF)))) [] := by decide
/-- IDIV CX with 66h in a 32-bit segment: F7 /7, `11 111 001`. -/
theorem test_decode_idivRm : decode true [0x66, 0xF7, 0b11111001] = .ok (.idivRm [.opSize] .o16 (.reg .ecx)) [] := by
  decide
theorem test_decode_int3 : decode true [0xCC, 0x90] = .ok (.int3 []) [0x90] := by decide
theorem test_decode_into : decode true [0x2E, 0xCE] = .ok (.into [.seg .cs]) [] := by decide
/-- BOUND EDI, [EBP + 8]: 62 /r, `01 111 101`. -/
theorem test_decode_bound : decode true [0x62, 0b01111101, 0x08] =
    .ok (.bound [] .o32 .edi (.ea32 .ebp (.d8 8))) [] := by decide
/-- ESC DDh /4 with a memory operand at absolute 00004000h: `00 100 101`. -/
theorem test_decode_esc : decode true [0xDD, 0b00100101, 0x00, 0x40, 0, 0] =
    .ok (.esc [] 5 4 (.mem (.abs32 0x4000))) [] := by decide
theorem test_decode_wait : decode true [0xF3, 0x9B] = .ok (.wait [.rep]) [] := by decide
theorem test_decode_jmpRel8 : decode true [0xEB, 0x80] = .ok (.jmpRel8 [] .o32 0x80) [] := by decide
/-- V64: 66 E9 00 80. -/
theorem test_decode_jmpRel : decode true [0x66, 0xE9, 0x00, 0x80] = .ok (.jmpRel [.opSize] (.rel16 0x8000)) [] := by
  decide
/-- JMP [disp16 1234h], 16-bit addressing by 67h: FF /4, `00 100 110`. -/
theorem test_decode_jmpRm : decode true [0x67, 0xFF, 0b00100110, 0x34, 0x12] =
    .ok (.jmpRm [.addrSize] .o32 (.mem (.abs16 0x1234))) [] := by decide
/-- JMP 5678h:1234h with a 16-bit operand size: EA, the offset first. -/
theorem test_decode_jmpFar : decode false [0xEA, 0x34, 0x12, 0x78, 0x56] = .ok (.jmpFar [] (.ptr16 0x1234 0x5678)) [] := by
  decide
/-- V68: FF /5, `00 101 011`. -/
theorem test_decode_jmpFarM : decode true [0xFF, 0b00101011] = .ok (.jmpFarM [] .o32 (.ea32 .ebx .none)) [] := by decide
theorem test_decode_callRel : decode true [0xE8, 0x0B, 0, 0, 0] = .ok (.callRel [] (.rel32 0x0B)) [] := by decide
/-- CALL [EAX*8 + disp32] without a base: FF /2, `00 010 100`, SIB `11 000 101`. -/
theorem test_decode_callRm : decode true [0xFF, 0b00010100, 0b11000101, 0x04, 0x03, 0x02, 0x01] =
    .ok (.callRm [] .o32 (.mem (.sibAbs 3 (some .eax) 0x01020304))) [] := by decide
theorem test_decode_callFar : decode true [0x9A, 0x00, 0x50, 0, 0, 0x10, 0] = .ok (.callFar [] (.ptr32 0x5000 0x10)) [] := by
  decide
/-- CALL far [ESP]: FF /3, `00 011 100`, SIB `00 100 100` (no index). -/
theorem test_decode_callFarM : decode true [0xFF, 0b00011100, 0b00100100] =
    .ok (.callFarM [] .o32 (.sib 0 none .esp .none)) [] := by decide
theorem test_decode_les : decode true [0xC4, 0b00011011] = .ok (.les [] .o32 .ebx (.ea32 .ebx .none)) [] := by decide
theorem test_decode_lds : decode true [0xC5, 0b00110111] = .ok (.lds [] .o32 .esi (.ea32 .edi .none)) [] := by decide
theorem test_decode_lss : decode true [0x0F, 0xB2, 0b00100011] = .ok (.lss [] .o32 .esp (.ea32 .ebx .none)) [] := by decide
theorem test_decode_lfs : decode false [0x0F, 0xB4, 0b00001111] = .ok (.lfs [] .o16 .ecx (.ea16 .bx .none)) [] := by decide
theorem test_decode_lgs : decode true [0x65, 0x0F, 0xB5, 0b00010000] =
    .ok (.lgs [.seg .gs] .o32 .edx (.ea32 .eax .none)) [] := by decide
theorem test_decode_invJmpFarReg : decode true [0xFF, 0b11101000] = .ok (.invJmpFarReg [] .eax) [] := by decide
theorem test_decode_invLesReg : decode true [0xC4, 0b11000001] = .ok (.invLesReg [] .eax .ecx) [] := by decide
theorem test_decode_invCallFarReg : decode true [0xFF, 0b11011011] = .ok (.invCallFarReg [] .ebx) [] := by decide
theorem test_decode_invLdsReg : decode true [0xC5, 0b11000000] = .ok (.invLdsReg [] .eax .eax) [] := by decide
theorem test_decode_invLssReg : decode true [0x0F, 0xB2, 0b11000111] = .ok (.invLssReg [] .eax .edi) [] := by decide
theorem test_decode_invLfsReg : decode true [0x0F, 0xB4, 0b11111000] = .ok (.invLfsReg [] .edi .eax) [] := by decide
theorem test_decode_invLgsReg : decode true [0x0F, 0xB5, 0b11000000] = .ok (.invLgsReg [] .eax .eax) [] := by decide
theorem test_decode_invBoundReg : decode true [0x62, 0b11000011] = .ok (.invBoundReg [] .eax .ebx) [] := by decide
theorem test_decode_invFf7 : decode true [0xFF, 0b00111011] = .ok (.invFf7 [] (.mem (.ea32 .ebx .none))) [] := by decide
theorem test_decode_unlisted : decode true [0xFF, 0b00110011] = .unlisted := by decide
theorem test_decode_short : decode true [0xF7] = .short := by decide
/-- FF /6 and F7 /0 are of no row, whether or not their displacement follows; FF /4 is cut short (R65). -/
theorem test_decode_cut : decode true [0xFF, 0b00110101] = .unlisted ∧ decode true [0xF7, 0b00000101, 1] = .unlisted ∧
    decode true [0xFF, 0b00100101, 1] = .short := by decide
/-- The row DIV r/m8 of the opcode table: F6h in bits 7:0, /6 in bits 13:11. -/
theorem test_tableWord : decodeTableWord 16 0x30F6 = some (.divRm8 [] (.mem (.ea16 .bxsi .none))) := by decide
theorem test_withFetchWord : got (step (State.reset.withFetchWord 8 0xCC)) lastEvent =
    some (some (3, .trap, 0xFFF1, none)) := by decide +kernel

/-! ### Single steps (vectors of 95_test_vectors.md) -/

/-- V3: DIV BL, AX = 0064h, BL = 07h; the upper half of EAX is kept. -/
theorem test_div_v3 : got (step (((flat [0xF6, 0xF3]).setReg .eax 0xAAAA0064).setReg .ebx 7))
    (fun t => (t.reg .eax, t.eip)) = some (0xAAAA020E, 0x1002) := by decide +kernel
/-- V4: DIV BL, AX = 0100h, BL = 01h: the quotient 256 does not fit. -/
theorem test_div_v4 : got (step (((flat [0xF6, 0xF3]).setReg .eax 0x100).setReg .ebx 1))
    (fun t => decide (t.reg .eax = 0x100 ∧ lastEvent t = some (0, .fault, 0x1000, none) ∧ t.eip = 0x9000)) = some true := by
  decide +kernel
/-- V8: DIV ECX, EDX = 1, EAX = 0, ECX = 2. -/
theorem test_div_v8 : got (step (((flat [0xF7, 0xF1]).setReg .edx 1).setReg .ecx 2))
    (fun t => (t.reg .eax, t.reg .edx, t.eip)) = some (0x80000000, 0, 0x1002) := by decide +kernel
/-- V9: DIV CX, DX = 0001h, AX = 0000h, CX = 0002h. -/
theorem test_div_v9 : got (step ((((flat [0x66, 0xF7, 0xF1]).setReg .eax 0xAAAA0000).setReg .edx 0xBBBB0001).setReg .ecx 2))
    (fun t => (t.reg .eax, t.reg .edx, t.eip)) = some (0xAAAA8000, 0xBBBB0000, 0x1003) := by decide +kernel
/-- V17: IDIV BL, AX = FFF9h (-7), BL = 02h: the quotient toward zero, the remainder negative. -/
theorem test_idiv_v17 : got (step (((flat [0xF6, 0xFB]).setReg .eax 0xFFF9).setReg .ebx 2))
    (fun t => t.reg .eax) = some 0xFFFD := by decide +kernel
/-- V14: IDIV BL, AX = FF80h, BL = 01h: the most negative quotient is legal. -/
theorem test_idiv_v14 : got (step (((flat [0xF6, 0xFB]).setReg .eax 0xFF80).setReg .ebx 1))
    (fun t => (t.reg .eax, t.eip)) = some (0x0080, 0x1002) := by decide +kernel
/-- V20: IDIV ECX, -2^31 by -1. -/
theorem test_idiv_v20 : got (step ((((flat [0xF7, 0xF9]).setReg .edx 0xFFFFFFFF).setReg .eax 0x80000000).setReg .ecx 0xFFFFFFFF))
    lastEvent = some (some (0, .fault, 0x1000, none)) := by decide +kernel
/-- V21: IDIV ECX, -2^31 by 1. -/
theorem test_idiv_v21 : got (step ((((flat [0xF7, 0xF9]).setReg .edx 0xFFFFFFFF).setReg .eax 0x80000000).setReg .ecx 1))
    (fun t => (t.reg .eax, t.reg .edx)) = some (0x80000000, 0) := by decide +kernel
/-- V22: INT 3 at 0040h saves 0041h. -/
theorem test_int3_v22 : got (step { real [] with eip := 0x40, mem := [(0x40, 0xCC)] })
    (fun t => decide (lastEvent t = some (3, .trap, 0x41, none) ∧ t.reg .esp = 0x1FFA ∧ readLin t 0x1FFA 2 = 0x41)) =
    some true := by decide +kernel
/-- V23: INT 3 at FFFFFFFFh is refused. -/
theorem test_int3_v23 : refusalOf (exec (.int3 []) { flat [] with eip := 0xFFFFFFFF }) = some .eipOverflow := by
  decide +kernel
/-- V25: INTO with OF = 1; OF is still 1. -/
theorem test_into_v25 : got (step { flat [0xCE] with eflags := 0x802 })
    (fun t => decide (lastEvent t = some (4, .trap, 0x1001, none) ∧ t.flagOF = true)) = some true := by decide +kernel
/-- V26: INTO with OF = 0. -/
theorem test_into_v26 : got (step (flat [0xCE])) (fun t => (t.reported, t.eip)) = some ([], 0x1001) := by decide +kernel
/-- V31: BOUND EAX, [EBX] with limits 0 and 9: -1 is below the lower limit. -/
theorem test_bound_v31 : got (step ((flat [0x62, 0x03] [0, 0, 0, 0, 9, 0, 0, 0]).setReg .eax 0xFFFFFFFF))
    lastEvent = some (some (5, .fault, 0x1000, none)) := by decide +kernel
/-- V36: BOUND AX, [EBX]: the limits are two bytes each and the upper half of EAX is ignored. -/
theorem test_bound_v36 : got (step ((flat [0x66, 0x62, 0x03] [0, 0, 0xFF, 0x7F]).setReg .eax 0xFFFF0005))
    (fun t => (t.reported, t.eip)) = some ([], 0x1003) := by decide +kernel
/-- V44: ESC with EM set. -/
theorem test_esc_v44 : got (step { flat [0xD9, 0xD0] with cr0 := 0x5 }) lastEvent =
    some (some (7, .fault, 0x1000, none)) := by decide +kernel
/-- V42: ESC with MP alone set goes to the coprocessor, which is not modelled. -/
theorem test_esc_v42 : refusalOf (step { flat [0xD9, 0xD0] with cr0 := 0x3 }) = some .coprocessorInstruction := by
  decide +kernel
/-- V52: WAIT with EM set only advances EIP. -/
theorem test_wait_v52 : got (step { flat [0x9B] with cr0 := 0x5 }) (fun t => (t.reported, t.eip)) = some ([], 0x1001) := by
  decide +kernel
/-- V57: WAIT with MP and TS set raises interrupt 7 although the coprocessor is busy. -/
theorem test_wait_v57 : got (step { flat [0x9B] with cr0 := 0xB, pins := { Pins.quiet with npxBusy := true } }) lastEvent =
    some (some (7, .fault, 0x1000, none)) := by decide +kernel
/-- V62: JMP rel8 of -128. -/
theorem test_jmpRel8_v62 : got (step (flat [0xEB, 0x80])) State.eip = some 0xF82 := by decide +kernel
/-- V64: JMP rel16 at 0000F000h, truncated to 16 bits. -/
theorem test_jmpRel_v64 : got (step { flat [] with eip := 0xF000, mem := cellsFrom 0xF000 [0x66, 0xE9, 0x00, 0x80] }) State.eip =
    some 0x7004 := by decide +kernel
/-- V65: JMP EAX. -/
theorem test_jmpRm_v65 : got (step ((flat [0xFF, 0xE0]).setReg .eax 0x3000)) State.eip = some 0x3000 := by decide +kernel
/-- V67: JMP to another code segment of the current level, here selector 80h. -/
theorem test_jmpFar_v67 : got (step (flat [0xEA, 0x00, 0x50, 0, 0, 0x80, 0])) (fun t => (t.segs.cs.sel, t.eip)) =
    some (0x80, 0x5000) := by decide +kernel
/-- V68: JMP FAR [EBX]: offset first, then selector. -/
theorem test_jmpFarM_v68 : got (step (flat [0xFF, 0x2B] [0x00, 0x50, 0, 0, 0x80, 0])) (fun t => (t.segs.cs.sel, t.eip)) =
    some (0x80, 0x5000) := by decide +kernel
/-- V70: JMP rel8 with the single-step condition: the trap saves the target. -/
theorem test_jmp_v70 : got (step { flat [0xEB, 0x0E] with pins :=
      { Pins.quiet with debug := [{ DebugCond.none with singleStep := true }] } }) lastEvent =
    some (some (1, .trap, 0x1010, none)) := by decide +kernel
/-- V71: CALL rel32 pushes the address of the next instruction. -/
theorem test_callRel_v71 : got (step (flat [0xE8, 0x0B, 0, 0, 0]))
    (fun t => (t.eip, t.reg .esp, bytesAt t 0x1FFC 4)) = some (0x1010, 0x1FFC, [0x05, 0x10, 0, 0]) := by decide +kernel
/-- V73: `AccessCheck` refuses the push of CALL with 12: the fault is reported from the state before it, ESP unchanged. The
handler's first push asks the same question, and 12 after 12 is a double fault (R126). -/
def pushDenied : State :=
  { flat [] with pins := { Pins.quiet with denials := [{ key := slotKey 0x2000 0 .o32 0, vector := .stackFault, err := 0 }] } }
theorem test_callRel_v73 : callRelative .o32 0x0B 5 pushDenied = .error (.raised (faultWith 12 0 pushDenied) pushDenied) ∧
    invokeHandler (faultWith 12 0 pushDenied) pushDenied = .error (.raised (faultWith 12 1 pushDenied) pushDenied) ∧
    isDouble (dfClass 12) (dfClass 12) = true := by decide +kernel
/-- V72: CALL EAX. -/
theorem test_callRm_v72 : got (step ((flat [0xFF, 0xD0]).setReg .eax 0x3000))
    (fun t => (t.eip, t.reg .esp, readLin t 0x1FFC 4)) = some (0x3000, 0x1FFC, 0x1002) := by decide +kernel
/-- V75: CALL to another code segment of the same level. -/
theorem test_callFar_v75 : got (step (flat [0x9A, 0x00, 0x50, 0, 0, 0x80, 0]))
    (fun t => (t.segs.cs.sel, t.eip, t.reg .esp, readLin t 0x1FFC 4, readLin t 0x1FF8 4)) =
    some (0x80, 0x5000, 0x1FF8, 0x08, 0x1007) := by decide +kernel
/-- CALL FAR [EBX], as V75. -/
theorem test_callFarM : got (step (flat [0xFF, 0x1B] [0x00, 0x50, 0, 0, 0x80, 0]))
    (fun t => (t.segs.cs.sel, t.eip, t.reg .esp, readLin t 0x1FF8 4)) = some (0x80, 0x5000, 0x1FF8, 0x1002) := by
  decide +kernel
/-- V76: CALL through a call gate is refused. -/
theorem test_callFar_v76 : refusalOf (step (flat [0x9A, 0x00, 0x50, 0, 0, 0x40, 0])) = some .callGate := by decide +kernel
/-- V80: LES EBX, [EBX]: both reads use the old EBX. -/
theorem test_les_v80 : got (step (flat [0xC4, 0x1B] [0x00, 0x60, 0, 0, 0x23, 0]))
    (fun t => (t.reg .ebx, t.segs.es.sel, t.eip)) = some (0x6000, 0x23, 0x1002) := by decide +kernel
/-- LDS with a null selector loads it as such (R131 of the segment registers a program may leave null). -/
theorem test_lds_null : got (step (flat [0xC5, 0x03] [0x78, 0x56, 0x34, 0x12, 0, 0]))
    (fun t => (t.reg .eax, t.segs.ds.sel, t.reported)) = some (0x12345678, 0, []) := by decide +kernel
theorem test_lss : got (step (flat [0x0F, 0xB2, 0x23] [0x00, 0x30, 0, 0, 0x10, 0]))
    (fun t => (t.reg .esp, t.segs.ss.sel, t.eip)) = some (0x3000, 0x10, 0x1003) := by decide +kernel
theorem test_lfs : got (step (flat [0x66, 0x0F, 0xB4, 0x03] [0x78, 0x56, 0x23, 0]))
    (fun t => (t.reg .eax, t.segs.fs.sel, t.eip)) = some (0x5678, 0x23, 0x1004) := by decide +kernel
theorem test_lgs : got (step (flat [0x0F, 0xB5, 0x03] [1, 0, 0, 0, 0x10, 0]))
    (fun t => (t.reg .eax, t.segs.gs.sel)) = some (1, 0x10) := by decide +kernel
/-- V66, V78, V79, V74, V38: the invalid forms raise interrupt 6. -/
theorem test_invalid_forms : ∀ code ∈ [[0xFF, 0xE8], [0xC4, 0xC0], [0xC5, 0xC0], [0x0F, 0xB2, 0xC0], [0x0F, 0xB4, 0xC0],
      [0x0F, 0xB5, 0xC0], [0xFF, 0xD8], [0x62, 0xC3], [0xFF, 0xF8]],
    got (step (flat code)) lastEvent = some (some (6, .fault, 0x1000, none)) := by decide +kernel
/-- V89: a far JMP to the TSS with limit 102: row 1, in the context of the old task. -/
theorem test_task_v89 : got (step (flat [0xEA, 0, 0, 0, 0, 0x50, 0])) (fun t => decide (lastEvent t =
    some (10, .fault, 0x1000, some 0x50) ∧ t.tr.sel = 0x38 ∧ t.switched = none)) = some true := by decide +kernel
/-- V90: a far JMP to a valid TSS: the new task's registers, TR, and no backlink. -/
theorem test_task_v90 : got (step (flat [0xEA, 0, 0, 0, 0, 0x28, 0]))
    (fun t => decide (t.tr.sel = 0x28 ∧ t.eip = 0x3000 ∧ t.reg .eax = 0x11 ∧ t.segs.cs.sel = 0x1B ∧ t.segs.ss.sel = 0x23 ∧
      t.cr0TS = true ∧ readLin t 0x6000 2 = 0)) = some true := by decide +kernel
/-- V104: a far CALL to a TSS whose LDT selector names no LDT: the fault in the new task, the backlink written. Its handler
is no task gate, so the interrupt 10 of the new task is refused (V105). -/
theorem test_task_v105 : refusalOf (step (flat [0x9A, 0, 0, 0, 0, 0x28, 0] [] (tssBytes 0x1B 0x23 0x23 0x23 0x10))) =
    some .handlerNotTask := by decide +kernel
/-- V95 to V98, V102: SS, CS and GS selectors that rows 6, 4, 8, 9 and 12 refuse, and the error code each puts in. -/
theorem test_task_rows : ∀ p ∈ [(tssBytes 0x1B 0x20 0x23 0x23 0x30, 0x20), (tssBytes 0x1B 0x5B 0x23 0x23 0x30, 0x58),
      (tssBytes 0x23 0x23 0x23 0x23 0x30, 0x20), (tssBytes 0x0B 0x23 0x23 0x23 0x30, 0x08),
      (tssBytes 0x1B 0x23 0x23 0x63 0x30, 0x60), (tssBytes 0x1B 0x23 0xF3 0x23 0x30, (0xF0 : Half))],
    (match taskSwitch (Origin.ofInstr (flat [] [] p.1)) (flat [] [] p.1) 0x28 .jmp 8 0 with
      | .error (.raised e ctx) => some (e.vector, e.err, e.newTask, e.savedCS, ctx.tr.sel)
      | .error (.refused _) | .ok _ => none) =
      some (10, some p.2, true, p.1.getD 48 0 |>.setWidth 16, 0x28) := by decide +kernel
/-- A gate that is not present. -/
def absentGate : List Byte := [0, 0x90, 8, 0, 0, 0x0E, 0, 0]
/-- The interrupt descriptor table with the gate of vector 0 and that of vector 3 not present. -/
def gateless : State :=
  { flat [] with
    mem := cellsFrom 0x7000 (absentGate ++ gateBytes ++ gateBytes ++ absentGate) ++ cellsFrom 0x8000 gdtBytes }
/-- V107: vector 0 whose gate is not present raises 11, which makes a double fault; its error code is 0, and it is pushed
last on its handler's stack. -/
theorem test_double_v107 : invokeHandler (faultOf 0 gateless) gateless =
      .error (.raised ((Origin.ofEvent gateless (faultOf 0 gateless)).event 11 (some 0x03) none) gateless) ∧
    isDouble (dfClass 0) (dfClass 11) = true ∧ (doubleFault 0).err = some 0 ∧
    got (deliver { faultWith 8 0 (flat []) with cls := .abort } (flat []))
      (fun t => (t.eip, t.reg .esp, readLin t 0x1FF0 4)) = some (0x9000, 0x1FF0, 0) := by decide +kernel
/-- V112: when the double fault's handler cannot be entered either, the machine shuts down. -/
theorem test_shutdown_v112 : got (deliver (doubleFault 0) { flat [] with idtr := { base := 0, limit := 0 } })
    (fun t => (t.reported.map Event.vector, t.shutdown)) = some ([8], true) := by decide +kernel
/-- A task gate to 28h for vector 13. -/
def taskGated (flags : Word) : State :=
  { flat [] with
    eflags := flags
    mem := cellsFrom 0x601C (tssBytes 0x1B 0x23 0x23 0x23 0x30) ++ cellsFrom 0x7068 [0, 0, 0x28, 0, 0, 0x85, 0, 0] ++
      cellsFrom 0x8000 gdtBytes }
/-- R139, R52, D15: through a task gate the error code is pushed on the new task's stack and no stale byte is left. -/
theorem test_task_gate : got (deliver (faultWith 13 5 (taskGated 2)) (taskGated 2))
    (fun t => (t.tr.sel, t.eip, t.reg .esp, t.stored)) = some (0x28, 0x3000, 0x4FFC, []) := by
  decide +kernel
/-- R29: in virtual-8086 mode no task switch; interrupt 13 instead. -/
theorem test_task_gate_v86 : invokeHandler (faultWith 13 5 (taskGated 0x20002)) (taskGated 0x20002) = .error (.raised
    ((Origin.ofEvent (taskGated 0x20002) (faultWith 13 5 (taskGated 0x20002))).event 13 (some 0x6B) none)
    (taskGated 0x20002)) := by decide +kernel
/-- R48: `AccessCheck` is asked about the write of the new TSS's busy bit, at the access byte of descriptor 28h. -/
theorem test_busy_asked : (match verifyTss (Origin.ofInstr (flat [])) { flat [] with pins := { Pins.quiet with
      denials := [{ key := busyKey (flat []) 0x28 true, vector := .pageFault, err := 2 }] } } 0x28 .jmp with
      | .error (.raised e _) => some (e.vector, e.err, e.faultAddr)
      | .error (.refused _) | .ok _ => none) = some (14, some 2, some 0x802D) := by decide +kernel
/-- R141: TF set before an INT 3: its own trap first, the single-step trap pending. -/
theorem test_trap_pends : got (step { flat [0xCC] with eflags := 0x102 })
    (fun t => decide (lastEvent t = some (3, .trap, 0x1001, none) ∧
      t.debugTrap = { DebugCond.none with singleStep := true })) = some true := by decide +kernel
/-- R117: RF set before an INT 3, which completes: clear in the saved EFLAGS and in the handler. -/
theorem test_rf_trap : got (step { flat [0xCC] with eflags := 0x10002 }) (fun t => (readLin t 0x1FFC 4, t.flagRF)) =
    some (2, false) := by decide +kernel
/-- R117: RF set before an instruction that faults: kept for it in the saved EFLAGS, clear in the handler. -/
theorem test_rf_fault : got (step { flat [0xFF, 0xE8] with eflags := 0x10002 })
    (fun t => (readLin t 0x1FFC 4, t.flagRF)) = some (0x10002, false) := by decide +kernel
/-- R117: RF set before a far JMP to a task: clear in the EFLAGS the old TSS keeps. -/
theorem test_rf_task : got (step { flat [0xEA, 0, 0, 0, 0, 0x28, 0] with eflags := 0x10002 }) (fun t => tssWord t 0x6800 36) =
    some 2 := by decide +kernel
/-- A pending single-step trap before an instruction. -/
def pendingTrap : State := { flat [0xCE] with debugTrap := { DebugCond.none with singleStep := true } }
theorem test_pending_taken : got (step pendingTrap) (fun t => decide (lastEvent t = some (1, .trap, 0x1000, none) ∧
    t.dr.dr6 = 0x4000 ∧ t.debugTrap = DebugCond.none)) = some true := by decide +kernel
/-- Bytes another agent has written, one of them past the top of the address space, one overwritten by a later one. -/
def written : State := { flat [] with pins := { Pins.quiet with external := [(0x4000, 7), (0x100004001, 9), (0x4000, 8)] } }
theorem test_external_write : got (step written)
    (fun t => (t.mem.read 0x4000, t.mem.read 0x4001, t.eip, t.pins.external)) = some (8, 9, 0x1000, []) := by decide +kernel
/-- Bytes another agent writes while a step runs. -/
def writtenInside : State := { flat [] with pins := { Pins.quiet with inside := [(0x4000, 7), (0x100004001, 9)] } }
/-- The state in which a step among those writes runs. -/
def underWay : State := writtenInside.openStep
/-- R44, D13: each byte of a two-byte load is old or new by a choice of its own. -/
theorem test_torn_load (h0 : Config.outsideSeen underWay (0x4000, 2) 0x4000 = 0)
    (h1 : Config.outsideSeen underWay (0x4000, 2) 0x4001 = 1) : loadLin underWay 0x4000 2 = 7 := by
  show leValue [seenAt underWay (0x4000, 2) 0x4000, seenAt underWay (0x4000, 2) 0x4001] = 7
  simp only [seenAt, h0, h1]
  decide +kernel
/-- R49: another load of the same byte in the same step may see what the first did not. -/
theorem test_second_load (h0 : Config.outsideSeen underWay (0x4000, 2) 0x4000 = 1)
    (h1 : Config.outsideSeen underWay (0x4000, 1) 0x4000 = 0) :
    seenAt underWay (0x4000, 2) 0x4000 = 0 ∧ loadLin underWay 0x4000 1 = 7 := by
  show seenAt underWay (0x4000, 2) 0x4000 = 0 ∧ leValue [seenAt underWay (0x4000, 1) 0x4000] = 7
  simp only [seenAt, h0, h1]
  decide +kernel
/-- The step's own store of 5 to that byte. -/
def overwritten : State := store underWay 0x4000 1 5
/-- R49: the other agent's write comes after the store: a load of the step may see it, and it is in memory at the end. -/
theorem test_store_before (hb : Config.outsideBefore underWay 0x4000 = 0)
    (hs : Config.outsideSeen overwritten (0x4000, 1) 0x4000 = 0) :
    loadLin overwritten 0x4000 1 = 7 ∧ overwritten.closeStep.mem.read 0x4000 = 7 := by
  have e : overwritten.amid = [(0x4000, 7), (0x4001, 9)] := by
    show dropFirst 0x4000 [(0x4000, 7), (0x4001, 9)] (Config.outsideBefore underWay 0x4000) = _
    rw [hb]
    rfl
  show leValue [seenAt overwritten (0x4000, 1) 0x4000] = 7 ∧ (overwritten.mem.writeAll overwritten.amid).read 0x4000 = 7
  simp only [seenAt, hs, e]
  decide +kernel
/-- R49: it comes before the store, which is the last in program order: a load sees the store, and it stays. -/
theorem test_store_after (hb : Config.outsideBefore underWay 0x4000 = 1) :
    loadLin overwritten 0x4000 1 = 5 ∧ overwritten.closeStep.mem.read 0x4000 = 5 := by
  have e : overwritten.amid = [(0x4001, 9)] := by
    show dropFirst 0x4000 [(0x4000, 7), (0x4001, 9)] (Config.outsideBefore underWay 0x4000) = _
    rw [hb]
    rfl
  show leValue [seenAt overwritten (0x4000, 1) 0x4000] = 5 ∧ (overwritten.mem.writeAll overwritten.amid).read 0x4000 = 5
  simp only [seenAt, e]
  decide +kernel
/-- R152: bit 0 of the error code is EXT whatever `AccessCheck` named, but in a page fault's. -/
theorem test_denied_ext : deniedErr { key := pushKey (flat []) .o32, vector := .stackFault, err := 5 } false = 4 ∧
    deniedErr { key := pushKey (flat []) .o32, vector := .notPresent, err := 4 } true = 5 ∧
    deniedErr { key := pushKey (flat []) .o32, vector := .pageFault, err := 5 } false = 5 := by decide
/-- R98, R145, D28: a far JMP that would change the privilege level is refused; one to the CPL's own level is not. -/
theorem test_jmpFar_rpl : refusalOf (step (flat [0xEA, 0x00, 0x50, 0, 0, 0x83, 0])) = some .privilegeChange ∧
    got (step (flat [0xEA, 0x00, 0x50, 0, 0, 0x80, 0])) (fun t => (t.segs.cs.sel, cpl t, t.eip)) =
      some (0x80, 0, 0x5000) := by decide +kernel
/-- R101, D28: a far CALL that would change the privilege level is refused. -/
theorem test_callFar_rpl : refusalOf (step (flat [0x9A, 0x00, 0x50, 0, 0, 0x83, 0])) = some .privilegeChange := by
  decide +kernel
/-- R52: both old values of a byte stored to twice may still be fetched. -/
theorem test_stale : staleBytes (store (store (flat [0x11]) 0x1002 1 0x22) 0x1002 1 0x33) 0x1002 = [0x22, 0] := by
  decide +kernel

/-! ### Witnesses: each statement's hypotheses met by a state and operands -/

theorem next_of {o : Host.Outcome State Fault Refusal} (h : got o (fun _ => ()) = some ()) : ∃ t, o = .next t := by
  cases o with
  | next t => exact ⟨t, rfl⟩
  | fault r => cases h
  | refused r => cases h

theorem next_of_and {o : Host.Outcome State Fault Refusal} {p : State → Prop} {f : State → Bool} (hf : ∀ t, f t = true → p t)
    (h : got o f = some true) : ∃ t, o = .next t ∧ p t := by
  cases o with
  | next t => exact ⟨t, rfl, hf t (Option.some.inj h)⟩
  | fault r => cases h
  | refused r => cases h

/-! #### Encoding and fetching -/

theorem witness_DecodeOfEncode : (Instr.int3 (List.replicate 14 .lock)).wf true = true ∧
    (Instr.divRm [.opSize, .addrSize] .o16 (.mem (.ea16 .bp (.d8 1)))).wf true = true := by decide
theorem witness_EncodeOfDecode : decode false [0xFF, 0x18, 0xCC] = .ok (.callFarM [] .o16 (.ea16 .bxsi .none)) [0xCC] := by
  decide
theorem witness_DecodeFollowsOpcodeTable : decode true [0xFF, 0xFF] = .ok (.invFf7 [] (.reg .edi)) [] ∧
    decode true [0xFF, 0xF7] = .unlisted := by decide
theorem witness_EncodedBytesFetched : (Instr.int3 []).wf (codeBig (flat [0xCC])) = true ∧ (flat [0xCC]).stored = [] ∧
    (flat [0xCC]).eip.toNat + Instr.len (.int3 []) ≤ 2 ^ 32 ∧ ∀ (k : Nat) (h : k < (encode (.int3 [])).length),
      admits (flat [0xCC]) (fetchKey (flat [0xCC]) ((flat [0xCC]).eip + BitVec.ofNat 32 k)) ∧
      Unshared (flat [0xCC]) (phys (flat [0xCC]) ((flat [0xCC]).lin .cs ((flat [0xCC]).eip + BitVec.ofNat 32 k))) ∧
      (flat [0xCC]).mem.read (phys (flat [0xCC]) ((flat [0xCC]).lin .cs ((flat [0xCC]).eip + BitVec.ofNat 32 k))) =
        (encode (.int3 []))[k] := by decide +kernel
/-- The last byte of the address space. -/
theorem witness_EncodedBytesFetched_top : ({ flat [] with eip := 0xFFFFFFFF }).eip.toNat + Instr.len (.int3 []) ≤ 2 ^ 32 := by
  decide
theorem witness_UnlistedEncodingRefused : Undisturbed (flat [0x90]) ∧
    decode (codeBig (flat [0x90])) (window (flat [0x90])).1 = .unlisted := by decide +kernel
theorem witness_FetchFaultsDelivered_long : Undisturbed (flat (List.replicate 15 0xF0)) ∧
    decode (codeBig (flat (List.replicate 15 0xF0))) (window (flat (List.replicate 15 0xF0))).1 = .short ∧
    (window (flat (List.replicate 15 0xF0))).2 = none := by decide +kernel
/-- `AccessCheck` refuses the fetch of the first byte. -/
def fetchDenied : State :=
  { flat [] with pins := { Pins.quiet with denials := [{ key := fetchKey (flat []) 0x1000, vector := .pageFault, err := 0 }] } }
theorem witness_FetchFaultsDelivered_denied : Undisturbed fetchDenied ∧
    accessDenial fetchDenied (fetchKey fetchDenied fetchDenied.eip) =
      some { key := fetchKey (flat []) 0x1000, vector := .pageFault, err := 0 } := by decide +kernel
/-- `AccessCheck` refuses the fetch of the second byte, which the JMP needs. -/
def fetchDenied2 : State :=
  { flat [0xEB] with pins := { Pins.quiet with denials := [{ key := fetchKey (flat []) 0x1001, vector := .pageFault, err := 0 }] } }
theorem witness_FetchFaultsDelivered_later : Undisturbed fetchDenied2 ∧ admits fetchDenied2 (fetchKey fetchDenied2 0x1000) ∧
    accessDenial fetchDenied2 (fetchKey fetchDenied2 (fetchDenied2.eip + BitVec.ofNat 32 1)) =
      some { key := fetchKey (flat []) 0x1001, vector := .pageFault, err := 0 } ∧
    decode (codeBig fetchDenied2) (window fetchDenied2).1 = .short := by decide +kernel
theorem witness_StaleFetchOldOrNew : (flat []).stored = [] ∧
    Unshared (flat []) (phys (store (flat []) 0x1010 4 0xCC) ((flat []).lin .cs 0x1010)) ∧
    16 ≤ ((flat []).lin .cs 0x1010 - ((flat []).segs.cs.base + (flat []).eip)).toNat := by decide +kernel

/-! #### A step -/

theorem witness_StepRunsDecoded : Undisturbed (flat [0xCE]) ∧
    decode (codeBig (flat [0xCE])) (window (flat [0xCE])).1 = .ok (.into []) (List.replicate 14 0) ∧
    heldAt (flat [0xCE]) (.into []) = false := by decide +kernel
theorem witness_StepRunsDecoded_next : ∃ t, exec (.into []) (beginInstr (flat [0xCE])) = .next t ∧
    t.reported = (flat [0xCE]).reported ∧ (trapConds (flat [0xCE]) (.into []) t).any = false :=
  next_of_and (f := fun t => decide (t.reported = (flat [0xCE]).reported ∧ (trapConds (flat [0xCE]) (.into []) t).any = false))
    (fun _ h => of_decide_eq_true h) (by decide +kernel)
/-- WAIT with the coprocessor busy. -/
def busy : State := { flat [0x9B] with pins := { Pins.quiet with npxBusy := true } }
theorem witness_HeldWaitWaits : Undisturbed busy ∧
    decode (codeBig busy) (window busy).1 = .ok (.wait []) (List.replicate 14 0) ∧
    (busy.cr0MP && busy.cr0TS) = false ∧ busy.pins.npxError = false ∧ busy.pins.npxBusy = true := by decide +kernel
theorem witness_ShutdownUntilReset : ({ State.reset with shutdown := true }).shutdown = true ∧
    ({ State.reset with shutdown := true }).pins.reset = false ∧
    ({ State.reset with shutdown := true, pins := { Pins.quiet with reset := true } }).pins.reset = true := by decide
theorem witness_ResetValues : ({ flat [] with pins := { Pins.quiet with reset := true, npxPresent := true } }).pins.reset = true := by
  decide
/-- A breakpoint armed at CS:EIP. -/
def breakAt : State := { flat [0xEB, 0x0E] with dr := { State.reset.dr with dr0 := 0x1000, dr7 := 1 } }
theorem witness_DebugFaultComesFirst : breakAt.pins.reset = false ∧ breakAt.shutdown = false ∧ breakAt.halted = false ∧
    breakAt.pins.external = [] ∧ breakAt.pins.inside = [] ∧ breakAt.debugTrap.any = false ∧ (faultConds breakAt).any = true ∧ (faultConds breakAt).instrBp.getLsbD 0 = true := by decide +kernel
/-- The breakpoint is armed by DR0 and DR7, and not by DR1, whose enables are clear; by the input, with RF set. -/
theorem witness_DebugFaultComesFirst_armed : breakAt.flagRF = false ∧ BpArmed breakAt.dr 0 0 ∧
    breakAt.dr.addr 0 = breakAt.lin .cs breakAt.eip ∧ ¬ BpArmed breakAt.dr 1 0 ∧
    (faultConds { breakAt with eflags := 0x10002 }).any = false ∧
    (faultConds { breakAt with eflags := 0x10002, pins := { Pins.quiet with
      debug := [{ DebugCond.none with generalDetect := true }] } }).generalDetect = true := by decide +kernel
/-- TF set before a JMP. -/
def stepping : State := { flat [0xEB, 0x0E] with eflags := 0x102 }
theorem witness_DebugTrapSavesWhatFollows : Undisturbed stepping ∧
    decode (codeBig stepping) (window stepping).1 = .ok (.jmpRel8 [] .o32 0x0E) (List.replicate 13 0) ∧
    heldAt stepping (.jmpRel8 [] .o32 0x0E) = false ∧
    ∃ t, exec (.jmpRel8 [] .o32 0x0E) (beginInstr stepping) = .next t ∧ t.reported = stepping.reported ∧
      (trapConds stepping (.jmpRel8 [] .o32 0x0E) t).any = true :=
  ⟨by decide +kernel, by decide +kernel, by decide, next_of_and
    (f := fun t => decide (t.reported = stepping.reported ∧ (trapConds stepping (.jmpRel8 [] .o32 0x0E) t).any = true))
    (fun _ h => of_decide_eq_true h) (by decide +kernel)⟩
/-- A data breakpoint of `len` for writes on the address `a`, before a near CALL that pushes at 1FFCh. -/
def watched (a len : Word) : State :=
  { flat [0xE8, 0x0B, 0, 0, 0] with dr := { State.reset.dr with dr1 := a, dr7 := 4 ||| 1 <<< 20 ||| len <<< 22 } }
theorem witness_DebugTrapSavesWhatFollows_data :
    { lin := 0x1FFC, n := 4, write := true : DataAccess } ∈
      dataAccesses (beginInstr (watched 0x1FFF 0)) (.callRel [] (.rel32 0x0B)) ∧
    BpArmed (watched 0x1FFF 0).dr 1 1 ∧ ¬ BpArmed (watched 0x1FFF 0).dr 0 1 ∧ (watched 0x1FFF 0).dr.addr 1 = 0x1FFC + 3 ∧
    ∃ t, exec (.callRel [] (.rel32 0x0B)) (beginInstr (watched 0x1FFF 0)) = .next t ∧ t.reported = (watched 0x1FFF 0).reported ∧
      (trapConds (watched 0x1FFF 0) (.callRel [] (.rel32 0x0B)) t).dataBp = 2 :=
  ⟨by decide +kernel, by decide +kernel, by decide +kernel, by decide +kernel, next_of_and
    (f := fun t => decide (t.reported = (watched 0x1FFF 0).reported ∧
      (trapConds (watched 0x1FFF 0) (.callRel [] (.rel32 0x0B)) t).dataBp = 2))
    (fun _ h => of_decide_eq_true h) (by decide +kernel)⟩
/-- R18, R117: the push of a near CALL under a data breakpoint on its last byte traps after it with B1 set; one on the byte
after it does not; a breakpoint of four bytes that begins three below the push does. -/
theorem test_data_breakpoint :
    got (step (watched 0x1FFF 0)) (fun t => decide (lastEvent t = some (1, .trap, 0x1010, none) ∧ t.dr.dr6 = 2)) =
      some true ∧
    got (step (watched 0x2000 0)) (fun t => t.dr.dr6) = some 0 ∧
    got (step (watched 0x1FF9 3)) (fun t => t.dr.dr6) = some 2 ∧
    got (step (watched 0x1FF8 3)) (fun t => t.dr.dr6) = some 0 := by decide +kernel
/-- TF set before an INT 3. -/
def steppingTrap : State := { flat [0xCC] with eflags := 0x102 }
theorem witness_DebugTrapSavesWhatFollows_pends : Undisturbed steppingTrap ∧
    decode (codeBig steppingTrap) (window steppingTrap).1 = .ok (.int3 []) (List.replicate 14 0) ∧
    heldAt steppingTrap (.int3 []) = false ∧ steppingTrap.flagTF = true ∧
    ∃ t, exec (.int3 []) (beginInstr steppingTrap) = .next t ∧ t.reported ≠ steppingTrap.reported ∧ t.shutdown = false :=
  ⟨by decide +kernel, by decide +kernel, by decide, by decide, next_of_and
    (f := fun t => decide (t.reported ≠ steppingTrap.reported ∧ t.shutdown = false))
    (fun _ h => of_decide_eq_true h) (by decide +kernel)⟩
theorem witness_DebugTrapSavesWhatFollows_taken : pendingTrap.pins.reset = false ∧ pendingTrap.shutdown = false ∧
    pendingTrap.halted = false ∧ pendingTrap.pins.external = [] ∧ pendingTrap.pins.inside = [] ∧ pendingTrap.debugTrap.any = true ∧
    pendingTrap.debugTrap.singleStep = true ∧
    ({ pendingTrap with debugTrap := { DebugCond.none with taskSwitchBp := true } }).debugTrap.taskSwitchBp = true := by decide
theorem witness_InterruptsTaken_external : written.pins.reset = false ∧ written.shutdown = false ∧ written.pins.external ≠ [] ∧
    MemoryCanonical written ∧ written.pins.external = [(0x4000, 7), (0x100004001, 9)] ++ (0x4000, 8) :: [] ∧
    (∀ c ∈ ([] : List Host.Cell), c.1 % 2 ^ 32 ≠ 0x4000 % 2 ^ 32) :=
  ⟨by decide, by decide, by decide, wf_of_rising (by decide +kernel), by decide, fun c h => absurd h List.not_mem_nil⟩
/-- An NMI and an INTR pending, IF set. -/
def interrupted (halted nmi : Bool) : State :=
  { flat [] with halted := halted, eflags := 0x202, pins := { Pins.quiet with nmi := nmi, intr := some 32 } }
theorem witness_InterruptsTaken_nmi : (interrupted true true).pins.reset = false ∧ (interrupted true true).shutdown = false ∧
    (interrupted true true).pins.external = [] ∧ (interrupted true true).pins.inside = [] ∧ (interrupted true true).halted = true ∧ (interrupted true true).pins.nmi = true ∧
    (interrupted true true).nmiBlocked = false := by decide
theorem witness_InterruptsTaken_inside : writtenInside.pins.reset = false ∧ writtenInside.shutdown = false ∧
    writtenInside.pins.external = [] ∧ writtenInside.pins.inside ≠ [] := by decide
/-- Such a step of an INT 3 has a next state; what is written where it neither loads nor stores is there at its end. -/
theorem test_inside_next : got (nextEvent { (flat [0xCC]).tick with amid := [(0x9100, 7)] }) (fun t => (t.closeStep.mem.read 0x9100, t.eip)) =
    some (7, 0x9000) := by decide +kernel
theorem witness_InterruptsTaken_intr : (interrupted false false).pins.external = [] ∧ (interrupted false false).pins.inside = [] ∧
    (interrupted false false).debugTrap.any = false ∧ (faultConds (interrupted false false)).any = false ∧
    (interrupted false false).pins.nmi = false ∧ (interrupted false false).flagIF = true ∧
    (interrupted false false).pins.intr = some 32 := by decide +kernel
/-- R140: INTR is a level. Once accepted the line is still active; it is not accepted again while IF is clear. -/
def intrLevel : State := { real [] with eflags := 0x202, pins := { Pins.quiet with intr := some 32 } }
theorem witness_InterruptsTaken_level : got (step intrLevel) (fun t => (t.pins.intr, t.flagIF, t.reported.map Event.vector)) =
    some (some 32, false, [32]) := by decide +kernel
theorem witness_InterruptsTaken_halt : ({ flat [] with halted := true }).pins.nmi = false ∧
    ({ flat [] with halted := true }).flagIF = false ∧ ({ flat [] with halted := true }).halted = true := by decide

/-! #### Delivering an event -/

theorem witness_DeliveryRecords : ∃ t, deliver (faultOf 6 (real [])) (real []) = .next t :=
  next_of (by decide +kernel)
theorem witness_SecondEventRule_turn : (faultOf 3 gateless).vector ≠ 8 ∧
    invokeHandler (faultOf 3 gateless) (report (faultOf 3 gateless) gateless) =
      .error (.raised ((Origin.ofEvent gateless (faultOf 3 gateless)).event 11 (some 0x1B) none)
        (report (faultOf 3 gateless) gateless)) ∧ isDouble (dfClass 3) (dfClass 11) = false := by decide +kernel
theorem witness_SecondEventRule_double : (faultOf 0 gateless).vector ≠ 8 ∧
    invokeHandler (faultOf 0 gateless) (report (faultOf 0 gateless) gateless) =
      .error (.raised ((Origin.ofEvent gateless (faultOf 0 gateless)).event 11 (some 0x03) none)
        (report (faultOf 0 gateless) gateless)) ∧ isDouble (dfClass 0) (dfClass 11) = true ∧
    mode (report (faultOf 0 gateless) gateless) ≠ .realMode ∧ (report (faultOf 0 gateless) gateless).cr0PG = false ∧
    8 * 8 + 7 ≤ (report (faultOf 0 gateless) gateless).idtr.limit.toNat := by decide +kernel
/-- An INTR with a vector of Table 9-3, the gate of which is not present: its class is that of no vector of the table. -/
def intrEvent : Event := { faultOf 0 gateless with cls := .interrupt, intr := true }
theorem witness_SecondEventRule_intr : intrEvent.vector ≠ 8 ∧ intrEvent.intr = true ∧
    invokeHandler intrEvent (report intrEvent gateless) =
      .error (.raised ((Origin.ofEvent gateless intrEvent).event 11 (some 0x03) none) (report intrEvent gateless)) := by
  decide +kernel
/-- R140: the class of an INTR is `dfClassOther` whatever its vector; that of an exception goes by Table 9-3. -/
theorem test_intr_class : intrEvent.doubleClass = Config.dfClassOther 0 ∧ (faultOf 0 gateless).doubleClass = .contributory :=
  ⟨rfl, by decide⟩
/-- A push of the handler refused in real-address mode. -/
def realDenied : State :=
  { real [] with pins := { Pins.quiet with denials := [{ key := slotKey 0x2000 0 .o16 0, vector := .stackFault, err := 0 }] } }
theorem witness_SecondEventRule_real : invokeHandler (faultOf 0 realDenied) (report (faultOf 0 realDenied) realDenied) =
      .error (.raised ((Origin.ofEvent realDenied (faultOf 0 realDenied)).event 12 (some 1) none)
        (report (faultOf 0 realDenied) realDenied)) ∧ isDouble (dfClass 0) (dfClass 12) = true ∧
    mode (report (faultOf 0 realDenied) realDenied) = .realMode := by decide +kernel
theorem witness_SecondEventContract : invokeHandler (faultOf 0 gateless) gateless =
    .error (.raised ((Origin.ofEvent gateless (faultOf 0 gateless)).event 11 (some 0x03) none) gateless) ∧
    (0x03 : Half).getLsbD 0 = true ∧ ¬ ((faultOf 0 gateless).cls = .trap ∧ ((faultOf 0 gateless).vector = 3 ∨ (faultOf 0 gateless).vector = 4)) := by
  decide +kernel
/-- No entry of the interrupt descriptor table. -/
def tableless : State := { flat [] with idtr := { base := 0, limit := 0 } }
theorem witness_DoubleFaultFailureShutsDown : (faultOf 8 tableless).vector = 8 ∧
    invokeHandler (faultOf 8 tableless) (report (faultOf 8 tableless) tableless) =
      .error (.raised ((Origin.ofEvent tableless (faultOf 8 tableless)).event 13 (some 0x43) none)
        (report (faultOf 8 tableless) tableless)) := by decide +kernel
theorem witness_RealModeDelivery : MemoryCanonical (real [0xCC]) ∧ RealReady (real [0xCC]) 0xFF := by decide +kernel
/-- The state in which the handler of a fault of vector `v` is invoked. -/
def told (v : BitVec 8) (s : State) : State := report (faultOf v s) s
/-- Two conditions of `GateDeliverySameLevel`: a handler segment of the current level, through an interrupt gate. -/
theorem witness_GateDeliverySameLevel : MemoryCanonical (flat []) ∧ mode (flat []) = .protMode ∧
    GateReady (told 13 (flat [])) 13 (.intGate .o32) ∧
    descDpl (descAt (told 13 (flat [])) (gateSel (gateAt (told 13 (flat [])) 13))) = cpl (flat []) ∧
    (∀ k < 4, admits (flat []) (slotKey ((flat []).reg .esp) (cpl (flat [])) .o32 k)) :=
  ⟨wf_of_rising (by decide +kernel), by decide +kernel⟩
/-- A 16-bit trap gate to the conforming segment 70h of level 0, at level 3. -/
def conformingGate : State :=
  { flat [] with
    segs := { (flat []).segs with cs := flatSeg 0x1B 0xFA }
    mem := cellsFrom 0x7000 [0, 0x90, 0x70, 0, 0, 0x87, 0, 0] ++ cellsFrom 0x8000 gdtBytes }
theorem witness_GateDeliverySameLevel_conforming : MemoryCanonical conformingGate ∧ mode conformingGate = .protMode ∧
    GateReady (told 0 conformingGate) 0 (.trapGate .o16) ∧
    descKind (descAt (told 0 conformingGate) (gateSel (gateAt (told 0 conformingGate) 0))) = .code true true ∧
    (descDpl (descAt (told 0 conformingGate) (gateSel (gateAt (told 0 conformingGate) 0)))).toNat ≤ (cpl conformingGate).toNat ∧
    (∀ k < 4, admits conformingGate (slotKey (conformingGate.reg .esp) (cpl conformingGate) .o16 k)) :=
  ⟨wf_of_rising (by decide +kernel), by decide +kernel⟩
/-- Level 3, with SS0:ESP0 = 0010h:00003000h in the current TSS at 00006000h. -/
def userMode : State :=
  { flat [] with
    segs := { (flat []).segs with cs := flatSeg 0x1B 0xFA }
    tr := { sel := 0x38, base := 0x6000, limit := 0x67, access := 0x8B, big := false }
    mem := cellsFrom 0x6004 [0, 0x30, 0, 0, 0x10, 0, 0, 0] ++ cellsFrom 0x7000 gateBytes ++ cellsFrom 0x8000 gdtBytes }
theorem witness_GateDeliveryInnerLevel : MemoryCanonical userMode ∧ mode userMode = .protMode ∧
    GateReady (told 0 userMode) 0 (.intGate .o32) ∧
    descKind (descAt (told 0 userMode) (gateSel (gateAt (told 0 userMode) 0))) = .code false true ∧
    descDpl (descAt (told 0 userMode) (gateSel (gateAt (told 0 userMode) 0))) = 0 ∧ (0 : BitVec 2).toNat < (cpl userMode).toNat ∧
    admits userMode (tssKey userMode userMode.tr.sel (BitVec.ofNat 32 (4 + 8 * (0 : BitVec 2).toNat)) 8 false) ∧
    tssWord (told 0 userMode) userMode.tr.base (4 + 8 * (0 : BitVec 2).toNat) = 0x3000 ∧
    tssSel (told 0 userMode) userMode.tr.base (8 + 8 * (0 : BitVec 2).toNat) = 0x10 ∧ selReadable userMode 0x10 ∧
    (∀ k < 6, admits userMode (slotKey 0x3000 0 .o32 k)) :=
  ⟨wf_of_rising (by decide +kernel), by decide +kernel⟩
/-- Virtual-8086 mode, with the current TSS of `userMode`. -/
def v86 : State :=
  { userMode with
    eflags := 0x20002
    segs := { es := segReal 1, cs := segReal 2, ss := segReal 3, ds := segReal 4, fs := segReal 5, gs := segReal 6 } }
theorem witness_GateDeliveryInnerLevel_v86 : MemoryCanonical v86 ∧ mode v86 = .v86Mode ∧ GateReady (told 0 v86) 0 (.intGate .o32) ∧
    descKind (descAt (told 0 v86) (gateSel (gateAt (told 0 v86) 0))) = .code false true ∧
    descDpl (descAt (told 0 v86) (gateSel (gateAt (told 0 v86) 0))) = 0 ∧ admits v86 (tssKey v86 v86.tr.sel 4 8 false) ∧
    tssWord (told 0 v86) v86.tr.base 4 = 0x3000 ∧ tssSel (told 0 v86) v86.tr.base 8 = 0x10 ∧ selReadable v86 0x10 ∧
    (∀ k < 10, admits v86 (slotKey 0x3000 0 .o32 k)) :=
  ⟨wf_of_rising (by decide +kernel), by decide +kernel⟩
/-- R139, log entry 15: the stack a handler entered from virtual-8086 mode finds, GS highest, and its segment registers. -/
theorem test_gate_v86 : got (deliver (faultOf 0 v86) v86) (fun t => decide (mode t = .protMode ∧ t.segs.cs.sel = 8 ∧
      t.reg .esp = 0x2FDC ∧ readLin t 0x2FFC 4 = 6 ∧ readLin t 0x2FF0 4 = 1 ∧ readLin t 0x2FEC 4 = 3 ∧
      readLin t 0x2FE4 4 = 0x20002 ∧ t.segs.gs.sel = 0 ∧ t.segs.es.sel = 0)) = some true := by decide +kernel
/-- The task switch of an event of vector 13 through its task gate. -/
def switched13 (e : Event) (s : State) : Res State :=
  taskSwitch (Origin.ofEvent (report e s) e) (report e s) (gateSel (gateAt (report e s) 13)) .interrupt e.savedCS e.savedEIP
/-- A task gate whose selector lies outside the table. -/
def shortTable : State := { taskGated 2 with gdtr := { base := 0x8000, limit := 0x27 } }
theorem witness_TableLimitAndTaskGates : mode { flat [] with idtr := { base := 0x7000, limit := 0x86 } } ≠ .realMode ∧
    ({ flat [] with idtr := { base := 0x7000, limit := 0x86 } }).idtr.limit.toNat < 8 * (16 : BitVec 8).toNat + 7 := by decide
theorem witness_TableLimitAndTaskGates_v86 : mode (taskGated 0x20002) = .v86Mode ∧
    8 * (13 : BitVec 8).toNat + 7 ≤ (taskGated 0x20002).idtr.limit.toNat ∧
    admits (taskGated 0x20002) (vectorKey (taskGated 0x20002) .idt 13 8) ∧
    descKind (gateAt (taskGated 0x20002) 13) = .taskGate := by decide +kernel
/-- A present task gate in protected mode: a valid new task, an event without and one with an error code, an invalid one. -/
theorem witness_TableLimitAndTaskGates_task : mode (taskGated 2) = .protMode ∧
    8 * (13 : BitVec 8).toNat + 7 ≤ (taskGated 2).idtr.limit.toNat ∧
    admits (taskGated 2) (vectorKey (taskGated 2) .idt 13 8) ∧ descKind (gateAt (told 13 (taskGated 2)) 13) = .taskGate ∧
    descPresent (gateAt (told 13 (taskGated 2)) 13) = true ∧ descKind (gateAt (report (faultWith 13 5 (taskGated 2)) (taskGated 2)) 13) = .taskGate ∧ (faultOf 13 (taskGated 2)).err = none ∧
    (faultWith 13 5 (taskGated 2)).err = some 5 ∧
    (switched13 (faultWith 13 5 (taskGated 2)) (taskGated 2)).map
      (fun t => accessDenial t (slotKey (t.reg .esp) (cpl t) .o32 0)) = .ok none ∧
    (switched13 (faultOf 13 (taskGated 2)) (taskGated 2)).map (fun t => t.tr.sel) = .ok 0x28 ∧
    (switched13 (faultOf 13 shortTable) shortTable).map (fun t => t.tr.sel) =
      .error (.raised ((Origin.ofEvent shortTable (faultOf 13 shortTable)).event 13 (some 0x29) none)
        (report (faultOf 13 shortTable) shortTable)) := by decide +kernel
/-- Interrupt 10 in the context of the new task. -/
def tenInTask : Event := { faultWith 10 0x30 (flat []) with newTask := true }
theorem witness_VectorTenNeedsTask : mode (flat []) ≠ .realMode ∧ tenInTask.vector = 10 ∧ tenInTask.newTask = true ∧
    8 * tenInTask.vector.toNat + 7 ≤ (flat []).idtr.limit.toNat ∧
    admits (flat []) (vectorKey (flat []) .idt tenInTask.vector 8) ∧
    descKind (gateAt (report tenInTask (flat [])) tenInTask.vector) ≠ .taskGate := by decide +kernel
theorem witness_ReturnAfterAbortRefused : ∃ e ∈ ({ flat [] with reported := [doubleFault 0] }).reported, e.cls = .abort :=
  ⟨doubleFault 0, by simp, rfl⟩
theorem witness_ReturnUndoesRealDelivery : MemoryCanonical (real []) ∧ FlagsCanonical (real []) ∧ Alone (real []) ∧ (real []).pins.denials = [] ∧
    RealReady (real []) 3 ∧ (∀ x ∈ faultOf 3 (real []) :: (real []).reported, x.cls ≠ .abort) ∧
    ∃ t, deliver (faultOf 3 (real [])) (real []) = .next t :=
  ⟨by decide +kernel, by decide +kernel, rfl, rfl, by decide +kernel, by decide +kernel, next_of (by decide +kernel)⟩

/-! #### The task switch -/

theorem witness_NewTssVerified_selector : selTI 0x2C = true ∧ selNull 3 = true ∧ inTable (flat []) 0xF8 = false ∧
    selTI 0x10 = false ∧ selReadable (flat []) 0x10 ∧ descKind (descAt (flat []) 0x10) ≠ .tss386 ∧
    descKind (descAt (flat []) 0x10) ≠ .tss286 := by decide +kernel
/-- The descriptor 28h as a TSS that is not present, and as one of a 286. -/
def otherTss (access : Byte) : State := { flat [] with mem := (flat []).mem.write 0x802D access }
theorem witness_NewTssVerified_kinds : selTI 0x28 = false ∧ selReadable (otherTss 0x09) 0x28 ∧
    descKind (descAt (otherTss 0x09) 0x28) = .tss386 ∧ descPresent (descAt (otherTss 0x09) 0x28) = false ∧
    selReadable (otherTss 0x81) 0x28 ∧ descKind (descAt (otherTss 0x81) 0x28) = .tss286 ∧
    descPresent (descAt (otherTss 0x81) 0x28) = true ∧ 103 ≤ (descLimit (descAt (otherTss 0x81) 0x28)).toNat := by decide +kernel
theorem witness_NewTssVerified_passes : selReadable (flat []) 0x28 ∧ descKind (descAt (flat []) 0x28) = .tss386 ∧
    descPresent (descAt (flat []) 0x28) = true ∧ (descLimit (descAt (flat []) 0x28)).toNat = 103 ∧
    admits (flat []) (tssKey (flat []) 0x28 0 104 false) ∧ admits (flat []) (tssKey (flat []) (flat []).tr.sel 32 64 true) ∧
    admits (flat []) (tssKey (flat []) 0x28 0 2 true) ∧ (∀ w, admits (flat []) (busyKey (flat []) 0x28 w)) ∧
    selNull (flat []).tr.sel = false ∧ (∀ w, admits (flat []) (busyKey (flat []) (flat []).tr.sel w)) := by decide +kernel
theorem witness_NewTssVerified_short : selTI 0x50 = false ∧ selReadable (flat []) 0x50 ∧
    descKind (descAt (flat []) 0x50) = .tss386 ∧ descPresent (descAt (flat []) 0x50) = true ∧
    (descLimit (descAt (flat []) 0x50)).toNat < 103 := by decide +kernel
theorem witness_LdtRowFaults : selTI 0x34 = true ∧ selNull 3 = true ∧ inTable (flat []) 0x90 = false ∧
    admits (flat []) (descKey (flat []) 0x10) ∧ descKind (descAt (flat []) 0x10) ≠ .ldt ∧
    admits (flat []) (descKey (flat []) 0x88) ∧ descPresent (descAt (flat []) 0x88) = false := by decide +kernel
/-- The state after row 2, and after rows 3 to 6 and 7 to 10 with the selectors 23h and 1Bh. -/
def afterLdt : State := { flat [] with ldtr := segOfDesc 0x30 (descAt (flat []) 0x30) }
def afterStack : State := afterLdt.setSeg .ss (segOfDesc 0x23 (descAt afterLdt 0x23))
def afterCode : State := afterStack.setSeg .cs (segOfDesc 0x1B (descAt afterStack 0x1B))
/-- A new task with given selectors. -/
def image (cs ss ds gs : Half) : TssImage :=
  { readTss (flat []) 0x6000 with cs := cs, ss := ss, ds := ds, es := 0x23, fs := 0x23, gs := gs, ldt := 0x30 }
theorem witness_StackRowsFault : loadLdt (Origin.ofInstr (flat [])) (flat []) (image 0x1B 0 0 0).ldt = .ok afterLdt ∧
    selNull (image 0x1B 0 0 0).ss = true ∧ selNull 0x93 = false ∧ inTable afterLdt 0x93 = false ∧
    admits afterLdt (descKey afterLdt 0x5B) ∧ descKind (descAt afterLdt 0x5B) ≠ .data true ∧
    admits afterLdt (descKey afterLdt 0x13) ∧ descDpl (descAt afterLdt 0x13) ≠ selRpl 0x1B ∧
    admits afterLdt (descKey afterLdt 0x20) ∧ selRpl 0x20 ≠ selRpl 0x1B := by decide +kernel
theorem witness_CodeRowsFault : loadLdt (Origin.ofInstr (flat [])) (flat []) 0x30 = .ok afterLdt ∧
    loadTaskStack (Origin.ofInstr (flat [])) afterLdt (selRpl 0x1B) 0x23 = .ok afterStack ∧
    selNull 3 = true ∧ inTable afterStack 0x93 = false ∧
    admits afterStack (descKey afterStack 0x23) ∧ isCode (descAt afterStack 0x23) = false ∧
    descKind (descAt afterStack 0x0B) = .code false true ∧ descDpl (descAt afterStack 0x0B) ≠ selRpl 0x0B ∧
    descKind (descAt afterStack 0x68) = .code true true ∧
    (selRpl 0x68).toNat < (descDpl (descAt afterStack 0x68)).toNat := by decide +kernel
theorem witness_DataRowsFault_limit :
    loadTaskCode (Origin.ofInstr (flat [])) afterStack (selRpl 0x1B) 0x1B = .ok afterCode ∧
    [(SegName.ds, (0x23 : Half)), (.es, 0x23), (.fs, 0x23), (.gs, 0x93)] = [(.ds, 0x23), (.es, 0x23), (.fs, 0x23)] ++ (.gs, 0x93) :: [] ∧
    selNull 0x93 = false ∧ (∀ x ∈ [(SegName.ds, (0x23 : Half)), (.es, 0x23), (.fs, 0x23)],
      selNull x.2 = true ∨ inTable afterCode x.2 = true) ∧ inTable afterCode 0x93 = false := by decide +kernel
theorem witness_DataRowsFault_readable :
    [(SegName.ds, (0x63 : Half)), (.es, 0x23), (.fs, 0x23), (.gs, 0)] = [] ++ (.ds, 0x63) :: [(.es, 0x23), (.fs, 0x23), (.gs, 0)] ∧
    selNull 0x63 = false ∧ (∀ x ∈ [(0x63 : Half), 0x23, 0x23, 0], selNull x = true ∨ inTable afterCode x = true) ∧
    loadTaskDatas (Origin.ofInstr (flat [])) afterCode [] = .ok afterCode ∧ admits afterCode (descKey afterCode 0x63) ∧
    readableKind (descKind (descAt afterCode 0x63)) = false :=
  ⟨by decide +kernel, by decide +kernel,
    four (.inr (by decide +kernel)) (.inr (by decide +kernel)) (.inr (by decide +kernel)) (.inl (by decide +kernel)),
    by decide +kernel⟩
theorem witness_TaskSwitchCommits :
    verifyTss (Origin.ofInstr (flat [])) (flat []) 0x28 .call = .ok (descAt (flat []) 0x28) ∧
    verifyTss (Origin.ofInstr (flat [])) (flat []) 0x28 .jmp = .ok (descAt (flat []) 0x28) ∧ MemoryCanonical (flat []) ∧
    (flat []).cr0PG = false ∧ Alone (flat []) ∧ selNull (flat []).tr.sel = false ∧
    (∀ k < 64, descAddr (flat []) 0x28 + 5 ≠ (flat []).tr.base + 32 + BitVec.ofNat 32 k ∧
      descAddr (flat []) (flat []).tr.sel + 5 ≠ (flat []).tr.base + 32 + BitVec.ofNat 32 k) ∧
    (∀ j < 2, ∀ k < 64, descBase (descAt (flat []) 0x28) + BitVec.ofNat 32 j ≠ (flat []).tr.base + 32 + BitVec.ofNat 32 k) ∧
    (∀ j < 2, descBase (descAt (flat []) 0x28) + BitVec.ofNat 32 j ≠ descAddr (flat []) 0x28 + 5) ∧
    (∀ j < 2, descBase (descAt (flat []) 0x28) + BitVec.ofNat 32 j ≠ descAddr (flat []) (flat []).tr.sel + 5) :=
  ⟨by decide +kernel, by decide +kernel, wf_of_rising (by decide +kernel), by decide +kernel⟩
/-- The byte before and the byte after the old TSS's saved fields, and the two between the slots of ES and CS, are none of
the bytes a commit writes. -/
theorem witness_TaskSwitchCommits_frame : ∀ a ∈ [(0x681F : Nat), 0x685E, 0x684A, 0x684B],
    (∀ f ∈ savedFields (flat []) 8 0x1007 2, ∀ k < f.2.1, a ≠ ((flat []).tr.base + BitVec.ofNat 32 f.1 + BitVec.ofNat 32 k).toNat) ∧
    (∀ j < 2, a ≠ (descBase (descAt (flat []) 0x28) + BitVec.ofNat 32 j).toNat) ∧
    a ≠ (descAddr (flat []) (flat []).tr.sel + 5).toNat ∧ a ≠ (descAddr (flat []) 0x28 + 5).toNat :=
  four (by decide +kernel) (by decide +kernel) (by decide +kernel) (by decide +kernel)
/-- A far JMP to 28h: the old task in its TSS, both busy bits (R102, R23). -/
theorem test_task_saved : got (step (flat [0xEA, 0, 0, 0, 0, 0x28, 0]))
    (fun t => (tssWord t 0x6800 32, tssWord t 0x6800 56, tssSel t 0x6800 76, t.mem.read 0x802D, t.mem.read 0x803D)) =
    some (0x1007, 0x2000, 0x08, 0x8B, 0x89) := by decide +kernel
/-- The new task's context before its selectors are loaded. -/
def inNewTask : State := { flat [] with segs := { (flat []).segs with cs := segNull 0x1B } }
theorem witness_ValidTssLoads : inNewTask.segs.cs.sel = (image 0x1B 0x23 0x23 0).cs ∧
    TssValid inNewTask (image 0x1B 0x23 0x23 0) := by
  refine ⟨rfl, ?_⟩
  constructor
  case csKind => exact ⟨false, true, by decide +kernel, by decide +kernel, by decide⟩
  case data =>
    exact four (fun _ => by decide +kernel) (fun _ => by decide +kernel) (fun _ => by decide +kernel)
      (fun h => absurd h (by decide +kernel))
  all_goals decide +kernel
theorem witness_FarTransfersToTasks : mode (flat []) = .protMode ∧ selReadable (flat []) 0x28 ∧
    descKind (descAt (flat []) 0x28) = .tss386 ∧ selReadable (flat []) 0x48 ∧ descKind (descAt (flat []) 0x48) = .taskGate ∧
    gateSel (descAt (flat []) 0x48) = 0x28 ∧ selReadable (flat []) 0x40 ∧ descKind (descAt (flat []) 0x40) = .callGate ∧
    FarPtr.sel (.ptr32 0 0x28) = 0x28 ∧ (flat []).eip.toNat + Instr.len (.jmpFar [] (.ptr32 0 0x28)) ≤ 0xFFFFFFFF ∧
    readFar (flat [] [0, 0, 0, 0, 0x28, 0]) [] .o32 (.ea32 .ebx .none) = .ok (0x28, 0) := by decide +kernel

/-! #### DIV and IDIV -/

/-- A state with EAX, EDX and ECX set and EIP given. -/
def regs (eax edx ecx eip : Word) : State :=
  { flat [] with gpr := { (flat []).gpr with eax := eax, edx := edx, ecx := ecx }, eip := eip }
/-- The largest quotients, 255, 65535 and 4294967295, and the last address at which the instruction completes. -/
theorem witness_DivCompletes8 : (readOpnd8 (regs 0x6FF 0 7 0xFFFFFFFD) [] (.reg .cl) = .ok 7) ∧ 6 < (7 : Word).toNat ∧
    ((regs 0x6FF 0 7 0xFFFFFFFD).reg16 .eax).toNat = 255 * (7 : Word).toNat + 6 ∧ 255 < 2 ^ 8 ∧
    (regs 0x6FF 0 7 0xFFFFFFFD).eip.toNat + Instr.len (.divRm8 [] (.reg .cl)) ≤ 0xFFFFFFFF := by decide +kernel
theorem witness_DivCompletes16 : (readOpndZ (regs 0xFFFF 6 7 0) [] .o16 (.reg .ecx) = .ok 7) ∧ 6 < (7 : Word).toNat ∧
    ((regs 0xFFFF 6 7 0).reg16 .edx ++ (regs 0xFFFF 6 7 0).reg16 .eax).toNat = 65535 * (7 : Word).toNat + 6 ∧
    65535 < 2 ^ 16 ∧ (regs 0xFFFF 6 7 0).eip.toNat + Instr.len (.divRm [] .o16 (.reg .ecx)) ≤ 0xFFFFFFFF := by
  decide +kernel
theorem witness_DivCompletes32 : (readOpndZ (regs 0xFFFFFFFF 6 7 0) [] .o32 (.reg .ecx) = .ok 7) ∧ 6 < (7 : Word).toNat ∧
    ((regs 0xFFFFFFFF 6 7 0).reg .edx ++ (regs 0xFFFFFFFF 6 7 0).reg .eax).toNat = 4294967295 * (7 : Word).toNat + 6 ∧
    4294967295 < 2 ^ 32 ∧ (regs 0xFFFFFFFF 6 7 0).eip.toNat + Instr.len (.divRm [] .o32 (.reg .ecx)) ≤ 0xFFFFFFFF := by
  decide +kernel
/-- The most negative quotients, and a negative remainder at 8 bits: -257 = -128 * 2 - 1. -/
theorem witness_IdivCompletes8 : (readOpnd8 (regs 0xFEFF 0 2 0xFFFFFFFD) [] (.reg .cl) = .ok 2) ∧
    truncatedDivision ((regs 0xFEFF 0 2 0xFFFFFFFD).reg16 .eax).toInt ((2 : Word).setWidth 8).toInt (-128) (-1) ∧
    (-2 ^ 7 ≤ (-128 : Int)) ∧ ((-128 : Int) ≤ 2 ^ 7 - 1) ∧
    (regs 0xFEFF 0 2 0xFFFFFFFD).eip.toNat + Instr.len (.idivRm8 [] (.reg .cl)) ≤ 0xFFFFFFFF := by decide +kernel
theorem witness_IdivCompletes16 : (readOpndZ (regs 0x8000 0xFFFF 1 0) [] .o16 (.reg .ecx) = .ok 1) ∧
    truncatedDivision ((regs 0x8000 0xFFFF 1 0).reg16 .edx ++ (regs 0x8000 0xFFFF 1 0).reg16 .eax).toInt
      ((1 : Word).setWidth 16).toInt (-32768) 0 ∧ (-2 ^ 15 ≤ (-32768 : Int)) ∧ ((-32768 : Int) ≤ 2 ^ 15 - 1) ∧
    (regs 0x8000 0xFFFF 1 0).eip.toNat + Instr.len (.idivRm [] .o16 (.reg .ecx)) ≤ 0xFFFFFFFF := by decide +kernel
theorem witness_IdivCompletes32 : (readOpndZ (regs 0x80000000 0 0xFFFFFFFF 0) [] .o32 (.reg .ecx) = .ok 0xFFFFFFFF) ∧
    truncatedDivision ((regs 0x80000000 0 0xFFFFFFFF 0).reg .edx ++ (regs 0x80000000 0 0xFFFFFFFF 0).reg .eax).toInt
      (0xFFFFFFFF : Word).toInt (-2147483648) 0 ∧ (-2 ^ 31 ≤ (-2147483648 : Int)) ∧ ((-2147483648 : Int) ≤ 2 ^ 31 - 1) ∧
    (regs 0x80000000 0 0xFFFFFFFF 0).eip.toNat + Instr.len (.idivRm [] .o32 (.reg .ecx)) ≤ 0xFFFFFFFF := by decide +kernel
/-- The smallest quotients that do not fit: 256 and 128. -/
theorem witness_DivideErrors8 : (readOpnd8 (regs 0x100 0 1 0) [] (.reg .cl) = .ok 1) ∧
    (((regs 0x100 0 1 0).reg16 .eax).toNat = 256 * (1 : Word).toNat + 0 ∧ 0 < (1 : Word).toNat ∧ 2 ^ 8 ≤ 256) ∧
    (readOpnd8 (regs 0x80 0 1 0) [] (.reg .cl) = .ok 1) ∧
    (truncatedDivision ((regs 0x80 0 1 0).reg16 .eax).toInt ((1 : Word).setWidth 8).toInt 128 0 ∧
      2 ^ 7 - 1 < (128 : Int)) ∧
    (readOpnd8 (regs 0 0 0 0) [] (.reg .cl) = .ok 0) := by decide +kernel
theorem witness_DivideErrors16 : (readOpndZ (regs 0 1 1 0) [] .o16 (.reg .ecx) = .ok 1) ∧
    (((regs 0 1 1 0).reg16 .edx ++ (regs 0 1 1 0).reg16 .eax).toNat = 65536 * (1 : Word).toNat + 0 ∧ 0 < (1 : Word).toNat ∧
      2 ^ 16 ≤ 65536) ∧
    (truncatedDivision ((regs 0x7FFF 0xFFFF 1 0).reg16 .edx ++ (regs 0x7FFF 0xFFFF 1 0).reg16 .eax).toInt
        ((1 : Word).setWidth 16).toInt (-32769) 0 ∧ (-32769 : Int) < -2 ^ 15) ∧
    (readOpndZ (regs 0 0 0 0) [] .o16 (.reg .ecx) = .ok 0) := by decide +kernel
theorem witness_DivideErrors32 : (readOpndZ (regs 0 1 1 0) [] .o32 (.reg .ecx) = .ok 1) ∧
    (((regs 0 1 1 0).reg .edx ++ (regs 0 1 1 0).reg .eax).toNat = 4294967296 * (1 : Word).toNat + 0 ∧
      0 < (1 : Word).toNat ∧ 2 ^ 32 ≤ 4294967296) ∧
    (truncatedDivision ((regs 0x80000000 0xFFFFFFFF 0xFFFFFFFF 0).reg .edx ++
        (regs 0x80000000 0xFFFFFFFF 0xFFFFFFFF 0).reg .eax).toInt (0xFFFFFFFF : Word).toInt 2147483648 0 ∧
      2 ^ 31 - 1 < (2147483648 : Int)) ∧
    (readOpndZ (regs 0 0 0 0) [] .o32 (.reg .ecx) = .ok 0) := by decide +kernel

/-! #### INT 3, INTO, BOUND -/

theorem witness_Int3TakesBreakpoint : ({ flat [] with eip := 0xFFFFFFFE }).eip.toNat + Instr.len (.int3 []) ≤ 0xFFFFFFFF ∧
    (real []).eip.toNat + Instr.len (.int3 []) ≤ 0xFFFFFFFF ∧ MemoryCanonical (real []) ∧ RealReady (real []) 3 := by
  decide +kernel
theorem witness_IntoTestsOverflow : ({ flat [] with eip := 0xFFFFFFFE }).eip.toNat + Instr.len (.into []) ≤ 0xFFFFFFFF ∧
    (flat []).flagOF = false ∧ ({ flat [] with eflags := 0x802 }).flagOF = true := by decide +kernel
/-- The limits -1 and 9 at 32 bits: the limits themselves and their neighbours outside. -/
theorem witness_BoundChecksLimits : (signedZ .o32 0xFFFFFFFF ≤ signedZ .o32 0xFFFFFFFF ∧
      signedZ .o32 0xFFFFFFFF ≤ signedZ .o32 9 ∧ signedZ .o32 9 ≤ signedZ .o32 9) ∧
    signedZ .o32 0xFFFFFFFE < signedZ .o32 0xFFFFFFFF ∧ signedZ .o32 9 < signedZ .o32 10 ∧
    readEA (flat [] [0xFF, 0xFF, 0xFF, 0xFF, 9, 0, 0, 0]) [] (.ea32 .ebx .none) 0 4 = .ok 0xFFFFFFFF ∧
    readEA (flat [] [0xFF, 0xFF, 0xFF, 0xFF, 9, 0, 0, 0]) [] (.ea32 .ebx .none) 4 4 = .ok 9 ∧
    (flat []).eip.toNat + Instr.len (.bound [] .o32 .eax (.ea32 .ebx .none)) ≤ 0xFFFFFFFF := by decide +kernel
/-- At 16 bits the upper half of the register is ignored. -/
theorem witness_BoundChecksLimits16 : signedZ .o16 0 ≤ signedZ .o16 0xFFFF7FFF ∧
    signedZ .o16 0xFFFF7FFF ≤ signedZ .o16 0x7FFF ∧ signedZ .o16 0x8000 < signedZ .o16 0 ∧
    readEA (flat [] [0, 0, 0xFF, 0x7F]) [] (.ea32 .ebx .none) 0 2 = .ok 0 ∧
    readEA (flat [] [0, 0, 0xFF, 0x7F]) [] (.ea32 .ebx .none) 2 2 = .ok 0x7FFF := by decide +kernel

/-! #### ESC and WAIT -/

theorem witness_EscAndWaitTruthTable_seven : ({ real [] with cr0 := 4 }).cr0EM = true ∧
    MemoryCanonical { real [] with cr0 := 4 } ∧ RealReady { real [] with cr0 := 4 } 7 ∧
    ({ real [] with cr0 := 0xA }).cr0MP = true ∧ ({ real [] with cr0 := 0xA }).cr0TS = true ∧
    MemoryCanonical { real [] with cr0 := 0xA } ∧ RealReady { real [] with cr0 := 0xA } 7 := by decide +kernel
theorem witness_EscAndWaitTruthTable_rest : ({ flat [] with cr0 := 9 }).cr0EM = false ∧ ({ flat [] with cr0 := 9 }).cr0MP = false ∧
    ({ flat [] with cr0 := 9 }).cr0TS = true ∧ (flat []).cr0EM = false ∧ (flat []).cr0TS = false ∧
    ¬ ((flat []).cr0MP = true ∧ (flat []).cr0TS = true) ∧
    ({ flat [] with pins := { Pins.quiet with npxError := true } }).pins.npxError = true ∧ (flat []).pins.npxError = false ∧
    (flat []).pins.npxBusy = false ∧ busy.pins.npxError = false ∧ busy.pins.npxBusy = true ∧
    ¬ (busy.cr0MP = true ∧ busy.cr0TS = true) ∧ (flat []).eip.toNat + Instr.len (.wait []) ≤ 0xFFFFFFFF := by decide +kernel

/-! #### JMP, CALL, the far loads, the invalid forms -/

theorem witness_JmpNearCompletes :
    ({ flat [] with eip := 0xFFFFFFFD }).eip.toNat + Instr.len (.jmpRel8 [] .o16 0x80) ≤ 0xFFFFFFFF ∧
    ({ flat [] with eip := 0xFFFFFFFC }).eip.toNat + Instr.len (.jmpRel [] (.rel16 0x8000)) ≤ 0xFFFFFFFF ∧
    ({ flat [] with eip := 0xFFFFFFFA }).eip.toNat + Instr.len (.jmpRel [] (.rel32 0xFFFFFFFF)) ≤ 0xFFFFFFFF ∧
    readOpndZ (flat [] [0x78, 0x56, 0x34, 0x12]) [] .o16 (.mem (.ea32 .ebx .none)) = .ok 0x5678 := by decide +kernel
theorem witness_JmpFarCompletes_real : admits (real []) (loadKey (real []) .cs 0xF000) ∧ mode (real []) ≠ .protMode ∧
    FarPtr.sel (.ptr16 0x1234 0xF000) = 0xF000 ∧ FarPtr.off (.ptr16 0x1234 0xF000) = 0x1234 ∧
    readFar { real [] with mem := cellsFrom 0x4000 [0x34, 0x12, 0, 0xF0] } [] .o16 (.abs16 0x4000) = .ok (0xF000, 0x1234) := by
  decide +kernel
theorem witness_JmpFarCompletes_prot : admits (flat []) (loadKey (flat []) .cs 0x80) ∧ mode (flat []) = .protMode ∧
    selReadable (flat []) 0x80 ∧ isCode (descAt (flat []) 0x80) = true ∧ FarPtr.sel (.ptr32 0x5000 0x80) = 0x80 ∧
    FarPtr.off (.ptr32 0x5000 0x80) = 0x5000 ∧ selRpl 0x80 = cpl (flat []) ∧
    readFar (flat [] [0x00, 0x50, 0, 0, 0x80, 0]) [] .o32 (.ea32 .ebx .none) = .ok (0x80, 0x5000) := by decide +kernel
theorem witness_JmpFarCompletes_level : admits (flat []) (loadKey (flat []) .cs 0x83) ∧ mode (flat []) = .protMode ∧
    selReadable (flat []) 0x83 ∧ isCode (descAt (flat []) 0x83) = true ∧ selRpl 0x83 ≠ cpl (flat []) ∧
    FarPtr.sel (.ptr32 0x5000 0x83) = 0x83 ∧
    readFar (flat [] [0x00, 0x50, 0, 0, 0x83, 0]) [] .o32 (.ea32 .ebx .none) = .ok (0x83, 0x5000) := by decide +kernel
theorem witness_CallNearCompletes : MemoryCanonical { flat [] with eip := 0xFFFFFFFA } ∧
    ({ flat [] with eip := 0xFFFFFFFA }).eip.toNat + Instr.len (.callRel [] (.rel32 0x0B)) ≤ 0xFFFFFFFF ∧
    admits { flat [] with eip := 0xFFFFFFFA } (slotKey (({ flat [] with eip := 0xFFFFFFFA }).reg .esp)
      (cpl { flat [] with eip := 0xFFFFFFFA }) .o32 0) ∧
    readOpndZ (flat []) [] .o16 (.reg .ebx) = .ok 0x4000 ∧
    (flat []).eip.toNat + Instr.len (.callRm [] .o16 (.reg .ebx)) ≤ 0xFFFFFFFF ∧
    admits (flat []) (slotKey ((flat []).reg .esp) (cpl (flat [])) .o16 0) :=
  ⟨wf_of_rising (by decide +kernel), by decide +kernel⟩
theorem witness_CallFarCompletes_real : MemoryCanonical (real []) ∧ admits (real []) (loadKey (real []) .cs 0xF000) ∧
    (∀ k < 2, admits (real []) (slotKey ((real []).reg .esp) (cpl (real [])) .o16 k)) ∧
    (FarPtr.ptr16 0x1234 0xF000).wsize = .o16 ∧ FarPtr.sel (.ptr16 0x1234 0xF000) = 0xF000 ∧
    FarPtr.off (.ptr16 0x1234 0xF000) = 0x1234 ∧
    (real []).eip.toNat + Instr.len (.callFar [] (.ptr16 0x1234 0xF000)) ≤ 0xFFFFFFFF ∧ mode (real []) ≠ .protMode := by
  decide +kernel
theorem witness_CallFarCompletes_prot : MemoryCanonical (flat [] [0x00, 0x50, 0, 0, 0x80, 0]) ∧
    admits (flat [] [0x00, 0x50, 0, 0, 0x80, 0]) (loadKey (flat [] [0x00, 0x50, 0, 0, 0x80, 0]) .cs 0x80) ∧
    (∀ k < 2, admits (flat [] [0x00, 0x50, 0, 0, 0x80, 0]) (slotKey 0x2000 0 .o32 k)) ∧
    (flat [] [0x00, 0x50, 0, 0, 0x80, 0]).reg .esp = 0x2000 ∧ cpl (flat [] [0x00, 0x50, 0, 0, 0x80, 0]) = 0 ∧
    readFar (flat [] [0x00, 0x50, 0, 0, 0x80, 0]) [] .o32 (.ea32 .ebx .none) = .ok (0x80, 0x5000) ∧
    (flat [] [0x00, 0x50, 0, 0, 0x80, 0]).eip.toNat + Instr.len (.callFarM [] .o32 (.ea32 .ebx .none)) ≤ 0xFFFFFFFF ∧
    selReadable (flat [] [0x00, 0x50, 0, 0, 0x80, 0]) 0x80 ∧
    isCode (descAt (flat [] [0x00, 0x50, 0, 0, 0x80, 0]) 0x80) = true ∧
    selRpl 0x80 = cpl (flat [] [0x00, 0x50, 0, 0, 0x80, 0]) :=
  ⟨wf_of_rising (by decide +kernel), by decide +kernel⟩
theorem witness_CallFarCompletes_level : MemoryCanonical (flat []) ∧ mode (flat []) = .protMode ∧
    FarPtr.sel (.ptr32 0x5000 0x83) = 0x83 ∧ selRpl 0x83 ≠ cpl (flat []) ∧ admits (flat []) (loadKey (flat []) .cs 0x83) ∧
    selReadable (flat []) 0x83 ∧ isCode (descAt (flat []) 0x83) = true :=
  ⟨wf_of_rising (by decide +kernel), by decide +kernel⟩
theorem witness_FarLoadsComplete_real : farLoad .es [] .o16 .eax (.abs16 0x4000) = some (.les [] .o16 .eax (.abs16 0x4000)) ∧
    readFar { real [] with mem := cellsFrom 0x4000 [0x34, 0x12, 0, 0xF0] } [] .o16 (.abs16 0x4000) = .ok (0xF000, 0x1234) ∧
    admits (real []) (loadKey (real []) .es 0xF000) ∧ mode (real []) ≠ .protMode ∧
    (real []).eip.toNat + Instr.len (.les [] .o16 .eax (.abs16 0x4000)) ≤ 0xFFFFFFFF := by decide +kernel
theorem witness_FarLoadsComplete_prot : mode (flat []) = .protMode ∧ selReadable (flat []) 0x23 ∧ selNull 3 = true ∧
    farLoad .ss [] .o32 .esp (.ea32 .ebx .none) = some (.lss [] .o32 .esp (.ea32 .ebx .none)) ∧
    readFar (flat [] [0, 0x30, 0, 0, 0x23, 0]) [] .o32 (.ea32 .ebx .none) = .ok (0x23, 0x3000) ∧
    readFar (flat [] [0, 0x30, 0, 0, 3, 0]) [] .o32 (.ea32 .ebx .none) = .ok (3, 0x3000) ∧
    (∀ r ∈ [SegName.es, .ss, .ds, .fs, .gs], admits (flat []) (loadKey (flat []) r 0x23) ∧ admits (flat []) (loadKey (flat []) r 3)) ∧
    (flat []).eip.toNat + Instr.len (.lss [] .o32 .esp (.ea32 .ebx .none)) ≤ 0xFFFFFFFF := by decide +kernel
theorem witness_InvalidFormsRaiseSix : invalidForm (.invFf7 [] (.reg .eax)) = true ∧ MemoryCanonical (real []) ∧
    RealReady (real []) 6 := by decide +kernel
/-- `AccessCheck` refuses the first read of DIV byte [EBX]. -/
def readDenied : State :=
  { flat [] with pins := { Pins.quiet with denials := [{ key := dataKey (flat []) .ds 0x4000 1, vector := .pageFault, err := 0 }] } }
theorem witness_OperandDenialFaults : firstRead (.divRm8 [] (.mem (.ea32 .ebx .none))) = some ([], .ea32 .ebx .none, 1) ∧
    accessDenial readDenied (dataKey readDenied (eaSeg [] (.ea32 .ebx .none)) (eaOff readDenied (.ea32 .ebx .none)) 1) =
      some { key := dataKey (flat []) .ds 0x4000 1, vector := .pageFault, err := 0 } := by decide +kernel
/-- `AccessCheck` refuses one access of the machine `flat`, or `real`. -/
def refusing (s : State) (key : AccessKey) : State :=
  { s with pins := { Pins.quiet with denials := [{ key := key, vector := .stackFault, err := 0 }] } }
theorem witness_OperandDenialFaults_second : firstRead (.bound [] .o32 .eax (.ea32 .ebx .none)) = some ([], .ea32 .ebx .none, 4) ∧
    secondRead (.bound [] .o32 .eax (.ea32 .ebx .none)) = some ([], .ea32 .ebx .none, 4, 4) ∧
    secondRead (.les [] .o16 .eax (.ea32 .ebx .none)) = some ([], .ea32 .ebx .none, 2, 2) ∧
    admits (refusing (flat []) (dataKey (flat []) .ds 0x4004 4)) (dataKey (flat []) .ds 0x4000 4) ∧
    (accessDenial (refusing (flat []) (dataKey (flat []) .ds 0x4004 4)) (dataKey (flat []) .ds 0x4004 4)).isSome = true := by
  decide +kernel
/-- The push of a near CALL, and each of the two of a far CALL. -/
theorem witness_OperandDenialFaults_push : (flat []).eip.toNat + Instr.len (.callRel [] (.rel32 0)) ≤ 0xFFFFFFFF ∧
    (accessDenial (refusing (flat []) (slotKey 0x2000 0 .o32 0)) (slotKey 0x2000 0 .o32 0)).isSome = true ∧
    readOpndZ (refusing (flat []) (slotKey 0x2000 0 .o32 0)) [] .o32 (.reg .eax) = .ok 0 ∧
    (real []).eip.toNat + Instr.len (.callFar [] (.ptr16 0 0)) ≤ 0xFFFFFFFF ∧
    farTarget (Origin.ofInstr (real [])) (real []) 0 = .ok .segment ∧
    admits (refusing (real []) (slotKey 0x2000 0 .o16 1)) (slotKey 0x2000 0 .o16 0) ∧
    (accessDenial (refusing (real []) (slotKey 0x2000 0 .o16 1)) (slotKey 0x2000 0 .o16 1)).isSome = true := by
  decide +kernel
/-- The load of a segment register by a far transfer and by LES. -/
theorem witness_OperandDenialFaults_load :
    (∀ j < 2, admits (refusing (real []) (loadKey (real []) .cs 0)) (slotKey 0x2000 0 .o16 j)) ∧
    (accessDenial (refusing (real []) (loadKey (real []) .cs 0)) (loadKey (real []) .cs 0)).isSome = true ∧
    farLoad .es [] .o16 .eax (.abs16 0x4000) = some (.les [] .o16 .eax (.abs16 0x4000)) ∧
    readFar (refusing (real []) (loadKey (real []) .es 0)) [] .o16 (.abs16 0x4000) = .ok (0, 0) ∧
    (accessDenial (refusing (real []) (loadKey (real []) .es 0)) (loadKey (real []) .es 0)).isSome = true := by
  decide +kernel
theorem witness_EipOverflowRefused : 0xFFFFFFFF < ({ flat [] with eip := 0xFFFFFFFF }).eip.toNat + Instr.len (.int3 []) ∧
    0xFFFFFFFF < ({ flat [] with eip := 0xFFFFFFFF }).eip.toNat + Instr.len (.into []) ∧
    0xFFFFFFFF < ({ flat [] with eip := 0xFFFFFFFE }).eip.toNat + Instr.len (.jmpRel8 [] .o32 0) ∧
    0xFFFFFFFF < ({ flat [] with eip := 0xFFFFFFFB }).eip.toNat + Instr.len (.jmpRel [] (.rel32 0)) ∧
    0xFFFFFFFF < ({ flat [] with eip := 0xFFFFFFFB }).eip.toNat + Instr.len (.callRel [] (.rel32 0)) ∧
    0xFFFFFFFF < ({ flat [] with eip := 0xFFFFFFFE }).eip.toNat + Instr.len (.callRm [] .o32 (.reg .eax)) ∧
    readOpndZ { flat [] with eip := 0xFFFFFFFE } [] .o32 (.reg .eax) = .ok 0 := by decide +kernel
/-- The first address at which a transfer of 7 bytes, and one of 2 bytes, is refused, with far pointers to 28h and 80h. -/
def topFar (data : List Byte) (eip : Word) : State := { flat [] data with eip := eip }
theorem witness_EipOverflowRefused_far :
    farTarget (Origin.ofInstr (topFar [] 0xFFFFFFF9)) (topFar [] 0xFFFFFFF9) (FarPtr.sel (.ptr32 0 0x80)) = .ok .segment ∧
    farTarget (Origin.ofInstr (topFar [] 0xFFFFFFF9)) (topFar [] 0xFFFFFFF9) (FarPtr.sel (.ptr32 0 0x28)) = .ok (.task 0x28) ∧
    0xFFFFFFFF < (topFar [] 0xFFFFFFF9).eip.toNat + Instr.len (.callFar [] (.ptr32 0 0x80)) ∧
    0xFFFFFFFF < (topFar [] 0xFFFFFFF9).eip.toNat + Instr.len (.jmpFar [] (.ptr32 0 0x28)) ∧
    readFar (topFar [0, 0, 0, 0, 0x28, 0] 0xFFFFFFFE) [] .o32 (.ea32 .ebx .none) = .ok (0x28, 0) ∧
    farTarget (Origin.ofInstr (topFar [0, 0, 0, 0, 0x28, 0] 0xFFFFFFFE)) (topFar [0, 0, 0, 0, 0x28, 0] 0xFFFFFFFE) 0x28 =
      .ok (.task 0x28) ∧
    0xFFFFFFFF < (topFar [] 0xFFFFFFFE).eip.toNat + Instr.len (.callFarM [] .o32 (.ea32 .ebx .none)) ∧
    0xFFFFFFFF < (topFar [] 0xFFFFFFFE).eip.toNat + Instr.len (.jmpFarM [] .o32 (.ea32 .ebx .none)) := by decide +kernel
theorem witness_EipOverflowRefused_divide : readOpnd8 (regs 0x6FF 0 7 0xFFFFFFFE) [] (.reg .cl) = .ok 7 ∧
    ((regs 0x6FF 0 7 0xFFFFFFFE).reg16 .eax).toNat = 255 * (7 : Word).toNat + 6 ∧ 6 < (7 : Word).toNat ∧ 255 < 2 ^ 8 ∧
    0xFFFFFFFF < (regs 0x6FF 0 7 0xFFFFFFFE).eip.toNat + Instr.len (.divRm8 [] (.reg .cl)) ∧
    readOpnd8 (regs 0xFEFF 0 2 0xFFFFFFFE) [] (.reg .cl) = .ok 2 ∧
    truncatedDivision ((regs 0xFEFF 0 2 0xFFFFFFFE).reg16 .eax).toInt ((2 : Word).setWidth 8).toInt (-128) (-1) ∧
    0xFFFFFFFF < (regs 0xFEFF 0 2 0xFFFFFFFE).eip.toNat + Instr.len (.idivRm8 [] (.reg .cl)) ∧
    readOpndZ (regs 0xFFFF 6 7 0xFFFFFFFE) [] .o16 (.reg .ecx) = .ok 7 ∧
    0xFFFFFFFF < (regs 0xFFFF 6 7 0xFFFFFFFE).eip.toNat + Instr.len (.divRm [] .o16 (.reg .ecx)) ∧
    0xFFFFFFFF < (regs 0xFFFF 6 7 0xFFFFFFFE).eip.toNat + Instr.len (.idivRm [] .o16 (.reg .ecx)) ∧
    readOpndZ (regs 0xFFFFFFFF 6 7 0xFFFFFFFE) [] .o32 (.reg .ecx) = .ok 7 ∧
    0xFFFFFFFF < (regs 0xFFFFFFFF 6 7 0xFFFFFFFE).eip.toNat + Instr.len (.divRm [] .o32 (.reg .ecx)) ∧
    0xFFFFFFFF < (regs 0xFFFFFFFF 6 7 0xFFFFFFFE).eip.toNat + Instr.len (.idivRm [] .o32 (.reg .ecx)) := by decide +kernel
theorem witness_EipOverflowRefused_rest :
    readEA (topFar [0, 0, 0, 0, 9, 0, 0, 0] 0xFFFFFFFE) [] (.ea32 .ebx .none) 0 4 = .ok 0 ∧
    readEA (topFar [0, 0, 0, 0, 9, 0, 0, 0] 0xFFFFFFFE) [] (.ea32 .ebx .none) 4 4 = .ok 9 ∧
    signedZ .o32 0 ≤ signedZ .o32 ((topFar [] 0xFFFFFFFE).reg .eax) ∧ signedZ .o32 ((topFar [] 0xFFFFFFFE).reg .eax) ≤ signedZ .o32 9 ∧
    0xFFFFFFFF < (topFar [] 0xFFFFFFFE).eip.toNat + Instr.len (.bound [] .o32 .eax (.ea32 .ebx .none)) ∧
    ¬ ((topFar [] 0xFFFFFFFF).cr0MP = true ∧ (topFar [] 0xFFFFFFFF).cr0TS = true) ∧
    (topFar [] 0xFFFFFFFF).pins.npxError = false ∧ (topFar [] 0xFFFFFFFF).pins.npxBusy = false ∧
    0xFFFFFFFF < (topFar [] 0xFFFFFFFF).eip.toNat + Instr.len (.wait []) ∧
    readFar (topFar [0, 0, 0, 0, 0x23, 0] 0xFFFFFFFE) [] .o32 (.ea32 .ebx .none) = .ok (0x23, 0) ∧
    loadSegment (Origin.ofInstr (topFar [0, 0, 0, 0, 0x23, 0] 0xFFFFFFFE)) (topFar [0, 0, 0, 0, 0x23, 0] 0xFFFFFFFE) .es 0x23 =
      .ok (segOfDesc 0x23 (descAt (flat []) 0x23)) ∧
    farLoad .es [] .o32 .eax (.ea32 .ebx .none) = some (.les [] .o32 .eax (.ea32 .ebx .none)) ∧
    0xFFFFFFFF < (topFar [] 0xFFFFFFFE).eip.toNat + Instr.len (.les [] .o32 .eax (.ea32 .ebx .none)) := by decide +kernel

/-! #### Invariants and whole-machine rules -/

theorem witness_StepKeepsInvariants : MemoryCanonical (flat [0xE8, 0x0B, 0, 0, 0]) ∧ FlagsCanonical (flat [0xE8, 0x0B, 0, 0, 0]) ∧
    Settled (flat [0xE8, 0x0B, 0, 0, 0]) ∧ ∃ t, step (flat [0xE8, 0x0B, 0, 0, 0]) = .next t :=
  ⟨wf_of_rising (by decide +kernel), by decide +kernel, by decide +kernel, next_of (by decide +kernel)⟩
theorem witness_PrivilegeKept : (flat []).switched = none ∧ ∃ t, exec (.callFar [] (.ptr32 0x5000 0x80)) (flat []) = .next t ∧
    t.reported = (flat []).reported ∧ t.switched = none :=
  ⟨by decide +kernel, next_of_and (f := fun t => decide (t.reported = (flat []).reported ∧ t.switched = none))
    (fun _ h => of_decide_eq_true h) (by decide +kernel)⟩
theorem witness_PrivilegeKept_jmp : mode (flat []) = .protMode ∧ ∃ t, exec (.jmpFar [] (.ptr32 0x5000 0x80)) (flat []) = .next t ∧
    t.reported = (flat []).reported ∧ t.switched = none :=
  ⟨by decide +kernel, next_of_and (f := fun t => decide (t.reported = (flat []).reported ∧ t.switched = none))
    (fun _ h => of_decide_eq_true h) (by decide +kernel)⟩
theorem witness_VectorsByInstruction : ∃ t, exec (.int3 []) (real []) = .next t ∧ t.reported ≠ (real []).reported :=
  next_of_and (f := fun t => decide (t.reported ≠ (real []).reported)) (fun _ h => of_decide_eq_true h) (by decide +kernel)
theorem witness_SystemRegistersKept : (flat []).switched = none ∧ ∃ t, exec (.into []) (flat []) = .next t ∧
    t.reported = [] ++ (flat []).reported ∧ t.switched = none :=
  ⟨by decide +kernel, next_of_and (f := fun t => decide (t.reported = [] ++ (flat []).reported ∧ t.switched = none))
    (fun _ h => of_decide_eq_true h) (by decide +kernel)⟩
/-- The store that wraps at the top of the address space is among those the statement covers; no other agent is writing. -/
theorem witness_StoresAndLoads : MemoryCanonical (flat []) ∧ (flat []).cr0PG = false ∧ 4 ≤ 4 ∧ Alone (flat []) ∧
    readLin (store (flat []) 0xFFFFFFFE 4 0x12345678) 0xFFFFFFFE 4 = 0x12345678 :=
  ⟨wf_of_rising (by decide +kernel), by decide +kernel⟩
/-- Another agent is writing to 00004000h, which a load there may see, and a store to 00004001h leaves alone. -/
theorem witness_StoresAndLoads_amid : (phys underWay (0x4000 + BitVec.ofNat 32 0), 7) ∈ underWay.amid ∧
    ∀ k < 1, 0x4000 ≠ phys underWay (0x4001 + BitVec.ofNat 32 k) := by decide +kernel

end Sys2Proof.Machine
end

section
/-! What an instruction and a step can do, said once, and the statements about the whole machine that follow: what no
instruction writes (R15, R27), what every step keeps (R14, R31), when a step runs the decoded instruction (R12), and
shutdown (R32). -/

namespace Sys2Proof.Machine

/-! ### What the delivery of an event records -/

/-- An event carries a linear address only when it is a page fault (R135). -/
abbrev AddressOfPageFault (e : Event) : Prop := e.faultAddr ≠ none → e.vector = 14

/-- Between `s` and `t` events were reported, and CR2 changed only if one of them is a page fault. -/
def Recorded (s t : State) : Prop :=
  ∃ l, t.reported = l ++ s.reported ∧ ((∀ e ∈ l, e.vector ≠ 14) → t.cr2 = s.cr2)

theorem Evolves.recorded {s t : State} (h : Evolves s t) : Recorded s t := ⟨[], h.reported, fun _ => h.cr2⟩

theorem Recorded.trans {a b c : State} (h : Recorded a b) (k : Recorded b c) : Recorded a c := by
  obtain ⟨l, hl, h2⟩ := h
  obtain ⟨m, hm, k2⟩ := k
  refine ⟨m ++ l, by rw [hm, hl, List.append_assoc], fun h => ?_⟩
  rw [k2 fun e he => h e (List.mem_append_left _ he), h2 fun e he => h e (List.mem_append_right _ he)]

theorem recorded_report {e : Event} (ha : AddressOfPageFault e) (s : State) : Recorded s (report e s) := by
  refine ⟨[e], rfl, fun h => ?_⟩
  have hn : e.faultAddr = none := by_contra fun hf => h e (List.mem_singleton_self e) (ha hf)
  rw [report, hn]
  rfl

theorem addressOfPageFault_doubleFault (n : Nat) : AddressOfPageFault (doubleFault n) := absurd rfl

theorem Delivered.recorded {e : Event} {s t : State} (h : Delivered e s t) (ha : AddressOfPageFault e) :
    Recorded (report e s) t := by
  induction h with
  | entered h => exact (invokeHandler_ok h).recorded
  | shutdown h8 h => exact (invokeHandler_raised h).1.recorded
  | second h8 h hd k ih =>
    obtain ⟨hc, h2⟩ := invokeHandler_raised h
    exact hc.recorded.trans ((recorded_report h2.addr _).trans (ih h2.addr))
  | double h8 h hd k ih =>
    have hn := addressOfPageFault_doubleFault
    exact ((invokeHandler_raised h).1.trans (evolves_abortState 8 _)).recorded.trans
      ((recorded_report (hn _) _).trans (ih (hn _)))

theorem Delivered.reported_length_lt {e : Event} {s t : State} (h : Delivered e s t) (ha : AddressOfPageFault e) :
    s.reported.length < t.reported.length := by
  obtain ⟨l, hl, -⟩ := h.recorded ha
  simp only [hl, report, List.length_append, List.length_cons]
  omega

/-! ### What an instruction can do -/

theorem yields_ownFault {s : State} {V : Event → State → Prop} {v : BitVec 8} (h : V (faultOf v s) s) :
    Yields s V (Evolves s) (.error ((Origin.ofInstr s).fault v none)) :=
  ⟨Evolves.refl s, h⟩

/-- Every instruction is the completion of an operation below it, of which `Yields` says what it keeps and what it raises,
or the report of its own trap. -/
theorem exec_yields (i : Instr) {s : State} {V : Event → State → Prop} (hv : Reports (Origin.ofInstr s) V)
    (own : ∀ v, ownVector i = some v → V (faultOf v s) s) :
    (∃ r, exec i s = complete r ∧ Yields s V (Evolves s) r) ∨
      ∃ v, ownVector i = some v ∧ exec i s = raiseTrap v (Instr.len i) s := by
  cases i with
  | divRm8 pre src =>
    exact .inl ⟨_, rfl, (yields_readOpnd8 hv pre src).bind fun d _ => yields_divide (own 0 rfl) _ _ _ d⟩
  | idivRm8 pre src =>
    exact .inl ⟨_, rfl, (yields_readOpnd8 hv pre src).bind fun d _ => yields_divide (own 0 rfl) _ _ _ d⟩
  | divRm pre z src =>
    exact .inl ⟨_, rfl, (yields_readOpndZ hv pre z src).bind fun d _ => yields_divide (own 0 rfl) _ _ _ d⟩
  | idivRm pre z src =>
    exact .inl ⟨_, rfl, (yields_readOpndZ hv pre z src).bind fun d _ => yields_divide (own 0 rfl) _ _ _ d⟩
  | int3 pre => exact .inr ⟨3, rfl, rfl⟩
  | into pre =>
    by_cases ho : s.flagOF = true
    · exact .inr ⟨4, rfl, if_pos ho⟩
    · exact .inl ⟨_, if_neg ho, yields_advance (Evolves.refl s) _⟩
  | bound pre z idx m => exact .inl ⟨_, rfl, yields_boundCheck hv (own 5 rfl) pre z idx m _⟩
  | esc => exact .inl ⟨_, rfl, yields_escape (own 7 rfl)⟩
  | wait => exact .inl ⟨_, rfl, yields_waitFor (own 7 rfl) _⟩
  | jmpRel8 => exact .inl ⟨_, rfl, yields_jmpRelative _ _ _⟩
  | jmpRel => exact .inl ⟨_, rfl, yields_jmpRelative _ _ _⟩
  | jmpRm => exact .inl ⟨_, rfl, yields_jmpIndirect hv _ _ _⟩
  | jmpFar => exact .inl ⟨_, rfl, yields_jmpFarTo hv _ _⟩
  | jmpFarM pre z m => exact .inl ⟨_, rfl, (yields_readFar hv pre z m).bind fun p _ => yields_jmpFarTo hv _ p⟩
  | callRel => exact .inl ⟨_, rfl, yields_callRelative hv _ _ _⟩
  | callRm => exact .inl ⟨_, rfl, yields_callIndirect hv _ _ _ _⟩
  | callFar => exact .inl ⟨_, rfl, yields_callFarTo hv _ _ _⟩
  | callFarM pre z m => exact .inl ⟨_, rfl, (yields_readFar hv pre z m).bind fun p _ => yields_callFarTo hv z _ p⟩
  | les | lds | lss | lfs | lgs => exact .inl ⟨_, rfl, yields_loadFar hv _ _ _ _ _ _⟩
  | invJmpFarReg | invLesReg | invCallFarReg | invLdsReg | invLssReg | invLfsReg | invLgsReg | invBoundReg | invFf7 =>
    exact .inl ⟨_, rfl, yields_ownFault (own 6 rfl)⟩

theorem complete_next {r : Res State} {t : State} (h : complete r = .next t) :
    r = .ok t ∨ ∃ e c, r = .error (.raised e c) ∧ Delivered e c t := by
  rcases r with (⟨e, c⟩ | x) | u
  · exact .inr ⟨e, c, rfl, delivered h⟩
  · cases h
  · exact .inl (congrArg _ (Host.Outcome.next.inj h))

theorem advance_err {s : State} {n : Nat} (h : 0xFFFFFFFF < s.eip.toNat + n) :
    advance s n = .error (.refused .eipOverflow) := by
  rw [advance, nextEip_err h]

theorem raiseTrap_err {v : BitVec 8} {s : State} {n : Nat} (h : 0xFFFFFFFF < s.eip.toNat + n) :
    raiseTrap v n s = .refused .eipOverflow := by
  rw [raiseTrap, advance_err h]
  rfl

/-- A software trap is taken at the next instruction, with RF clear (R112, R117). -/
theorem raiseTrap_next {v : BitVec 8} {n : Nat} {s t : State} (h : raiseTrap v n s = .next t) :
    ∃ u, advance s n = .ok u ∧ Delivered (eventAt v .trap u) (clearRF u) t := by
  rcases Nat.lt_or_ge 0xFFFFFFFF (s.eip.toNat + n) with hn | hn
  · rw [raiseTrap_err hn] at h
    cases h
  · rw [raiseTrap, advance_ok hn] at h
    exact ⟨_, advance_ok hn, delivered h⟩

theorem evolves_clearRF (s : State) : Evolves s (clearRF s) :=
  evolves_eflags s fun h => flagsWf_setBit h false (i := 16) (by decide) (by decide) (by decide) (by decide) (by decide)

/-- What an instruction that answers a next state does: it completes without an event, or an event is delivered. -/
theorem exec_next {i : Instr} {s t : State} (h : exec i s = .next t) :
    Evolves s t ∨ ∃ e c, Evolves s c ∧ AddressOfPageFault e ∧ Delivered e c t := by
  have hv : Reports (Origin.ofInstr s) fun e _ => AddressOfPageFault e :=
    ⟨fun _ _ _ _ _ ha => ha, fun _ _ _ _ _ _ _ ha => ha⟩
  rcases exec_yields i hv fun _ _ ha => absurd rfl ha with ⟨r, hr, hy⟩ | ⟨v, -, hr⟩
  · rcases complete_next (hr.symm.trans h) with rfl | ⟨e, c, rfl, hd⟩
    · exact .inl hy
    · exact .inr ⟨e, c, hy.1, hy.2, hd⟩
  · obtain ⟨u, hu, hd⟩ := raiseTrap_next (hr.symm.trans h)
    have ha : Evolves s u := (yields_advance (V := fun _ _ => True) (Evolves.refl s) _).ok hu
    exact .inr ⟨_, _, ha.trans (evolves_clearRF u), fun x => absurd rfl x, hd⟩

theorem exec_kept {i : Instr} {s t : State} (h : exec i s = .next t) : Kept s t := by
  rcases exec_next h with h | ⟨e, c, hc, -, hd⟩
  · exact h.kept
  · exact hc.kept.trans hd.kept

theorem exec_recorded {i : Instr} {s t : State} (h : exec i s = .next t) : Recorded s t := by
  rcases exec_next h with h | ⟨e, c, hc, ha, hd⟩
  · exact h.recorded
  · exact hc.recorded.trans ((recorded_report ha c).trans (hd.recorded ha))

theorem exec_noEvent {i : Instr} {s t : State} (h : exec i s = .next t) (hr : t.reported.length = s.reported.length) :
    Evolves s t := by
  rcases exec_next h with h | ⟨e, c, hc, ha, hd⟩
  · exact h
  · exact absurd (hc.reported ▸ hr) (hd.reported_length_lt ha).ne'

/-- Settles O59: an instruction keeps what `exec_kept` lists, and CR2 as `exec_recorded` says. -/
theorem systemRegistersKept : Obligations.SystemRegistersKept := by
  unfold Obligations.SystemRegistersKept
  intro i s t h
  have k := exec_kept h
  obtain ⟨l, hl, h2⟩ := exec_recorded h
  exact ⟨k.gdtr, k.idtr, k.dr, k.debugTrap, k.tr6, k.tr7, k.pins, k.halted, k.nmiBlocked, k.cr0,
    fun hp => h2 (hp l hl), fun _ hs => (k.task hs).2⟩

/-! ### What a step can do -/

/-- Nothing is being delivered, and the machine has not shut down (R31). -/
abbrev Awake (s : State) : Prop := s.shutdown = false ∧ s.delivering = none

/-- Nothing is being delivered, or the machine has shut down and remembers the double fault (R31, R128). -/
abbrev Resting (s : State) : Prop := s.delivering = if s.shutdown then some 8 else none

/-- From `s` to `t` the parts of a step keep the forms of memory and EFLAGS and add no write of another agent, and begun
with nothing being delivered they end in `D`. -/
structure Carries (D : State → Prop) (s t : State) : Prop where
  mem : MemoryCanonical s → MemoryCanonical t
  flags : FlagsCanonical s → FlagsCanonical t
  amid : ∀ c ∈ t.amid, c ∈ s.amid
  ends : Awake s → D t

theorem Awake.resting {s : State} (h : Awake s) : Resting s := by rw [Resting, h.1, h.2]; rfl

theorem Carries.trans {D : State → Prop} {a b c : State} (h : Carries Awake a b) (k : Carries D b c) : Carries D a c :=
  ⟨k.mem ∘ h.mem, k.flags ∘ h.flags, fun x hx => h.amid x (k.amid x hx), k.ends ∘ h.ends⟩

theorem Carries.resting {s t : State} (h : Carries Awake s t) : Carries Resting s t :=
  ⟨h.mem, h.flags, h.amid, fun hs => (h.ends hs).resting⟩

theorem Evolves.carries {s t : State} (h : Evolves s t) : Carries Awake s t :=
  ⟨h.mem, h.flags, h.amid, fun ⟨hs, hd⟩ => ⟨h.shutdown.trans hs, h.delivering.trans hd⟩⟩

/-- A delivery ends with the handler entered, or with the machine shut down while the double fault was delivered. -/
theorem Delivered.resting {e : Event} {s t : State} (h : Delivered e s t) (hs : s.shutdown = false) : Resting t := by
  induction h with
  | entered h =>
    have hn := (invokeHandler_ok h).shutdown.trans hs
    simp [Resting, hn]
  | shutdown h8 h =>
    have h8 := (invokeHandler_raised h).1.delivering.trans (congrArg some h8)
    simp [Resting, h8]
  | second h8 h hd k ih => exact ih ((invokeHandler_raised h).1.shutdown.trans hs)
  | double h8 h hd k ih => exact ih (((invokeHandler_raised h).1.trans (evolves_abortState 8 _)).shutdown.trans hs)

theorem Delivered.carries {e : Event} {s t : State} (h : Delivered e s t) : Carries Resting s t :=
  ⟨h.kept.mem, h.kept.flags, h.kept.amid, fun hs => h.resting hs.1⟩

theorem exec_carries {i : Instr} {s t : State} (h : exec i s = .next t) : Carries Resting s t := by
  rcases exec_next h with h | ⟨e, c, hc, -, hd⟩
  · exact h.carries.resting
  · exact hc.carries.trans hd.carries

theorem carries_settle {c : DebugCond} {s t : State} (h : Carries Resting s t) : Carries Resting s (settle c t) :=
  ⟨h.mem, h.flags, h.amid, h.ends⟩

/-- The delivery of an event from `b`, which holds memory, EFLAGS and the state of deliveries as `s` does. -/
theorem carries_afterDelivery {e : Event} {s b t : State} (hb : Carries Awake s b)
    (h : afterDelivery (deliver e b) = .next t) : Carries Resting s t := by
  cases hd : deliver e b with
  | next u =>
    rw [hd] at h
    cases h
    exact carries_settle (hb.trans (delivered hd).carries)
  | fault r => rw [hd] at h; cases h
  | refused r => rw [hd] at h; cases h

theorem carries_reportDebug {s b t : State} {cls : EventClass} {c : DebugCond} (hb : Carries Awake s b)
    (h : afterDelivery (reportDebug cls c b) = .next t) : Carries Resting s t :=
  carries_afterDelivery (b := noteDebug c b) ⟨hb.mem, hb.flags, hb.amid, hb.ends⟩ h

theorem carries_finishInstr {i : Instr} {s t : State} (h : finishInstr s i (exec i (beginInstr s)) = .next t) :
    Carries Resting s t := by
  have hb : Carries Awake s (beginInstr s) := ⟨id, id, fun _ => id, id⟩
  cases hx : exec i (beginInstr s) with
  | fault r => rw [hx] at h; cases h
  | refused r => rw [hx] at h; cases h
  | next u =>
    rw [hx] at h
    simp only [finishInstr] at h
    split at h
    · cases h
      exact carries_settle (hb.trans (exec_carries hx))
    · rename_i hr
      have hu : Evolves (beginInstr s) u := exec_noEvent hx (not_not.1 hr)
      have hc : Evolves (beginInstr s) (if u.switched = none then clearRF u else u) := by
        split
        · exact hu.trans (evolves_clearRF u)
        · exact hu
      have hw := hb.trans hc.carries
      have he : Carries Awake s { (if u.switched = none then clearRF u else u) with switched := none } :=
        ⟨hw.mem, hw.flags, hw.amid, hw.ends⟩
      split at h
      · exact carries_reportDebug he h
      · cases h
        exact he.resting

/-! ### The fetch -/

theorem yields_fetchWindow {s : State} {V : Event → State → Prop} (hv : Reports (Origin.ofInstr s) V) (n : Nat)
    (off : Word) (x : Stop) (h : (fetchWindow s n off).2 = some x) :
    Yields s V (fun _ : Instr => True) (.error x) := by
  induction n generalizing off with
  | zero => cases h
  | succ n ih =>
    have hc := yields_check (o := Origin.ofInstr s) (Evolves.refl s) hv s (fetchKey s off) (s.lin .cs off)
    rw [fetchWindow] at h
    split at h
    · rename_i e he
      cases h
      rw [he] at hc
      cases x <;> exact hc
    · split at h
      · cases h
        trivial
      · exact ih (off + 1) h

theorem yields_fetchInstr {s : State} {V : Event → State → Prop} (hv : Reports (Origin.ofInstr s) V) :
    Yields s V (fun _ => True) (fetchInstr s) := by
  unfold fetchInstr decodeWindow
  split
  · trivial
  · trivial
  · split
    · exact yields_fetchWindow hv _ _ _ (by assumption)
    · exact ⟨Evolves.refl s, hv.here 13 0 none (by decide) (fun _ => rfl) (absurd rfl)⟩

theorem carries_runNext {s t : State} (h : runNext s = .next t) : Carries Resting s t := by
  have hv : Reports (Origin.ofInstr s) fun _ _ => True := ⟨fun _ _ _ _ _ _ => trivial, fun _ _ _ _ _ _ _ _ => trivial⟩
  have hf := yields_fetchInstr hv
  unfold runNext at h
  split at h
  · unfold runInstr at h
    split at h
    · cases h
      exact (Evolves.refl s).carries.resting
    · exact carries_finishInstr h
  · rename_i x hx
    rw [hx] at hf
    cases x with
    | raised e c => exact carries_afterDelivery hf.1.carries h
    | refused r => cases h

theorem carries_nextEvent {s t : State} (h : nextEvent s = .next t) : Carries Resting s t := by
  unfold nextEvent at h
  split at h
  · refine carries_reportDebug ?_ h
    exact ⟨id, id, fun _ => id, id⟩
  · split at h
    · refine carries_reportDebug ?_ h
      exact ⟨id, id, fun _ => id, id⟩
    · split at h
      · refine carries_afterDelivery ?_ h
        exact ⟨id, id, fun _ => id, id⟩
      · unfold intrOrRun at h
        split at h
        · refine carries_afterDelivery ?_ h
          exact ⟨id, id, fun _ => id, id⟩
        · split at h
          · cases h
            exact (Evolves.refl s).carries.resting
          · exact carries_runNext h

/-- How a step that answers a next state comes to it: the RESET input; the writes of other agents before it; or what is due
next, among the writes of other agents or without them. -/
theorem step_next {s t : State} (h : step s = .next t) :
    t = s.afterReset ∨
    s.shutdown = false ∧
      (t = s.takeExternal ∨ (∃ u, nextEvent s.openStep = .next u ∧ t = u.closeStep) ∨ nextEvent s = .next t) := by
  unfold step at h
  split at h
  · cases h
    exact .inl rfl
  · split at h
    · cases h
    · rename_i hs
      refine .inr ⟨Bool.eq_false_iff.2 hs, ?_⟩
      split at h
      · cases h
        exact .inl rfl
      · split at h
        · exact .inr (.inl (landRest_next h))
        · exact .inr (.inr h)

/-- Settles O53: every part of a step keeps the fixed bits (`Carries.flags`), and RESET sets them. -/
theorem stepKeepsFixedFlags : Obligations.StepKeepsFixedFlags := by
  unfold Obligations.StepKeepsFixedFlags
  intro s t hs h
  rcases step_next h with rfl | ⟨-, rfl | ⟨u, hu, rfl⟩ | hn⟩
  · exact (by decide : flagsWf 0x00000002)
  · exact hs
  · exact (carries_nextEvent hu).flags hs
  · exact (carries_nextEvent hn).flags hs

/-- Settles O54: what is due in an awake machine leaves it resting (`Carries.ends`), and the writes of other agents end with
the step. -/
theorem stepSettlesDelivery : Obligations.StepSettlesDelivery := by
  unfold Obligations.StepSettlesDelivery
  intro s t ⟨hd, ha⟩ h
  rcases step_next h with rfl | ⟨hs, hn⟩
  · exact ⟨rfl, rfl⟩
  · have hw : Awake s := ⟨hs, by rw [hd, hs]; rfl⟩
    rcases hn with rfl | ⟨u, hu, rfl⟩ | hn
    · exact ⟨hd, ha⟩
    · exact ⟨(carries_nextEvent hu).ends hw, rfl⟩
    · exact ⟨(carries_nextEvent hn).ends hw,
        List.eq_nil_iff_forall_not_mem.2 fun c hc => by simpa [ha] using (carries_nextEvent hn).amid c hc⟩

/-! ### The step of a decoded instruction, and shutdown -/

theorem fetchInstr_of_decode {s : State} {i : Instr} {rest : List Byte}
    (h : decode (codeBig s) (window s).1 = .ok i rest) : fetchInstr s = .ok i := by
  simp only [fetchInstr, decodeWindow, h]

theorem finishInstr_quiet {s t : State} {i : Instr} (hr : t.reported = s.reported)
    (hc : (trapConds s i t).any = false) :
    finishInstr s i (.next t) = .next { (if t.switched = none then clearRF t else t) with switched := none } := by
  simp [finishInstr, hr, hc]

/-- Settles O9: an undisturbed step fetches the decoded instruction and finishes its `exec`. -/
theorem stepRunsDecoded : Obligations.StepRunsDecoded := by
  unfold Obligations.StepRunsDecoded
  intro s i rest hu hd hw
  have hs : step s = finishInstr s i (exec i (beginInstr s)) := by
    simp only [step_undisturbed hu, runNext, fetchInstr_of_decode hd, runInstr, hw]
    rfl
  exact ⟨hs, fun t ht hr hc => by rw [hs, ht, finishInstr_quiet hr hc]⟩

/-- Settles O11: `step` asks for RESET first and then for shutdown. -/
theorem shutdownUntilReset : Obligations.ShutdownUntilReset := by
  unfold Obligations.ShutdownUntilReset
  intro s hs
  exact ⟨fun hr => by simp [step, hr, hs], fun hr => ⟨s.afterReset, by simp [step, hr], rfl⟩⟩

end Sys2Proof.Machine
end

section
/-! The refusal of an instruction whose next address passes FFFFFFFFh (R12, D3), and when a division has a quotient that
fits (R75 to R77). -/

namespace Sys2Proof.Machine

/-! ### Divisions without a divide error -/

theorem divisor_ne_zero_of_truncatedDivision {n v q r : Int} (h : truncatedDivision n v q r) : v ≠ 0 :=
  abs_pos.1 ((abs_nonneg r).trans_lt h.2.1)

/-- Quotient and remainder of R77 are unique. -/
theorem tdiv_tmod_of_truncatedDivision {n v q r : Int} (h : truncatedDivision n v q r) : n.tdiv v = q ∧ n.tmod v = r := by
  have hv := divisor_ne_zero_of_truncatedDivision h
  obtain ⟨he, hr, hp, hn⟩ := h
  rw [Int.abs_eq_natAbs, Int.abs_eq_natAbs] at hr
  have hs : r + v * q = n := by rw [he]; ring
  rcases le_total 0 n with h0 | h0
  · exact (Int.tdiv_tmod_unique h0 hv).2 ⟨hs, hp h0, by omega⟩
  · exact (Int.tdiv_tmod_unique' h0 hv).2 ⟨hs, by omega, hn h0⟩

theorem truncatedDivision_natCast {n v q r : Nat} (h : n = q * v + r) (hr : r < v) :
    truncatedDivision (n : Int) (v : Int) (q : Int) (r : Int) := by
  refine ⟨by rw [h]; push_cast; rfl, ?_, fun _ => Int.natCast_nonneg r, fun h0 => ?_⟩
  · rw [Nat.abs_cast, Nat.abs_cast]
    exact_mod_cast hr
  · omega

theorem quotientFits_unsigned {n q : Nat} (h : q < 2 ^ n) : quotientFits .unsigned n (q : Int) = true := by
  have : (q : Int) < 2 ^ n := by exact_mod_cast h
  exact decide_eq_true (by omega)

theorem quotientFits_signed {n : Nat} {q : Int} (hl : -2 ^ (n - 1) ≤ q) (hu : q ≤ 2 ^ (n - 1) - 1) :
    quotientFits .signed n q = true := by
  simp [quotientFits, hl, hu]

theorem divideError_eq_false {s : State} {sg : Signedness} {sz : DivSize} {d : Word} {q r : Int}
    (h : truncatedDivision (dividend s sg sz) (divisor sg sz d) q r) (hq : quotientFits sg sz.bits q = true) :
    divideError s sg sz d = false := by
  simp [divideError, divisor_ne_zero_of_truncatedDivision h, (tdiv_tmod_of_truncatedDivision h).1, hq]

theorem divided_eip (s : State) (sg : Signedness) (sz : DivSize) (d : Word) : (divided s sg sz d).eip = s.eip := by
  rcases sz with _ | (_ | _) <;> rfl

/-! ### Past FFFFFFFFh -/

theorem complete_bind_refused {α : Type} {r : Res α} {a : α} {f : α → Res State} {x : Refusal} (hr : r = .ok a)
    (hf : f a = .error (.refused x)) : complete (r >>= f) = .refused x := by
  rw [hr, bind_ok, hf]
  rfl

section
variable {s : State} {len : Nat} (h : 0xFFFFFFFF < s.eip.toNat + len)
include h

theorem nextEip_bind_err {α : Type} (f : Word → Res α) : nextEip s len >>= f = .error (.refused .eipOverflow) := by
  rw [nextEip_err h, bind_err]

theorem divide_overflow {sg : Signedness} {sz : DivSize} {d : Word} {q r : Int}
    (hd : truncatedDivision (dividend s sg sz) (divisor sg sz d) q r) (hq : quotientFits sg sz.bits q = true) :
    divide s sg sz len d = .error (.refused .eipOverflow) := by
  rw [divide, divideError_eq_false hd hq]
  exact advance_err (by rwa [divided_eip])

theorem divide_overflow_unsigned {sz : DivSize} {d : Word} {n q r : Nat} (hn : dividend s .unsigned sz = n)
    (he : n = q * d.toNat + r) (hr : r < d.toNat) (hq : q < 2 ^ sz.bits) :
    divide s .unsigned sz len d = .error (.refused .eipOverflow) :=
  divide_overflow h (hn ▸ truncatedDivision_natCast he hr) (quotientFits_unsigned hq)

theorem divide_overflow_signed {sz : DivSize} {d : Word} {q r : Int}
    (hd : truncatedDivision (dividend s .signed sz) (d.setWidth sz.bits).toInt q r)
    (hl : -2 ^ (sz.bits - 1) ≤ q) (hu : q ≤ 2 ^ (sz.bits - 1) - 1) :
    divide s .signed sz len d = .error (.refused .eipOverflow) :=
  divide_overflow h hd (quotientFits_signed hl hu)

theorem callFarTo_overflow {z : WSize} {ptr : Half × Word} {t : FarTarget}
    (ht : farTarget (Origin.ofInstr s) s ptr.1 = .ok t) : callFarTo z len s ptr = .error (.refused .eipOverflow) := by
  simp only [callFarTo, ht, bind_ok, nextEip_bind_err h]

theorem jmpFarTo_overflow {ptr : Half × Word} {tss : Half}
    (ht : farTarget (Origin.ofInstr s) s ptr.1 = .ok (.task tss)) :
    jmpFarTo len s ptr = .error (.refused .eipOverflow) := by
  simp only [jmpFarTo, ht, bind_ok, nextEip_bind_err h]

theorem boundCheck_overflow {pre : List Pfx} {z : WSize} {idx : Reg} {m : EA} {lower upper : Word}
    (hl : readEA s pre m 0 z.bytes = .ok lower) (hu : readEA s pre m z.bytes z.bytes = .ok upper)
    (hb : outOfBounds z (s.regZ z idx) lower upper = false) :
    boundCheck pre z idx m len s = .error (.refused .eipOverflow) := by
  simp [boundCheck, hl, hu, bind_ok, hb, advance_err h]

theorem waitFor_overflow (hm : ¬ (s.cr0MP = true ∧ s.cr0TS = true)) (he : s.pins.npxError = false)
    (hb : s.pins.npxBusy = false) : waitFor len s = .error (.refused .eipOverflow) := by
  simp [waitFor, State.monitorSwitched, hm, he, hb, advance_err h]

theorem loadFar_overflow {r : SegName} {pre : List Pfx} {z : WSize} {dst : Reg} {m : EA} {ptr : Half × Word} {g : SegReg}
    (hp : readFar s pre z m = .ok ptr) (hg : loadSegment (Origin.ofInstr s) s r ptr.1 = .ok g) :
    loadFar r pre z dst m len s = .error (.refused .eipOverflow) := by
  simp only [loadFar, hp, hg, bind_ok]
  exact advance_err (by simpa using h)

end

/-- BOUND compares the index register at the operand size, whatever its bits above (R84). -/
theorem outOfBounds_eq_false {s : State} {z : WSize} {idx : Reg} {lower upper : Word}
    (hl : signedZ z lower ≤ signedZ z (s.reg idx)) (hu : signedZ z (s.reg idx) ≤ signedZ z upper) :
    outOfBounds z (s.regZ z idx) lower upper = false := by
  have e : signedZ z (s.regZ z idx) = signedZ z (s.reg idx) := by cases z <;> simp [signedZ, State.regZ, State.reg16]
  simp [outOfBounds, e, hl, hu]

theorem exec_farLoad {r : SegName} {pre : List Pfx} {z : WSize} {dst : Reg} {m : EA} {i : Instr}
    (h : farLoad r pre z dst m = some i) (s : State) : exec i s = complete (loadFar r pre z dst m (Instr.len i) s) := by
  cases r <;> cases h <;> rfl

/-- Settles O51, clause by clause: each form asks for the next address, or advances to it, once its operands are there. -/
theorem eipOverflowRefused : Obligations.EipOverflowRefused := by
  unfold Obligations.EipOverflowRefused
  intro s pre
  refine ⟨raiseTrap_err, fun h => ?into, fun z rel h => congrArg complete (nextEip_bind_err h _),
    fun rel h => congrArg complete (nextEip_bind_err h _), fun rel h => congrArg complete (nextEip_bind_err h _),
    fun z src t ht h => complete_bind_refused ht (nextEip_bind_err h _),
    fun ptr t ht h => congrArg complete (callFarTo_overflow h ht),
    fun z m sel off t hp ht h => complete_bind_refused hp (callFarTo_overflow h ht),
    fun ptr tss ht h => congrArg complete (jmpFarTo_overflow h ht),
    fun z m sel off tss hp ht h => complete_bind_refused hp (jmpFarTo_overflow h ht),
    fun src d hd => ⟨fun q r he hr hq h => complete_bind_refused hd (divide_overflow_unsigned h rfl he hr hq),
      fun q r hq hl hu h => complete_bind_refused hd (divide_overflow_signed h hq hl hu)⟩,
    fun src d hd => ⟨fun q r he hr hq h => complete_bind_refused hd (divide_overflow_unsigned h rfl he hr hq),
      fun q r hq hl hu h => complete_bind_refused hd (divide_overflow_signed h hq hl hu)⟩,
    fun src d hd => ⟨fun q r he hr hq h => complete_bind_refused hd (divide_overflow_unsigned h rfl he hr hq),
      fun q r hq hl hu h => complete_bind_refused hd (divide_overflow_signed h hq hl hu)⟩,
    fun z idx m lower upper hl hu h1 h2 h => congrArg complete (boundCheck_overflow h hl hu (outOfBounds_eq_false h1 h2)),
    fun hm he hb h => congrArg complete (waitFor_overflow h hm he hb),
    fun r z dst m i sel off g hi hp hg h => by rw [exec_farLoad hi, loadFar_overflow h hp hg]; rfl⟩
  case into =>
    by_cases ho : s.flagOF = true
    · exact (if_pos ho).trans (raiseTrap_err h)
    · exact (if_neg ho).trans (congrArg complete (advance_err h))

end Sys2Proof.Machine
end

section
/-! Memory (R41, R43, R44, R49): every step keeps its canonical form, and what stores leave and loads give. -/

namespace Sys2Proof.Machine

/-! ### The canonical form -/

theorem takeExternal_wf {s : State} (h : MemoryCanonical s) : MemoryCanonical s.takeExternal :=
  Memory.wf_writeAll h fun c hc => by
    obtain ⟨d, -, rfl⟩ := List.mem_map.1 hc
    exact Nat.mod_lt _ (by omega)

/-- Settles O52: RESET keeps memory, what is due next keeps its form (`Carries.mem`), and other agents write below 2^32,
before a step and during it. -/
theorem stepKeepsMemoryForm : Obligations.StepKeepsMemoryForm := by
  unfold Obligations.StepKeepsMemoryForm
  intro s t hs h
  rcases step_next h with rfl | ⟨-, rfl | ⟨u, hu, rfl⟩ | hn⟩
  · exact hs
  · exact takeExternal_wf hs
  · have hc := carries_nextEvent hu
    exact closeStep_wf (hc.mem hs) fun c hx => openStep_lt s c (hc.amid c hx)
  · exact (carries_nextEvent hn).mem hs

/-! ### Stores -/

theorem read_store {s : State} (hm : MemoryCanonical s) (hp : s.cr0PG = false) (lin : Word) {n : Nat} (hn : n ≤ 2 ^ 32)
    (v : Word) {k : Nat} (hk : k < n) :
    (store s lin n v).mem.read (lin + BitVec.ofNat 32 k).toNat = BitVec.ofNat 8 (v.toNat / 256 ^ k) := by
  have hd : ∀ j < n, ∀ k < n, phys s (lin + BitVec.ofNat 32 j) = phys s (lin + BitVec.ofNat 32 k) → j = k :=
    fun j hj k hk e => lin_add_inj (by omega) (by omega) (by simpa [hp] using e)
  simpa [hp] using (storedAt_store hm lin n v).2 hd k hk

theorem readLin_store_byte {s : State} (hm : MemoryCanonical s) (hp : s.cr0PG = false) (lin : Word) {n : Nat}
    (hn : n ≤ 2 ^ 32) (v : Word) {k : Nat} (hk : k < n) :
    readLin (store s lin n v) (lin + BitVec.ofNat 32 k) 1 = v.toNat / 256 ^ k % 256 := by
  refine readLin_of_reads (s := store s lin n v) hp _ 1 _ fun j hj => ?_
  obtain rfl : j = 0 := by omega
  simpa using read_store hm hp lin hn v hk

theorem onlyBytes_store {s : State} (hp : s.cr0PG = false) (lin : Word) (n : Nat) (v : Word) :
    OnlyBytes s (store s lin n v) lin n :=
  fun _ ha => storeBytes_read_of_ne hp lin _ (by simpa using ha)

theorem store_alone {s : State} (h : Alone s) (lin : Word) (n : Nat) (v : Word) : Alone (store s lin n v) :=
  List.eq_nil_iff_forall_not_mem.2 fun c hc => by simpa [h] using overtake_subset hc

theorem store_amid_filter (s : State) (lin : Word) (n : Nat) (v : Word) (a : Nat) :
    (store s lin n v).amid.filter (fun c => decide (c.1 = a)) <:+ s.amid.filter (fun c => decide (c.1 = a)) ∧
      ((∀ k < n, a ≠ phys s (lin + BitVec.ofNat 32 k)) →
        (store s lin n v).amid.filter (fun c => decide (c.1 = a)) = s.amid.filter (fun c => decide (c.1 = a))) := by
  obtain ⟨hs, he⟩ := overtake_filter s (cellsAt s lin (numberBytes n v.toNat)) s.amid a
  refine ⟨hs, fun ha => he fun c hc => ?_⟩
  obtain ⟨j, hj, e⟩ := mem_cellsAt hc
  rw [e]
  exact (ha j (by simpa using hj)).symm

/-! ### Loads -/

@[simp] theorem loadBytes_length (s : State) (access : Word × Nat) (lin : Word) (n : Nat) :
    (loadBytes s access lin n).length = n := by
  induction n generalizing lin with
  | zero => rfl
  | succ n ih => simp [loadBytes, ih]

theorem loadBytes_getElem (s : State) (access : Word × Nat) (lin : Word) (n k : Nat)
    (h : k < (loadBytes s access lin n).length) :
    (loadBytes s access lin n)[k] = seenAt s access (phys s (lin + BitVec.ofNat 32 k)) := by
  induction n generalizing lin k with
  | zero => cases h
  | succ n ih =>
    cases k with
    | zero => simp [loadBytes]
    | succ k =>
      simp only [loadBytes, List.getElem_cons_succ]
      rw [ih, lin_add_succ]

/-- Settles O60: a store by `storedAt_store` and `overtake_filter`, a load by `seenAt_or` for each of its bytes. -/
theorem storesAndLoads : Obligations.StoresAndLoads := by
  unfold Obligations.StoresAndLoads
  refine ⟨fun s lin n v hm hp hn => ?_, fun s lin n => ?_, fun s lin n v a => store_amid_filter s lin n v a⟩
  · have hn' : n ≤ 2 ^ 32 := by omega
    have hr := readLin_store hp hm lin hn' v
    exact ⟨hr, fun k hk => readLin_store_byte hm hp lin hn' v hk, onlyBytes_store hp lin n v,
      fun ha => (loadLin_alone (store_alone ha lin n v) lin n).trans hr⟩
  · refine ⟨loadBytes s (lin, n) lin n, loadBytes_length _ _ _ _, rfl, fun k h => ?_⟩
    rw [loadBytes_getElem]
    exact seenAt_or s _ _

end Sys2Proof.Machine
end

section
/-! The fetch (R43, R45, R49, R52): which byte it gives, and that the bytes of an instruction are fetched as it. -/

namespace Sys2Proof.Machine

/-! ### A byte that may have been prefetched (R52) -/

/-- A fetch gives one of the old values of the byte, or what a load gives. -/
theorem fetchByte_or (s : State) (off : Word) :
    fetchByte s off ∈ staleBytes s (s.lin .cs off) ∨
      fetchByte s off = seenAt s (s.lin .cs off, 1) (phys s (s.lin .cs off)) := by
  unfold fetchByte
  rw [List.getD_eq_getElem?_getD]
  cases h : (staleBytes s (s.lin .cs off))[Config.prefetchStale s.draws (phys s (s.lin .cs off))]? with
  | none => exact .inr rfl
  | some b => exact .inl (List.mem_of_getElem? h)

/-- A byte that no stale prefetch can hold and no other agent is writing is fetched from memory. -/
theorem fetchByte_fresh {s : State} {off : Word} (h : staleBytes s (s.lin .cs off) = [])
    (hu : Unshared s (phys s (s.lin .cs off))) : fetchByte s off = s.mem.read (phys s (s.lin .cs off)) := by
  rcases fetchByte_or s off with ho | ho
  · rw [h] at ho
    cases ho
  · exact ho.trans (seenAt_unshared hu _)

theorem staleBytes_of_stored_nil {s : State} (h : s.stored = []) (lin : Word) : staleBytes s lin = [] := by
  simp [staleBytes, h]

/-- After a store in a state with none on record, an old byte is the one before that store, which the instruction at CS:EIP
made less than 16 bytes before it. -/
theorem mem_staleBytes_store {s : State} (hs : s.stored = []) {lin : Word} {n : Nat} {v l : Word} {b : Byte}
    (h : b ∈ staleBytes (store s lin n v) l) :
    b = s.mem.read (phys (store s lin n v) l) ∧ (l - (s.segs.cs.base + s.eip)).toNat < 16 := by
  have hst : (store s lin n v).stored =
      noteStored s.mem (s.segs.cs.base + s.eip) [] (cellsAt s lin (numberBytes n v.toNat)) := by rw [← hs]; rfl
  rw [staleBytes, hst, noteStored, List.append_nil] at h
  obtain ⟨e, he, rfl⟩ := List.mem_map.1 h
  obtain ⟨hc, hp⟩ := List.mem_filter.1 he
  obtain ⟨c, -, rfl⟩ := List.mem_map.1 hc
  simp only [Bool.and_eq_true, decide_eq_true_eq] at hp
  exact ⟨by rw [← hp.1], hp.2⟩

/-- A store leaves other agents no new byte to write. -/
theorem unshared_store {s : State} {a : Nat} (h : Unshared s a) (lin : Word) (n : Nat) (v : Word) :
    Unshared (store s lin n v) a :=
  fun c hc => h c (overtake_subset hc)

/-- Settles O8: the old bytes are those before the store (`mem_staleBytes_store`), and a control transfer drops them. -/
theorem staleFetchOldOrNew : Obligations.StaleFetchOldOrNew := by
  unfold Obligations.StaleFetchOldOrNew
  intro s lin n v off hs hu
  have hu' := unshared_store hu lin n v
  refine ⟨?_, fun hd => ?_, fun target => ?_⟩
  · rcases fetchByte_or (store s lin n v) off with h | h
    · exact .inr (mem_staleBytes_store hs h).1
    · exact .inl (h.trans (seenAt_unshared hu' _))
  · exact fetchByte_fresh (s := store s lin n v)
      (List.eq_nil_iff_forall_not_mem.2 fun b hb => Nat.not_lt.2 hd (mem_staleBytes_store hs hb).2) hu'
  · exact fetchByte_fresh (s := jump (store s lin n v) target) (staleBytes_of_stored_nil rfl _) hu'

end Sys2Proof.Machine
end

section
/-! Decoding undoes encoding (R57 to R64): the bytes of a well-formed instruction decode to it, whatever follows them. -/

namespace Sys2Proof

/-- A ModR/M operand decodes to the row that the opcode has for its `reg` field and the operand. -/
theorem decodeRm_encodeRm {a32 : Bool} {k : BitVec 3 → Opnd Reg → Option Instr} {reg : BitVec 3} {o : Opnd Reg} {i : Instr}
    (h : o.wf a32 = true) (hk : k reg o = some i) (r : List Byte) : decodeRm a32 k (encodeRm reg o ++ r) = .ok i r := by
  simp only [decodeRm, parseRm_encodeRm reg h, hk]

theorem decodeRm_encodeEA {a32 : Bool} {k : BitVec 3 → Opnd Reg → Option Instr} {reg : BitVec 3} {m : EA} {i : Instr}
    (h : m.wf a32 = true) (hk : k reg (.mem m) = some i) (r : List Byte) :
    decodeRm a32 k (encodeEA reg m ++ r) = .ok i r :=
  decodeRm_encodeRm (o := .mem m) h hk r

theorem decodeRel_bytes (rel : Rel) (k : Rel → Instr) (r : List Byte) :
    decodeRel rel.wsize k (rel.bytes ++ r) = .ok (k rel) r := by
  cases rel with
  | rel16 d => simp [decodeRel, Rel.wsize, Rel.bytes, halfBytes, le2_halfBytes]
  | rel32 d => simp [decodeRel, Rel.wsize, Rel.bytes, wordBytes, le4_wordBytes]

theorem decodeFar_bytes (f : FarPtr) (k : FarPtr → Instr) (r : List Byte) :
    decodeFar f.wsize k (f.bytes ++ r) = .ok (k f) r := by
  cases f with
  | ptr16 o s => simp [decodeFar, FarPtr.wsize, FarPtr.bytes, halfBytes, le2_halfBytes]
  | ptr32 o s => simp [decodeFar, FarPtr.wsize, FarPtr.bytes, halfBytes, wordBytes, le2_halfBytes, le4_wordBytes]

/-- The leading bytes end at the opcode, and give its operand and address size. -/
theorem decode_opcode (big : Bool) (p : List Pfx) {b : Byte} (h : Pfx.ofByte b = none) (bs rest : List Byte) :
    decode big ((p.map Pfx.byte ++ b :: bs) ++ rest) =
      decodeOp (addr32Of big p) p (opSizeOf big p) (b :: (bs ++ rest)) := by
  rw [List.append_assoc, List.cons_append]
  simp only [decode, takePfx_append p h]

theorem ofR8_wf (a32 : Bool) (o : Opnd Reg8) : o.ofR8.wf a32 = o.wf a32 := by cases o <;> rfl

/-- The first byte of an ESC is no leading byte and no opcode tested before it (R61). -/
theorem esc_firstByte {low : BitVec 3} {b : Byte} (h : b = 0b11011#5 ++ low) :
    Pfx.ofByte b = none ∧ (b ≠ 0xF6 ∧ b ≠ 0xF7 ∧ b ≠ 0xCC ∧ b ≠ 0xCE ∧ b ≠ 0x62) ∧
      b.extractLsb' 3 5 = 0b11011#5 ∧ b.extractLsb' 0 3 = low := by
  subst h
  revert low
  decide

theorem decodeOp_esc {low : BitVec 3} {b : Byte} (h : b = 0b11011#5 ++ low) (a32 : Bool) (p : List Pfx) (z : WSize)
    (r : List Byte) :
    decodeOp a32 p z (b :: r) = decodeRm a32 (fun reg o => some (.esc p low reg o)) r := by
  obtain ⟨-, ⟨hF6, hF7, hCC, hCE, h62⟩, h5, h3⟩ := esc_firstByte h
  simp only [decodeOp, hF6, hF7, hCC, hCE, h62, h5, h3, if_false, if_true]

/-- The bytes of an instruction with encodable operands decode to it, whatever follows them. -/
theorem decode_encode {big : Bool} {i : Instr} (h : i.operandsWf big = true) (rest : List Byte) :
    decode big (encode i ++ rest) = .ok i rest := by
  cases i with
  | divRm8 p s | idivRm8 p s =>
    exact (decode_opcode big p (by decide) _ _).trans
      (decodeRm_encodeRm ((ofR8_wf _ s).trans h) (by simp [rowsF6]) rest)
  | divRm p z s | idivRm p z s | jmpRm p z s | callRm p z s =>
    obtain ⟨hz, hs⟩ := Bool.and_eq_true_iff.1 h
    obtain rfl := of_decide_eq_true hz
    exact (decode_opcode big p (by decide) _ _).trans (decodeRm_encodeRm hs rfl rest)
  | jmpFarM p z m | callFarM p z m =>
    obtain ⟨hz, hm⟩ := Bool.and_eq_true_iff.1 h
    obtain rfl := of_decide_eq_true hz
    exact (decode_opcode big p (by decide) _ _).trans (decodeRm_encodeEA hm rfl rest)
  | bound p z r m | les p z r m | lds p z r m | lss p z r m | lfs p z r m | lgs p z r m =>
    obtain ⟨hz, hm⟩ := Bool.and_eq_true_iff.1 h
    obtain rfl := of_decide_eq_true hz
    exact (decode_opcode big p (by decide) _ _).trans (decodeRm_encodeEA hm (by simp [rowsMem]) rest)
  | esc p low ext s =>
    exact ((decode_opcode big p (esc_firstByte rfl).1 _ _).trans (decodeOp_esc rfl _ _ _ _)).trans
      (decodeRm_encodeRm h rfl rest)
  | int3 p | into p | wait p => exact decode_opcode big p (by decide) _ _
  | jmpRel8 p z d =>
    obtain rfl := of_decide_eq_true h
    exact decode_opcode big p (by decide) _ _
  | jmpRel p d | callRel p d =>
    refine (decode_opcode big p (by decide) _ _).trans ?_
    rw [← of_decide_eq_true h]
    exact decodeRel_bytes d _ rest
  | jmpFar p f | callFar p f =>
    refine (decode_opcode big p (by decide) _ _).trans ?_
    rw [← of_decide_eq_true h]
    exact decodeFar_bytes f _ rest
  | invJmpFarReg p rm | invCallFarReg p rm =>
    exact (decode_opcode big p (by decide) _ _).trans (decodeRm_encodeRm (o := .reg rm) rfl rfl rest)
  | invLesReg p r rm | invLdsReg p r rm | invLssReg p r rm | invLfsReg p r rm | invLgsReg p r rm | invBoundReg p r rm =>
    exact (decode_opcode big p (by decide) _ _).trans
      (decodeRm_encodeRm (o := .reg rm) rfl (by simp [rowsMem]) rest)
  | invFf7 p s =>
    exact (decode_opcode big p (by decide) _ _).trans (decodeRm_encodeRm h rfl rest)

end Sys2Proof
end

section
/-! The fetch of an instruction: the bytes at CS:EIP, each admitted, begin the window, and decode (R43, R45, R57). -/

namespace Sys2Proof.Machine

/-- The bytes a window begins with: those whose fetch is admitted, up to the last offset. -/
theorem fetchWindow_append {s : State} {bs : List Byte} {n : Nat} {off : Word} (hn : bs.length ≤ n)
    (hl : off.toNat + bs.length ≤ 2 ^ 32)
    (h : ∀ (k : Nat) (hk : k < bs.length), admits s (fetchKey s (off + BitVec.ofNat 32 k)) ∧
      fetchByte s (off + BitVec.ofNat 32 k) = bs[k]) :
    ∃ rest, (fetchWindow s n off).1 = bs ++ rest := by
  induction bs generalizing n off with
  | nil => exact ⟨_, rfl⟩
  | cons b bs ih =>
    obtain ⟨n, rfl⟩ := Nat.exists_eq_succ_of_ne_zero (by simp at hn; omega : n ≠ 0)
    obtain ⟨ha, hb⟩ := h 0 (by simp)
    simp only [BitVec.add_zero, List.getElem_cons_zero] at ha hb
    simp only [fetchWindow, check_ok _ ha, hb]
    simp only [List.length_cons] at hl hn
    by_cases ht : off = 0xFFFFFFFF
    · obtain rfl : bs = [] := List.eq_nil_of_length_eq_zero (by rw [ht] at hl; simp at hl; omega)
      exact ⟨[], by simp [ht]⟩
    · obtain ⟨rest, hr⟩ := ih (n := n) (off := off + 1) (by omega) (by bv_omega) fun k hk => by
        rw [lin_add_succ]
        exact h (k + 1) (by simpa using hk)
      exact ⟨rest, by simp only [if_neg ht, hr, List.cons_append]⟩

/-- Settles O5: the window begins with the bytes of the instruction (`fetchWindow_append`), which decode to it
(`decode_encode`). -/
theorem encodedBytesFetched : Obligations.EncodedBytesFetched := by
  unfold Obligations.EncodedBytesFetched
  intro s i hw hs hl h
  obtain ⟨ho, hb⟩ := Bool.and_eq_true_iff.1 hw
  have hlen : (encode i).length ≤ 15 := (Instr.len_eq i).trans_le (of_decide_eq_true hb)
  have hf : ∀ (k : Nat) (hk : k < (encode i).length), admits s (fetchKey s (s.eip + BitVec.ofNat 32 k)) ∧
      fetchByte s (s.eip + BitVec.ofNat 32 k) = (encode i)[k] := fun k hk => by
    obtain ⟨ha, hu, hr⟩ := h k hk
    exact ⟨ha, (fetchByte_fresh (staleBytes_of_stored_nil hs _) hu).trans hr⟩
  obtain ⟨rest, hr⟩ := fetchWindow_append hlen hl hf
  refine fetchInstr_of_decode (rest := rest) ?_
  rw [window, Config.maxLength, hr]
  exact decode_encode ho rest

end Sys2Proof.Machine
end

section
/-! Accesses of an instruction that `AccessCheck` refuses (R48, R135): a read of its memory operand, a push, the load of a
segment register. -/

namespace Sys2Proof.Machine

/-! ### The reads of an instruction -/

theorem readFar_bind {α : Type} (s : State) (pre : List Pfx) (z : WSize) (m : EA) (f : Half × Word → Res α) :
    (readFar s pre z m >>= f) =
      readEA s pre m 0 z.bytes >>= fun off => readEA s pre m z.bytes 2 >>= fun sel => f (sel.setWidth 16, off) := by
  simp only [readFar, bind_assoc]
  rfl

/-- An instruction with a memory operand begins with its first read. -/
theorem exec_firstRead {i : Instr} {pre : List Pfx} {m : EA} {n : Nat} (h : firstRead i = some (pre, m, n)) (s : State) :
    ∃ f : Word → Res State, exec i s = complete (readEA s pre m 0 n >>= f) := by
  cases i with
  | divRm8 p o | idivRm8 p o | divRm p z o | idivRm p z o | jmpRm p z o | callRm p z o =>
    cases o with
    | reg r => cases h
    | mem m => cases h; exact ⟨_, rfl⟩
  | bound => cases h; exact ⟨_, rfl⟩
  | jmpFarM | callFarM => cases h; exact ⟨_, congrArg complete (readFar_bind s _ _ _ _)⟩
  | les | lds | lss | lfs | lgs => cases h; exact ⟨_, congrArg complete (readFar_bind s _ _ _ _)⟩
  | _ => cases h

/-- An instruction with two reads makes them first, in order. -/
theorem exec_secondRead {i : Instr} {pre : List Pfx} {m : EA} {n add k : Nat} (h : firstRead i = some (pre, m, n))
    (h2 : secondRead i = some (pre, m, add, k)) (s : State) :
    ∃ f : Word → Word → Res State,
      exec i s = complete (readEA s pre m 0 n >>= fun a => readEA s pre m add k >>= f a) := by
  cases i with
  | bound => cases h; cases h2; exact ⟨_, rfl⟩
  | jmpFarM | callFarM => cases h; cases h2; exact ⟨_, congrArg complete (readFar_bind s _ _ _ _)⟩
  | les | lds | lss | lfs | lgs => cases h; cases h2; exact ⟨_, congrArg complete (readFar_bind s _ _ _ _)⟩
  | _ => cases h2

theorem readEA_denied_zero {s : State} {pre : List Pfx} {m : EA} {n : Nat} {d : AccessDenial}
    (h : accessDenial s (dataKey s (eaSeg pre m) (eaOff s m) n) = some d) :
    readEA s pre m 0 n = .error (.raised (deniedEvent s d (s.lin (eaSeg pre m) (eaOff s m))) s) := by
  simpa using readEA_denied (pre := pre) (add := 0) (by simpa using h)

theorem readEA_admitted_zero {s : State} {pre : List Pfx} {m : EA} {n : Nat}
    (h : admits s (dataKey s (eaSeg pre m) (eaOff s m) n)) : ∃ v, readEA s pre m 0 n = .ok v :=
  readEA_admitted (by simpa using h)

/-! ### Pushes and loads of a segment register -/

/-- A push after a push asks about the next slot. -/
theorem accessDenial_slotKey_pushed (s : State) (z : WSize) (v : Word) (k : Nat) :
    accessDenial (pushed s z v) (slotKey ((pushed s z v).reg .esp) (cpl (pushed s z v)) z k) =
      accessDenial s (slotKey (s.reg .esp) (cpl s) z (k + 1)) := by
  rw [(slotKey_pushed s z v k).1]
  rfl

section
variable {s : State} {d : AccessDenial}

theorem callTo_denied {z : WSize} (h : accessDenial s (slotKey (s.reg .esp) (cpl s) z 0) = some d) (next target : Word) :
    callTo z next target s = .error (.raised (deniedEvent s d (s.lin .ss (slotOff (s.reg .esp) z 0))) s) := by
  rw [callTo, push_denied h, bind_err]

theorem farJump_denied {t : State} {sel : Half} (h : accessDenial t (loadKey t .cs sel) = some d) (off : Word) :
    farJump (Origin.ofInstr s) t sel off = .error (.raised (deniedEvent s d (descAddr t sel)) s) := by
  simp only [farJump, loadSegment_denied h]

theorem loadFar_denied {r : SegName} {pre : List Pfx} {z : WSize} {m : EA} {ptr : Half × Word}
    (hp : readFar s pre z m = .ok ptr) (h : accessDenial s (loadKey s r ptr.1) = some d) (dst : Reg) (len : Nat) :
    loadFar r pre z dst m len s = .error (.raised (deniedEvent s d (descAddr s ptr.1)) s) := by
  rw [loadFar, hp, bind_ok, loadSegment_denied h, bind_err]

theorem jmpFarTo_denied {ptr : Half × Word} (ht : farTarget (Origin.ofInstr s) s ptr.1 = .ok .segment)
    (h : accessDenial s (loadKey s .cs ptr.1) = some d) (len : Nat) :
    jmpFarTo len s ptr = .error (.raised (deniedEvent s d (descAddr s ptr.1)) s) := by
  simp only [jmpFarTo, ht, bind_ok, farJump_denied h]

/-! A far CALL to an ordinary segment pushes CS, then the next address, then loads CS. -/

variable {z : WSize} {len : Nat} {ptr : Half × Word}
  (ht : farTarget (Origin.ofInstr s) s ptr.1 = .ok .segment) (hn : s.eip.toNat + len ≤ 0xFFFFFFFF)
include ht hn

theorem callFarTo_denied_push {k : Nat} (hk : k < 2) (ha : ∀ j < k, admits s (slotKey (s.reg .esp) (cpl s) z j))
    (h : accessDenial s (slotKey (s.reg .esp) (cpl s) z k) = some d) :
    callFarTo z len s ptr = .error (.raised (deniedEvent s d (s.lin .ss (slotOff (s.reg .esp) z k))) s) := by
  simp only [callFarTo, ht, nextEip_ok hn, bind_ok]
  cases k with
  | zero => rw [push_denied h, bind_err]
  | succ k =>
    obtain rfl : k = 0 := by omega
    rw [push_ok _ (ha 0 (by omega)), bind_ok, push_denied ((accessDenial_slotKey_pushed s z _ 0).trans h), bind_err,
      (slotKey_pushed s z _ 0).2]
    rfl

theorem callFarTo_denied_load (ha : ∀ j < 2, admits s (slotKey (s.reg .esp) (cpl s) z j))
    (h : accessDenial s (loadKey s .cs ptr.1) = some d) :
    callFarTo z len s ptr = .error (.raised (deniedEvent s d (descAddr s ptr.1)) s) := by
  simp only [callFarTo, ht, nextEip_ok hn, bind_ok]
  rw [push_ok _ (ha 0 (by omega)), bind_ok, push_ok _ ((accessDenial_slotKey_pushed s z _ 0).trans (ha 1 (by omega))),
    bind_ok]
  exact farJump_denied (t := pushed (pushed s z _) z _) h ptr.2

end

theorem complete_bind_denied {α : Type} {r : Res α} {a : α} {f : α → Res State} {e : Event} {c : State} (hr : r = .ok a)
    (hf : f a = .error (.raised e c)) : complete (r >>= f) = deliver e c := by
  rw [hr, bind_ok, hf]
  rfl

/-- Settles O50, clause by clause: each refused access raises its event from the state before the instruction
(`check_denied`), and `complete` delivers it. -/
theorem operandDenialFaults : Obligations.OperandDenialFaults := by
  unfold Obligations.OperandDenialFaults
  intro s i pre m n d
  refine ⟨fun hi hd => ?first, fun add k hi ha h2 hd => ?second, fun z hn hd hi => ?near, fun z sel off hn ht hi => ?far,
    fun z sel off ht hi hd => ?jump, fun r z dst sel off hi hp hd => ?load⟩
  case first =>
    obtain ⟨f, hf⟩ := exec_firstRead hi s
    rw [hf, readEA_denied_zero hd]
    rfl
  case second =>
    obtain ⟨f, hf⟩ := exec_secondRead hi h2 s
    obtain ⟨v, hv⟩ := readEA_admitted_zero ha
    rw [hf]
    exact complete_bind_denied hv (by rw [readEA_denied hd, bind_err])
  case near =>
    rcases hi with ⟨rel, rfl, rfl⟩ | ⟨src, t, rfl, ht⟩
    · exact complete_bind_denied (nextEip_ok hn) (callTo_denied hd _ _)
    · exact complete_bind_denied ht (by rw [nextEip_ok hn, bind_ok, callTo_denied hd])
  case far =>
    rcases hi with ⟨ptr, rfl, rfl, rfl⟩ | ⟨rfl, hp⟩
    · exact ⟨fun k hk ha hd => congrArg complete (callFarTo_denied_push ht hn hk ha hd),
        fun ha hd => congrArg complete (callFarTo_denied_load ht hn ha hd)⟩
    · exact ⟨fun k hk ha hd => complete_bind_denied hp (callFarTo_denied_push ht hn hk ha hd),
        fun ha hd => complete_bind_denied hp (callFarTo_denied_load ht hn ha hd)⟩
  case jump =>
    rcases hi with ⟨ptr, rfl, rfl⟩ | ⟨rfl, hp⟩
    · exact congrArg complete (jmpFarTo_denied ht hd _)
    · exact complete_bind_denied hp (jmpFarTo_denied ht hd _)
  case load =>
    rw [exec_farLoad hi, loadFar_denied hp hd]
    rfl

end Sys2Proof.Machine
end

section
/-! Encoding undoes decoding (R57 to R64): an instruction the decoder reads has the operand sizes and address forms in force,
and is written as the bytes it was read from; and the words of 95_test_vectors.md, decoded. -/

namespace Sys2Proof

/-- Settles O1: the operands of a well-formed instruction are encodable, and then its bytes decode to it
(`decode_encode`). -/
theorem decodeOfEncode : Obligations.DecodeOfEncode := by
  unfold Obligations.DecodeOfEncode
  intro big i rest h
  exact decode_encode (Bool.and_eq_true_iff.1 h).1 rest

/-- An instruction read from the bytes `bs` after the leading bytes `p` has encodable operands, and its encoding, followed by
what is left, is `p` followed by `bs`. -/
def ReadBack (big : Bool) (p : List Pfx) (bs : List Byte) : Decoded → Prop
  | .ok i rest => i.operandsWf big = true ∧ encode i ++ rest = p.map Pfx.byte ++ bs
  | .short | .unlisted => True

/-- Whatever instruction the opcode bytes `op` have for a `reg` field and an encodable operand, it has encodable operands
and is written with that opcode, field and operand. -/
def RowsEncode (big : Bool) (p : List Pfx) (op : List Byte) (k : BitVec 3 → Opnd Reg → Option Instr) : Prop :=
  ∀ reg o i, k reg o = some i → o.wf (addr32Of big p) = true →
    i.operandsWf big = true ∧ encode i = p.map Pfx.byte ++ (op ++ encodeRm reg o)

theorem to8_wf (a32 : Bool) (o : Opnd Reg) : o.to8.wf a32 = o.wf a32 := by cases o <;> rfl

/-! ### The rows of each opcode with a ModR/M byte -/

section
variable (big : Bool) (p : List Pfx)

theorem rowsEncode_F6 : RowsEncode big p [0xF6] (rowsF6 p) := by
  intro reg o i hi ho
  unfold rowsF6 at hi
  split_ifs at hi with h6 h7
  all_goals
    cases hi
    exact ⟨(to8_wf _ o).trans ho, by simp [encode, *]⟩

theorem rowsEncode_F7 : RowsEncode big p [0xF7] (rowsF7 p (opSizeOf big p)) := by
  intro reg o i hi ho
  unfold rowsF7 at hi
  split_ifs at hi with h6 h7
  all_goals
    cases hi
    exact ⟨by simp [Instr.operandsWf, ho], by simp [encode, *]⟩

theorem rowsEncode_FF : RowsEncode big p [0xFF] (rowsFF p (opSizeOf big p)) := by
  intro reg o i hi ho
  unfold rowsFF at hi
  split_ifs at hi with h2 h3 h4 h5 h7
  · cases hi
    exact ⟨by simp [Instr.operandsWf, ho], by simp [encode, h2]⟩
  · cases o with
    | reg rm => cases hi; exact ⟨rfl, by simp [encode, h3]⟩
    | mem m => cases hi; exact ⟨by simpa [Instr.operandsWf, Opnd.wf] using ho, by simp [encode, encodeRm, h3]⟩
  · cases hi
    exact ⟨by simp [Instr.operandsWf, ho], by simp [encode, h4]⟩
  · cases o with
    | reg rm => cases hi; exact ⟨rfl, by simp [encode, h5]⟩
    | mem m => cases hi; exact ⟨by simpa [Instr.operandsWf, Opnd.wf] using ho, by simp [encode, encodeRm, h5]⟩
  · cases hi
    exact ⟨ho, by simp [encode, h7]⟩

theorem rowsEncode_esc {b : Byte} (h : b.extractLsb' 3 5 = 0b11011#5) :
    RowsEncode big p [b] (fun reg o => some (.esc p (b.extractLsb' 0 3) reg o)) := by
  intro reg o i hi ho
  cases hi
  have hb : 0b11011#5 ++ b.extractLsb' 0 3 = b := by revert b; decide
  exact ⟨ho, by simp only [encode, hb]; rfl⟩

variable {big p}

/-- A pair of a memory form and its invalid register form that are written with the opcode `op`. -/
theorem rowsEncode_mem {op : List Byte} {k : Reg → EA → Instr} {inv : Reg → Reg → Instr}
    (hk : ∀ r m, m.wf (addr32Of big p) = true →
      (k r m).operandsWf big = true ∧ encode (k r m) = p.map Pfx.byte ++ (op ++ encodeEA r.num m))
    (hinv : ∀ r rm, (inv r rm).operandsWf big = true ∧
      encode (inv r rm) = p.map Pfx.byte ++ (op ++ encodeRm r.num (.reg rm))) :
    RowsEncode big p op (rowsMem k inv) := by
  intro reg o i hi ho
  cases o with
  | reg rm => cases hi; simpa using hinv (Reg.ofNum reg) rm
  | mem m => cases hi; simpa [encodeRm] using hk (Reg.ofNum reg) m ho

/-! ### The bytes that were read -/

theorem readBack_decodeCut (k : BitVec 3 → Opnd Reg → Option Instr) (bs bs' : List Byte) :
    ReadBack big p bs (decodeCut k bs') := by
  unfold decodeCut
  repeat' split
  all_goals trivial

theorem readBack_decodeRm {op : List Byte} {k : BitVec 3 → Opnd Reg → Option Instr} (hk : RowsEncode big p op k)
    (bs : List Byte) : ReadBack big p (op ++ bs) (decodeRm (addr32Of big p) k bs) := by
  unfold decodeRm
  split
  · exact readBack_decodeCut k _ bs
  · rename_i reg o r hp
    split
    · rename_i i hi
      obtain ⟨hwf, hbs⟩ := parseRm_eq hp
      exact (hk reg o i hi hwf).imp_right fun he => by rw [he, ← hbs]; simp
    · trivial

theorem readBack_decodeRel {op : Byte} {z : WSize} {k : Rel → Instr}
    (hk : ∀ d : Rel, d.wsize = z → (k d).operandsWf big = true ∧ encode (k d) = p.map Pfx.byte ++ op :: d.bytes)
    (bs : List Byte) : ReadBack big p (op :: bs) (decodeRel z k bs) := by
  unfold decodeRel
  repeat' split
  any_goals trivial
  all_goals
    exact (hk _ (by rfl)).imp_right fun he => by rw [he]; simp [Rel.bytes, halfBytes_le2, wordBytes_le4]

theorem readBack_decodeFar {op : Byte} {z : WSize} {k : FarPtr → Instr}
    (hk : ∀ f : FarPtr, f.wsize = z → (k f).operandsWf big = true ∧ encode (k f) = p.map Pfx.byte ++ op :: f.bytes)
    (bs : List Byte) : ReadBack big p (op :: bs) (decodeFar z k bs) := by
  unfold decodeFar
  repeat' split
  any_goals trivial
  all_goals
    exact (hk _ (by rfl)).imp_right fun he => by rw [he]; simp [FarPtr.bytes, halfBytes_le2, wordBytes_le4]

variable (big p)

theorem readBack_decode0F (bs : List Byte) :
    ReadBack big p (0x0F :: bs) (decode0F (addr32Of big p) p (opSizeOf big p) bs) := by
  cases bs with
  | nil => trivial
  | cons b bs =>
    rw [decode0F]
    refine iteInduction (fun h => ?_) fun _ => iteInduction (fun h => ?_) fun _ =>
      iteInduction (fun h => ?_) fun _ => trivial
    all_goals
      subst h
      refine readBack_decodeRm (op := [0x0F, _]) (rowsEncode_mem (fun r m hm => ⟨?_, rfl⟩) fun _ _ => ⟨rfl, rfl⟩) bs
      simpa [Instr.operandsWf] using hm

theorem readBack_decodeOp (bs : List Byte) :
    ReadBack big p bs (decodeOp (addr32Of big p) p (opSizeOf big p) bs) := by
  cases bs with
  | nil => trivial
  | cons b bs =>
    unfold decodeOp
    dsimp only
    refine iteInduction (fun h => ?F6) fun _ => iteInduction (fun h => ?F7) fun _ =>
      iteInduction (fun h => ?CC) fun _ => iteInduction (fun h => ?CE) fun _ => iteInduction (fun h => ?bound) fun _ =>
      iteInduction (fun h => ?esc) fun _ => iteInduction (fun h => ?wait) fun _ => iteInduction (fun h => ?EB) fun _ =>
      iteInduction (fun h => ?E9) fun _ => iteInduction (fun h => ?FF) fun _ => iteInduction (fun h => ?EA) fun _ =>
      iteInduction (fun h => ?E8) fun _ => iteInduction (fun h => ?far9A) fun _ => iteInduction (fun h => ?les) fun _ =>
      iteInduction (fun h => ?lds) fun _ => iteInduction (fun h => ?twoByte) fun _ => trivial
    case esc => exact readBack_decodeRm (op := [b]) (rowsEncode_esc big p h) bs
    all_goals subst h
    case F6 => exact readBack_decodeRm (rowsEncode_F6 big p) bs
    case F7 => exact readBack_decodeRm (rowsEncode_F7 big p) bs
    case FF => exact readBack_decodeRm (rowsEncode_FF big p) bs
    case CC | CE | wait => exact ⟨rfl, by simp [encode]⟩
    case EB =>
      cases bs with
      | nil => trivial
      | cons d bs => exact ⟨decide_eq_true rfl, by simp [encode]⟩
    case E9 | E8 =>
      refine readBack_decodeRel (fun d hd => ⟨?_, rfl⟩) bs
      exact decide_eq_true hd
    case EA | far9A =>
      refine readBack_decodeFar (fun f hf => ⟨?_, rfl⟩) bs
      exact decide_eq_true hf
    case bound | les | lds =>
      refine readBack_decodeRm (op := [_]) (rowsEncode_mem (fun r m hm => ⟨?_, rfl⟩) fun _ _ => ⟨rfl, rfl⟩) bs
      simpa [Instr.operandsWf] using hm
    case twoByte => exact readBack_decode0F big p bs

end

/-- Settles O2: the leading bytes are those of `takePfx` (`takePfx_eq`), and the rest is what the row that was read is
written as (`readBack_decodeOp`). -/
theorem encodeOfDecode : Obligations.EncodeOfDecode := by
  unfold Obligations.EncodeOfDecode
  intro big bs i rest h
  have hr := readBack_decodeOp big (takePfx bs).1 (takePfx bs).2
  rw [show decodeOp _ _ _ _ = .ok i rest from h] at hr
  obtain ⟨hops, henc⟩ := hr
  exact ⟨hops, henc.trans (takePfx_eq bs)⟩

/-- Settles O4: each of the nine words is evaluated. -/
theorem sampleWordsDecode : Obligations.SampleWordsDecode := by
  unfold Obligations.SampleWordsDecode
  decide

end Sys2Proof
end

section
/-! The decoder follows the opcode table (R61, R62, R64, R65): the rows that fit the bytes after the leading bytes are the one
row of the instruction it reads, and there is none for bytes it calls unlisted. -/

namespace Sys2Proof.Machine

/-- The places of the rows that fit the bytes after the leading bytes. -/
def fittingPlaces (bs : List Byte) : List Nat := (opcodeRows.filter (fun r => r.fits bs)).map OpRow.place

/-- The rows that fit `bs` are those the decoder's answer says: the one of the instruction read, none for unlisted bytes. -/
def FollowsTable (bs : List Byte) : Decoded → Prop
  | .ok i _ => fittingPlaces bs = [tablePlace i]
  | .short => True
  | .unlisted => fittingPlaces bs = []

/-! ### Rows by their first byte -/

/-- The rows whose first match and mask fit the byte `b`. -/
def rowsFrom (b : Byte) : List OpRow := opcodeRows.filter (fun r => patternFits (r.pattern.take 1) [b])

/-- Only rows that the first byte fits can fit. -/
theorem fittingPlaces_cons (b : Byte) (bs : List Byte) :
    fittingPlaces (b :: bs) = (rowsFrom b).flatMap fun r => if r.fits (b :: bs) then [r.place] else [] := by
  have hfits : ∀ r : OpRow, r.fits (b :: bs) = (r.fits (b :: bs) && patternFits (r.pattern.take 1) [b]) := by
    rintro ⟨n, ps, mem⟩
    cases ps with
    | nil => simp [patternFits]
    | cons c ps => cases h : decide (b &&& c.2 = c.1) <;> simp [OpRow.fits, patternFits, h]
  rw [fittingPlaces, List.filter_congr fun r _ => hfits r, ← List.filter_filter, ← rowsFrom]
  induction rowsFrom b with
  | nil => rfl
  | cons r rs ih => by_cases h : r.fits (b :: bs) = true <;> simp [h, ih]

theorem rowsFrom_esc {b : Byte} (h : b.extractLsb' 3 5 = 0b11011#5) :
    rowsFrom b = [⟨7, [(0xD8, 0xF8), (0x00, 0x00)], false⟩] := by
  revert b; decide

/-- The bytes the decoder tests for are all that a row begins with. -/
theorem rowsFrom_other {b : Byte} (hesc : b.extractLsb' 3 5 ≠ 0b11011#5)
    (h : b ∉ [0xF6#8, 0xF7#8, 0xCC#8, 0xCE#8, 0x62#8, 0x9B#8, 0xEB#8, 0xE9#8, 0xFF#8, 0xEA#8,
      0xE8#8, 0x9A#8, 0xC4#8, 0xC5#8, 0x0F#8]) :
    rowsFrom b = [] := by
  revert b; decide

/-! ### Opcodes without a ModR/M byte -/

/-- The opcodes without a ModR/M byte, each with the place of its row. -/
def plainOpcodes : List (Byte × Nat) :=
  [(0xCC, 4), (0xCE, 5), (0x9B, 8), (0xEB, 9), (0xE9, 10), (0xEA, 12), (0xE8, 14), (0x9A, 16)]

theorem fittingPlaces_plain {b : Byte} {n : Nat} (h : (b, n) ∈ plainOpcodes) (bs : List Byte) :
    fittingPlaces (b :: bs) = [n] := by
  rw [fittingPlaces_cons]
  simp only [plainOpcodes, List.mem_cons, Prod.mk.injEq, List.not_mem_nil, or_false] at h
  rcases h with ⟨rfl, rfl⟩ | ⟨rfl, rfl⟩ | ⟨rfl, rfl⟩ | ⟨rfl, rfl⟩ | ⟨rfl, rfl⟩ | ⟨rfl, rfl⟩ | ⟨rfl, rfl⟩ | ⟨rfl, rfl⟩
  all_goals rfl

theorem follows_decodeRel {b : Byte} {k : Rel → Instr} (h : ∀ d, (b, tablePlace (k d)) ∈ plainOpcodes) (z : WSize)
    (bs : List Byte) : FollowsTable (b :: bs) (decodeRel z k bs) := by
  unfold decodeRel
  repeat' split
  any_goals trivial
  all_goals exact fittingPlaces_plain (h _) _

theorem follows_decodeFar {b : Byte} {k : FarPtr → Instr} (h : ∀ f, (b, tablePlace (k f)) ∈ plainOpcodes) (z : WSize)
    (bs : List Byte) : FollowsTable (b :: bs) (decodeFar z k bs) := by
  unfold decodeFar
  repeat' split
  any_goals trivial
  all_goals exact fittingPlaces_plain (h _) _

/-! ### Opcodes with a ModR/M byte -/

/-- The masks of the table's ModR/M bytes test the `reg` field, the `mod` field for 11, or both. -/
theorem modrm_masks (m : Byte) :
    (m &&& 0x38#8 = 0x10#8 ↔ m.extractLsb' 3 3 = 2#3) ∧ (m &&& 0x38#8 = 0x18#8 ↔ m.extractLsb' 3 3 = 3#3) ∧
    (m &&& 0x38#8 = 0x20#8 ↔ m.extractLsb' 3 3 = 4#3) ∧ (m &&& 0x38#8 = 0x28#8 ↔ m.extractLsb' 3 3 = 5#3) ∧
    (m &&& 0x38#8 = 0x30#8 ↔ m.extractLsb' 3 3 = 6#3) ∧ (m &&& 0x38#8 = 0x38#8 ↔ m.extractLsb' 3 3 = 7#3) ∧
    (m &&& 0xC0#8 = 0xC0#8 ↔ m.extractLsb' 6 2 = 3#2) ∧
    (m &&& 0xF8#8 = 0xD8#8 ↔ m.extractLsb' 6 2 = 3#2 ∧ m.extractLsb' 3 3 = 3#3) ∧
    (m &&& 0xF8#8 = 0xE8#8 ↔ m.extractLsb' 6 2 = 3#2 ∧ m.extractLsb' 3 3 = 5#3) := by
  revert m; decide

/-- The operand is of the kind that the `mod` field of the ModR/M byte `m` says: a register where it is 11 (R58). -/
def OfMod (m : Byte) : Opnd Reg → Prop
  | .reg _ => m.extractLsb' 6 2 = 3#2
  | .mem _ => ¬ m.extractLsb' 6 2 = 3#2

theorem parseRm_cons {a32 : Bool} {m : Byte} {reg : BitVec 3} {bs r : List Byte} {o : Opnd Reg}
    (h : parseRm a32 (m :: bs) = some (reg, o, r)) : m.extractLsb' 3 3 = reg ∧ OfMod m o := by
  unfold parseRm at h
  dsimp only at h
  split at h
  · rename_i h3
    cases h
    exact ⟨rfl, h3⟩
  · rename_i h3
    split at h
    · cases h
      exact ⟨rfl, h3⟩
    · cases h

theorem parseRm_cons_none {a32 : Bool} {m : Byte} {bs : List Byte} (h : parseRm a32 (m :: bs) = none) (a : EA) :
    OfMod m (.mem a) := by
  intro h3
  simp [parseRm, h3] at h

/-- The rows that fit the opcode bytes `op` and a ModR/M byte are the one, or none, that `k` has for its `reg` field and an
operand of its kind. -/
def RowsFollow (op : List Byte) (k : BitVec 3 → Opnd Reg → Option Instr) : Prop :=
  ∀ (m : Byte) (tail : List Byte) (o : Opnd Reg), OfMod m o →
    fittingPlaces (op ++ m :: tail) = ((k (m.extractLsb' 3 3) o).map tablePlace).toList

theorem follows_decodeCut {op : List Byte} {k : BitVec 3 → Opnd Reg → Option Instr} (hk : RowsFollow op k) {m : Byte}
    (hm : OfMod m (.mem (.abs32 0))) (bs : List Byte) : FollowsTable (op ++ m :: bs) (decodeCut k (m :: bs)) := by
  have hf := hk m bs _ hm
  rw [decodeCut]
  split
  · trivial
  · rename_i hn
    exact hf.trans (by rw [hn]; rfl)

theorem follows_decodeRm {op : List Byte} {k : BitVec 3 → Opnd Reg → Option Instr} (hk : RowsFollow op k) (a32 : Bool)
    (bs : List Byte) : FollowsTable (op ++ bs) (decodeRm a32 k bs) := by
  cases bs with
  | nil => trivial
  | cons m bs =>
    unfold decodeRm
    split
    · rename_i h
      exact follows_decodeCut hk (parseRm_cons_none h _) bs
    · rename_i reg o r h
      obtain ⟨rfl, ho⟩ := parseRm_cons h
      have hf := hk m bs o ho
      split
      all_goals
        rename_i hi
        exact hf.trans (by rw [hi]; rfl)

theorem rowsFollow_F6 (p : List Pfx) : RowsFollow [0xF6] (rowsF6 p) := by
  intro m tail o _
  rw [List.singleton_append, fittingPlaces_cons]
  simp only [rowsF6, BitVec.ofNat_eq_ofNat]
  split_ifs with h6 h7
  all_goals simp [rowsFrom, opcodeRows, patternFits, OpRow.fits, modrm_masks, *, tablePlace]

theorem rowsFollow_F7 (p : List Pfx) (z : WSize) : RowsFollow [0xF7] (rowsF7 p z) := by
  intro m tail o _
  rw [List.singleton_append, fittingPlaces_cons]
  simp only [rowsF7, BitVec.ofNat_eq_ofNat]
  split_ifs with h6 h7
  all_goals simp [rowsFrom, opcodeRows, patternFits, OpRow.fits, modrm_masks, *, tablePlace]

theorem rowsFollow_FF (p : List Pfx) (z : WSize) : RowsFollow [0xFF] (rowsFF p z) := by
  intro m tail o ho
  rw [List.singleton_append, fittingPlaces_cons]
  simp only [rowsFF, BitVec.ofNat_eq_ofNat]
  split_ifs with h2 h3 h4 h5 h7
  all_goals
    cases o
    all_goals
      unfold OfMod at ho
      simp [rowsFrom, opcodeRows, patternFits, OpRow.fits, modrm_masks, *, tablePlace]

theorem rowsFollow_esc {b : Byte} (h : b.extractLsb' 3 5 = 0b11011#5) (p : List Pfx) :
    RowsFollow [b] (fun reg o => some (.esc p (b.extractLsb' 0 3) reg o)) := by
  intro m tail o _
  have hb : b &&& 0xF8#8 = 0xD8#8 := by revert b; decide
  rw [List.singleton_append, fittingPlaces_cons, rowsFrom_esc h]
  simp [OpRow.fits, patternFits, hb, tablePlace]

/-- The opcodes with a memory form and an invalid register form, each with the places of the two rows. -/
def memOpcodes : List (List Byte × Nat × Nat) :=
  [([0x62], 6, 30), ([0xC4], 18, 24), ([0xC5], 19, 26), ([0x0F, 0xB2], 20, 27), ([0x0F, 0xB4], 21, 28),
    ([0x0F, 0xB5], 22, 29)]

theorem fittingPlaces_mem {op : List Byte} {n inv : Nat} (h : (op, n, inv) ∈ memOpcodes) (m : Byte) (tail : List Byte) :
    fittingPlaces (op ++ m :: tail) = if m.extractLsb' 6 2 = 3#2 then [inv] else [n] := by
  simp only [memOpcodes, List.mem_cons, Prod.mk.injEq, List.not_mem_nil, or_false] at h
  rcases h with ⟨rfl, rfl, rfl⟩ | ⟨rfl, rfl, rfl⟩ | ⟨rfl, rfl, rfl⟩ | ⟨rfl, rfl, rfl⟩ | ⟨rfl, rfl, rfl⟩ | ⟨rfl, rfl, rfl⟩
  all_goals
    rw [List.cons_append, fittingPlaces_cons]
    by_cases h3 : m.extractLsb' 6 2 = 3#2
    all_goals simp [rowsFrom, opcodeRows, patternFits, OpRow.fits, modrm_masks, h3]

theorem rowsFollow_mem {op : List Byte} {k : Reg → EA → Instr} {inv : Reg → Reg → Instr}
    (h : ∀ r a rm, (op, tablePlace (k r a), tablePlace (inv r rm)) ∈ memOpcodes) : RowsFollow op (rowsMem k inv) := by
  intro m tail o ho
  cases o with
  | reg rm => exact (fittingPlaces_mem (h (Reg.ofNum _) (.abs32 0) rm) m tail).trans (if_pos ho)
  | mem a => exact (fittingPlaces_mem (h (Reg.ofNum _) a .eax) m tail).trans (if_neg ho)

/-! ### The decoder -/

theorem follows_decode0F (a32 : Bool) (p : List Pfx) (z : WSize) (bs : List Byte) :
    FollowsTable (0x0F :: bs) (decode0F a32 p z bs) := by
  cases bs with
  | nil => trivial
  | cons b bs =>
    rw [decode0F]
    refine iteInduction (fun h => ?_) fun hB2 => iteInduction (fun h => ?_) fun hB4 =>
      iteInduction (fun h => ?_) fun hB5 => ?none
    case none =>
      rw [BitVec.ofNat_eq_ofNat] at hB2 hB4 hB5
      have hb : b &&& 0xFF#8 = b := by revert b; decide
      rw [FollowsTable, fittingPlaces_cons]
      simp [rowsFrom, opcodeRows, patternFits, OpRow.fits, hb, hB2, hB4, hB5]
    all_goals subst h
    all_goals
      exact follows_decodeRm (op := [0x0F, _]) (rowsFollow_mem fun _ _ _ => by simp [tablePlace, memOpcodes]) a32 bs

theorem follows_decodeOp (a32 : Bool) (p : List Pfx) (z : WSize) (bs : List Byte) :
    FollowsTable bs (decodeOp a32 p z bs) := by
  cases bs with
  | nil => trivial
  | cons b bs =>
    unfold decodeOp
    dsimp only
    refine iteInduction (fun h => ?F6) fun nF6 => iteInduction (fun h => ?F7) fun nF7 =>
      iteInduction (fun h => ?CC) fun nCC => iteInduction (fun h => ?CE) fun nCE => iteInduction (fun h => ?bound) fun n62 =>
      iteInduction (fun h => ?esc) fun nEsc => iteInduction (fun h => ?wait) fun n9B => iteInduction (fun h => ?EB) fun nEB =>
      iteInduction (fun h => ?E9) fun nE9 => iteInduction (fun h => ?FF) fun nFF => iteInduction (fun h => ?EA) fun nEA =>
      iteInduction (fun h => ?E8) fun nE8 => iteInduction (fun h => ?far9A) fun n9A => iteInduction (fun h => ?les) fun nC4 =>
      iteInduction (fun h => ?lds) fun nC5 => iteInduction (fun h => ?twoByte) fun n0F => ?none
    case none =>
      rw [FollowsTable, fittingPlaces_cons, rowsFrom_other nEsc (by simp_all)]
      rfl
    case esc => exact follows_decodeRm (rowsFollow_esc h p) a32 bs
    all_goals subst h
    case F6 => exact follows_decodeRm (rowsFollow_F6 p) a32 bs
    case F7 => exact follows_decodeRm (rowsFollow_F7 p z) a32 bs
    case FF => exact follows_decodeRm (rowsFollow_FF p z) a32 bs
    case CC | CE | wait => exact fittingPlaces_plain (by simp [tablePlace, plainOpcodes]) bs
    case EB =>
      cases bs with
      | nil => trivial
      | cons d bs => exact fittingPlaces_plain (by simp [tablePlace, plainOpcodes]) (d :: bs)
    case E9 | E8 => exact follows_decodeRel (fun _ => by simp [tablePlace, plainOpcodes]) z bs
    case EA | far9A => exact follows_decodeFar (fun _ => by simp [tablePlace, plainOpcodes]) z bs
    case bound | les | lds =>
      exact follows_decodeRm (op := [_]) (rowsFollow_mem fun _ _ _ => by simp [tablePlace, memOpcodes]) a32 bs
    case twoByte => exact follows_decode0F a32 p z bs

/-- Settles O3: an opcode is followed by its rows (`follows_decodeOp`), whatever leading bytes come before. -/
theorem decodeFollowsOpcodeTable : Obligations.DecodeFollowsOpcodeTable := by
  unfold Obligations.DecodeFollowsOpcodeTable
  intro big bs
  have hf : FollowsTable (takePfx bs).2 (decode big bs) := follows_decodeOp _ _ _ _
  refine ⟨fun i rest h => ?_, fun h => ?_⟩
  · rw [h] at hf
    exact hf
  · rw [h] at hf
    exact List.map_eq_nil_iff.1 hf

end Sys2Proof.Machine
end

section
/-! A fetch that gives no instruction: a byte that is refused, an instruction longer than 15 bytes, bytes that match no row
(R48, R57, R65). -/

namespace Sys2Proof.Machine

theorem runNext_fetch_error {s : State} {x : Stop} (h : fetchInstr s = .error x) :
    runNext s = afterDelivery (complete (.error x)) := by
  simp only [runNext, h]

theorem fetchInstr_unlisted {s : State} (h : decode (codeBig s) (window s).1 = .unlisted) :
    fetchInstr s = .error (.refused .unlistedEncoding) := by
  simp only [fetchInstr, decodeWindow, h]

/-- An instruction that ends with the window neither refused nor at an end is too long. -/
theorem fetchInstr_tooLong {s : State} (h : decode (codeBig s) (window s).1 = .short) (hw : (window s).2 = none) :
    fetchInstr s = .error (.raised (faultWith 13 0 s) s) := by
  simp only [fetchInstr, decodeWindow, h, hw]
  rfl

theorem fetchInstr_stopped {s : State} {x : Stop} (h : decode (codeBig s) (window s).1 = .short)
    (hw : (window s).2 = some x) : fetchInstr s = .error x := by
  simp only [fetchInstr, decodeWindow, h, hw]

/-- Settles O6: the refusal of the decoder's answer ends the fetch, and with it the step. -/
theorem unlistedEncodingRefused : Obligations.UnlistedEncodingRefused := by
  unfold Obligations.UnlistedEncodingRefused
  intro s hu hd
  rw [step_undisturbed hu, runNext_fetch_error (fetchInstr_unlisted hd)]
  rfl

/-- Settles O7: a window that 15 admitted bytes fill stops nowhere, one with a refused byte stops there
(`fetchWindow_denied`), and no instruction can be read from no bytes at all. -/
theorem fetchFaultsDelivered : Obligations.FetchFaultsDelivered := by
  unfold Obligations.FetchFaultsDelivered
  intro s hu
  rw [step_undisturbed hu]
  refine ⟨fun hd hw => ?_, fun k d hk hl ha hden hs => ?_⟩
  · rw [runNext_fetch_error (fetchInstr_tooLong hd hw)]
    rfl
  · obtain ⟨hstop, hlen⟩ := fetchWindow_denied k Config.maxLength s.eip hk hl ha hden
    have hd : decode (codeBig s) (window s).1 = .short := by
      rcases hs with rfl | hd
      · rw [window, List.eq_nil_of_length_eq_zero hlen]
        rfl
      · exact hd
    rw [runNext_fetch_error (fetchInstr_stopped hd hstop)]
    rfl

end Sys2Proof.Machine
end

section
/-! Entry to a handler in real-address mode (R138, R139), and the invalid operand forms, which enter that of interrupt 6
(R63, R64, R122). -/

namespace Sys2Proof.Machine

/-! ### Entry through the real-mode vector table -/

/-- Where its handler can be entered, an event is delivered by entering it. -/
theorem deliver_of_invoke {e : Event} {s t : State} (h : invokeHandler e (report e s) = .ok t) :
    deliver e s = .next { t with delivering := none } := by
  rw [deliver, deliverChain_eq, h]

/-- The words an event pushes in real-address mode, the first of the list first (R139). -/
def realFrame (e : Event) (s : State) : List Word := [s.eflags, e.savedCS.setWidth 32, e.savedEIP]

/-- `s` entered at the vector table's entry for `e`, after the pushes that lead to `t` (R139, R46). -/
def enterReal (e : Event) (s t : State) : State :=
  { jump { t.setSeg .cs (segReal (BitVec.ofNat 16 (loadPhys t (4 * e.vector.toNat + 2)))) with
      eflags := realEntryFlags s.eflags } (BitVec.ofNat 32 (loadPhys t (4 * e.vector.toNat))) with
    delivering := none }

section
variable {e : Event} {s : State} (hr : RealReady s e.vector)
include hr

theorem pushAll_realFrame (hm : MemoryCanonical s) :
    ∃ t, pushAll (Origin.ofEvent (report e s) e) (report e s) .o16 (realFrame e s) = .ok t ∧
      Pushed (report e s) t .o16 (realFrame e s) := by
  obtain ⟨hmode, hpg, hpush, -, -⟩ := hr
  refine pushAll_ok _ _ (s := report e s) hpg hm (by simp [realFrame, WSize.bytes]) fun k hk => ?_
  have hc : cpl (report e s) = 0 := by simp only [cpl, show mode (report e s) = .realMode from hmode]
  rw [hc]
  exact hpush k hk

/-- Once its pushes are made, an event in real-address mode enters its handler. -/
theorem deliver_realFrame {t : State}
    (ht : pushAll (Origin.ofEvent (report e s) e) (report e s) .o16 (realFrame e s) = .ok t) :
    deliver e s = .next (enterReal e s t) := by
  obtain ⟨hmode, -, -, hvec, -⟩ := hr
  have hvec' : admits (report e s) (vectorKey (report e s) .ivt e.vector 4) := hvec
  refine deliver_of_invoke (t := { enterReal e s t with delivering := t.delivering }) ?_
  rw [invokeHandler, if_pos (show mode (report e s) = .realMode from hmode), invokeReal]
  simp only [realFrame] at ht
  simp only [report_eflags, ht, bind_ok, check_ok _ hvec']
  rfl

omit hr in
theorem Pushed.readLin_enterReal {t : State} (P : Pushed (report e s) t .o16 (realFrame e s)) {k : Nat} (hk : k < 3) :
    readLin (enterReal e s t) (s.lin .ss (slotOff (s.reg .esp) .o16 k)) 2 = (realFrame e s)[k].toNat % 2 ^ 16 := by
  refine (readLin_of_eq (t := t) rfl rfl rfl rfl _ _).trans ((P.stack k hk).trans (truncZ_toNat _ _))

theorem realEntered_enterReal {t : State} (P : Pushed (report e s) t .o16 (realFrame e s)) :
    RealEntered e s (enterReal e s t) := by
  obtain ⟨-, -, -, -, hun⟩ := hr
  have hu : ∀ k < 4, Unshared t (4 * e.vector.toNat + k) := fun k hk c hc => hun k hk c (P.amid c hc)
  exact {
    reported := P.reported
    delivering := rfl
    esp := P.gpr
    ip := P.readLin_enterReal (k := 2) (by decide)
    cs := (P.readLin_enterReal (k := 1) (by decide)).trans (by simp [realFrame]; omega)
    flags := P.readLin_enterReal (k := 0) (by decide)
    stackOnly := P.only
    eflags := rfl
    entryIp := congrArg (BitVec.ofNat 32) (loadPhys_unshared (hu 0 (by decide)) (hu 1 (by decide)))
    entryCs := by
      show t.segs.set .cs _ = _
      rw [P.segs, loadPhys_unshared (hu 2 (by decide)) (hu 3 (by decide))]
      rfl
    prefetch := rfl
    cr2 := P.cr2
    draws := P.draws
    kept := ⟨P.ldtr, P.tr, P.gdtr, P.idtr, P.cr0, P.cr3, P.dr, P.tr6, P.tr7, P.shutdown, P.halted, P.nmiBlocked,
      P.switched, P.debugTrap, P.pins, P.amid⟩ }

/-- In real-address mode, with the accesses admitted, the delivery of an event enters its handler (R138, R139). -/
theorem deliver_realReady (hm : MemoryCanonical s) : ∃ t, deliver e s = .next t ∧ RealEntered e s t := by
  obtain ⟨t, ht, P⟩ := pushAll_realFrame hr hm
  exact ⟨enterReal e s t, deliver_realFrame hr ht, realEntered_enterReal hr P⟩

end

/-! ### The invalid operand forms -/

theorem exec_invalidForm {i : Instr} (h : invalidForm i = true) (s : State) : exec i s = deliver (faultOf 6 s) s := by
  cases i with
  | invJmpFarReg | invLesReg | invCallFarReg | invLdsReg | invLssReg | invLfsReg | invLgsReg | invBoundReg | invFf7 => rfl
  | _ => cases h

/-- Settles O49: an invalid form raises interrupt 6 and nothing else (`exec_invalidForm`), whose handler is entered as that
of any event (`deliver_realReady`). -/
theorem invalidFormsRaiseSix : Obligations.InvalidFormsRaiseSix := by
  unfold Obligations.InvalidFormsRaiseSix
  intro s i hi
  rw [exec_invalidForm hi]
  exact ⟨rfl, fun hm hr => deliver_realReady hr hm⟩

end Sys2Proof.Machine
end

section
/-! DIV and IDIV: the state a completed division answers, and the divide error (R75 to R77). -/

namespace Sys2Proof.Machine

/-! ### Where the quotient fits -/

/-- The general registers of `s` with a quotient and a remainder written to AL and AH, AX and DX, or EAX and EDX (R77). -/
def quotientGprs (s : State) : (sz : DivSize) → (q r : BitVec sz.bits) → Gprs
  | .d8, (q : Byte), (r : Byte) => s.gpr.set .eax ((s.reg .eax).extractLsb' 16 16 ++ (r ++ q))
  | .dz .o16, (q : Half), (r : Half) =>
    (s.gpr.set .eax ((s.reg .eax).extractLsb' 16 16 ++ q)).set .edx ((s.reg .edx).extractLsb' 16 16 ++ r)
  | .dz .o32, (q : Word), (r : Word) => (s.gpr.set .eax q).set .edx r

/-- `s` after a completed division by an instruction of `len` bytes: what R77 names, and nothing else, has changed. -/
def afterDivision (s : State) (sz : DivSize) (len : Nat) (q r : BitVec sz.bits) : State :=
  { s with
    gpr := quotientGprs s sz q r
    eflags := withStatus s.eflags (Config.divFlags s.draws)
    eip := s.eip + BitVec.ofNat 32 len
    draws := s.draws + 1 }

theorem writeQuotient_eq (s : State) (sz : DivSize) (q r : Int) :
    writeQuotient s sz q r = { s with gpr := quotientGprs s sz (BitVec.ofInt sz.bits q) (BitVec.ofInt sz.bits r) } := by
  rcases sz with _ | (_ | _) <;> rfl

theorem complete_bind_next {α : Type} {m : Res α} {a : α} {f : α → Res State} {t : State} (hm : m = .ok a)
    (hf : f a = .ok t) : complete (m >>= f) = .next t := by
  rw [hm, bind_ok, hf]
  rfl

section
variable {s : State} {len : Nat} (h : s.eip.toNat + len ≤ 0xFFFFFFFF)
include h

theorem divide_completes {sg : Signedness} {sz : DivSize} {d : Word} {q r : Int}
    (hd : truncatedDivision (dividend s sg sz) (divisor sg sz d) q r) (hq : quotientFits sg sz.bits q = true) :
    divide s sg sz len d = .ok (afterDivision s sz len (BitVec.ofInt sz.bits q) (BitVec.ofInt sz.bits r)) := by
  obtain ⟨hquo, hrem⟩ := tdiv_tmod_of_truncatedDivision hd
  rw [divide, divideError_eq_false hd hq, if_neg Bool.false_ne_true, advance_ok (by rwa [divided_eip]), divided_eip,
    divided, hquo, hrem, writeQuotient_eq]
  rfl

theorem divide_completes_unsigned {sz : DivSize} {d : Word} {n q r : Nat} (hn : dividend s .unsigned sz = n)
    (he : n = q * d.toNat + r) (hr : r < d.toNat) (hq : q < 2 ^ sz.bits) :
    divide s .unsigned sz len d = .ok (afterDivision s sz len (BitVec.ofNat sz.bits q) (BitVec.ofNat sz.bits r)) := by
  rw [divide_completes h (hn ▸ truncatedDivision_natCast he hr) (quotientFits_unsigned hq), BitVec.ofInt_natCast,
    BitVec.ofInt_natCast]

theorem divide_completes_signed {sz : DivSize} {d : Word} {q r : Int}
    (hd : truncatedDivision (dividend s .signed sz) (d.setWidth sz.bits).toInt q r)
    (hl : -2 ^ (sz.bits - 1) ≤ q) (hu : q ≤ 2 ^ (sz.bits - 1) - 1) :
    divide s .signed sz len d = .ok (afterDivision s sz len (BitVec.ofInt sz.bits q) (BitVec.ofInt sz.bits r)) :=
  divide_completes h hd (quotientFits_signed hl hu)

end

/-- Settles O37: DIV reads its divisor and then completes as `divide_completes_unsigned` says, at each size. -/
theorem divCompletes : Obligations.DivCompletes := by
  unfold Obligations.DivCompletes
  intro s pre d q r hr
  refine ⟨?_, ?_, ?_⟩ <;> intro src hd he hq h <;>
    exact ⟨_, complete_bind_next hd (divide_completes_unsigned h rfl he hr hq)⟩

/-- Settles O38: IDIV reads its divisor and then completes as `divide_completes_signed` says, at each size. -/
theorem idivCompletes : Obligations.IdivCompletes := by
  unfold Obligations.IdivCompletes
  intro s pre d q r
  refine ⟨?_, ?_, ?_⟩ <;> intro src hd hq hl hu h <;>
    exact ⟨_, complete_bind_next hd (divide_completes_signed h hq hl hu)⟩

/-! ### The divide error -/

theorem quotientFits_unsigned_eq_false {n q : Nat} (h : 2 ^ n ≤ q) : quotientFits .unsigned n (q : Int) = false := by
  have : (2 : Int) ^ n ≤ q := by exact_mod_cast h
  exact decide_eq_false (by omega)

theorem quotientFits_signed_eq_false {n : Nat} {q : Int} (h : q < -2 ^ (n - 1) ∨ 2 ^ (n - 1) - 1 < q) :
    quotientFits .signed n q = false := by
  rcases h with h | h <;> simp [quotientFits, h.not_ge]

theorem divideError_zero (s : State) (sg : Signedness) (sz : DivSize) : divideError s sg sz 0 = true := by
  have : divisor sg sz 0 = 0 := by cases sg <;> simp [divisor]
  rw [divideError, this]
  rfl

theorem divideError_eq_true {s : State} {sg : Signedness} {sz : DivSize} {d : Word} {q r : Int}
    (h : truncatedDivision (dividend s sg sz) (divisor sg sz d) q r) (hq : quotientFits sg sz.bits q = false) :
    divideError s sg sz d = true := by
  simp [divideError, (tdiv_tmod_of_truncatedDivision h).1, hq]

theorem divide_raises {s : State} {sg : Signedness} {sz : DivSize} {d : Word} (h : divideError s sg sz d = true)
    (len : Nat) : divide s sg sz len d = .error (.raised (faultOf 0 s) s) :=
  if_pos h

theorem divide_raises_unsigned {s : State} {sz : DivSize} {d : Word} {n : Nat} (hn : dividend s .unsigned sz = n)
    (h : d = 0 ∨ ∃ q r, n = q * d.toNat + r ∧ r < d.toNat ∧ 2 ^ sz.bits ≤ q) (len : Nat) :
    divide s .unsigned sz len d = .error (.raised (faultOf 0 s) s) := by
  refine divide_raises ?_ len
  rcases h with rfl | ⟨q, r, he, hr, hq⟩
  · exact divideError_zero s _ sz
  · exact divideError_eq_true (hn ▸ truncatedDivision_natCast he hr) (quotientFits_unsigned_eq_false hq)

theorem divide_raises_signed {s : State} {sz : DivSize} {d : Word}
    (h : d = 0 ∨ ∃ q r, truncatedDivision (dividend s .signed sz) (d.setWidth sz.bits).toInt q r ∧
      (q < -2 ^ (sz.bits - 1) ∨ 2 ^ (sz.bits - 1) - 1 < q)) (len : Nat) :
    divide s .signed sz len d = .error (.raised (faultOf 0 s) s) := by
  refine divide_raises ?_ len
  rcases h with rfl | ⟨q, r, hd, hq⟩
  · exact divideError_zero s _ sz
  · exact divideError_eq_true hd (quotientFits_signed_eq_false hq)

/-- Settles O39: DIV and IDIV read their divisor and then raise interrupt 0 as `divide_raises_unsigned` and
`divide_raises_signed` say, at each size. -/
theorem divideErrors : Obligations.DivideErrors := by
  unfold Obligations.DivideErrors
  intro s pre d
  refine ⟨?_, ?_, ?_⟩ <;> intro src hd <;>
    exact ⟨fun h => complete_bind_denied hd (divide_raises_unsigned rfl h _),
      fun h => complete_bind_denied hd (divide_raises_signed h _)⟩

end Sys2Proof.Machine
end

section
/-! INT 3, INTO and BOUND (R80 to R85), and the vectors of the events an instruction reports (R83, R94, R136). -/

namespace Sys2Proof.Machine

/-! ### A trap that is taken -/

theorem raiseTrap_ok {v : BitVec 8} {n : Nat} {s : State} (h : s.eip.toNat + n ≤ 0xFFFFFFFF) :
    raiseTrap v n s = deliver (eventAt v .trap { s with eip := s.eip + BitVec.ofNat 32 n })
      (clearRF { s with eip := s.eip + BitVec.ofNat 32 n }) := by
  rw [raiseTrap, advance_ok h]

theorem mode_eq_realMode_iff (s : State) : mode s = .realMode ↔ s.cr0PE = false := by
  unfold mode
  split
  · split <;> simp_all
  · simp_all

theorem cpl_of_realMode {s : State} (h : mode s = .realMode) : cpl s = 0 := by
  rw [cpl, h]

/-- A delivery in real-address mode is ready whatever the address and the flags of the instruction are. -/
theorem RealReady.withEipFlags {s : State} {v : BitVec 8} (h : RealReady s v) (eip eflags : Word) :
    RealReady { s with eip := eip, eflags := eflags } v := by
  obtain ⟨hmode, hpg, hpush, hvec, hun⟩ := h
  have hmode' : mode { s with eip := eip, eflags := eflags } = .realMode :=
    (mode_eq_realMode_iff _).2 ((mode_eq_realMode_iff s).1 hmode)
  refine ⟨hmode', hpg, hpush, ?_, hun⟩
  rw [vectorKey, cpl_of_realMode hmode] at hvec
  rw [vectorKey, cpl_of_realMode hmode']
  exact hvec

/-! ### INT 3, INTO and BOUND -/

/-- Settles O40: the trap is taken at the next instruction (`raiseTrap_ok`), and its handler is entered as that of any event
(`deliver_realReady`). -/
theorem int3TakesBreakpoint : Obligations.Int3TakesBreakpoint := by
  unfold Obligations.Int3TakesBreakpoint
  intro s pre h
  have hx : exec (.int3 pre) s = raiseTrap 3 (Instr.len (.int3 pre)) s := rfl
  rw [hx, raiseTrap_ok h, Instr.len_eq]
  exact ⟨_, _, rfl, rfl, rfl, fun hm hr => deliver_realReady (hr.withEipFlags _ _) hm⟩

theorem exec_into_of_flagOF {s : State} (h : s.flagOF = true) (pre : List Pfx) :
    exec (.into pre) s = raiseTrap 4 (Instr.len (.into pre)) s :=
  if_pos h

theorem exec_into_of_not_flagOF {s : State} (h : s.flagOF = false) (pre : List Pfx) :
    exec (.into pre) s = complete (advance s (Instr.len (.into pre))) :=
  if_neg (ne_true_of_eq_false h)

/-- Settles O41: INTO asks for OF, and then advances or takes its trap. -/
theorem intoTestsOverflow : Obligations.IntoTestsOverflow := by
  unfold Obligations.IntoTestsOverflow
  intro s pre h
  refine ⟨fun ho => ?_, fun ho => ?_⟩
  · rw [exec_into_of_not_flagOF ho, advance_ok h, Instr.len_eq]
    rfl
  · rw [exec_into_of_flagOF ho, raiseTrap_ok h, Instr.len_eq]
    rfl

theorem signedZ_regZ (s : State) (z : WSize) (r : Reg) : signedZ z (s.regZ z r) = signedZ z (s.reg r) := by
  cases z
  · simp [signedZ, State.regZ, State.reg16]
  · rfl

theorem outOfBounds_iff (z : WSize) (idx lower upper : Word) :
    outOfBounds z idx lower upper = true ↔
      signedZ z idx < signedZ z lower ∨ signedZ z upper < signedZ z idx := by
  simp [outOfBounds]

theorem boundCheck_of_limits {s : State} {pre : List Pfx} {z : WSize} {m : EA} {lower upper : Word}
    (hl : readEA s pre m 0 z.bytes = .ok lower) (hu : readEA s pre m z.bytes z.bytes = .ok upper) (idx : Reg) (len : Nat) :
    boundCheck pre z idx m len s =
      if outOfBounds z (s.regZ z idx) lower upper then .error (.raised (faultOf 5 s) s) else advance s len := by
  rw [boundCheck, hl, hu]
  rfl

/-- Settles O42: with both limits read BOUND decides by `outOfBounds`, whose index is read as the register's low half at
operand size 16 (`signedZ_regZ`). -/
theorem boundChecksLimits : Obligations.BoundChecksLimits := by
  unfold Obligations.BoundChecksLimits
  intro s pre z idx m lower upper hl hu
  have hx : exec (.bound pre z idx m) s = complete (boundCheck pre z idx m (Instr.len (.bound pre z idx m)) s) := rfl
  rw [hx, boundCheck_of_limits hl hu]
  have hout := outOfBounds_iff z (s.regZ z idx) lower upper
  rw [signedZ_regZ] at hout
  refine ⟨fun ⟨hlo, hup⟩ h => ?_, fun ho => ?_⟩
  · rw [if_neg (by rw [hout]; omega), advance_ok h]
    rfl
  · rw [if_pos (hout.2 ho)]
    rfl

/-! ### The vectors an instruction reports -/

/-- Every event reported between `s` and `t` has a vector of which `P` holds. -/
def ReportsOnly (P : BitVec 8 → Prop) (s t : State) : Prop :=
  ∃ l, t.reported = l ++ s.reported ∧ ∀ e ∈ l, P e.vector

section
variable {P : BitVec 8 → Prop}

theorem Evolves.reportsOnly {s t : State} (h : Evolves s t) : ReportsOnly P s t :=
  ⟨[], h.reported, fun _ he => absurd he List.not_mem_nil⟩

theorem ReportsOnly.trans {a b c : State} (h : ReportsOnly P a b) (k : ReportsOnly P b c) : ReportsOnly P a c := by
  obtain ⟨l, hl, hP⟩ := h
  obtain ⟨m, hm, kP⟩ := k
  refine ⟨m ++ l, by rw [hm, hl, List.append_assoc], fun e he => ?_⟩
  rcases List.mem_append.1 he with he | he
  · exact kP e he
  · exact hP e he

theorem reportsOnly_report {e : Event} (h : P e.vector) (s : State) : ReportsOnly P s (report e s) :=
  ⟨[e], rfl, fun _ hf => List.mem_singleton.1 hf ▸ h⟩

/-- Besides its own event a delivery reports second exceptions and the double fault (R126, R138). -/
theorem Delivered.reportsOnly {e : Event} {s t : State} (h : Delivered e s t) (h8 : P 8)
    (h2 : ∀ v, secondVector v → P v) (he : P e.vector) : ReportsOnly P s t := by
  induction h with
  | entered h => exact (reportsOnly_report he _).trans (invokeHandler_ok h).reportsOnly
  | shutdown _ h => exact (reportsOnly_report he _).trans (invokeHandler_raised h).1.reportsOnly
  | second _ h _ _ ih =>
    obtain ⟨hc, hs⟩ := invokeHandler_raised h
    exact ((reportsOnly_report he _).trans hc.reportsOnly).trans (ih (h2 _ hs.vector))
  | double _ h _ _ ih =>
    have hc := (invokeHandler_raised h).1.trans (evolves_abortState 8 _)
    exact ((reportsOnly_report he _).trans hc.reportsOnly).trans (ih h8)

/-- An instruction reports its own vector, those of second exceptions and the double fault. -/
theorem exec_reportsOnly {i : Instr} {s t : State} (h : exec i s = .next t) (h8 : P 8)
    (h2 : ∀ v, secondVector v → P v) (own : ∀ v, ownVector i = some v → P v) : ReportsOnly P s t := by
  have hv : Reports (Origin.ofInstr s) fun e _ => P e.vector :=
    ⟨fun v _ _ hs _ _ => h2 v hs, fun _ v _ _ _ hs _ _ => h2 v hs⟩
  rcases exec_yields i hv own with ⟨r, hr, hy⟩ | ⟨v, ho, hr⟩
  · rcases complete_next (hr.symm.trans h) with rfl | ⟨e, c, rfl, hd⟩
    · exact Evolves.reportsOnly hy
    · obtain ⟨hc, he⟩ := hy
      exact hc.reportsOnly.trans (hd.reportsOnly h8 h2 he)
  · obtain ⟨u, hu, hd⟩ := raiseTrap_next (hr.symm.trans h)
    have ha : Evolves s u := (yields_advance (V := fun _ _ => True) (Evolves.refl s) _).ok hu
    exact (ha.trans (evolves_clearRF u)).reportsOnly.trans (hd.reportsOnly h8 h2 (own v ho))

end

/-- Settles O57: `exec_reportsOnly`, for the vectors the statement lists. -/
theorem vectorsByInstruction : Obligations.VectorsByInstruction := by
  unfold Obligations.VectorsByInstruction
  intro i s t h
  exact exec_reportsOnly (P := fun v => v ∈ [8, 10, 11, 12, 13, 14] ∨ ownVector i = some v) h (by simp)
    (fun v hv => .inl (List.mem_cons_of_mem _ (by simpa [secondVector] using hv))) fun _ ho => .inr ho

end Sys2Proof.Machine
end

section
/-! ESC and WAIT (R90, R92, R93): each row of the truth table of interrupt 7, and the step of a WAIT that is held. -/

namespace Sys2Proof.Machine

section
variable {s : State}

theorem monitorSwitched_iff : s.monitorSwitched = true ↔ s.cr0MP = true ∧ s.cr0TS = true :=
  Bool.and_eq_true_iff

theorem monitorSwitched_eq_false (h : ¬ (s.cr0MP = true ∧ s.cr0TS = true)) : s.monitorSwitched = false :=
  eq_false_of_ne_true (mt monitorSwitched_iff.1 h)

/-! ### ESC -/

theorem escape_raises (h : s.cr0EM = true ∨ (s.cr0MP = true ∧ s.cr0TS = true)) :
    escape s = .error (.raised (faultOf 7 s) s) :=
  if_pos (Bool.or_eq_true_iff.2 (h.imp_right monitorSwitched_iff.2))

theorem escape_refuses (hem : s.cr0EM = false) (hm : s.monitorSwitched = false) :
    escape s = .error (.refused (if s.cr0TS then .escTaskSwitched else .coprocessorInstruction)) := by
  rw [escape, hem, hm]
  cases s.cr0TS <;> rfl

/-! ### WAIT -/

theorem waitFor_raises (h : s.cr0MP = true ∧ s.cr0TS = true) (len : Nat) :
    waitFor len s = .error (.raised (faultOf 7 s) s) :=
  if_pos (monitorSwitched_iff.2 h)

theorem waitFor_of_not_raised (h : ¬ (s.cr0MP = true ∧ s.cr0TS = true)) (len : Nat) :
    waitFor len s =
      if s.pins.npxError then .error (.refused .coprocessorError)
      else if s.pins.npxBusy then .ok s
      else advance s len :=
  if_neg (mt monitorSwitched_iff.1 h)

theorem heldAt_wait (hm : s.monitorSwitched = false) (he : s.pins.npxError = false) (hb : s.pins.npxBusy = true)
    (pre : List Pfx) : heldAt s (.wait pre) = true := by
  rw [heldAt, waitHeld, hm, he, hb]
  rfl

end

/-- Settles O43: both instructions first ask for interrupt 7, whose handler is entered as that of any event
(`deliver_realReady`); without it ESC is refused by what TS is, and WAIT asks for the error, then for busy. -/
theorem escAndWaitTruthTable : Obligations.EscAndWaitTruthTable := by
  unfold Obligations.EscAndWaitTruthTable
  intro s pre low ext src
  have hesc : exec (.esc pre low ext src) s = complete (escape s) := rfl
  have hwait : exec (.wait pre) s = complete (waitFor (Instr.len (.wait pre)) s) := rfl
  rw [hesc, hwait]
  refine ⟨fun h => ?esc7, fun hem hmp hts => ?escTS, fun hem hts => ?escRest, fun h => ?wait7,
    fun h => ⟨fun he => ?waitError, fun he hb hlen => ?waitIdle, fun he hb => ?waitHeld⟩⟩
  case esc7 =>
    rw [escape_raises h]
    exact ⟨rfl, fun hm hr => deliver_realReady hr hm⟩
  case escTS =>
    rw [escape_refuses hem (monitorSwitched_eq_false (by simp [hmp])), hts]
    rfl
  case escRest =>
    rw [escape_refuses hem (monitorSwitched_eq_false (by simp [hts])), hts]
    rfl
  case wait7 =>
    rw [waitFor_raises h]
    rfl
  case waitError =>
    rw [waitFor_of_not_raised h, he]
    rfl
  case waitIdle =>
    rw [waitFor_of_not_raised h, he, hb, advance_ok hlen, Instr.len_eq]
    rfl
  case waitHeld =>
    rw [waitFor_of_not_raised h, he, hb]
    rfl

/-- Settles O10: the step fetches the WAIT and, finding it held (`heldAt_wait`), answers the state it began in. -/
theorem heldWaitWaits : Obligations.HeldWaitWaits := by
  unfold Obligations.HeldWaitWaits
  intro s pre rest hu hd hm he hb
  rw [step_undisturbed hu, runNext, fetchInstr_of_decode hd]
  exact if_pos (heldAt_wait hm he hb pre)

end Sys2Proof.Machine
end

section
/-! The commit of a task switch (R102): the bytes its stores may change, what the old TSS then holds, and the context the
switch goes on in (R133). -/

namespace Sys2Proof.Machine

/-! ### Stores at named linear addresses -/

/-- From `s` to `t` only stores were made, without paging at linear addresses in `A` alone. -/
structure StoresIn (A : Set Word) (s t : State) : Prop where
  eqs : t = { s with mem := t.mem, amid := t.amid, stored := t.stored }
  amid : ∀ c ∈ t.amid, c ∈ s.amid
  wf : MemoryCanonical s → MemoryCanonical t
  only : s.cr0PG = false → ∀ a : Nat, (∀ w ∈ A, a ≠ w.toNat) → t.mem.read a = s.mem.read a

section
variable {A : Set Word} {s t u : State}

theorem StoresIn.refl (A : Set Word) (s : State) : StoresIn A s s := ⟨rfl, fun _ => id, id, fun _ _ _ => rfl⟩

theorem StoresIn.paging (h : StoresIn A s t) : t.cr0PG = s.cr0PG := by rw [h.eqs]; rfl

theorem StoresIn.descAddr (h : StoresIn A s t) (sel : Half) : descAddr t sel = descAddr s sel := by rw [h.eqs]; rfl

theorem StoresIn.alone (h : StoresIn A s t) (ha : Alone s) : Alone t :=
  List.eq_nil_iff_forall_not_mem.2 fun c hc => by simpa [ha] using h.amid c hc

theorem StoresIn.trans (h : StoresIn A s t) (k : StoresIn A t u) : StoresIn A s u where
  eqs := by rw [k.eqs, h.eqs]
  amid := fun c hc => h.amid c (k.amid c hc)
  wf := k.wf ∘ h.wf
  only := fun hp a ha => (k.only (h.paging.trans hp) a ha).trans (h.only hp a ha)

theorem StoresIn.bytesAt (h : StoresIn A s t) (hp : s.cr0PG = false) {lin : Word} {n : Nat}
    (hA : ∀ w ∈ A, ∀ k < n, lin + BitVec.ofNat 32 k ≠ w) : bytesAt t lin n = bytesAt s lin n :=
  bytesAt_congr (h.paging.trans hp) hp lin n fun k hk =>
    h.only hp _ fun w hw e => hA w hw k hk (BitVec.eq_of_toNat_eq e)

theorem StoresIn.readLin (h : StoresIn A s t) (hp : s.cr0PG = false) {lin : Word} {n : Nat}
    (hA : ∀ w ∈ A, ∀ k < n, lin + BitVec.ofNat 32 k ≠ w) : readLin t lin n = readLin s lin n :=
  congrArg leValue (h.bytesAt hp hA)

theorem storesIn_store {lin : Word} {n : Nat} (h : ∀ k < n, lin + BitVec.ofNat 32 k ∈ A) (s : State) (v : Word) :
    StoresIn A s (store s lin n v) where
  eqs := rfl
  amid := fun _ => overtake_subset
  wf := fun hm => store_wf hm lin n v
  only := fun hp a ha => onlyBytes_store hp lin n v a fun k hk => ha _ (h k hk)

theorem storesIn_storeFields {base : Word} {fs : List (Nat × Nat × Word)} (s : State)
    (h : ∀ f ∈ fs, ∀ k < f.2.1, base + BitVec.ofNat 32 f.1 + BitVec.ofNat 32 k ∈ A) :
    StoresIn A s (storeFields base fs s) := by
  induction fs generalizing s with
  | nil => exact StoresIn.refl A s
  | cons f fs ih =>
    exact (storesIn_store (h f List.mem_cons_self) s f.2.2).trans
      (ih _ fun g hg => h g (List.mem_cons_of_mem _ hg))

theorem storesIn_setBusy {sel : Half} (h : descAddr s sel + 5 ∈ A) (b : Bool) : StoresIn A s (setBusy s sel b) := by
  refine storesIn_store (fun k hk => ?_) s _
  obtain rfl : k = 0 := by omega
  simpa using h

end

/-! ### The stores of the commit -/

/-- The old TSS marked available, where the switch does that. -/
def markFree (frees : Bool) (old : Half) (s : State) : State := if frees then setBusy s old false else s

/-- The backlink of the new TSS set to the old one, where the switch does that. -/
def linkBack (links : Bool) (base : Word) (old : Half) (s : State) : State :=
  if links then store s base 2 (old.setWidth 32) else s

/-- The stores of the commit after the old task has been saved (R102). -/
def markTables (frees links : Bool) (old sel : Half) (base : Word) (s : State) : State :=
  setBusy (linkBack links base old (markFree frees old s)) sel true

/-- The old task saved in its TSS (R102). -/
def saveTask (s : State) (cause : Cause) (cs : Half) (eip : Word) : State :=
  storeFields s.tr.base (savedFields s cs eip (oldFlags s cause)) s

theorem storesIn_saveTask (s : State) (cause : Cause) (cs : Half) (eip : Word) :
    StoresIn Set.univ s (saveTask s cause cs eip) :=
  storesIn_storeFields s fun _ _ _ _ => Set.mem_univ _

theorem commitTables_eq (s : State) (sel : Half) (base : Word) (cause : Cause) (cs : Half) (eip : Word) :
    commitTables s sel base cause cs eip =
      markTables (freesOld s cause) cause.links s.tr.sel sel base (saveTask s cause cs eip) := rfl

section
variable {A : Set Word} {s : State} {frees links : Bool} {old sel : Half} {base : Word}

theorem storesIn_markFree (h : frees = true → descAddr s old + 5 ∈ A) : StoresIn A s (markFree frees old s) := by
  cases frees
  · exact StoresIn.refl A s
  · exact storesIn_setBusy (h rfl) false

theorem storesIn_linkBack (h : links = true → ∀ j < 2, base + BitVec.ofNat 32 j ∈ A) :
    StoresIn A s (linkBack links base old s) := by
  cases links
  · exact StoresIn.refl A s
  · exact storesIn_store (h rfl) s _

theorem storesIn_markTables (hold : frees = true → descAddr s old + 5 ∈ A)
    (hlink : links = true → ∀ j < 2, base + BitVec.ofNat 32 j ∈ A) (hnew : descAddr s sel + 5 ∈ A) :
    StoresIn A s (markTables frees links old sel base s) := by
  have h := (storesIn_markFree hold).trans (storesIn_linkBack (old := old) hlink)
  exact h.trans (storesIn_setBusy (by rwa [h.descAddr]) true)

end

theorem links_iff (c : Cause) : c.links = true ↔ c = .call ∨ c = .interrupt := by cases c <;> simp [Cause.links]

theorem freesOld_iff (s : State) (c : Cause) :
    freesOld s c = true ↔ (c = .jmp ∨ c = .ret) ∧ selNull s.tr.sel = false := by
  cases c <;> simp [freesOld, Cause.links]

/-- The access byte of a TSS descriptor marked busy has the busy bit. -/
theorem setBusy_busyBit {s : State} (hm : MemoryCanonical s) (hp : s.cr0PG = false) (sel : Half) :
    ((setBusy s sel true).mem.read (descAddr s sel + 5).toNat).getLsbD 1 = true := by
  have h := read_store hm hp (descAddr s sel + 5) (n := 1) (by decide)
    (((BitVec.ofNat 8 (loadLin s (descAddr s sel + 5) 1) : Byte) ||| 2).setWidth 32) (k := 0) (by decide)
  simp only [BitVec.add_zero] at h
  rw [setBusy, if_pos rfl, h]
  simp

/-! ### What the old TSS holds -/

/-- Fields stored in rising order, none reaching into the next, read back. -/
theorem readLin_storeFields {base : Word} {fs : List (Nat × Nat × Word)} {s : State} (hp : s.cr0PG = false)
    (hm : MemoryCanonical s) (hs : fs.Pairwise fun f g => f.1 + f.2.1 ≤ g.1) (hb : ∀ f ∈ fs, f.1 + f.2.1 ≤ 2 ^ 32)
    {f : Nat × Nat × Word} (hf : f ∈ fs) :
    readLin (storeFields base fs s) (base + BitVec.ofNat 32 f.1) f.2.1 = f.2.2.toNat % 256 ^ f.2.1 := by
  induction fs generalizing s with
  | nil => cases hf
  | cons g fs ih =>
    obtain ⟨hg, hs⟩ := List.pairwise_cons.1 hs
    have hb' : ∀ f ∈ fs, f.1 + f.2.1 ≤ 2 ^ 32 := fun f hf => hb f (List.mem_cons_of_mem _ hf)
    rcases List.mem_cons.1 hf with rfl | hf
    · have hf32 := hb f List.mem_cons_self
      rw [← readLin_store hp hm (base + BitVec.ofNat 32 f.1) (by omega : f.2.1 ≤ 2 ^ 32) f.2.2]
      have later : StoresIn {w | ∀ k < f.2.1, base + BitVec.ofNat 32 f.1 + BitVec.ofNat 32 k ≠ w}
          (store s (base + BitVec.ofNat 32 f.1) f.2.1 f.2.2) (storeFields base (f :: fs) s) := by
        refine storesIn_storeFields _ fun g hgs j hj k hk e => ?_
        have hg32 := hb' g hgs
        have hlt := hg g hgs
        rw [BitVec.add_assoc, BitVec.add_assoc, ← BitVec.ofNat_add, ← BitVec.ofNat_add] at e
        have := lin_add_inj (by omega) (by omega) (congrArg BitVec.toNat e)
        omega
      exact later.readLin hp fun w hw => hw
    · exact ih (s := store s _ _ _) hp (store_wf hm _ _ _) hs hb' hf

theorem savedFields_pairwise (s : State) (cs : Half) (eip fl : Word) :
    (savedFields s cs eip fl).Pairwise fun f g => f.1 + f.2.1 ≤ g.1 := by
  simp [savedFields]

/-- The saved fields lie in the 64 bytes from offset 32 on (R23). -/
theorem savedFields_bounds {s : State} {cs : Half} {eip fl : Word} {f : Nat × Nat × Word}
    (h : f ∈ savedFields s cs eip fl) : 32 ≤ f.1 ∧ f.1 + f.2.1 ≤ 96 := by
  have hall : ∀ f ∈ savedFields s cs eip fl, 32 ≤ f.1 ∧ f.1 + f.2.1 ≤ 96 := by simp [savedFields]
  exact hall f h

/-- A byte of a saved field, counted from offset 32. -/
theorem saved_byte (base : Word) {off k : Nat} (h : 32 ≤ off) :
    base + BitVec.ofNat 32 off + BitVec.ofNat 32 k = base + 32 + BitVec.ofNat 32 (off - 32 + k) := by
  obtain ⟨m, rfl⟩ := Nat.exists_eq_add_of_le h
  rw [show 32 + m - 32 + k = m + k by omega, BitVec.ofNat_add, BitVec.ofNat_add]
  simp only [BitVec.add_assoc]
  rfl

section
variable {s t : State} {cause : Cause} {cs : Half} {eip : Word} {A : Set Word} (hm : MemoryCanonical s)
  (hp : s.cr0PG = false) (ht : StoresIn A (saveTask s cause cs eip) t)
  (hA : ∀ w ∈ A, ∀ k < 64, s.tr.base + 32 + BitVec.ofNat 32 k ≠ w)
include hm hp ht hA

/-- What a field of the old TSS holds after stores elsewhere. -/
theorem readLin_savedField {f : Nat × Nat × Word} (hf : f ∈ savedFields s cs eip (oldFlags s cause)) :
    readLin t (s.tr.base + BitVec.ofNat 32 f.1) f.2.1 = f.2.2.toNat % 256 ^ f.2.1 := by
  obtain ⟨hlo, hhi⟩ := savedFields_bounds hf
  rw [ht.readLin ((storesIn_saveTask s cause cs eip).paging.trans hp) fun w hw k hk => by
    rw [saved_byte _ hlo]
    exact hA w hw _ (by omega)]
  exact readLin_storeFields hp hm (savedFields_pairwise s cs eip _)
    (fun g hg => by have := savedFields_bounds hg; omega) hf

/-- The old TSS holds the old task (R102). -/
theorem readTss_saved (ha : Alone t) : readTss t s.tr.base = { readTss t s.tr.base with
    eip := eip, eflags := oldFlags s cause, gpr := s.gpr
    es := s.segs.es.sel, cs := cs, ss := s.segs.ss.sel, ds := s.segs.ds.sel, fs := s.segs.fs.sel
    gs := s.segs.gs.sel } := by
  have hword : ∀ v : Word, BitVec.ofNat 32 (v.toNat % 256 ^ 4) = v := fun v =>
    BitVec.eq_of_toNat_eq (by have := v.isLt; simp; omega)
  have hsel : ∀ v : Half, BitVec.ofNat 16 ((v.setWidth 32).toNat % 256 ^ 2) = v := fun v =>
    BitVec.eq_of_toNat_eq (by have := v.isLt; simp; omega)
  have hall := fun f => readLin_savedField hm hp ht hA (f := f)
  simp only [savedFields, List.mem_cons, List.not_mem_nil, or_false, forall_eq_or_imp, forall_eq] at hall
  simp only [readTss, tssWord, tssSel, loadLin_alone ha, hall, hword, hsel]

end

/-! ### The whole commit -/

section
variable {s : State} {sel : Half} {base : Word} {cause : Cause} {cs : Half} {eip : Word}

theorem storesIn_commitTables {A : Set Word}
    (hsave : ∀ f ∈ savedFields s cs eip (oldFlags s cause), ∀ k < f.2.1,
      s.tr.base + BitVec.ofNat 32 f.1 + BitVec.ofNat 32 k ∈ A)
    (hold : freesOld s cause = true → descAddr s s.tr.sel + 5 ∈ A)
    (hlink : cause.links = true → ∀ j < 2, base + BitVec.ofNat 32 j ∈ A) (hnew : descAddr s sel + 5 ∈ A) :
    StoresIn A s (commitTables s sel base cause cs eip) := by
  have h : StoresIn A s (saveTask s cause cs eip) := storesIn_storeFields s hsave
  exact h.trans (storesIn_markTables (by rwa [h.descAddr]) hlink (by rwa [h.descAddr]))

/-- Before its last store the commit has written to memory, and nothing else. -/
theorem storesIn_beforeBusy (frees links : Bool) (old : Half) :
    StoresIn Set.univ s (linkBack links base old (markFree frees old (saveTask s cause cs eip))) :=
  (storesIn_saveTask s cause cs eip).trans
    ((storesIn_markFree fun _ => Set.mem_univ _).trans (storesIn_linkBack fun _ _ _ => Set.mem_univ _))

theorem commitTables_busyBit (hm : MemoryCanonical s) (hp : s.cr0PG = false) :
    ((commitTables s sel base cause cs eip).mem.read (descAddr s sel + 5).toNat).getLsbD 1 = true := by
  have h := storesIn_beforeBusy (s := s) (base := base) (cause := cause) (cs := cs) (eip := eip) (freesOld s cause)
    cause.links s.tr.sel
  rw [commitTables_eq, markTables, ← h.descAddr sel]
  exact setBusy_busyBit (h.wf hm) (h.paging.trans hp) sel

theorem bytesAt_store_half {t : State} (hm : MemoryCanonical t) (hp : t.cr0PG = false) (lin : Word) (v : Half) :
    bytesAt (store t lin 2 (v.setWidth 32)) lin 2 = halfBytes v := by
  refine bytesAt_eq_of_reads (s := store t lin 2 _) hp lin (halfBytes v) fun k hk => ?_
  rw [read_store hm hp lin (n := 2) (by decide) _ hk]
  have hk : k = 0 ∨ k = 1 := by have : k < 2 := hk; omega
  rcases hk with rfl | rfl
  · exact BitVec.eq_of_toNat_eq (by simp [halfBytes])
  · exact BitVec.eq_of_toNat_eq (by simp [halfBytes, Nat.shiftRight_eq_div_pow]; omega)

/-- The backlink after a CALL or interrupt, where the busy bit does not overlap it. -/
theorem commitTables_backlink (hm : MemoryCanonical s) (hp : s.cr0PG = false) (hl : cause.links = true)
    (hnew : ∀ j < 2, base + BitVec.ofNat 32 j ≠ descAddr s sel + 5) :
    bytesAt (commitTables s sel base cause cs eip) base 2 = halfBytes s.tr.sel := by
  have h : StoresIn Set.univ s (markFree (freesOld s cause) s.tr.sel (saveTask s cause cs eip)) :=
    storesIn_beforeBusy (base := base) _ false _
  rw [commitTables_eq, markTables, hl, linkBack, if_pos rfl]
  generalize markFree (freesOld s cause) s.tr.sel (saveTask s cause cs eip) = t at h
  have hbusy : StoresIn {w | ∀ j < 2, base + BitVec.ofNat 32 j ≠ w} (store t base 2 (s.tr.sel.setWidth 32))
      (setBusy (store t base 2 (s.tr.sel.setWidth 32)) sel true) :=
    storesIn_setBusy (fun j hj => by
      rw [show descAddr (store t base 2 _) sel = descAddr s sel from h.descAddr sel]
      exact hnew j hj) true
  have hpt := h.paging.trans hp
  rw [hbusy.bytesAt hpt fun w hw => hw]
  exact bytesAt_store_half (h.wf hm) hpt base s.tr.sel

end

/-! ### The context of the new task -/

/-- The context a task switch goes on in once the new TSS, of descriptor `d`, has been verified (R102, R133). -/
def switchContext (s : State) (sel : Half) (d : Desc) (cause : Cause) (cs : Half) (eip : Word) : State :=
  newContext (commitTables s sel (descBase d) cause cs eip) { segOfDesc sel d with access := descAccess d ||| 2 }
    (readTss (commitTables s sel (descBase d) cause cs eip) (descBase d)) cause

theorem taskSwitch_of_verified {o : Origin} {s : State} {sel : Half} {cause : Cause} {d : Desc}
    (h : verifyTss o s sel cause = .ok d) (cs : Half) (eip : Word) :
    taskSwitch o s sel cause cs eip =
      loadContext (Origin.inTask (switchContext s sel d cause cs eip) o.ext) (switchContext s sel d cause cs eip)
          (readTss (commitTables s sel (descBase d) cause cs eip) (descBase d)) >>= fun t =>
        .ok (enterMode (readTss (commitTables s sel (descBase d) cause cs eip) (descBase d)) t) := by
  rw [taskSwitch, h, bind_ok]
  rfl

theorem trap_iff (s : State) (base : Word) : (readTss s base).trap = true ↔ loadLin s (base + 100) 2 % 2 = 1 := by
  have h : (readTss s base).trap = (BitVec.ofNat 16 (loadLin s (base + 100) 2)).getLsbD 0 := rfl
  rw [h, BitVec.getLsbD_ofNat]
  simp

/-- Settles O34: the switch of a verified TSS (`taskSwitch_of_verified`) goes on in `switchContext`; every store of the
commit is in the bytes named (`storesIn_commitTables`), and the old TSS and the backlink hold what was stored there where
no later store overlaps it (`readTss_saved`, `commitTables_backlink`). -/
theorem taskSwitchCommits : Obligations.TaskSwitchCommits := by
  unfold Obligations.TaskSwitchCommits
  intro o s sel cause cs eip fl d hd hfl
  obtain rfl : fl = oldFlags s cause := hfl.trans (by cases cause <;> rfl)
  refine ⟨_, switchContext s sel d cause cs eip, _, rfl, rfl, ?switch, rfl, rfl, rfl, trap_iff _ _, rfl, rfl, rfl, rfl, rfl, ?ts,
    rfl, ?segs, ?flags, fun hm hp => ⟨fun a hsave hlink hold hnew => ?frame, commitTables_busyBit hm hp,
      fun hdesc hback => ⟨fun ha => ?saved, fun hnew hold => ?backlink⟩⟩⟩
  case switch =>
    rw [taskSwitch_of_verified hd]
    cases loadContext _ _ _ <;> rfl
  case ts => exact (getLsbD_setBit _ 3 3 true (by decide)).trans (if_pos rfl)
  case segs => simp [switchContext, newContext, State.seg, Segs.get, segNull]
  case flags => cases cause <;> rfl
  case frame =>
    refine (storesIn_commitTables (A := {w | a ≠ w.toNat}) hsave (fun h => ?_) (fun h => hlink ((links_iff _).1 h)) hnew).only
      hp a fun w hw => hw
    obtain ⟨hc, hn⟩ := (freesOld_iff _ _).1 h
    exact hold hc hn
  case saved =>
    have hs := storesIn_saveTask s cause cs eip
    have ht : StoresIn {w | ∀ k < 64, s.tr.base + 32 + BitVec.ofNat 32 k ≠ w} (saveTask s cause cs eip)
        (commitTables s sel (descBase d) cause cs eip) := by
      refine storesIn_markTables (fun _ k hk => ?_) (fun _ j hj k hk => (hback j hj k hk).symm) fun k hk => ?_
      · rw [hs.descAddr]; exact (hdesc k hk).2.symm
      · rw [hs.descAddr]; exact (hdesc k hk).1.symm
    exact readTss_saved hm hp ht (fun w hw => hw) (ht.alone (hs.alone ha))
  case backlink =>
    by_cases hl : cause.links = true
    · rw [if_pos ((links_iff _).1 hl)]
      exact commitTables_backlink hm hp hl hnew
    · rw [if_neg (mt (links_iff _).2 hl)]
      refine (storesIn_commitTables (A := {w | ∀ j < 2, descBase d + BitVec.ofNat 32 j ≠ w}) (fun f hf k hk j hj => ?_)
        (fun _ => hold) (fun h => absurd h hl) hnew).bytesAt hp fun w hw => hw
      obtain ⟨hlo, hhi⟩ := savedFields_bounds hf
      rw [saved_byte _ hlo]
      exact hback j hj _ (by omega)

end Sys2Proof.Machine
end

section
/-! JMP and CALL, near and far, and the far loads, where they complete (R97 to R103), and the far transfers that are task
switches or refused (R98, R101, D28). -/

namespace Sys2Proof.Machine

/-! ### Near transfers -/

section
variable {s : State} {len : Nat}

theorem jmpRelative_ok (h : s.eip.toNat + len ≤ 0xFFFFFFFF) (z : WSize) (rel : Word) :
    jmpRelative z rel len s = .ok (jump s (truncZ z (s.eip + BitVec.ofNat 32 len + rel))) := by
  rw [jmpRelative, nextEip_ok h]
  rfl

theorem pushed_gpr_slot (s : State) (z : WSize) (v : Word) :
    (pushed s z v).gpr = s.gpr.set .esp (slotOff (s.reg .esp) z 0) := by
  rw [slotOff_zero]
  rfl

theorem pushed_amid_subset {s : State} {z : WSize} {v : Word} {c : Host.Cell} (h : c ∈ (pushed s z v).amid) : c ∈ s.amid :=
  overtake_subset h

theorem storedAt_pushed {s : State} (h : MemoryCanonical s) (z : WSize) (v : Word) :
    StoredAt s (pushed s z v).mem (s.lin .ss (slotOff (s.reg .esp) z 0)) z.bytes v := by
  rw [slotOff_zero]
  exact storedAt_store h _ _ v

theorem callTo_ok {z : WSize} (h : admits s (slotKey (s.reg .esp) (cpl s) z 0)) (next target : Word) :
    callTo z next target s = .ok (jump (pushed s z next) target) := by
  rw [callTo, push_ok _ h]
  rfl

theorem callRelative_ok (hn : s.eip.toNat + len ≤ 0xFFFFFFFF) {z : WSize}
    (h : admits s (slotKey (s.reg .esp) (cpl s) z 0)) (rel : Word) :
    callRelative z rel len s =
      .ok (jump (pushed s z (s.eip + BitVec.ofNat 32 len)) (truncZ z (s.eip + BitVec.ofNat 32 len + rel))) := by
  rw [callRelative, nextEip_ok hn, bind_ok, callTo_ok h]
  rfl

theorem callIndirect_ok (hn : s.eip.toNat + len ≤ 0xFFFFFFFF) {z : WSize}
    (h : admits s (slotKey (s.reg .esp) (cpl s) z 0)) {pre : List Pfx} {src : Opnd Reg} {t : Word}
    (ht : readOpndZ s pre z src = .ok t) :
    callIndirect pre z src len s = .ok (jump (pushed s z (s.eip + BitVec.ofNat 32 len)) t) := by
  rw [callIndirect, ht, bind_ok, nextEip_ok hn, bind_ok, callTo_ok h]

/-- A near CALL that completes by one push and a jump, said as R100 has it. -/
theorem called_spec (hm : MemoryCanonical s) {z : WSize} {next target : Word} {x : Host.Outcome State Fault Refusal}
    (hx : x = .next (jump (pushed s z next) target)) :
    ∃ mem amid, x = .next { s with
        gpr := s.gpr.set .esp (slotOff (s.reg .esp) z 0), eip := target, mem := mem, amid := amid, stored := [] } ∧
      (∀ c ∈ amid, c ∈ s.amid) ∧ StoredAt s mem (s.lin .ss (slotOff (s.reg .esp) z 0)) z.bytes next := by
  refine ⟨(pushed s z next).mem, (pushed s z next).amid, ?_, fun _ => pushed_amid_subset, storedAt_pushed hm z next⟩
  rw [hx, ← pushed_gpr_slot s z next]
  rfl

end

/-- Settles O44: the next address is there (`jmpRelative_ok`), its length that of the form, or the operand is read. -/
theorem jmpNearCompletes : Obligations.JmpNearCompletes := by
  unfold Obligations.JmpNearCompletes
  intro s pre
  refine ⟨fun z rel h => ?_, fun rel h => ?_, fun rel h => ?_, fun z src t ht => complete_bind_next ht rfl⟩
  all_goals
    refine (congrArg complete (jmpRelative_ok h _ _)).trans ?_
    rw [Instr.len_eq]
    rfl

/-- Settles O46: a near CALL pushes once and jumps (`callRelative_ok`, `callIndirect_ok`), which is what the statement says
(`called_spec`). -/
theorem callNearCompletes : Obligations.CallNearCompletes := by
  unfold Obligations.CallNearCompletes
  intro s pre hm
  exact ⟨fun rel hn ha => called_spec hm (congrArg complete (callRelative_ok hn ha _)),
    fun z src t ht hn ha => called_spec hm (congrArg complete (callIndirect_ok hn ha ht))⟩

/-! ### The load of CS -/

/-- The segment register CS takes from a selector: its descriptor in protected mode, sixteen times it elsewhere (R98). -/
def codeSeg (s : State) (sel : Half) : SegReg :=
  if mode s = .protMode then segOfDesc sel (descAt s sel) else segReal sel

/-- A selector that a far transfer takes for an ordinary segment: outside protected mode any, in it a code segment's (R98). -/
abbrev NamesSegment (s : State) (sel : Half) : Prop :=
  mode s ≠ .protMode ∨ (selReadable s sel ∧ isCode (descAt s sel) = true)

section
variable {o : Origin} {s : State} {sel : Half} {off : Word}

theorem NamesSegment.readable (h : NamesSegment s sel) (hm : mode s = .protMode) : selReadable s sel :=
  (h.resolve_left (not_not_intro hm)).1

theorem codeSeg_sel (s : State) (sel : Half) : (codeSeg s sel).sel = sel := by
  unfold codeSeg
  split <;> rfl

theorem cpl_jump_setCs (s : State) (g : SegReg) (off : Word) :
    cpl (jump (s.setSeg .cs g) off) = if mode s = .protMode then selRpl g.sel else cpl s := by
  have hmode : mode (jump (s.setSeg .cs g) off) = mode s := rfl
  unfold cpl
  rw [hmode]
  cases mode s <;> rfl

theorem farJump_of_admitted (h : admits s (loadKey s .cs sel)) (hr : mode s = .protMode → selReadable s sel) :
    farJump o s sel off = sameLevel s (jump (s.setSeg .cs (codeSeg s sel)) off) := by
  have hg : loadSegment o s .cs sel = .ok (codeSeg s sel) := by
    by_cases hm : mode s = .protMode
    · rw [loadSegment_prot o h hm (hr hm), codeSeg, if_pos hm]
    · rw [loadSegment_real o h hm, codeSeg, if_neg hm]
  rw [farJump, hg]

/-- A far transfer that leaves the privilege level (R98). -/
theorem farJump_ok (h : admits s (loadKey s .cs sel)) (hr : mode s = .protMode → selReadable s sel)
    (hl : mode s = .protMode → selRpl sel = cpl s) :
    farJump o s sel off = .ok (jump (s.setSeg .cs (codeSeg s sel)) off) := by
  rw [farJump_of_admitted h hr, sameLevel, cpl_jump_setCs, codeSeg_sel]
  refine if_pos ?_
  split
  · exact hl ‹_›
  · rfl

/-- A far transfer that would change the privilege level (R21, R145, D28). -/
theorem farJump_refused (h : admits s (loadKey s .cs sel)) (hm : mode s = .protMode) (hr : selReadable s sel)
    (hl : selRpl sel ≠ cpl s) : farJump o s sel off = .error (.refused .privilegeChange) := by
  rw [farJump_of_admitted h fun _ => hr, sameLevel, cpl_jump_setCs, codeSeg_sel, if_pos hm, if_neg hl]

theorem farTarget_segment (h : NamesSegment s sel) : farTarget o s sel = .ok .segment := by
  rcases h with hm | ⟨hr, hc⟩
  · exact farTarget_real o hm
  · exact farTarget_code o hr hc

end

/-! ### Far transfers, immediate and through memory -/

section
variable {s : State} {pre : List Pfx} {z : WSize} {m : EA} {ptr : FarPtr} {sel : Half} {off : Word}

theorem exec_jmpFar (h : FarPtr.sel ptr = sel) :
    exec (.jmpFar pre ptr) s = complete (jmpFarTo (Instr.len (.jmpFar pre ptr)) s (sel, FarPtr.off ptr)) := by
  subst h
  rfl

theorem exec_callFar (h : FarPtr.sel ptr = sel) :
    exec (.callFar pre ptr) s = complete (callFarTo ptr.wsize (Instr.len (.callFar pre ptr)) s (sel, FarPtr.off ptr)) := by
  subst h
  rfl

theorem exec_jmpFarM (h : readFar s pre z m = .ok (sel, off)) :
    exec (.jmpFarM pre z m) s = complete (jmpFarTo (Instr.len (.jmpFarM pre z m)) s (sel, off)) :=
  congrArg (fun r => complete (r >>= jmpFarTo (Instr.len (.jmpFarM pre z m)) s)) h

theorem exec_callFarM (h : readFar s pre z m = .ok (sel, off)) :
    exec (.callFarM pre z m) s = complete (callFarTo z (Instr.len (.callFarM pre z m)) s (sel, off)) :=
  congrArg (fun r => complete (r >>= callFarTo z (Instr.len (.callFarM pre z m)) s)) h

end

section
variable {s : State} {len : Nat} {sel : Half} {off : Word}

theorem jmpFarTo_segment (h : NamesSegment s sel) :
    jmpFarTo len s (sel, off) = farJump (Origin.ofInstr s) s sel off := by
  simp only [jmpFarTo, farTarget_segment h, bind_ok]

theorem jmpFarTo_ok (h : admits s (loadKey s .cs sel)) (hr : NamesSegment s sel)
    (hl : mode s = .protMode → selRpl sel = cpl s) :
    jmpFarTo len s (sel, off) = .ok (jump (s.setSeg .cs (codeSeg s sel)) off) := by
  rw [jmpFarTo_segment hr]
  exact farJump_ok h hr.readable hl

theorem jmpFarTo_refused (h : admits s (loadKey s .cs sel)) (hr : NamesSegment s sel) (hm : mode s = .protMode)
    (hl : selRpl sel ≠ cpl s) : jmpFarTo len s (sel, off) = .error (.refused .privilegeChange) := by
  rw [jmpFarTo_segment hr]
  exact farJump_refused h hm (hr.readable hm) hl

end

/-- Settles O45: both far JMPs come to the transfer to CS:EIP, which completes at the same level (`jmpFarTo_ok`) and is
refused at another (`jmpFarTo_refused`). -/
theorem jmpFarCompletes : Obligations.JmpFarCompletes := by
  unfold Obligations.JmpFarCompletes
  intro s pre ptr z m sel off ha
  refine ⟨fun hm => ?real, fun hm hr hc hl => ?prot, fun hm hr hc hl => ?level⟩
  case real =>
    have h := fun len => jmpFarTo_ok (len := len) (off := off) ha (.inl hm) fun h => absurd h hm
    rw [codeSeg, if_neg hm] at h
    exact ⟨fun hs ho => by rw [exec_jmpFar hs, ho, h]; rfl, fun hp => by rw [exec_jmpFarM hp, h]; rfl⟩
  case prot =>
    have h := fun len => jmpFarTo_ok (len := len) (off := off) ha (.inr ⟨hr, hc⟩) fun _ => hl
    rw [codeSeg, if_pos hm] at h
    exact ⟨fun hs ho => by rw [exec_jmpFar hs, ho, h]; rfl, fun hp => by rw [exec_jmpFarM hp, h]; rfl⟩
  case level =>
    exact ⟨fun hs => by rw [exec_jmpFar hs, jmpFarTo_refused ha (.inr ⟨hr, hc⟩) hm hl]; rfl,
      fun hp => by rw [exec_jmpFarM hp, jmpFarTo_refused ha (.inr ⟨hr, hc⟩) hm hl]; rfl⟩

/-! ### The far CALL -/

/-- `s` after the pushes of a far CALL: CS, zero-extended, then the next address (R101). -/
def farPushed (s : State) (z : WSize) (next : Word) : State :=
  pushed (pushed s z (s.segs.cs.sel.setWidth 32)) z next

theorem farPushed_eq (s : State) (z : WSize) (next : Word) :
    farPushed s z next = { s with
      gpr := s.gpr.set .esp (slotOff (s.reg .esp) z 1), mem := (farPushed s z next).mem
      amid := (farPushed s z next).amid, stored := (farPushed s z next).stored } := by
  have h : (farPushed s z next).gpr = s.gpr.set .esp (slotOff (s.reg .esp) z 1) := by
    rw [farPushed, pushed_gpr_slot, slotOff_succ, pushed_gpr_slot, Gprs.set_set]
  rw [← h]
  rfl

theorem storedAt_farPushed {s : State} (h : MemoryCanonical s) (z : WSize) (next : Word) :
    StoredAt (withMem s (pushed s z (s.segs.cs.sel.setWidth 32)).mem) (farPushed s z next).mem
      (s.lin .ss (slotOff (s.reg .esp) z 1)) z.bytes next := by
  have hp := storedAt_pushed (pushed_wf h z (s.segs.cs.sel.setWidth 32)) z next
  rw [slotOff_succ] at hp
  exact hp

section
variable {s : State} {z : WSize} {len : Nat} {sel : Half} {off : Word}
  (ha : ∀ k < 2, admits s (slotKey (s.reg .esp) (cpl s) z k)) (hn : s.eip.toNat + len ≤ 0xFFFFFFFF)
  (hr : NamesSegment s sel)
include ha hn hr

theorem callFarTo_segment : callFarTo z len s (sel, off) =
    farJump (Origin.ofInstr s) (farPushed s z (s.eip + BitVec.ofNat 32 len)) sel off := by
  simp only [callFarTo, farTarget_segment hr, nextEip_ok hn, bind_ok]
  rw [push_ok _ (ha 0 (by omega)), bind_ok, push_ok _ ((accessDenial_slotKey_pushed s z _ 0).trans (ha 1 (by omega))),
    bind_ok, farPushed]

/-- The load of CS goes by the state after the pushes, which asks the same questions. -/
theorem callFarTo_ok (h : admits s (loadKey s .cs sel)) (hl : mode s = .protMode → selRpl sel = cpl s) :
    callFarTo z len s (sel, off) =
      .ok (jump ((farPushed s z (s.eip + BitVec.ofNat 32 len)).setSeg .cs
        (codeSeg (farPushed s z (s.eip + BitVec.ofNat 32 len)) sel)) off) := by
  rw [callFarTo_segment ha hn hr]
  exact farJump_ok (s := farPushed s z _) h hr.readable hl

theorem callFarTo_refused (h : admits s (loadKey s .cs sel)) (hm : mode s = .protMode) (hl : selRpl sel ≠ cpl s) :
    callFarTo z len s (sel, off) = .error (.refused .privilegeChange) := by
  rw [callFarTo_segment ha hn hr]
  exact farJump_refused (s := farPushed s z _) h hm (hr.readable hm) hl

end

/-- Settles O47: both far CALLs come to two pushes (`farPushed_eq`, `storedAt_farPushed`) and the transfer, which completes
at the same level (`callFarTo_ok`) and is refused at another (`callFarTo_refused`). -/
theorem callFarCompletes : Obligations.CallFarCompletes := by
  unfold Obligations.CallFarCompletes
  intro s pre ptr z m sel off next i hm ha hp hi hn hnext hr
  have hx : exec i s = complete (callFarTo z (Instr.len i) s (sel, off)) := by
    rcases hi with ⟨rfl, rfl, hs, rfl⟩ | ⟨rfl, hf⟩
    · exact exec_callFar hs
    · exact exec_callFarM hf
  refine ⟨fun hl => ⟨_, farPushed s z next, farPushed_eq s z next, ?_, fun c hc => pushed_amid_subset (pushed_amid_subset hc),
    storedAt_pushed hm z _, storedAt_farPushed hm z next⟩, fun hmode hl => ?_⟩
  · rw [hx, callFarTo_ok hp hn hr ha hl, ← hnext]
    rfl
  · rw [hx, callFarTo_refused hp hn hr ha hmode hl]
    rfl

/-! ### Task switches and call gates -/

section
variable {o : Origin} {s : State} {sel : Half} (hm : mode s = .protMode) (hr : selReadable s sel)
include hm hr

/-- A TSS is switched to, and through a task gate the TSS that it names. -/
theorem farTarget_task {tss : Half}
    (h : ((descKind (descAt s sel) = .tss386 ∨ descKind (descAt s sel) = .tss286) ∧ tss = sel) ∨
      (descKind (descAt s sel) = .taskGate ∧ tss = gateSel (descAt s sel))) :
    farTarget o s sel = .ok (.task tss) := by
  obtain ⟨hnull, hin, hadm⟩ := hr
  rw [farTarget, if_pos ⟨hm, hnull, hin⟩, readDesc_ok o hadm]
  rcases h with ⟨hk | hk, rfl⟩ | ⟨hk, rfl⟩
  all_goals simp only [hk]

theorem farTarget_callGate (h : descKind (descAt s sel) = .callGate) : farTarget o s sel = .ok .gate := by
  obtain ⟨hnull, hin, hadm⟩ := hr
  rw [farTarget, if_pos ⟨hm, hnull, hin⟩, readDesc_ok o hadm]
  simp only [h]

end

section
variable {s : State} {z : WSize} {len : Nat} {sel tss : Half} {off : Word}

theorem jmpFarTo_task (ht : farTarget (Origin.ofInstr s) s sel = .ok (.task tss)) (hn : s.eip.toNat + len ≤ 0xFFFFFFFF) :
    jmpFarTo len s (sel, off) =
      taskSwitch (Origin.ofInstr s) s tss .jmp s.segs.cs.sel (s.eip + BitVec.ofNat 32 len) := by
  simp only [jmpFarTo, ht, nextEip_ok hn, bind_ok]

theorem callFarTo_task (ht : farTarget (Origin.ofInstr s) s sel = .ok (.task tss)) (hn : s.eip.toNat + len ≤ 0xFFFFFFFF) :
    callFarTo z len s (sel, off) =
      taskSwitch (Origin.ofInstr s) s tss .call s.segs.cs.sel (s.eip + BitVec.ofNat 32 len) := by
  simp only [callFarTo, ht, nextEip_ok hn, bind_ok]

theorem jmpFarTo_gate (ht : farTarget (Origin.ofInstr s) s sel = .ok .gate) :
    jmpFarTo len s (sel, off) = .error (.refused .callGate) := by
  simp only [jmpFarTo, ht, bind_ok]

theorem callFarTo_gate (ht : farTarget (Origin.ofInstr s) s sel = .ok .gate) (hn : s.eip.toNat + len ≤ 0xFFFFFFFF) :
    callFarTo z len s (sel, off) = .error (.refused .callGate) := by
  simp only [callFarTo, ht, nextEip_ok hn, bind_ok]

end

/-- Settles O36: what the selector names (`farTarget_task`, `farTarget_callGate`) decides between the task switch and
the refusal, in all four forms. -/
theorem farTransfersToTasks : Obligations.FarTransfersToTasks := by
  unfold Obligations.FarTransfersToTasks
  intro s pre ptr z m sel tss off hm hr
  refine ⟨fun h => ?task, fun h => ?gate⟩
  case task =>
    have ht := farTarget_task (o := Origin.ofInstr s) hm hr h
    exact ⟨fun hs hn => by rw [exec_jmpFar hs, jmpFarTo_task ht hn], fun hs hn => by rw [exec_callFar hs, callFarTo_task ht hn],
      fun hp hn => by rw [exec_jmpFarM hp, jmpFarTo_task ht hn], fun hp hn => by rw [exec_callFarM hp, callFarTo_task ht hn]⟩
  case gate =>
    have ht := farTarget_callGate (o := Origin.ofInstr s) hm hr h
    exact ⟨fun hs => by rw [exec_jmpFar hs, jmpFarTo_gate ht]; rfl,
      fun hs hn => by rw [exec_callFar hs, callFarTo_gate ht hn]; rfl,
      fun hp => by rw [exec_jmpFarM hp, jmpFarTo_gate ht]; rfl,
      fun hp hn => by rw [exec_callFarM hp, callFarTo_gate ht hn]; rfl⟩

/-! ### The far loads -/

section
variable {o : Origin} {s : State} {r : SegName} {sel : Half} (h : admits s (loadKey s r sel)) (hm : mode s = .protMode)
  (hn : selNull sel = true)
include h hm hn

theorem loadSegment_null (hr : ¬ (r = .cs ∨ r = .ss)) : loadSegment o s r sel = .ok (segNull sel) := by
  simp only [loadSegment, check_ok o h, if_pos hm, loadProtected, if_pos hn, if_neg hr]

theorem loadSegment_nullStack (hr : r = .ss) : loadSegment o s r sel = .error (o.fault 13 (some (selErr sel o.ext))) := by
  simp only [loadSegment, check_ok o h, if_pos hm, loadProtected, if_pos hn, if_pos (Or.inr hr : r = .cs ∨ r = .ss)]

end

section
variable {s : State} {r : SegName} {pre : List Pfx} {z : WSize} {dst : Reg} {m : EA} {len : Nat} {sel : Half} {off : Word}
  (hp : readFar s pre z m = .ok (sel, off))
include hp

theorem loadFar_ok {g : SegReg} (hg : loadSegment (Origin.ofInstr s) s r sel = .ok g)
    (hn : s.eip.toNat + len ≤ 0xFFFFFFFF) :
    loadFar r pre z dst m len s = .ok { s with
      segs := s.segs.set r g, gpr := s.gpr.set dst (merged z (s.reg dst) off), eip := s.eip + BitVec.ofNat 32 len } := by
  simp only [loadFar, hp, hg, bind_ok]
  rw [advance_ok (by simpa using hn)]
  cases z <;> rfl

theorem loadFar_nullStack (h : admits s (loadKey s r sel)) (hm : mode s = .protMode) (hn : selNull sel = true)
    (hr : r = .ss) :
    loadFar r pre z dst m len s = .error (.raised (faultWith 13 (sel &&& 0xFFFC) s) s) := by
  have herr : selErr sel (Origin.ofInstr s).ext = sel &&& 0xFFFC := by simp [selErr, Origin.ofInstr]
  rw [loadFar, hp, bind_ok, loadSegment_nullStack h hm hn hr, bind_err, herr]
  rfl

end

/-- Settles O48: the load of the segment register answers what the mode and the selector make it, and the rest follows
(`loadFar_ok`); a null SS raises interrupt 13 (`loadFar_nullStack`). -/
theorem farLoadsComplete : Obligations.FarLoadsComplete := by
  unfold Obligations.FarLoadsComplete
  intro s r pre z dst m i sel off hi hp ha
  rw [exec_farLoad hi]
  refine ⟨fun hn => ⟨fun hm => ?_, fun hm hr => ?_, fun hm hnull hss => ?_⟩, fun hm hnull hss => ?_⟩
  · rw [loadFar_ok hp (loadSegment_real _ ha hm) hn]
    rfl
  · rw [loadFar_ok hp (loadSegment_prot _ ha hm hr) hn]
    rfl
  · have hcs : r ≠ .cs := by
      rintro rfl
      cases hi
    rw [loadFar_ok hp (loadSegment_null ha hm hnull (not_or_intro hcs hss)) hn]
    rfl
  · rw [loadFar_nullStack hp ha hm hnull hss]
    rfl

end Sys2Proof.Machine
end

section
/-! What the delivery of an event records (R138), Tables 9-3 and 9-4 (R125, R126), second exceptions (R139 item 3, R152), the
double fault (R127) and the shutdown (R128), and which exceptions an instruction takes (R111, R112, R133). -/

namespace Sys2Proof.Machine

/-! ### The record of a delivery -/

/-- An event that may follow another in the same delivery: a second exception or the double fault (R127, R139). -/
abbrev FollowsInDelivery (x : Event) : Prop :=
  x.vector ∈ [8, 10, 11, 12, 13, 14] ∧ (x.vector = 8 → x.cls = .abort ∧ x.err = some 0)

theorem SecondOf.follows {e e2 : Event} (h : SecondOf e e2) : FollowsInDelivery e2 := by
  have hv := h.vector
  refine ⟨List.mem_cons_of_mem _ (by simpa [secondVector] using hv), fun h8 => ?_⟩
  rw [h8] at hv
  exact absurd hv (by decide)

theorem doubleFault_follows (n : Nat) : FollowsInDelivery (doubleFault n) :=
  ⟨List.mem_cons_self, fun _ => ⟨rfl, rfl⟩⟩

/-- A delivery records its event, and after it the events that follow it. -/
theorem Delivered.reported {e : Event} {s t : State} (h : Delivered e s t) :
    ∃ l, t.reported = l ++ e :: s.reported ∧ ∀ x ∈ l, FollowsInDelivery x := by
  -- the events of a delivery that goes on with `e'` from `c`, `c` having recorded only `e` since `s`
  have later : ∀ {e e' : Event} {s c t : State}, c.reported = e :: s.reported → FollowsInDelivery e' →
      (∃ l, t.reported = l ++ e' :: c.reported ∧ ∀ x ∈ l, FollowsInDelivery x) →
      ∃ l, t.reported = l ++ e :: s.reported ∧ ∀ x ∈ l, FollowsInDelivery x := by
    rintro e e' s c t hc he ⟨l, ht, hl⟩
    refine ⟨l ++ [e'], by rw [ht, hc]; simp, fun x hx => ?_⟩
    rcases List.mem_append.1 hx with hx | hx
    · exact hl x hx
    · exact List.mem_singleton.1 hx ▸ he
  induction h with
  | entered h => exact ⟨[], (invokeHandler_ok h).reported, fun _ hx => absurd hx List.not_mem_nil⟩
  | shutdown _ h => exact ⟨[], (invokeHandler_raised h).1.reported, fun _ hx => absurd hx List.not_mem_nil⟩
  | second _ h _ _ ih => exact later (invokeHandler_raised h).1.reported (invokeHandler_raised h).2.follows ih
  | double _ h _ _ ih =>
    exact later ((invokeHandler_raised h).1.trans (evolves_abortState 8 _)).reported (doubleFault_follows _) ih

theorem Delivered.reported_ne {e : Event} {s t : State} (h : Delivered e s t) : t.reported ≠ s.reported := fun hr => by
  obtain ⟨l, hl, -⟩ := h.reported
  have := congrArg List.length (hl.symm.trans hr)
  simp at this
  omega

theorem Delivered.settled {e : Event} {s t : State} (h : Delivered e s t) : t.delivering = none ∨ t.shutdown = true := by
  induction h with
  | entered => exact .inl rfl
  | shutdown => exact .inr rfl
  | second _ _ _ _ ih => exact ih
  | double _ _ _ _ ih => exact ih

/-- Settles O16: by induction over the four ways a delivery ends (`Delivered.reported`, `Delivered.settled`). -/
theorem deliveryRecords : Obligations.DeliveryRecords := by
  unfold Obligations.DeliveryRecords
  intro e s t h
  exact ⟨(delivered h).reported, (delivered h).settled⟩

/-! ### Tables 9-3 and 9-4 -/

/-- Settles O17: the listed vectors are evaluated, and any other passes every test of `dfClass`. -/
theorem doubleFaultClasses : Obligations.DoubleFaultClasses := by
  unfold Obligations.DoubleFaultClasses
  refine ⟨by decide, by decide, by decide, fun v hv => ?_⟩
  simp only [List.mem_cons, List.not_mem_nil, or_false] at hv
  rw [dfClass, if_neg (by tauto), if_neg (by tauto), if_neg (by tauto)]

/-- Settles O18: each of the nine pairs is evaluated. -/
theorem doubleFaultPairs : Obligations.DoubleFaultPairs := by
  unfold Obligations.DoubleFaultPairs
  intro f g
  cases f <;> cases g <;> decide

/-! ### A second exception -/

/-- The first step of a delivery whose handler's invocation raises a second exception (R138): Table 9-4 decides. -/
theorem deliver_second {e e2 : Event} {s ctx : State} (h8 : e.vector ≠ 8)
    (h : invokeHandler e (report e s) = .error (.raised e2 ctx)) :
    deliver e s = if isDouble e.doubleClass e2.doubleClass then deliver (doubleFault ctx.draws) (abortState 8 ctx)
      else deliver e2 ctx := by
  rw [deliver, deliverChain_eq, h]
  simp only [if_neg h8]
  split
  · exact deliverChain_of_eight _ _ _ _ rfl
  · rename_i hd
    have hr := rank_second (invokeHandler_raised h).2 h8 hd
    have he := evRank_le e
    exact deliverChain_stable _ _ _ _ (by omega) (evRank_le e2)

/-- An abort leaves the real-mode vector table as it was (R46, log entry 25). -/
theorem abortState_vectorTable {s : State} (hm : mode s = .realMode) (v : BitVec 8) {a : Nat} (h : a < 1024) :
    (abortState v s).mem.read a = s.mem.read a :=
  abortState_read (by rw [systemByte, if_pos hm]; exact decide_eq_true h)

/-- Settles O19: the delivery goes on as Table 9-4 says (`deliver_second`); what an abort leaves of the machine is in the
lemmas about `abortState`. -/
theorem secondEventRule : Obligations.SecondEventRule := by
  unfold Obligations.SecondEventRule
  intro e e2 s ctx first h8 h hf
  obtain rfl : first = e.doubleClass := hf
  rw [deliver_second h8 h, (invokeHandler_raised h).2.doubleClass]
  refine ⟨fun hd => by simp [hd], fun hd => ⟨_, _, abortState 8 ctx, if_pos hd, ?_, rfl, rfl, abortState_mode 8 ctx,
    abortState_cpl 8 ctx, fun hm hp hl => abortState_entry (v := 8) hm hp hl, fun hm => ?_⟩⟩
  · exact ⟨rfl, rfl, rfl, rfl, rfl, rfl, rfl, rfl, rfl, rfl, rfl, rfl, rfl, rfl, rfl, fun _ => id⟩
  · simp only [readPhys, abortState_vectorTable hm 8 (show 32 < 1024 by decide),
      abortState_vectorTable hm 8 (show 32 + 1 < 1024 by decide),
      abortState_vectorTable hm 8 (show 32 + 1 + 1 < 1024 by decide),
      abortState_vectorTable hm 8 (show 32 + 1 + 1 + 1 < 1024 by decide)]

theorem Event.ext_iff_not_software (e : Event) :
    e.ext = true ↔ ¬ (e.cls = .trap ∧ (e.vector = 3 ∨ e.vector = 4)) := by
  simp [Event.ext, imp_iff_not_or]

/-- Settles O20: `invokeHandler_raised` says what a second exception is (`SecondOf`). -/
theorem secondEventContract : Obligations.SecondEventContract := by
  unfold Obligations.SecondEventContract
  intro e e2 s ctx h
  have h2 := (invokeHandler_raised h).2
  obtain ⟨c, hc, hx⟩ := h2.err
  exact ⟨by simpa [secondVector] using h2.vector, h2.cls,
    ⟨c, hc, fun hn => by rw [hx hn]; exact e.ext_iff_not_software⟩, h2.saved⟩

/-- Settles O21: the chain of a delivery ends there (`deliverChain_eq`), and the machine it leaves waits for RESET
(`shutdownUntilReset`). -/
theorem doubleFaultFailureShutsDown : Obligations.DoubleFaultFailureShutsDown := by
  unfold Obligations.DoubleFaultFailureShutsDown
  intro e e2 s ctx h8 h
  have hc := (invokeHandler_raised h).1
  refine ⟨{ ctx with shutdown := true }, ?_, rfl, hc.delivering.trans (congrArg some h8), shutdownUntilReset _ rfl⟩
  rw [deliver, deliverChain_eq, h]
  exact if_pos h8

/-- Settles O22: the frame is pushed and the handler entered (`deliver_realReady`). -/
theorem realModeDelivery : Obligations.RealModeDelivery := by
  unfold Obligations.RealModeDelivery
  intro e s hm hr
  exact deliver_realReady hr hm

/-- Settles O27: the record is asked for an abort before anything else. -/
theorem returnAfterAbortRefused : Obligations.ReturnAfterAbortRefused := by
  unfold Obligations.ReturnAfterAbortRefused
  intro z len s ⟨e, he, ha⟩
  exact if_pos (List.any_eq_true.2 ⟨e, he, decide_eq_true ha⟩)

/-! ### The exceptions of an instruction -/

/-- A fault reported as R111 and R133 have it: from the state before the instruction with its CS:EIP, or in the context of a
task switched to with that task's CS:EIP. -/
abbrev PreciseFault (s : State) (e : Event) (c : State) : Prop :=
  (e.cls = .fault ∧ e.newTask = false ∧ c = s ∧ e.savedCS = s.segs.cs.sel ∧ e.savedEIP = s.eip) ∨
    (e.cls = .fault ∧ e.newTask = true ∧ c.switched ≠ none ∧ e.savedCS = c.segs.cs.sel ∧ e.savedEIP = c.eip)

theorem reports_preciseFault (s : State) : Reports (Origin.ofInstr s) (PreciseFault s) :=
  ⟨fun _ _ _ _ _ _ => .inl ⟨rfl, rfl, rfl, rfl, rfl⟩, fun _ _ _ _ hw _ _ _ => .inr ⟨rfl, rfl, hw, rfl, rfl⟩⟩

/-- Settles O58: an instruction completes an operation whose exceptions are precise (`exec_yields`), or reports its own trap
at the next instruction. -/
theorem exceptionsArePrecise : Obligations.ExceptionsArePrecise := by
  unfold Obligations.ExceptionsArePrecise
  intro i s
  have own : ∀ v, ownVector i = some v → PreciseFault s (faultOf v s) s := fun _ _ => .inl ⟨rfl, rfl, rfl, rfl, rfl⟩
  rcases exec_yields i (reports_preciseFault s) own with ⟨r, hr, hy⟩ | ⟨v, -, hr⟩
  · rcases r with (⟨e, c⟩ | x) | t
    · exact .inr (.inr ⟨e, c, hr, or_assoc.1 (.inl hy.2)⟩)
    · exact .inl ⟨x, hr⟩
    · exact .inr (.inl ⟨t, hr, Evolves.reported hy⟩)
  · rcases Nat.lt_or_ge 0xFFFFFFFF (s.eip.toNat + Instr.len i) with h | h
    · exact .inl ⟨_, hr.trans (raiseTrap_err h)⟩
    · exact .inr (.inr ⟨_, _, hr.trans (raiseTrap_ok h), .inr (.inr ⟨rfl, rfl, rfl, rfl⟩)⟩)

end Sys2Proof.Machine
end

section
/-! The mode and the privilege level across an instruction that takes no event and switches no task (R21, R98, R101,
R145). -/

namespace Sys2Proof.Machine

/-- The mode and the CPL are those before. -/
abbrev SameLevel (s t : State) : Prop := mode t = mode s ∧ cpl t = cpl s

/-- Unless it switches tasks, what leads from `s` to `t` keeps the level. -/
abbrev KeepsLevel (s t : State) : Prop := t.switched = none → SameLevel s t

/-- What is said of every exception where only the values of a result matter. -/
abbrev AnyEvent : Event → State → Prop := fun _ _ => True

theorem reports_anyEvent (o : Origin) : Reports o AnyEvent :=
  ⟨fun _ _ _ _ _ _ => trivial, fun _ _ _ _ _ _ _ _ => trivial⟩

/-- A property of the values of a result, found apart from what is known of its exceptions. -/
theorem Yields.of_ok {α : Type} {b : State} {V : Event → State → Prop} {P Q : α → Prop} {r : Res α}
    (h : Yields b V P r) (k : ∀ a, r = .ok a → Q a) : Yields b V Q r := by
  rcases r with (_ | _) | a
  · exact h
  · trivial
  · exact k a rfl

/-! ### The operations below an instruction -/

theorem advance_ok_eq {s t : State} {n : Nat} (h : advance s n = .ok t) : t = { s with eip := t.eip } := by
  rcases Nat.lt_or_ge 0xFFFFFFFF (s.eip.toNat + n) with hn | hn
  · rw [advance_err hn] at h
    cases h
  · rw [advance_ok hn] at h
    cases h
    rfl

theorem push_ok_eq {o : Origin} {s t : State} {z : WSize} {v : Word} (h : push o s z v = .ok t) : t = pushed s z v := by
  unfold push at h
  split at h <;> cases h
  rfl

theorem farJump_sameLevel {o : Origin} {s t : State} {sel : Half} {off : Word} (h : farJump o s sel off = .ok t) :
    SameLevel s t := by
  unfold farJump sameLevel at h
  split at h
  · split at h <;> cases h
    exact ⟨rfl, ‹_›⟩
  · cases h

theorem sameLevel_of_eq {s t : State} (h0 : t.cr0 = s.cr0) (hv : t.flagVM = s.flagVM)
    (hc : t.segs.cs.sel = s.segs.cs.sel) : SameLevel s t := by
  have hm : mode t = mode s := by
    unfold mode State.cr0PE
    rw [h0, hv]
  exact ⟨hm, by simp only [cpl, hm, hc]⟩

theorem sameLevel_divided (s : State) (sg : Signedness) (sz : DivSize) (d : Word) :
    SameLevel s (divided s sg sz d) := by
  have hv : (divided s sg sz d).flagVM = s.flagVM := by
    show (withStatus s.eflags _).getLsbD 17 = s.eflags.getLsbD 17
    simp [withStatus, statusMask]
  rcases sz with _ | (_ | _) <;> exact sameLevel_of_eq rfl hv rfl

theorem advance_sameLevel {s u t : State} {n : Nat} (hu : SameLevel s u) (h : advance u n = .ok t) : SameLevel s t := by
  rw [advance_ok_eq h]
  exact hu

section
variable {s : State} (hv : Reports (Origin.ofInstr s) AnyEvent)

theorem level_divide (sg : Signedness) (sz : DivSize) (len : Nat) (d : Word) :
    Yields s AnyEvent (KeepsLevel s) (divide s sg sz len d) := by
  refine (yields_divide trivial sg sz len d).of_ok fun t h _ => ?_
  unfold divide at h
  split at h
  · cases h
  · exact advance_sameLevel (sameLevel_divided s sg sz d) h

theorem level_escape : Yields s AnyEvent (KeepsLevel s) (escape s) := by
  refine (yields_escape trivial).of_ok fun t h => ?_
  unfold escape at h
  split at h
  · cases h
  · split at h <;> cases h

theorem level_waitFor (len : Nat) : Yields s AnyEvent (KeepsLevel s) (waitFor len s) := by
  refine (yields_waitFor trivial len).of_ok fun t h _ => ?_
  unfold waitFor at h
  split at h
  · cases h
  · split at h
    · cases h
    · split at h
      · cases h
        exact ⟨rfl, rfl⟩
      · exact advance_sameLevel ⟨rfl, rfl⟩ h

theorem level_advance (len : Nat) : Yields s AnyEvent (KeepsLevel s) (advance s len) :=
  (yields_advance (Evolves.refl s) len).of_ok fun _ h _ => advance_sameLevel ⟨rfl, rfl⟩ h

theorem level_jmpRelative (z : WSize) (rel : Word) (len : Nat) :
    Yields s AnyEvent (KeepsLevel s) (jmpRelative z rel len s) :=
  (yields_nextEip len).bind fun _ _ _ => ⟨rfl, rfl⟩

include hv

theorem level_boundCheck (pre : List Pfx) (z : WSize) (idx : Reg) (m : EA) (len : Nat) :
    Yields s AnyEvent (KeepsLevel s) (boundCheck pre z idx m len s) := by
  refine (yields_readEA hv pre m 0 z.bytes).bind fun lo _ => (yields_readEA hv pre m z.bytes z.bytes).bind fun up _ => ?_
  split
  · exact ⟨Evolves.refl s, trivial⟩
  · exact level_advance len

theorem level_jmpIndirect (pre : List Pfx) (z : WSize) (src : Opnd Reg) :
    Yields s AnyEvent (KeepsLevel s) (jmpIndirect pre z src s) :=
  (yields_readOpndZ hv pre z src).bind fun _ _ _ => ⟨rfl, rfl⟩

theorem level_callTo (z : WSize) (next target : Word) : Yields s AnyEvent (KeepsLevel s) (callTo z next target s) :=
  (yields_push (o := Origin.ofInstr s) (Evolves.refl s) hv (Evolves.refl s) z next).bind_eq fun _ h _ _ => by
    rw [push_ok_eq h]
    exact ⟨rfl, rfl⟩

theorem level_callRelative (z : WSize) (rel : Word) (len : Nat) :
    Yields s AnyEvent (KeepsLevel s) (callRelative z rel len s) :=
  (yields_nextEip len).bind fun _ _ => level_callTo hv _ _ _

theorem level_callIndirect (pre : List Pfx) (z : WSize) (src : Opnd Reg) (len : Nat) :
    Yields s AnyEvent (KeepsLevel s) (callIndirect pre z src len s) :=
  (yields_readOpndZ hv pre z src).bind fun _ _ => (yields_nextEip len).bind fun _ _ => level_callTo hv _ _ _

theorem level_taskSwitch (sel : Half) (c : Cause) (cs : Half) (eip : Word) :
    Yields s AnyEvent (KeepsLevel s) (taskSwitch (Origin.ofInstr s) s sel c cs eip) :=
  (yields_taskSwitch (o := Origin.ofInstr s) (Evolves.refl s) hv (Evolves.refl s) sel c cs eip).of_ok fun _ h hw =>
    absurd hw (taskSwitch_switched h)

theorem level_farJump {u : State} (hu : Evolves s u) (hl : SameLevel s u) (sel : Half) (off : Word) :
    Yields s AnyEvent (KeepsLevel s) (farJump (Origin.ofInstr s) u sel off) :=
  (yields_farJump (o := Origin.ofInstr s) (Evolves.refl s) hv hu sel off).of_ok fun _ h _ =>
    have hj := farJump_sameLevel h
    ⟨hj.1.trans hl.1, hj.2.trans hl.2⟩

theorem level_jmpFarTo (len : Nat) (ptr : Half × Word) : Yields s AnyEvent (KeepsLevel s) (jmpFarTo len s ptr) := by
  refine (yields_farTarget (o := Origin.ofInstr s) (Evolves.refl s) hv s ptr.1).bind fun t _ => ?_
  cases t with
  | segment => exact level_farJump hv (Evolves.refl s) ⟨rfl, rfl⟩ _ _
  | task tss => exact (yields_nextEip len).bind fun n _ => level_taskSwitch hv _ _ _ _
  | gate => trivial

theorem level_callFarTo (z : WSize) (len : Nat) (ptr : Half × Word) :
    Yields s AnyEvent (KeepsLevel s) (callFarTo z len s ptr) := by
  have ho : Evolves s (Origin.ofInstr s).home := Evolves.refl s
  refine (yields_farTarget ho hv s ptr.1).bind fun t _ => (yields_nextEip len).bind fun n _ => ?_
  cases t with
  | segment =>
    refine (yields_push ho hv (Evolves.refl s) z _).bind_eq fun s1 e1 h1 => ?_
    refine (yields_push ho hv h1 z _).bind_eq fun s2 e2 h2 => level_farJump hv h2 ?_ _ _
    rw [push_ok_eq e2, push_ok_eq e1]
    exact ⟨rfl, rfl⟩
  | task tss => exact level_taskSwitch hv _ _ _ _
  | gate => trivial

theorem level_loadFar {r : SegName} (hr : r ≠ .cs) (pre : List Pfx) (z : WSize) (dst : Reg) (m : EA) (len : Nat) :
    Yields s AnyEvent (KeepsLevel s) (loadFar r pre z dst m len s) := by
  refine (yields_readFar hv pre z m).bind fun ptr _ => ?_
  refine (yields_loadSegment (o := Origin.ofInstr s) (Evolves.refl s) hv s r ptr.1).bind fun g _ => ?_
  refine (yields_advance ((evolves_setSeg s r g).trans (evolves_setRegZ _ z dst ptr.2)) len).of_ok fun t h _ =>
    advance_sameLevel (sameLevel_of_eq (by simp) (by simp [State.flagVM]) ?_) h
  rw [setRegZ_segs, setSeg_segs]
  exact congrArg SegReg.sel (Segs.get_set_ne s.segs (q := .cs) g hr.symm)

end

/-! ### The instructions -/

/-- An operation that keeps the level leaves it so where its completion reports no event. -/
theorem keepsLevel_of_complete {s t : State} {r : Res State} (hy : Yields s AnyEvent (KeepsLevel s) r)
    (h : complete r = .next t) (hr : t.reported = s.reported) : KeepsLevel s t := by
  rcases complete_next h with rfl | ⟨e, c, rfl, hd⟩
  · exact hy
  · exact absurd (hr.trans hy.1.reported.symm) hd.reported_ne

/-- An instruction that reports no event keeps the level unless it switches tasks. -/
theorem exec_keepsLevel {i : Instr} {s t : State} (h : exec i s = .next t) (hr : t.reported = s.reported) :
    KeepsLevel s t := by
  have hv : Reports (Origin.ofInstr s) AnyEvent := reports_anyEvent _
  have completes : ∀ {r : Res State}, exec i s = complete r → Yields s AnyEvent (KeepsLevel s) r → KeepsLevel s t :=
    fun hx hy => keepsLevel_of_complete hy (hx.symm.trans h) hr
  have traps : ∀ {v : BitVec 8}, exec i s = raiseTrap v (Instr.len i) s → KeepsLevel s t := fun hx => by
    obtain ⟨u, hu, hd⟩ := raiseTrap_next (hx.symm.trans h)
    exact absurd (hr.trans (congrArg State.reported (advance_ok_eq hu)).symm) hd.reported_ne
  cases i with
  | divRm8 pre src => exact completes rfl ((yields_readOpnd8 hv pre src).bind fun d _ => level_divide _ _ _ d)
  | idivRm8 pre src => exact completes rfl ((yields_readOpnd8 hv pre src).bind fun d _ => level_divide _ _ _ d)
  | divRm pre z src => exact completes rfl ((yields_readOpndZ hv pre z src).bind fun d _ => level_divide _ _ _ d)
  | idivRm pre z src => exact completes rfl ((yields_readOpndZ hv pre z src).bind fun d _ => level_divide _ _ _ d)
  | int3 pre => exact traps rfl
  | into pre =>
    by_cases ho : s.flagOF = true
    · exact traps (if_pos ho)
    · exact completes (if_neg ho) (level_advance _)
  | bound => exact completes rfl (level_boundCheck hv _ _ _ _ _)
  | esc => exact completes rfl level_escape
  | wait => exact completes rfl (level_waitFor _)
  | jmpRel8 => exact completes rfl (level_jmpRelative _ _ _)
  | jmpRel => exact completes rfl (level_jmpRelative _ _ _)
  | jmpRm => exact completes rfl (level_jmpIndirect hv _ _ _)
  | jmpFar => exact completes rfl (level_jmpFarTo hv _ _)
  | jmpFarM pre z m => exact completes rfl ((yields_readFar hv pre z m).bind fun p _ => level_jmpFarTo hv _ p)
  | callRel => exact completes rfl (level_callRelative hv _ _ _)
  | callRm => exact completes rfl (level_callIndirect hv _ _ _ _)
  | callFar => exact completes rfl (level_callFarTo hv _ _ _)
  | callFarM pre z m => exact completes rfl ((yields_readFar hv pre z m).bind fun p _ => level_callFarTo hv z _ p)
  | les | lds | lss | lfs | lgs => exact completes rfl (level_loadFar hv (by decide) _ _ _ _ _)
  | invJmpFarReg | invLesReg | invCallFarReg | invLdsReg | invLssReg | invLfsReg | invLgsReg | invBoundReg | invFf7 =>
    exact completes rfl ((yields_ownFault (v := 6) trivial).of_ok fun _ h => nomatch h)

/-- Settles O56: every operation below an instruction keeps the level or switches tasks (`exec_keepsLevel`); a far transfer
that would change it is refused (`farJump_sameLevel`). -/
theorem privilegeKept : Obligations.PrivilegeKept := by
  unfold Obligations.PrivilegeKept
  intro i s t h hr _
  exact exec_keepsLevel h hr

end Sys2Proof.Machine
end

section
/-! The verification of a new TSS (row 1 of Table 9-5, R102, R133) and the loading of a new task's context (rows 2 to 12 of
Table 9-5, R131, R132): which row raises what, and what a valid TSS loads. -/

namespace Sys2Proof.Machine

/-! ### The new TSS -/

/-- The exception a failing selector raises, its error code written out (R137). -/
theorem fault_selErr (o : Origin) (v : BitVec 8) (sel : Half) :
    o.fault v (some (selErr sel o.ext)) =
      .raised (o.event v (some ((sel &&& 0xFFFC) ||| if o.ext then 1 else 0)) none) o.home := rfl

section
variable {o : Origin} {s : State} {sel : Half} {cause : Cause}

theorem verifyTss_invalid (h : selTI sel = true ∨ selNull sel = true ∨ inTable s sel = false) :
    verifyTss o s sel cause = .error (o.fault 13 (some (selErr sel o.ext))) := if_pos h

/-- The tests of a global selector whose descriptor is readable (R131, R132; log entry 16). -/
theorem verifyTss_readable (hg : selTI sel = false) (hr : selReadable s sel) :
    verifyTss o s sel cause =
      if descKind (descAt s sel) ≠ .tss386 ∧ descKind (descAt s sel) ≠ .tss286 then
        .error (o.fault 13 (some (selErr sel o.ext)))
      else if descPresent (descAt s sel) = false then .error (o.fault 11 (some (selErr sel o.ext)))
      else if (descLimit (descAt s sel)).toNat < 103 then .error (o.fault 10 (some (selErr sel o.ext)))
      else if descKind (descAt s sel) = .tss286 then .error (.refused .tss286)
      else (do
        check o s (tssKey s sel 0 104 false) (descBase (descAt s sel))
        check o s (tssKey s s.tr.sel 32 64 true) (s.tr.base + 32)
        checkIf cause.links (check o s (tssKey s sel 0 2 true) (descBase (descAt s sel)))
        checkBusy o s sel
        checkIf (freesOld s cause) (checkBusy o s s.tr.sel)
        .ok (descAt s sel)) := by
  obtain ⟨hn, ht, ha⟩ := hr
  have h : ¬ (selTI sel = true ∨ selNull sel = true ∨ inTable s sel = false) := by simp [hg, hn, ht]
  rw [verifyTss, if_neg h, readDesc_ok o ha]
  rfl

theorem taskSwitch_of_unverified {x : Stop} (h : verifyTss o s sel cause = .error x) (cs : Half) (eip : Word) :
    taskSwitch o s sel cause cs eip = .error x := by
  rw [taskSwitch, h, bind_err]

theorem checkIf_ok {c : Bool} {r : Res Unit} (h : c = true → r = .ok ()) : checkIf c r = .ok () := by
  cases c
  · rfl
  · exact h rfl

theorem checkBusy_ok (h : ∀ w, admits s (busyKey s sel w)) : checkBusy o s sel = .ok () := by
  rw [checkBusy, check_ok o (h false), bind_ok, check_ok o (h true)]

end

/-- Settles O29: the tests of `verifyTss` in their order (`verifyTss_readable`); a switch whose TSS is not verified ends
there (`taskSwitch_of_unverified`). -/
theorem newTssVerified : Obligations.NewTssVerified := by
  unfold Obligations.NewTssVerified
  rintro o s sel err cause cs eip rfl
  refine ⟨fun h => taskSwitch_of_unverified (verifyTss_invalid h) cs eip, fun hg hr => ?_⟩
  have hv := verifyTss_readable (o := o) (cause := cause) hg hr
  refine ⟨fun h3 h2 => ?kind, fun hk => ⟨fun hp => ?present, fun hp hl => ?limit⟩, fun hk hp hl => ?old,
    fun hk hp hl => ?passes⟩
  case kind =>
    rw [if_pos ⟨h3, h2⟩] at hv
    exact taskSwitch_of_unverified hv cs eip
  case present =>
    rw [if_neg fun h => hk.elim h.1 h.2, if_pos hp] at hv
    exact taskSwitch_of_unverified hv cs eip
  case limit =>
    rw [if_neg fun h => hk.elim h.1 h.2, if_neg (by simp [hp]), if_pos hl] at hv
    exact taskSwitch_of_unverified hv cs eip
  case old =>
    rw [if_neg fun h => h.2 hk, if_neg (by simp [hp]), if_neg (by omega), if_pos hk] at hv
    exact taskSwitch_of_unverified hv cs eip
  case passes =>
    intro hnew hold hlink hbusy hfree
    rw [if_neg fun h => h.1 hk, if_neg (by simp [hp]), if_neg (by omega), if_neg (by simp [hk])] at hv
    rw [hv, check_ok o hnew, bind_ok, check_ok o hold, bind_ok,
      checkIf_ok fun h => check_ok o (hlink ((links_iff _).1 h)) _, bind_ok, checkBusy_ok hbusy, bind_ok,
      checkIf_ok fun h => checkBusy_ok (hfree ((freesOld_iff _ _).1 h).1 ((freesOld_iff _ _).1 h).2), bind_ok]

/-! ### The rows of Table 9-5, each once those before it have passed -/

section
variable {o : Origin} {s s1 s2 s3 : State} {img : TssImage}

theorem loadContext_of_ldt_error {x : Stop} (h : loadLdt o s img.ldt = .error x) : loadContext o s img = .error x := by
  rw [loadContext, h, bind_err]

theorem loadContext_of_stack_error (h1 : loadLdt o s img.ldt = .ok s1) {x : Stop}
    (h : loadTaskStack o s1 (selRpl img.cs) img.ss = .error x) : loadContext o s img = .error x := by
  rw [loadContext, h1, bind_ok, h, bind_err]

theorem loadContext_of_code_error (h1 : loadLdt o s img.ldt = .ok s1)
    (h2 : loadTaskStack o s1 (selRpl img.cs) img.ss = .ok s2) {x : Stop}
    (h : loadTaskCode o s2 (selRpl img.cs) img.cs = .error x) : loadContext o s img = .error x := by
  rw [loadContext, h1, bind_ok, h2, bind_ok, h, bind_err]

/-- Rows 11 and 12 are left once the LDT, SS and CS have been loaded. -/
theorem loadContext_of_code (h1 : loadLdt o s img.ldt = .ok s1)
    (h2 : loadTaskStack o s1 (selRpl img.cs) img.ss = .ok s2) (h3 : loadTaskCode o s2 (selRpl img.cs) img.cs = .ok s3) :
    loadContext o s img = (checkTaskLimits o s3 [img.ds, img.es, img.fs, img.gs] >>= fun _ =>
      loadTaskDatas o s3 [(.ds, img.ds), (.es, img.es), (.fs, img.fs), (.gs, img.gs)]) := by
  rw [loadContext, h1, bind_ok, h2, bind_ok, h3, bind_ok]

end

/-- Settles O30: a selector that is invalid is reported before its descriptor is read, and one that is not by its kind and
presence. -/
theorem ldtRowFaults : Obligations.LdtRowFaults := by
  unfold Obligations.LdtRowFaults
  intro o s img h
  rw [← fault_selErr]
  refine loadContext_of_ldt_error ?_
  have invalid : selTI img.ldt = true ∨ selNull img.ldt = true ∨ inTable s img.ldt = false →
      loadLdt o s img.ldt = .error (o.fault 10 (some (selErr img.ldt o.ext))) := fun hs => by rw [loadLdt, if_pos hs]
  rcases h with h | h | h | ⟨ha, hd⟩
  · exact invalid (.inl h)
  · exact invalid (.inr (.inl h))
  · exact invalid (.inr (.inr h))
  · by_cases hs : selTI img.ldt = true ∨ selNull img.ldt = true ∨ inTable s img.ldt = false
    · exact invalid hs
    · have hd : ¬ (descKind (descAt s img.ldt) = .ldt ∧ descPresent (descAt s img.ldt) = true) := fun h =>
        hd.elim (fun hk => hk h.1) fun hp => by simp [h.2] at hp
      simp only [loadLdt, if_neg hs, readDesc_ok o ha, if_neg hd]

/-- Settles O31: the limit is tested before the descriptor is read, and then its kind, its DPL and the RPL in turn. -/
theorem stackRowsFault : Obligations.StackRowsFault := by
  unfold Obligations.StackRowsFault
  intro o s s1 img h1
  refine ⟨fun hn => loadContext_of_stack_error h1 (by rw [loadTaskStack, if_pos hn]), fun hn h => ?_⟩
  rw [← fault_selErr]
  refine loadContext_of_stack_error h1 ?_
  rw [loadTaskStack, if_neg (by simp [hn])]
  by_cases ht : inTable s1 img.ss = false
  · rw [if_pos ht]
  · obtain ⟨ha, hd⟩ := h.resolve_left ht
    simp only [if_neg ht, readDesc_ok o ha]
    by_cases hk : descKind (descAt s1 img.ss) = .data true
    · by_cases hl : descDpl (descAt s1 img.ss) = selRpl img.cs
      · have hr := (hd.resolve_left (not_not_intro hk)).resolve_left (not_not_intro hl)
        rw [if_neg (not_not_intro hk), if_neg (not_not_intro hl), if_pos hr]
      · rw [if_neg (not_not_intro hk), if_pos hl]
    · rw [if_pos hk]

/-- Settles O32: the limit is tested before the descriptor is read, and then its kind and its DPL. -/
theorem codeRowsFault : Obligations.CodeRowsFault := by
  unfold Obligations.CodeRowsFault
  intro o s s1 s2 img h1 h2
  refine ⟨fun hn => loadContext_of_code_error h1 h2 (by rw [loadTaskCode, if_pos hn]), fun hn h => ?_⟩
  rw [← fault_selErr]
  refine loadContext_of_code_error h1 h2 ?_
  rw [loadTaskCode, if_neg (by simp [hn])]
  by_cases ht : inTable s2 img.cs = false
  · rw [if_pos ht]
  · obtain ⟨ha, hd⟩ := h.resolve_left ht
    simp only [if_neg ht, readDesc_ok o ha]
    rcases hd with hk | ⟨rd, hk, hl⟩ | ⟨rd, hk, hl⟩
    · split
      · rename_i hd
        simp [isCode, hd] at hk
      all_goals rfl
    · simp [hk, hl]
    · simp [hk, hl]

/-! ### Rows 11 and 12 -/

section
variable {o : Origin} {s : State} {sel : Half}

theorem checkTaskLimits_ok {l : List Half} (h : ∀ x ∈ l, selNull x = true ∨ inTable s x = true) :
    checkTaskLimits o s l = .ok () := by
  induction l with
  | nil => rfl
  | cons x l ih =>
    rw [checkTaskLimits, if_neg (by rcases h x List.mem_cons_self with h | h <;> simp [h])]
    exact ih fun y hy => h y (List.mem_cons_of_mem _ hy)

theorem checkTaskLimits_append (l l' : List Half) :
    checkTaskLimits o s (l ++ l') = (checkTaskLimits o s l >>= fun _ => checkTaskLimits o s l') := by
  induction l with
  | nil => rfl
  | cons x l ih =>
    rw [List.cons_append, checkTaskLimits, checkTaskLimits]
    split
    · rfl
    · exact ih

/-- The first selector that is not null and outside its table fails row 11. -/
theorem checkTaskLimits_fails {before after : List Half} (hb : ∀ x ∈ before, selNull x = true ∨ inTable s x = true)
    (hn : selNull sel = false) (ht : inTable s sel = false) :
    checkTaskLimits o s (before ++ sel :: after) = .error (o.fault 10 (some (selErr sel o.ext))) := by
  rw [checkTaskLimits_append, checkTaskLimits_ok hb, bind_ok, checkTaskLimits, if_pos ⟨hn, ht⟩]

theorem loadTaskDatas_append (s : State) (l l' : List (SegName × Half)) :
    loadTaskDatas o s (l ++ l') = (loadTaskDatas o s l >>= fun t => loadTaskDatas o t l') := by
  induction l generalizing s with
  | nil => rfl
  | cons p l ih =>
    simp only [List.cons_append, loadTaskDatas]
    cases loadTaskData o s p.1 p.2 with
    | ok t => exact ih t
    | error x => rfl

/-- The first selector, those before it loaded, whose descriptor is no readable segment's fails row 12. -/
theorem loadTaskDatas_fails {t : State} {before after : List (SegName × Half)} {r : SegName}
    (hb : loadTaskDatas o s before = .ok t) (hn : selNull sel = false) (ha : admits t (descKey t sel))
    (hk : readableKind (descKind (descAt t sel)) = false) :
    loadTaskDatas o s (before ++ (r, sel) :: after) = .error (o.fault 10 (some (selErr sel o.ext))) := by
  rw [loadTaskDatas_append, hb, bind_ok, loadTaskDatas]
  simp [loadTaskData, hn, readDesc_ok o ha, hk]

end

/-- Settles O33: row 11 for the four selectors in turn (`checkTaskLimits_fails`), then row 12 (`loadTaskDatas_fails`). -/
theorem dataRowsFault : Obligations.DataRowsFault := by
  unfold Obligations.DataRowsFault
  intro o s s1 s2 s3 img before after r sel h1 h2 h3 hl hn h
  have hsel : [img.ds, img.es, img.fs, img.gs] = before.map Prod.snd ++ sel :: after.map Prod.snd := by
    simpa using congrArg (List.map Prod.snd) hl
  rw [← fault_selErr, loadContext_of_code h1 h2 h3, hl]
  rcases h with ⟨hb, ht⟩ | ⟨hall, s4, h4, ha, hk⟩
  · rw [hsel, checkTaskLimits_fails (fun x hx => ?_) hn ht, bind_err]
    obtain ⟨p, hp, rfl⟩ := List.mem_map.1 hx
    exact hb p hp
  · rw [checkTaskLimits_ok hall, bind_ok, loadTaskDatas_fails h4 hn ha hk]

end Sys2Proof.Machine
end

section
/-! A new TSS for which no row of Table 9-5 holds is loaded (R102, R131). -/

namespace Sys2Proof.Machine

section
variable {s : State} {sel : Half} {g : Segs}

/-- What a descriptor table holds does not depend on the segment registers, where no other agent is writing. -/
theorem descAt_withSegs (ha : Alone s) : descAt { s with segs := g } sel = descAt s sel := by
  have hr : loadLin { s with segs := g } (descAddr s sel) 8 = loadLin s (descAddr s sel) 8 := by
    rw [loadLin_alone ha, loadLin_alone (s := { s with segs := g }) ha]
    exact readLin_of_eq rfl rfl rfl rfl _ _
  exact congrArg (BitVec.ofNat 64) hr

theorem selReadable_withSegs (hc : g.cs.sel = s.segs.cs.sel) (h : selReadable s sel) :
    selReadable { s with segs := g } sel := by
  obtain ⟨hn, ht, ha⟩ := h
  have hk : descKey { s with segs := g } sel = descKey s sel := by
    rw [descKey, (sameLevel_of_eq (s := s) (t := { s with segs := g }) rfl rfl hc).2]
    rfl
  refine ⟨hn, ht, ?_⟩
  rw [hk]
  exact ha

end

section
variable {o : Origin} {s : State} {sel : Half}

theorem loadLdt_valid (hg : selTI sel = false) (hr : selReadable s sel) (hk : descKind (descAt s sel) = .ldt)
    (hp : descPresent (descAt s sel) = true) : loadLdt o s sel = .ok { s with ldtr := segOfDesc sel (descAt s sel) } := by
  obtain ⟨hn, ht, ha⟩ := hr
  simp [loadLdt, hg, hn, ht, readDesc_ok o ha, hk, hp]

theorem taskSeg_of_not_null (h : selNull sel = false) : taskSeg s sel = segOfDesc sel (descAt s sel) := by
  simp [taskSeg, h]

theorem loadTaskStack_valid {c : BitVec 2} (hr : selReadable s sel) (hk : descKind (descAt s sel) = .data true)
    (hd : descDpl (descAt s sel) = c) (hl : selRpl sel = c) (hp : descPresent (descAt s sel) = true) :
    loadTaskStack o s c sel = .ok (s.setSeg .ss (taskSeg s sel)) := by
  obtain ⟨hn, ht, ha⟩ := hr
  simp [loadTaskStack, hn, ht, readDesc_ok o ha, hk, hd, hl, hp, taskSeg_of_not_null hn]

/-- A selector DS, ES, FS or GS takes: a null one, or one of a present readable segment (R131 rows 11 and 12). -/
abbrev DataValid (s : State) (sel : Half) : Prop :=
  selNull sel = false →
    selReadable s sel ∧ readableKind (descKind (descAt s sel)) = true ∧ descPresent (descAt s sel) = true

theorem loadTaskData_valid (h : DataValid s sel) (r : SegName) :
    loadTaskData o s r sel = .ok (s.setSeg r (taskSeg s sel)) := by
  cases hn : selNull sel with
  | true => simp [loadTaskData, taskSeg, hn]
  | false =>
    obtain ⟨⟨-, -, ha⟩, hk, hp⟩ := h hn
    simp [loadTaskData, hn, readDesc_ok o ha, hk, hp, taskSeg_of_not_null hn]

end

section
variable {o : Origin} {s : State} (ha : Alone s)
include ha

theorem taskSeg_withSegs (g : Segs) (sel : Half) : taskSeg { s with segs := g } sel = taskSeg s sel := by
  rw [taskSeg, taskSeg, descAt_withSegs ha]

theorem loadTaskCode_valid {g : Segs} {c : BitVec 2} {sel : Half} {conf rd : Bool} (hc : g.cs.sel = s.segs.cs.sel)
    (hr : selReadable s sel) (hk : descKind (descAt s sel) = .code conf rd)
    (hd : conf = false → descDpl (descAt s sel) = c) (hl : conf = true → (descDpl (descAt s sel)).toNat ≤ c.toNat)
    (hp : descPresent (descAt s sel) = true) :
    loadTaskCode o { s with segs := g } c sel = .ok { s with segs := g.set .cs (taskSeg s sel) } := by
  obtain ⟨hn, ht, had⟩ := selReadable_withSegs hc hr
  simp only [loadTaskCode, hn, ht, readDesc_ok o had, descAt_withSegs ha, hk, hp, taskSeg_of_not_null hn]
  rw [if_neg (by simp), if_neg (by simp), if_neg fun h => h.2 (hd h.1), if_neg fun h => by have := hl h.1; omega,
    if_neg (by simp)]
  rfl

theorem DataValid.withSegs {g : Segs} {sel : Half} (hc : g.cs.sel = s.segs.cs.sel) (h : DataValid s sel) :
    DataValid { s with segs := g } sel := fun hn => by
  obtain ⟨hr, hk, hp⟩ := h hn
  exact ⟨selReadable_withSegs hc hr, by rwa [descAt_withSegs ha], by rwa [descAt_withSegs ha]⟩

/-- Segment registers other than CS loaded in turn, each from what the tables held before. -/
theorem loadTaskDatas_valid {l : List (SegName × Half)} {g : Segs} (hc : g.cs.sel = s.segs.cs.sel)
    (hl : ∀ p ∈ l, p.1 ≠ .cs ∧ DataValid s p.2) :
    loadTaskDatas o { s with segs := g } l =
      .ok { s with segs := l.foldl (fun g p => g.set p.1 (taskSeg s p.2)) g } := by
  induction l generalizing g with
  | nil => rfl
  | cons p l ih =>
    obtain ⟨hp, hd⟩ := hl p List.mem_cons_self
    rw [loadTaskDatas, loadTaskData_valid (hd.withSegs ha hc), taskSeg_withSegs ha]
    refine ih (g := g.set p.1 (taskSeg s p.2)) ?_ fun q hq => hl q (List.mem_cons_of_mem _ hq)
    exact (congrArg SegReg.sel (Segs.get_set_ne g (q := .cs) _ hp.symm)).trans hc

end

/-- Settles O35: the LDT is loaded, and from then on each register takes what the tables hold, whatever segment registers
have been loaded before it (`descAt_withSegs`). -/
theorem validTssLoads : Obligations.ValidTssLoads := by
  unfold Obligations.ValidTssLoads
  intro o s img hcs hv
  have h1 := loadLdt_valid (o := o) hv.ldtGlobal hv.ldtSel hv.ldtKind hv.ldtPresent
  have h2 := loadTaskStack_valid (o := o) hv.ssSel hv.ssKind hv.ssDpl hv.ssRpl hv.ssPresent
  have ha : Alone { s with ldtr := segOfDesc img.ldt (descAt s img.ldt) } := hv.alone
  have hcd := hv.csSel.1
  obtain ⟨conf, rd, hk, hd, hl⟩ := hv.csKind
  have h3 := loadTaskCode_valid (o := o) ha
    (g := s.segs.set .ss (taskSeg { s with ldtr := segOfDesc img.ldt (descAt s img.ldt) } img.ss)) rfl hv.csSel hk hd hl
    hv.csPresent
  rw [loadContext_of_code h1 h2 h3, checkTaskLimits_ok fun x hx => ?limits, bind_ok, loadTaskDatas_valid ha ?cs ?data]
  case limits =>
    have hx := hv.data x hx
    cases hn : selNull x with
    | true => exact .inl rfl
    | false => exact .inr (hx hn).1.2.1
  case cs =>
    rw [taskSeg_of_not_null hcd]
    exact hcs.symm
  case data => simpa using hv.data
  rfl

end Sys2Proof.Machine
end

section
/-! Delivery outside real-address mode (R134, R137, R139): which entry of the interrupt descriptor table leads where, and the
frame an interrupt or trap gate leaves on the stack of the same or of a more privileged level. -/

namespace Sys2Proof.Machine

/-! ### The entry of a vector -/

/-- What `invokeProtected` does with a gate it has read (R134, R139). -/
def takeGate (e : Event) (s : State) (gate : Desc) : Res State :=
  let o := Origin.ofEvent s e
  match descKind gate with
  | .taskGate =>
    if mode s = .v86Mode then .error (o.fault 13 (some (idtErr e.vector o.ext)))
    else if descPresent gate then enterTask o s e gate else .error (o.fault 11 (some (idtErr e.vector o.ext)))
  | .intGate z =>
    if descPresent gate then enterGate o s e z true gate else .error (o.fault 11 (some (idtErr e.vector o.ext)))
  | .trapGate z =>
    if descPresent gate then enterGate o s e z false gate else .error (o.fault 11 (some (idtErr e.vector o.ext)))
  | .code .. | .data .. | .ldt | .tss386 | .tss286 | .callGate | .other =>
    .error (o.fault 13 (some (idtErr e.vector o.ext)))

section
variable {e : Event} {s : State} (hm : mode s ≠ .realMode)
include hm

theorem invokeHandler_beyond (hl : s.idtr.limit.toNat < 8 * e.vector.toNat + 7) :
    invokeHandler e s = .error ((Origin.ofEvent s e).fault 13 (some (idtErr e.vector e.ext))) := by
  rw [invokeHandler, if_neg hm, invokeProtected, if_pos hl]
  rfl

variable (hl : 8 * e.vector.toNat + 7 ≤ s.idtr.limit.toNat) (ha : admits s (vectorKey s .idt e.vector 8))
include hl ha

theorem invokeHandler_notTask (h10 : e.vector = 10) (hn : e.newTask = true)
    (hk : descKind (gateAt s e.vector) ≠ .taskGate) :
    invokeHandler e s = .error (.refused .handlerNotTask) := by
  rw [invokeHandler, if_neg hm, invokeProtected, if_neg (Nat.not_lt.2 hl), check_ok _ ha, bind_ok,
    if_pos ⟨h10, hn, hk⟩]

theorem invokeHandler_inside
    (h10 : e.vector = 10 → e.newTask = true → descKind (gateAt s e.vector) = .taskGate) :
    invokeHandler e s = takeGate e s (gateAt s e.vector) := by
  rw [invokeHandler, if_neg hm, invokeProtected, if_neg (Nat.not_lt.2 hl), check_ok _ ha, bind_ok,
    if_neg fun h => h.2.2 (h10 h.1 h.2.1)]
  cases hk : descKind (gateAt s e.vector) <;> simp only [takeGate, hk]

end

/-- Settles O26: the test for a task gate comes before the kind of the gate decides. -/
theorem vectorTenNeedsTask : Obligations.VectorTenNeedsTask := by
  unfold Obligations.VectorTenNeedsTask
  intro e s hm h10 hn hl ha hk
  rw [deliver, deliverChain_eq, invokeHandler_notTask (s := report e s) hm hl ha h10 hn hk]

/-! ### Interrupt and trap gates -/

/-- An interrupt gate, which clears IF, or a trap gate. -/
abbrev gateKind (z : WSize) (clearIF : Bool) : DescKind := if clearIF then .intGate z else .trapGate z

theorem takeGate_of_kind {e : Event} {s : State} {gate : Desc} {z : WSize} {b : Bool}
    (hk : descKind gate = gateKind z b) (hp : descPresent gate = true) :
    takeGate e s gate = enterGate (Origin.ofEvent s e) s e z b gate := by
  cases b <;> simp only [takeGate, hk, gateKind, hp] <;> rfl

theorem code_of_isCode {d : Desc} (h : isCode d = true) : ∃ conf rd, descKind d = .code conf rd := by
  unfold isCode at h
  split at h
  · exact ⟨_, _, ‹_›⟩
  all_goals cases h

theorem invokeHandler_gate {e : Event} {s : State} {z : WSize} {b : Bool} (hm : mode s ≠ .realMode)
    (hr : GateReady s e.vector (gateKind z b)) (h10 : e.vector = 10 → e.newTask = false) :
    invokeHandler e s = enterGate (Origin.ofEvent s e) s e z b (gateAt s e.vector) := by
  obtain ⟨-, hl, ha, hk, hp, -, -, -⟩ := hr
  rw [invokeHandler_inside hm hl ha fun h hn => by simp [h10 h] at hn, takeGate_of_kind hk hp]

section
variable {o : Origin} {s : State} {e : Event} {z : WSize} {b conf rd : Bool} {gate : Desc}
variable (hr : selReadable s (gateSel gate)) (hp : descPresent (descAt s (gateSel gate)) = true)
include hr hp

theorem enterGate_same (hm : mode s = .protMode) (hk : descKind (descAt s (gateSel gate)) = .code conf rd)
    (hd : (conf = true ∧ (descDpl (descAt s (gateSel gate))).toNat ≤ (cpl s).toNat) ∨
      descDpl (descAt s (gateSel gate)) = cpl s) :
    enterGate o s e z b gate =
      enterSame o s e z b (segOfDesc (gateSel gate) (descAt s (gateSel gate))) (gateOff gate) := by
  obtain ⟨hn, ht, ha⟩ := hr
  have hle : ¬(cpl s).toNat < (descDpl (descAt s (gateSel gate))).toNat := by
    rcases hd with ⟨-, h⟩ | h
    · omega
    · simp [h]
  simp only [enterGate, hn, ht, readDesc_ok o ha, hk, hp, hm, if_neg hle]
  rw [if_neg (by simp), if_neg (by simp), if_neg (by simp), if_pos (hd.imp And.left id)]

theorem enterGate_inner (hm : mode s = .v86Mode → descDpl (descAt s (gateSel gate)) = 0)
    (hk : descKind (descAt s (gateSel gate)) = .code false rd)
    (hd : (descDpl (descAt s (gateSel gate))).toNat < (cpl s).toNat) :
    enterGate o s e z b gate =
      enterInner o s e z b (segOfDesc (gateSel gate) (descAt s (gateSel gate))) (descDpl (descAt s (gateSel gate)))
        (gateOff gate) := by
  obtain ⟨hn, ht, ha⟩ := hr
  simp only [enterGate, hn, ht, readDesc_ok o ha, hk, hp]
  rw [if_neg (by simp), if_neg (by simp), if_neg fun h => h.2.elim (by simp) fun h' => h' (hm h.1),
    if_neg (Nat.lt_asymm hd), if_neg fun h => h.elim (by simp) fun h' => by simp [h'] at hd]

end

/-! ### The frame of a handler -/

/-- `s` in the handler of `e`, reported, before its frame is pushed: its code and stack segments, its stack pointer and its
flags in force (R139). -/
def gateState (e : Event) (s : State) (cs ss : SegReg) (esp : Word) (clearIF : Bool) : State :=
  { report e s with
    gpr := s.gpr.set .esp esp, segs := (s.segs.set .cs cs).set .ss ss, eflags := entryFlags s.eflags clearIF }

theorem entryFlags_vm (v : Word) (b : Bool) : (entryFlags v b).getLsbD 17 = false := by
  have h : (setBit (setBit (setBit (setBit v 8 false) 14 false) 17 false) 16 false).getLsbD 17 = false := by
    rw [getLsbD_setBit _ 16 _ _ (by decide), if_neg (by decide), getLsbD_setBit _ 17 _ _ (by decide), if_pos rfl]
  cases b
  · exact h
  · show (setBit _ 9 false).getLsbD 17 = false
    rw [getLsbD_setBit _ 9 _ _ (by decide)]
    exact h

section
variable (e : Event) (s : State) (cs ss : SegReg) (esp : Word) (b : Bool)

theorem mode_gateState (hm : mode s ≠ .realMode) : mode (gateState e s cs ss esp b) = .protMode := by
  have hpe : (gateState e s cs ss esp b).cr0PE = true :=
    Bool.eq_true_of_not_eq_false (mt (mode_eq_realMode_iff s).2 hm)
  have hvm : (gateState e s cs ss esp b).flagVM = false := entryFlags_vm _ _
  simp [mode, hpe, hvm]

theorem cpl_gateState (hm : mode s ≠ .realMode) : cpl (gateState e s cs ss esp b) = selRpl cs.sel := by
  rw [cpl, mode_gateState e s cs ss esp b hm]
  rfl

theorem gateState_esp : (gateState e s cs ss esp b).reg .esp = esp :=
  Gprs.get_set_self s.gpr .esp esp

theorem gateState_inner :
    gateState e s cs ss esp b = ((enterSegment (report e s) cs b).setSeg .ss ss).setReg .esp esp := rfl

theorem gateState_same : gateState e s cs s.segs.ss (s.reg .esp) b = enterSegment (report e s) cs b := rfl

end

/-- The handler entered, its frame being on its stack. -/
theorem Pushed.gateEntered {e : Event} {s t : State} {z : WSize} {cs ss : SegReg} {esp : Word} {b : Bool} {vs : List Word}
    (P : Pushed (gateState e s cs ss esp b) { t with draws := s.draws } z vs) (hp : s.cr0PG = false) (entry : Word) :
    GateEntered e s { jump t (truncZ z entry) with delivering := none } z cs ss esp vs b entry := by
  have hreg := gateState_esp e s cs ss esp b
  have hlin : ∀ off, (gateState e s cs ss esp b).lin .ss off = ss.base + off := fun off => rfl
  have hcr0 : t.cr0 = s.cr0 := P.cr0
  have htp : t.cr0PG = false := by rw [State.cr0PG, hcr0]; exact hp
  have gpr := P.gpr
  have stack := P.stack
  have only := P.only
  rw [hreg] at gpr
  simp only [hreg, hlin] at stack only
  exact {
    reported := P.reported
    delivering := rfl
    gpr := gpr.trans (Gprs.set_set s.gpr .esp _ _)
    stack := fun k hk => (readLin_congr (s := { jump t (truncZ z entry) with delivering := none })
      (t := { t with draws := s.draws }) htp htp _ _ fun _ _ => rfl).trans (stack k hk)
    stackOnly := only
    eflags := P.eflags
    eip := rfl
    segs := P.segs
    prefetch := rfl
    cr2 := P.cr2
    kept := ⟨P.ldtr, P.tr, P.gdtr, P.idtr, P.cr0, P.cr3, P.dr, P.tr6, P.tr7, P.shutdown, P.halted, P.nmiBlocked,
      P.switched, P.debugTrap, P.pins, P.amid⟩ }

/-- The last part of an entry: the words `vs` and the error code pushed, then the jump (R139). -/
def pushFrame (o : Origin) (s : State) (z : WSize) (vs : List Word) (e : Event) (entry : Word) : Res State := do
  let s1 ← pushAll o s z vs
  let s2 ← pushErr o s1 z e
  .ok (jump s2 (truncZ z entry))

theorem enterSame_eq (o : Origin) (s : State) (e : Event) (z : WSize) (b : Bool) (g : SegReg) (entry : Word) :
    enterSame o s e z b g entry = pushFrame o (enterSegment s { g with sel := withRpl g.sel (cpl s) } b) z
      [s.eflags, e.savedCS.setWidth 32, e.savedEIP] e entry := rfl

theorem bytes_bounds (z : WSize) : 0 < z.bytes ∧ z.bytes ≤ 4 := by cases z <;> decide

/-- The words of a frame do not run around the stack. -/
theorem frame_fits (z : WSize) {n : Nat} (h : n ≤ 2 ^ 16) : n * z.bytes ≤ 2 ^ 31 :=
  (Nat.mul_le_mul h (bytes_bounds z).2).trans (by decide)

theorem pushFrame_ok (o : Origin) {z : WSize} (vs : List Word) (e : Event) {s : State} (entry : Word) (hp : s.cr0PG = false)
    (hm : MemoryCanonical s) (hl : vs.length < 2 ^ 16)
    (hadm : ∀ k < vs.length + 1, admits s (slotKey (s.reg .esp) (cpl s) z k)) :
    ∃ t hi, (e.vector = 8 → hi = 0) ∧ pushFrame o s z vs e entry = .ok (jump t (truncZ z entry)) ∧
      Pushed s { t with draws := s.draws } z (vs ++ errWords z hi e.err) := by
  obtain ⟨s1, t, hi, h8, h1, h2, P⟩ := pushErr_ok o vs e hp hm (frame_fits z hl) hadm
  exact ⟨t, hi, h8, by rw [pushFrame, h1, bind_ok, h2, bind_ok], P⟩

/-- Settles O23: the gate is entered at the same level (`enterGate_same`), and its frame pushed (`pushFrame_ok`). -/
theorem gateDeliverySameLevel : Obligations.GateDeliverySameLevel := by
  unfold Obligations.GateDeliverySameLevel
  intro e s r z b hmem hmode hr hg h10 hd hadm
  subst hr
  have hne : mode s ≠ .realMode := by simp [hmode]
  obtain ⟨hpg, -, -, -, -, hsel, hcode, hpres⟩ := id hg
  have hent : invokeHandler e (report e s) = enterSame (Origin.ofEvent (report e s) e) (report e s) e z b
      (segOfDesc (gateSel (gateAt (report e s) e.vector)) (descAt (report e s) (gateSel (gateAt (report e s) e.vector))))
      (gateOff (gateAt (report e s) e.vector)) := by
    rw [invokeHandler_gate (s := report e s) hne hg h10]
    obtain ⟨conf, rd, hk⟩ := code_of_isCode hcode
    exact enterGate_same hsel hpres hmode hk (hd.imp_left fun ⟨_, h, hle⟩ =>
      ⟨(DescKind.code.inj (hk.symm.trans h)).1, hle⟩)
  generalize gateAt (report e s) e.vector = gate at *
  set cs : SegReg := { segOfDesc (gateSel gate) (descAt (report e s) (gateSel gate)) with
    sel := withRpl (gateSel gate) (cpl s) }
  have hc : cpl (gateState e s cs s.segs.ss (s.reg .esp) b) = cpl s :=
    (cpl_gateState e s cs _ _ b hne).trans (selRpl_withRpl _ _)
  obtain ⟨t, hi, h8, hf, P⟩ := pushFrame_ok (Origin.ofEvent (report e s) e) (z := z)
    [s.eflags, e.savedCS.setWidth 32, e.savedEIP] e (s := gateState e s cs s.segs.ss (s.reg .esp) b) (gateOff gate) hpg hmem
    (by simp) (by rw [hc]; exact hadm)
  rw [gateState_same] at hf
  exact ⟨_, hi, h8, deliver_of_invoke ((hent.trans (enterSame_eq _ _ _ _ _ _ _)).trans hf), P.gateEntered hpg _⟩

/-! ### A more privileged level -/

section
variable {s t u : State} {z : WSize} {vs ws : List Word}

theorem Pushed.cpl (P : Pushed s t z vs) : cpl t = cpl s := by
  rw [P.eqs]
  rfl

theorem Pushed.admits_iff (P : Pushed s t z vs) (k : AccessKey) : admits t k ↔ admits s k := by
  rw [admits, accessDenial, P.pins]
  rfl

theorem Pushed.slotOff (P : Pushed s t z vs) (k : Nat) :
    slotOff (t.reg .esp) z k = slotOff (s.reg .esp) z (vs.length + k) := by
  rw [← slotOff_shift, State.reg, P.gpr, Gprs.get_set_self]

/-- The pushes of a list go by the stack segment alone. -/
theorem Pushed.withSegs (P : Pushed s t z vs) {g : Segs} (hg : g.ss.base = s.segs.ss.base) :
    Pushed { s with segs := g } { t with segs := g } z vs := by
  have hlin : ∀ off, ({ s with segs := g } : State).lin .ss off = s.lin .ss off := fun off => congrArg (· + off) hg
  refine ⟨?_, P.amid, P.wf, fun k hk => ?_, ?_⟩
  · conv_lhs => rw [P.eqs]
    rfl
  · rw [hlin]
    exact (readLin_of_eq (s := { t with segs := g }) (t := t) rfl rfl rfl rfl _ _).trans (P.stack k hk)
  · rw [hlin]
    exact P.only

theorem Pushed.trans (P : Pushed s t z vs) (Q : Pushed t u z ws) (hp : s.cr0PG = false)
    (hl : (vs ++ ws).length * z.bytes ≤ 2 ^ 31) : Pushed s u z (vs ++ ws) := by
  have htp : t.cr0PG = false := by rw [State.cr0PG, P.cr0]; exact hp
  have R := P.append Q hp htp rfl (by simp only [State.seg, P.segs]) rfl (fun _ => id) hl
  have hu : u = { s with gpr := u.gpr, mem := u.mem, stored := u.stored, amid := u.amid } := by
    conv_lhs => rw [Q.eqs, ← Q.gpr, P.eqs]
  rwa [← hu] at R

end

theorem innerStack_ok (o : Origin) {s : State} {level : BitVec 2}
    (ha : admits s (tssKey s s.tr.sel (BitVec.ofNat 32 (4 + 8 * level.toNat)) 8 false))
    (hr : selReadable s (tssSel s s.tr.base (8 + 8 * level.toNat))) :
    innerStack o s level =
      .ok (segOfDesc (tssSel s s.tr.base (8 + 8 * level.toNat)) (descAt s (tssSel s s.tr.base (8 + 8 * level.toNat))),
        tssWord s s.tr.base (4 + 8 * level.toNat)) := by
  obtain ⟨hn, ht, hd⟩ := hr
  rw [innerStack, check_ok o ha, bind_ok]
  simp [hn, ht, readDesc_ok o hd, bind_ok]

theorem leaveV86_prot (o : Origin) {s : State} (u : State) (z : WSize) (hm : mode s = .protMode) :
    leaveV86 o s u z = .ok u := by
  simp [leaveV86, hm]

/-- The words an event pushes on the stack of a more privileged level, the first of the list first (R139). -/
def innerFrame (e : Event) (s : State) : List Word :=
  [s.segs.ss.sel.setWidth 32, s.reg .esp, s.eflags, e.savedCS.setWidth 32, e.savedEIP]

theorem enterInner_eq {o : Origin} {s s2 : State} {e : Event} {z : WSize} {b : Bool} {g ss : SegReg} {level : BitVec 2}
    {esp : Word} (hi : innerStack o s level = .ok (ss, esp))
    (hv : leaveV86 o s (((enterSegment s { g with sel := withRpl g.sel level } b).setSeg .ss ss).setReg .esp esp) z = .ok s2)
    (entry : Word) : enterInner o s e z b g level entry = pushFrame o s2 z (innerFrame e s) e entry := by
  have happ := pushAll_append o s2 z [s.segs.ss.sel.setWidth 32, s.reg .esp] [s.eflags, e.savedCS.setWidth 32, e.savedEIP]
  rw [enterInner, hi, bind_ok]
  simp only [hv, bind_ok, pushFrame, innerFrame]
  simp only [List.cons_append, List.nil_append] at happ
  rw [happ]
  cases pushAll o s2 z [s.segs.ss.sel.setWidth 32, s.reg .esp] <;> rfl

/-- The descriptor of the code segment that the gate of a vector names (R139). -/
abbrev handlerDesc (s : State) (v : BitVec 8) : Desc := descAt s (gateSel (gateAt s v))

/-- The code segment register of the handler of a vector, entered at a level. -/
abbrev handlerSeg (s : State) (v : BitVec 8) (level : BitVec 2) : SegReg :=
  { segOfDesc (gateSel (gateAt s v)) (handlerDesc s v) with sel := withRpl (gateSel (gateAt s v)) level }

/-- A gate to a more privileged level leads to the words of the old stack, in the handler's segments or in what `leaveV86`
makes of them. -/
theorem invokeHandler_inner {e : Event} {s u : State} {z : WSize} {b rd : Bool} {level : BitVec 2} {ss : SegReg} {esp : Word}
    (hne : mode s ≠ .realMode) (hg : GateReady s e.vector (gateKind z b)) (h10 : e.vector = 10 → e.newTask = false)
    (hk : descKind (handlerDesc s e.vector) = .code false rd) (hd : descDpl (handlerDesc s e.vector) = level)
    (hm : mode s = .v86Mode → level = 0) (hl : level.toNat < (cpl s).toNat)
    (hi : innerStack (Origin.ofEvent s e) s level = .ok (ss, esp))
    (hv : leaveV86 (Origin.ofEvent s e) s
      (((enterSegment s (handlerSeg s e.vector level) b).setSeg .ss ss).setReg .esp esp) z = .ok u) :
    invokeHandler e s = pushFrame (Origin.ofEvent s e) u z (innerFrame e s) e (gateOff (gateAt s e.vector)) := by
  subst hd
  obtain ⟨-, -, -, -, -, hsel, -, hpres⟩ := id hg
  rw [invokeHandler_gate hne hg h10, enterGate_inner hsel hpres hm hk hl]
  exact enterInner_eq (g := segOfDesc (gateSel (gateAt s e.vector)) (handlerDesc s e.vector)) hi hv _

/-- After the first words `us` of a frame on the handler's stack, the rest of it, and the handler is entered. -/
theorem deliver_of_pushed {e : Event} {s s' u : State} {z : WSize} {b : Bool} {cs ss : SegReg} {esp entry : Word}
    {us vs : List Word} (hp : s'.cr0PG = false) (hne : mode s' ≠ .realMode) (hl : us.length + vs.length < 2 ^ 16)
    (hf : invokeHandler e (report e s) = pushFrame (Origin.ofEvent (report e s) e) u z vs e entry)
    (P : Pushed (gateState e s' cs ss esp b) u z us)
    (hadm : ∀ k < us.length + (vs.length + 1), admits s' (slotKey esp (selRpl cs.sel) z k)) :
    ∃ t hi, (e.vector = 8 → hi = 0) ∧ deliver e s = .next t ∧
      GateEntered e s' t z cs ss esp (us ++ vs ++ errWords z hi e.err) b entry := by
  have hup : u.cr0PG = false := by rw [State.cr0PG, P.cr0]; exact hp
  obtain ⟨t, hi, h8, ht, Q⟩ := pushFrame_ok (Origin.ofEvent (report e s) e) (z := z) vs e entry hup P.wf (by omega)
    fun k hk => by
      rw [P.admits_iff, P.cpl, cpl_gateState e s' cs ss esp b hne, slotKey, P.slotOff, gateState_esp]
      exact hadm (us.length + k) (by omega)
  have hz : (us ++ (vs ++ errWords z hi e.err)).length * z.bytes ≤ 2 ^ 31 := by
    have he : (errWords z hi e.err).length ≤ 1 := by cases e.err <;> simp [errWords]
    exact frame_fits z (by rw [List.length_append, List.length_append]; omega)
  rw [P.draws] at Q
  have hent := (P.trans Q hp hz).gateEntered hp entry
  rw [← List.append_assoc] at hent
  exact ⟨_, hi, h8, deliver_of_invoke (hf.trans ht), hent⟩

section
variable {e : Event} {s t : State} {z : WSize} {b : Bool} {cs ss : SegReg} {esp entry : Word} {vs : List Word}
variable (h : GateEntered e s t z cs ss esp vs b entry) (hne : Machine.mode s ≠ .realMode)
include h hne

theorem GateEntered.mode : Machine.mode t = .protMode := by
  obtain ⟨-, -, -, -, hcr0, -⟩ := h.kept
  have hpe : t.cr0PE = true := by
    rw [State.cr0PE, hcr0]
    exact Bool.eq_true_of_not_eq_false (mt (mode_eq_realMode_iff s).2 hne)
  have hvm : t.flagVM = false := by rw [State.flagVM, h.eflags]; exact entryFlags_vm _ _
  simp [Machine.mode, hpe, hvm]

theorem GateEntered.cpl : Machine.cpl t = selRpl cs.sel := by
  rw [Machine.cpl, h.mode hne, h.segs]
  rfl

end

/-- The data segment registers null, as a handler entered from virtual-8086 mode finds them (log entry 15). -/
abbrev nullData (g : Segs) : Segs := { g with gs := segNull 0, fs := segNull 0, ds := segNull 0, es := segNull 0 }

theorem gateState_nullData (e : Event) (s : State) (cs ss : SegReg) (esp : Word) (b : Bool) :
    gateState e { s with segs := nullData s.segs } cs ss esp b =
      { gateState e s cs ss esp b with segs := nullData (gateState e s cs ss esp b).segs } := rfl

/-- The words pushed before those of `innerFrame` where virtual-8086 mode is left (log entry 15). -/
def v86Frame (g : Segs) : List Word :=
  [g.gs.sel.setWidth 32, g.fs.sel.setWidth 32, g.ds.sel.setWidth 32, g.es.sel.setWidth 32]

theorem leaveV86_v86 {o : Origin} {s u v : State} {z : WSize} (hm : mode s = .v86Mode)
    (h : pushAll o u z (v86Frame s.segs) = .ok v) : leaveV86 o s u z = .ok { v with segs := nullData v.segs } := by
  rw [v86Frame] at h
  simp only [leaveV86, if_pos hm, h]

theorem cpl_of_v86Mode {s : State} (h : mode s = .v86Mode) : cpl s = 3 := by
  rw [cpl, h]

theorem selRpl_handlerSeg (s : State) (v : BitVec 8) (level : BitVec 2) : selRpl (handlerSeg s v level).sel = level :=
  selRpl_withRpl _ _

/-- Settles O24: the frame is that of `innerFrame`, after none or, from virtual-8086 mode, after that of `v86Frame`. -/
theorem gateDeliveryInnerLevel : Obligations.GateDeliveryInnerLevel := by
  unfold Obligations.GateDeliveryInnerLevel
  constructor
  · intro e s r z b level rd ss esp hmem hmode hr hg h10 hk hd hl ha hesp hss hrs hadm
    have hne : mode s ≠ .realMode := by simp [hmode]
    have hpg : s.cr0PG = false := by rw [← hg.1, hr]; rfl
    have hi : innerStack (Origin.ofEvent r e) r level = .ok (segOfDesc ss (descAt r ss), esp) := by
      subst hr hss hesp
      exact innerStack_ok _ ha hrs
    have hv := leaveV86_prot (s := r) (Origin.ofEvent r e)
      (gateState e s (handlerSeg r e.vector level) (segOfDesc ss (descAt r ss)) esp b) z (by rw [hr]; exact hmode)
    have hf := invokeHandler_inner (s := r) (by rw [hr]; exact hne) hg h10 hk hd
      (fun h => by rw [hr] at h; exact absurd (hmode.symm.trans h) (by decide)) (by rw [hr]; exact hl) hi
      (by rw [← hv, gateState_inner, hr])
    subst hr
    obtain ⟨_, hu, P⟩ := pushAll_ok (Origin.ofEvent (report e s) e) (z := z) []
      (s := gateState e s (handlerSeg (report e s) e.vector level) (segOfDesc ss (descAt (report e s) ss)) esp b) hpg hmem
      (by simp) (by simp)
    cases hu
    exact deliver_of_pushed (us := []) hpg hne (by simp) hf P fun k hk => by
      rw [selRpl_handlerSeg]
      exact hadm k (by simpa [innerFrame] using hk)
  · intro e s r z b rd ss esp hmem hmode hr hg h10 hk hd ha hesp hss hrs hadm
    have hne : mode s ≠ .realMode := by simp [hmode]
    have hpg : s.cr0PG = false := by rw [← hg.1, hr]; rfl
    have hi : innerStack (Origin.ofEvent r e) r 0 = .ok (segOfDesc ss (descAt r ss), esp) := by
      subst hr hss hesp
      exact innerStack_ok _ ha hrs
    have hc := (cpl_gateState e s (handlerSeg r e.vector 0) (segOfDesc ss (descAt r ss)) esp b hne).trans
      (selRpl_handlerSeg _ _ _)
    obtain ⟨v, hu, P⟩ := pushAll_ok (Origin.ofEvent r e) (z := z) (v86Frame s.segs)
      (s := gateState e s (handlerSeg r e.vector 0) (segOfDesc ss (descAt r ss)) esp b) hpg hmem
      (by cases z <;> simp [v86Frame, WSize.bytes]) fun k hk => by
        rw [hc, gateState_esp]
        exact hadm k (by simp [v86Frame] at hk; omega)
    have hf := invokeHandler_inner (s := r) (by rw [hr]; exact hne) hg h10 hk hd (fun _ => rfl)
      (by rw [hr, cpl_of_v86Mode (s := report e s) hmode]; exact Nat.zero_lt_succ 2) hi
      (leaveV86_v86 (by rw [hr]; exact hmode) (by rw [← hu, gateState_inner, hr]; rfl))
    subst hr
    have P' : Pushed (gateState e { s with segs := nullData s.segs } (handlerSeg (report e s) e.vector 0)
        (segOfDesc ss (descAt (report e s) ss)) esp b) { v with segs := nullData v.segs } z (v86Frame s.segs) := by
      rw [gateState_nullData, ← P.segs]
      exact P.withSegs (by rw [P.segs])
    obtain ⟨t, hi, h8, ht, hent⟩ := deliver_of_pushed (s' := { s with segs := nullData s.segs }) hpg hne
      (by simp [innerFrame, v86Frame]) hf P' fun k hk => by
        rw [selRpl_handlerSeg]
        exact hadm k (by simpa [innerFrame, v86Frame] using hk)
    exact ⟨t, hi, h8, ht, hent.mode hne, (hent.cpl hne).trans (selRpl_handlerSeg _ _ _), hent⟩

/-! ### Beyond the table, and task gates -/

theorem idtErr_fields (v : BitVec 8) (x : Bool) :
    (idtErr v x).extractLsb' 3 13 = v.setWidth 13 ∧ (idtErr v x).getLsbD 2 = false ∧ (idtErr v x).getLsbD 1 = true := by
  refine ⟨BitVec.eq_of_getLsbD_eq fun i hi => ?_, ?_, ?_⟩
  · have low : ∀ n < 8, (BitVec.ofNat 16 n).getLsbD (3 + i) = false := fun n hn => by
      have h8 : 2 ^ 3 ≤ 2 ^ (3 + i) := Nat.pow_le_pow_right (by decide) (Nat.le_add_right 3 i)
      rw [BitVec.getLsbD_ofNat, Nat.testBit_lt_two_pow (hn.trans_le h8), Bool.and_false]
    have hx : (if x then 1 else 0 : Half).getLsbD (3 + i) = false := by
      cases x
      · exact low 0 (by decide)
      · exact low 1 (by decide)
    rw [BitVec.getLsbD_extractLsb', idtErr, BitVec.getLsbD_or, BitVec.getLsbD_or,
      show (2 : Half).getLsbD (3 + i) = false from low 2 (by decide), hx]
    simp [hi, show 3 + i < 16 by omega]
  · cases x <;> simp [idtErr]
  · cases x <;> simp [idtErr]

section
variable {e : Event} {s t : State} {gate : Desc}

theorem takeGate_v86 (hm : mode s = .v86Mode) (hk : descKind gate = .taskGate) :
    takeGate e s gate = .error ((Origin.ofEvent s e).fault 13 (some (idtErr e.vector e.ext))) := by
  simp only [takeGate, hk, if_pos hm]
  rfl

theorem takeGate_task (hm : mode s = .protMode) (hk : descKind gate = .taskGate) (hp : descPresent gate = true) :
    takeGate e s gate = enterTask (Origin.ofEvent s e) s e gate := by
  simp only [takeGate, hk, hm, hp]
  simp

theorem enterTask_error {o : Origin} {x : Stop}
    (h : taskSwitch o s (gateSel gate) .interrupt e.savedCS e.savedEIP = .error x) : enterTask o s e gate = .error x := by
  rw [enterTask, h, bind_err]

theorem enterTask_ok {o : Origin} {u : State} (h : taskSwitch o s (gateSel gate) .interrupt e.savedCS e.savedEIP = .ok t)
    (hu : pushErr (Origin.inTask t o.ext) t .o32 e = .ok u) : enterTask o s e gate = .ok { u with stored := [] } := by
  rw [enterTask, h, bind_ok, hu, bind_ok]
  rfl

end

theorem pushed_eq (s : State) (z : WSize) (v : Word) :
    pushed s z v = { s with
      gpr := s.gpr.set .esp (slotOff (s.reg .esp) z 0), mem := (pushed s z v).mem, stored := (pushed s z v).stored
      amid := (pushed s z v).amid } := by
  rw [← pushed_gpr_slot]
  rfl

/-- Without paging a push stores the same where a free value has been taken before. -/
theorem storedAt_pushed_tick {s : State} (hm : MemoryCanonical s) (hp : s.cr0PG = false) (v : Word) :
    StoredAt s (pushed s.tick .o32 v).mem (s.lin .ss (slotOff (s.reg .esp) .o32 0)) 4 v := by
  have h := storedAt_pushed (s := s.tick) hm .o32 v
  simp only [StoredAt, phys_of_no_paging hp, phys_of_no_paging (s := s.tick) hp] at h ⊢
  exact h

/-- Settles O25: the limit comes first, then the kind of the gate (`invokeHandler_inside`); a task gate is a task switch, and
a push where the event has an error code (`enterTask_ok`). -/
theorem tableLimitAndTaskGates : Obligations.TableLimitAndTaskGates := by
  unfold Obligations.TableLimitAndTaskGates
  constructor
  · intro e s hne h
    obtain ⟨hidx, hti, hi⟩ := idtErr_fields e.vector e.ext
    refine ⟨idtErr e.vector e.ext, ?_, hidx, hti, hi, idtErr_ext _ _⟩
    rcases h with hl | ⟨hm, hl, ha, hk⟩
    · exact invokeHandler_beyond hne hl
    · exact (invokeHandler_inside hne hl ha fun _ _ => hk).trans (takeGate_v86 hm hk)
  · intro e s r sw hmode hl ha hr hk hp hsw
    have hmr : mode r = .protMode := by rw [hr]; exact hmode
    have hin : invokeHandler e r = enterTask (Origin.ofEvent r e) r e (gateAt r e.vector) := by
      refine (invokeHandler_inside (by simp [hmr]) ?_ ?_ fun _ _ => hk).trans (takeGate_task hmr hk hp)
      · rw [hr]; exact hl
      · rw [hr]; exact ha
    refine ⟨fun x hx => hin.trans (enterTask_error (hsw.symm.trans hx)), fun t ht he => ?_, fun t c ht he had => ?_⟩
    · have hu : pushErr (Origin.inTask t (Origin.ofEvent r e).ext) t .o32 e = .ok t := by rw [pushErr, he]
      exact deliver_of_invoke (hr ▸ hin.trans (enterTask_ok (hsw.symm.trans ht) hu))
    · let hi : Half := if e.vector = 8 then 0 else Config.errHigh t.draws
      have hu : pushErr (Origin.inTask t (Origin.ofEvent r e).ext) t .o32 e = .ok (pushed t.tick .o32 (hi ++ c)) := by
        simp only [pushErr, he]
        exact push_ok _ (s := t.tick) had _
      have hd := deliver_of_invoke (hr ▸ hin.trans (enterTask_ok (hsw.symm.trans ht) hu))
      refine ⟨hi, (pushed t.tick .o32 (hi ++ c)).mem, (pushed t.tick .o32 (hi ++ c)).amid, fun h => if_pos h,
        fun x hx => pushed_amid_subset (s := t.tick) hx, hd.trans ?_, fun hm hpg => ?_⟩
      · have hpush := pushed_eq t.tick .o32 (hi ++ c)
        generalize pushed t.tick .o32 (hi ++ c) = u at hpush ⊢
        rw [hpush]
        rfl
      · exact storedAt_pushed_tick hm hpg _

end Sys2Proof.Machine
end

section
/-! The return from a handler that was entered in real-address mode (R142): three pops read back what the delivery pushed. -/

namespace Sys2Proof.Machine

/-! ### Pops -/

theorem admits_of_no_denials {s : State} (h : s.pins.denials = []) (k : AccessKey) : admits s k := by
  simp [admits, accessDenial, h]

/-- The 16 bits at `off` on the stack, as memory holds them. -/
def stackHalf (s : State) (off : Word) : Word := BitVec.ofNat 32 (readLin s (s.lin .ss off) 2)

section
variable {o : Origin} {s : State} (h : s.pins.denials = []) (ha : Alone s)
include h ha

/-- Among no writes of other agents, a 16-bit pop that is admitted answers what memory holds. -/
theorem pop_alone : pop o s .o16 = .ok (stackHalf s (s.reg .esp), s.setReg .esp (s.reg .esp + 2)) := by
  rw [pop, check_ok o (admits_of_no_denials h _), loadLin_alone ha]
  rfl

theorem pop_setEsp (v : Word) : pop o (s.setReg .esp v) .o16 = .ok (stackHalf s v, s.setReg .esp (v + 2)) := by
  have hr : stackHalf (s.setReg .esp v) v = stackHalf s v :=
    congrArg (BitVec.ofNat 32) (readLin_of_eq (s := s.setReg .esp v) rfl rfl rfl rfl _ _)
  rw [pop_alone (s := s.setReg .esp v) h ha, setReg_reg, hr]
  simp only [State.setReg, Gprs.set_set]

/-- `s` after the 16-bit return of real-address mode: IP, CS and FLAGS from the stack (R142). -/
def realReturn (s : State) (ip cs fl esp : Word) : State :=
  jump { (s.setReg .esp esp).setSeg .cs (segReal (cs.setWidth 16)) with
    eflags := fixedFlags (s.eflags.extractLsb' 16 16 ++ fl.setWidth 16) } ip

theorem returnSameTask_real (hm : mode s = .realMode) :
    returnSameTask o s .o16 = .ok (realReturn s (stackHalf s (s.reg .esp)) (stackHalf s (s.reg .esp + 2))
      (stackHalf s (s.reg .esp + 2 + 2)) (s.reg .esp + 2 + 2 + 2)) := by
  rw [returnSameTask, pop_alone h ha, bind_ok]
  simp only [pop_setEsp h ha, bind_ok, hm]
  rfl

end

/-! ### After a delivery -/

/-- The half of EFLAGS a 16-bit return keeps, and the half it pops, make the flags before a delivery, which cleared RF. -/
theorem append_low_flags (f : Word) :
    (realEntryFlags f).extractLsb' 16 16 ++ (BitVec.ofNat 32 (f.toNat % 2 ^ 16)).setWidth 16 = setBit f 16 false := by
  refine BitVec.eq_of_getLsbD_eq fun i hi => ?_
  have hlow : ((BitVec.ofNat 32 (f.toNat % 2 ^ 16)).setWidth 16).getLsbD i = (decide (i < 16) && f.getLsbD i) := by
    rw [BitVec.getLsbD_setWidth, BitVec.getLsbD_ofNat, Nat.testBit_mod_two_pow]
    by_cases h : i < 16 <;> simp [h, hi, BitVec.getLsbD]
  rw [BitVec.getLsbD_append, getLsbD_setBit _ 16 _ _ (by decide), hlow, BitVec.getLsbD_extractLsb', realEntryFlags,
    getLsbD_setBit _ 16 _ _ (by decide), getLsbD_setBit _ 8 _ _ (by decide), getLsbD_setBit _ 9 _ _ (by decide)]
  by_cases h : i < 16
  · simp [h, show i ≠ 16 by omega]
  · obtain ⟨j, rfl⟩ : ∃ j, i = 16 + j := ⟨i - 16, by omega⟩
    simp [show j < 16 by omega, show 16 + j ≠ 8 by omega, show 16 + j ≠ 9 by omega]

/-- `t` after the return from the handler of `e`, entered from `s`. -/
def handlerReturn (e : Event) (s t : State) : State :=
  realReturn t (BitVec.ofNat 32 (e.savedEIP.toNat % 2 ^ 16)) (BitVec.ofNat 32 e.savedCS.toNat)
    (BitVec.ofNat 32 (s.eflags.toNat % 2 ^ 16)) (s.reg .esp)

section
variable {e : Event} {s t : State} (R : RealEntered e s t)
include R

theorem RealEntered.mode (hm : mode s = .realMode) : mode t = .realMode := by
  obtain ⟨-, -, -, -, hcr0, -⟩ := R.kept
  rw [mode_eq_realMode_iff, State.cr0PE, hcr0]
  exact (mode_eq_realMode_iff s).1 hm

theorem RealEntered.alone (ha : Alone s) : Alone t := by
  obtain ⟨-, -, -, -, -, -, -, -, -, -, -, -, -, -, -, hamid⟩ := R.kept
  exact List.eq_nil_iff_forall_not_mem.2 fun c hc => by simpa [ha] using hamid c hc

theorem RealEntered.stackHalf (off : Word) : stackHalf t off = BitVec.ofNat 32 (readLin t (s.lin .ss off) 2) := by
  rw [Machine.stackHalf, State.lin, State.seg, R.entryCs]
  rfl

theorem RealEntered.reg_esp : t.reg .esp = s.reg .esp - 6 := by rw [State.reg, R.esp, Gprs.get_set_self]

/-- The stack of a handler in real-address mode is the one a 16-bit return takes. -/
theorem RealEntered.returnSameTask {o : Origin} (hm : Machine.mode s = .realMode) (ha : Alone s) (hd : s.pins.denials = []) :
    returnSameTask o t .o16 = .ok (handlerReturn e s t) := by
  obtain ⟨-, -, -, -, -, -, -, -, -, -, -, -, -, -, hpins, -⟩ := R.kept
  have h4 : s.reg .esp - 6 + 2 = s.reg .esp - 4 := by bv_omega
  have h2 : s.reg .esp - 4 + 2 = s.reg .esp - 2 := by bv_omega
  have h0 : s.reg .esp - 2 + 2 = s.reg .esp := by bv_omega
  rw [returnSameTask_real (by rw [hpins]; exact hd) (R.alone ha) (R.mode hm), R.reg_esp, h4, h2, h0]
  simp only [R.stackHalf, R.ip, R.cs, R.flags, handlerReturn]

theorem RealEntered.no_abort (hab : ∀ x ∈ e :: s.reported, x.cls ≠ .abort) :
    t.reported.any (fun e => decide (e.cls = .abort)) = false := by
  rw [R.reported]
  simpa using hab

/-- What the return from the handler restores. -/
theorem RealEntered.returned (hf : FlagsCanonical s) :
    (handlerReturn e s t).gpr = s.gpr ∧ (handlerReturn e s t).eflags = setBit s.eflags 16 false ∧
      (handlerReturn e s t).segs = s.segs.set .cs (segReal e.savedCS) ∧
      (handlerReturn e s t).eip = (e.savedEIP.setWidth 16).setWidth 32 := by
  refine ⟨?_, ?_, ?_, ?_⟩
  · show t.gpr.set .esp (s.reg .esp) = s.gpr
    rw [R.esp, Gprs.set_set, State.reg, Gprs.set_get]
  · show fixedFlags (t.eflags.extractLsb' 16 16 ++ _) = _
    rw [R.eflags, append_low_flags]
    exact flagsWf_setBit hf false (by decide) (by decide) (by decide) (by decide) (by decide)
  · show t.segs.set .cs (segReal ((BitVec.ofNat 32 e.savedCS.toNat).setWidth 16)) = _
    rw [R.entryCs, BitVec.setWidth_ofNat_of_le (by decide), BitVec.ofNat_toNat]
    rfl
  · refine BitVec.eq_of_toNat_eq ?_
    show (BitVec.ofNat 32 (e.savedEIP.toNat % 2 ^ 16)).toNat = _
    simp

end

/-- Settles O28: the three pops of the return answer what the delivery pushed (`RealEntered.returnSameTask`). -/
theorem returnUndoesRealDelivery : Obligations.ReturnUndoesRealDelivery := by
  unfold Obligations.ReturnUndoesRealDelivery
  intro e s t len hmem hflags ha hden hr hab hdel
  obtain ⟨t', ht', R⟩ := deliver_realReady hr hmem (e := e)
  obtain rfl : t = t' := Host.Outcome.next.inj (hdel.symm.trans ht')
  obtain ⟨hgpr, hfl, hsegs, heip⟩ := R.returned hflags
  refine ⟨{ handlerReturn e s t with nmiBlocked := false }, ?_, hgpr, hfl, hsegs, heip, rfl, rfl⟩
  rw [returnFromHandler, R.no_abort hab, if_neg (by simp), if_neg (by simp [R.mode hr.1]), R.returnSameTask hr.1 ha hden]
  rfl

end Sys2Proof.Machine
end

section
/-! Debug exceptions (R17, R18, R112, R117, R118, R141): which conditions hold before and after an instruction, and their
report as one event of vector 1. -/

namespace Sys2Proof.Machine

/-! ### The conditions -/

theorem instrHits_bit (s : State) {n : Nat} (hn : n < 4) :
    (instrHits s).getLsbD n = true ↔ s.flagRF = false ∧ BpArmed s.dr n 0 ∧ s.dr.addr n = s.lin .cs s.eip := by
  unfold instrHits
  cases s.flagRF
  · simp [bpMask_bit _ hn, bpArmed_iff, and_assoc]
  · simp

/-- A bit of a mask of conditions: the input names it, or the mechanism of R117 gives it. -/
theorem debugInput_or_bit (s : State) {f : DebugCond → BitVec 4} (hf : f DebugCond.none = 0) (m : BitVec 4) (n : Nat) :
    (f (debugInput s) ||| m).getLsbD n = true ↔
      (∃ c, (s.pins.debug).head? = some c ∧ (f c).getLsbD n = true) ∨ m.getLsbD n = true := by
  rw [BitVec.getLsbD_or, Bool.or_eq_true, debugInput_iff s (g := fun c => (f c).getLsbD n) (by simp [hf])]

/-! ### The report -/

section
variable {s : State} (h1 : s.pins.reset = false) (h2 : s.shutdown = false) (h3 : s.halted = false)
variable (h4 : s.pins.external = []) (h5 : s.pins.inside = [])
include h1 h2 h3 h4 h5

theorem step_of_debugFault (ht : s.debugTrap.any = false) (hf : (faultConds s).any = true) :
    step s = afterDelivery (deliver (faultOf 1 s) (noteDebug (faultConds s) (beginInstr s))) := by
  rw [step_inside h1 h2 h4 h5, nextEvent, if_neg (by simp [ht]), if_pos (by simp [h3, hf])]
  rfl

theorem step_of_debugTrap (ht : s.debugTrap.any = true) :
    step s = afterDelivery (deliver (eventAt 1 .trap s)
      (noteDebug s.debugTrap { s.tick with debugTrap := DebugCond.none })) := by
  rw [step_inside h1 h2 h4 h5, nextEvent, if_pos (by simp [h3, ht])]
  rfl

end

/-- Settles O13: a bit of the conditions is the input's or that of a breakpoint at CS:EIP (`instrHits_bit`), and a step with
one that holds is its report (`step_of_debugFault`). -/
theorem debugFaultComesFirst : Obligations.DebugFaultComesFirst := by
  unfold Obligations.DebugFaultComesFirst
  refine ⟨fun s => ⟨fun n hn => ?_, debugInput_iff s (g := DebugCond.generalDetect) rfl⟩,
    fun s h1 h2 h3 h4 h5 ht hf => ?_⟩
  · rw [← instrHits_bit s hn]
    exact debugInput_or_bit s rfl _ n
  · exact ⟨_, step_of_debugFault h1 h2 h3 h4 h5 ht hf, rfl, noteDebug_dr6 (faultConds s) (beginInstr s)⟩

/-! ### The accesses a data breakpoint watches -/

/-- The reads of an instruction's memory operand. -/
def operandReads (s : State) (i : Instr) : List DataAccess :=
  ((firstRead i).map fun (p, m, w) => eaAccess s p m 0 w).toList ++
    ((secondRead i).map fun (p, m, add, w) => eaAccess s p m add w).toList

/-- The pushes of an instruction. -/
def instrPushes (s : State) : Instr → List DataAccess
  | .callRel _ r => [pushAccess s r.wsize 1]
  | .callRm _ z _ => [pushAccess s z 1]
  | .callFar _ f => farPushes s f.wsize (FarPtr.sel f)
  | .callFarM p z m => match readFar s p z m with | .ok ptr => farPushes s z ptr.1 | .error _ => []
  | _ => []

theorem dataAccesses_eq (s : State) (i : Instr) : dataAccesses s i = operandReads s i ++ instrPushes s i := by
  cases i with
  | divRm8 p o | idivRm8 p o | divRm p z o | idivRm p z o | jmpRm p z o | callRm p z o => cases o <;> rfl
  | callFarM p z m =>
    simp only [dataAccesses, operandReads, instrPushes]
    cases readFar s p z m <;> rfl
  | _ => rfl

theorem mem_operandReads (s : State) (i : Instr) (a : DataAccess) : a ∈ operandReads s i ↔
    (∃ pre m w, firstRead i = some (pre, m, w) ∧
      a = { lin := s.lin (eaSeg pre m) (eaOff s m), n := w, write := false }) ∨
    (∃ pre m add w, secondRead i = some (pre, m, add, w) ∧
      a = { lin := s.lin (eaSeg pre m) (eaOff s m + BitVec.ofNat 32 add), n := w, write := false }) := by
  simp only [operandReads, List.mem_append, Option.mem_toList, Option.map_eq_some_iff, Prod.exists, eaAccess,
    BitVec.add_zero, eq_comm (b := a)]

theorem pushAccess_one (s : State) (z : WSize) :
    pushAccess s z 1 = { lin := s.lin .ss (slotOff (s.reg .esp) z 0), n := z.bytes, write := true } := rfl

theorem mem_farPushes (s : State) (z : WSize) (sel : Half) (a : DataAccess) : a ∈ farPushes s z sel ↔
    farTarget (Origin.ofInstr s) s sel = .ok .segment ∧
      ∃ k < 2, a = { lin := s.lin .ss (slotOff (s.reg .esp) z k), n := z.bytes, write := true } := by
  have h2 : (∃ k < 2, a = { lin := s.lin .ss (slotOff (s.reg .esp) z k), n := z.bytes, write := true }) ↔
      a = pushAccess s z 1 ∨ a = pushAccess s z 2 := by
    constructor
    · rintro ⟨k, hk, rfl⟩
      interval_cases k
      · exact .inl rfl
      · exact .inr rfl
    · rintro (rfl | rfl)
      · exact ⟨0, by decide, rfl⟩
      · exact ⟨1, by decide, rfl⟩
  rw [h2, farPushes]
  rcases farTarget (Origin.ofInstr s) s sel with _ | (_ | _ | _) <;> simp

theorem mem_instrPushes (s : State) (i : Instr) (a : DataAccess) : a ∈ instrPushes s i ↔
    (∃ pre z, ((∃ rel, i = .callRel pre rel ∧ rel.wsize = z) ∨ ∃ src, i = .callRm pre z src) ∧
      a = { lin := s.lin .ss (slotOff (s.reg .esp) z 0), n := z.bytes, write := true }) ∨
    (∃ pre z m sel off, farTarget (Origin.ofInstr s) s sel = .ok .segment ∧
      ((∃ ptr, i = .callFar pre ptr ∧ ptr.wsize = z ∧ FarPtr.sel ptr = sel) ∨
        (i = .callFarM pre z m ∧ readFar s pre z m = .ok (sel, off))) ∧
      ∃ k < 2, a = { lin := s.lin .ss (slotOff (s.reg .esp) z k), n := z.bytes, write := true }) := by
  cases i with
  | callRel pre rel => simp [instrPushes, pushAccess_one]
  | callRm pre z src => simp [instrPushes, pushAccess_one]
  | callFar pre ptr =>
    have hm : Nonempty EA := ⟨.abs32 0⟩
    simp [instrPushes, mem_farPushes]
  | callFarM pre z m =>
    rw [instrPushes]
    cases h : readFar s pre z m with
    | error x => simp [h]
    | ok ptr =>
      obtain ⟨sel, off⟩ := ptr
      simp [h, mem_farPushes]
  | _ => simp [instrPushes]

theorem mem_dataAccesses (s : State) (i : Instr) (a : DataAccess) :
    a ∈ dataAccesses s i ↔ a ∈ operandReads s i ∨ a ∈ instrPushes s i := by
  rw [dataAccesses_eq, List.mem_append]

/-! ### Data breakpoints -/

theorem firstRead_bounds {i : Instr} {pre : List Pfx} {m : EA} {w : Nat} (h : firstRead i = some (pre, m, w)) :
    0 < w ∧ w ≤ 4 := by
  unfold firstRead at h
  split at h <;> cases h <;> simp [bytes_bounds]

theorem secondRead_bounds {i : Instr} {pre : List Pfx} {m : EA} {add w : Nat}
    (h : secondRead i = some (pre, m, add, w)) : 0 < w ∧ w ≤ 4 := by
  unfold secondRead at h
  split at h <;> cases h <;> simp [bytes_bounds]

theorem dataAccesses_bounds {s : State} {i : Instr} {a : DataAccess} (h : a ∈ dataAccesses s i) :
    0 < a.n ∧ a.n ≤ 4 := by
  rw [mem_dataAccesses, mem_operandReads, mem_instrPushes] at h
  rcases h with (⟨pre, m, w, h, rfl⟩ | ⟨pre, m, add, w, h, rfl⟩) |
    (⟨pre, z, -, rfl⟩ | ⟨pre, z, m, sel, off, -, -, k, -, rfl⟩)
  · exact firstRead_bounds h
  · exact secondRead_bounds h
  · exact bytes_bounds z
  · exact bytes_bounds z

theorem dataHits_bit (s : State) (i : Instr) {n : Nat} (hn : n < 4) : (dataHits s i).getLsbD n = true ↔
    ∃ a ∈ dataAccesses s i,
      (BpArmed s.dr n 3 ∨ (BpArmed s.dr n 1 ∧ a.write = true)) ∧ BpCovers s.dr n a.lin a.n := by
  rw [dataHits, bpMask_bit _ hn, List.any_eq_true]
  refine exists_congr fun a => and_congr_right fun ha => ?_
  obtain ⟨h0, h4⟩ := dataAccesses_bounds ha
  exact dataHit_iff s.dr n h0 (by omega)

/-! ### After an instruction -/

theorem DebugCond.eq_none_of_any {c : DebugCond} (h : c.any = false) : c = DebugCond.none := by
  obtain ⟨ib, db, gd, ss, ts⟩ := c
  simp only [DebugCond.any, Bool.or_eq_false_iff, decide_eq_false_iff_not, not_not] at h
  obtain ⟨⟨⟨⟨rfl, rfl⟩, rfl⟩, rfl⟩, rfl⟩ := h
  rfl

theorem DebugCond.none_union (c : DebugCond) : DebugCond.union DebugCond.none c = c := by
  simp [DebugCond.union, DebugCond.none]

theorem exec_into_complete {pre : List Pfx} {s t : State} (ho : s.flagOF = false) (h : exec (.into pre) s = .next t) :
    t.reported = s.reported := by
  rw [exec_into_of_not_flagOF ho] at h
  rcases Nat.lt_or_ge 0xFFFFFFFF (s.eip.toNat + Instr.len (.into pre)) with hn | hn
  · rw [advance_err hn] at h
    cases h
  · rw [advance_ok hn] at h
    cases h
    rfl

/-- An INT 3 or INTO that reported an event took its own trap. -/
theorem exec_software_trap {i : Instr} {s t : State} (hi : ∃ pre, i = .int3 pre ∨ i = .into pre) (h : exec i s = .next t)
    (hr : t.reported ≠ s.reported) : ∃ v, raiseTrap v (Instr.len i) s = .next t := by
  obtain ⟨pre, rfl | rfl⟩ := hi
  · exact ⟨3, h⟩
  · cases ho : s.flagOF with
    | true => exact ⟨4, exec_into_of_flagOF ho pre ▸ h⟩
    | false => exact absurd (exec_into_complete ho h) hr

/-- The first event an INT 3 or INTO that reported one reported is its trap. -/
theorem trapped_of_software {i : Instr} {s t : State} (hi : ∃ pre, i = .int3 pre ∨ i = .into pre)
    (h : exec i s = .next t) (hr : t.reported ≠ s.reported) :
    trapped s t = true ∧ t.reported.length ≠ s.reported.length := by
  obtain ⟨v, hv⟩ := exec_software_trap hi h hr
  obtain ⟨u, hu, hd⟩ := raiseTrap_next hv
  obtain ⟨l, hl, -⟩ := hd.reported
  have hur : u.reported = s.reported := ((yields_advance (V := fun _ _ => True) (Evolves.refl s) _).ok hu).reported
  rw [show (clearRF u).reported = s.reported from hur] at hl
  have hlen : t.reported.length = l.length + 1 + s.reported.length := by rw [hl]; simp; omega
  have hidx : l.length + 1 + s.reported.length - s.reported.length - 1 = l.length := by omega
  refine ⟨?_, by omega⟩
  rw [trapped, hlen, hidx, hl]
  simp [eventAt]

/-- The state in which the debug traps of an instruction that reported no event are reported (log entry 22). -/
def afterInstr (t : State) : State := { (if t.switched = none then clearRF t else t) with switched := none }

theorem afterInstr_eq (t : State) : afterInstr t = { t with
    switched := none, eflags := if t.switched = none then setBit t.eflags 16 false else t.eflags } := by
  unfold afterInstr
  split <;> rfl

section
variable {s t : State} {i : Instr}

theorem finishInstr_debugTrap (hr : t.reported = s.reported) (hc : (trapConds s i t).any = true) :
    finishInstr s i (.next t) = afterDelivery (reportDebug .trap (trapConds s i t) (afterInstr t)) := by
  simp [finishInstr, hr, hc, afterInstr]

theorem finishInstr_trapped (hl : t.reported.length ≠ s.reported.length) (ht : trapped s t = true) :
    finishInstr s i (.next t) = .next (settle (trapConds s i t) t) := by
  simp [finishInstr, hl, ht]

theorem settle_quiet {c : DebugCond} (hs : t.shutdown = false) (hd : t.debugTrap.any = false) :
    settle c t = { t with switched := none, debugTrap := c } := by
  rw [settle, DebugCond.eq_none_of_any hd, DebugCond.none_union, hs]
  rfl

end

/-- Settles O14: the conditions are read off (`dataHits_bit`, `mem_dataAccesses`), and the end of an instruction reports them
(`finishInstr_debugTrap`) or leaves them pending behind its own trap (`finishInstr_trapped`). -/
theorem debugTrapSavesWhatFollows : Obligations.DebugTrapSavesWhatFollows := by
  unfold Obligations.DebugTrapSavesWhatFollows
  refine ⟨fun s i t => ⟨fun n hn => ?_, ?_, ?_⟩, fun s i a => ?_, fun s i rest t hu hd hw hx => ?_,
    fun s h1 h2 h3 h4 h5 ht => ?_⟩
  · exact (debugInput_or_bit s rfl _ n).trans (or_congr_right (dataHits_bit (beginInstr s) i hn))
  · rw [← debugInput_iff s (g := DebugCond.singleStep) rfl, ← Bool.or_eq_true]
    rfl
  · rw [← debugInput_iff s (g := DebugCond.taskSwitchBp) rfl, ← beq_iff_eq (a := t.switched), ← Bool.or_eq_true]
    rfl
  · rw [mem_dataAccesses, mem_operandReads, mem_instrPushes, or_assoc]
  · have hs : step s = finishInstr s i (.next t) := by rw [(stepRunsDecoded s i rest hu hd hw).1, hx]
    have hk := exec_kept hx
    refine ⟨fun hr hc => ⟨noteDebug (trapConds s i t) (afterInstr t), ?_, ?_, ?_⟩, fun hr hi hsh => ?_⟩
    · rw [hs, finishInstr_debugTrap hr hc, reportDebug, afterInstr_eq]
      rfl
    · rw [afterInstr_eq, ← show t.dr = s.dr from hk.dr]
      rfl
    · have hdr := noteDebug_dr6 (trapConds s i t) (afterInstr t)
      rwa [show (afterInstr t).dr = s.dr by rw [afterInstr_eq]; exact hk.dr] at hdr
    · obtain ⟨-, -, -, -, -, hq, -⟩ := hu
      obtain ⟨ht, hl⟩ := trapped_of_software hi hx hr
      rw [hs, finishInstr_trapped (s := s) hl ht, settle_quiet hsh (by rw [hk.debugTrap]; exact hq)]
  · exact ⟨_, step_of_debugTrap h1 h2 h3 h4 h5 ht, rfl,
      noteDebug_dr6 s.debugTrap { s.tick with debugTrap := DebugCond.none }⟩

end Sys2Proof.Machine
end

section
/-! What the outside world does between instructions and during one (R44, R49, R140, R141, R150): other agents' writes, NMI
and INTR. -/

namespace Sys2Proof.Machine

/-! ### INTR is a level -/

theorem afterDelivery_pins {e : Event} {b t : State} (h : afterDelivery (deliver e b) = .next t) : t.pins = b.pins := by
  cases hd : deliver e b with
  | next u =>
    rw [hd] at h
    cases h
    exact (delivered hd).kept.pins
  | fault r => rw [hd] at h; cases h
  | refused r => rw [hd] at h; cases h

theorem afterDelivery_intr {e : Event} {s b t : State} (hb : b.pins.intr = s.pins.intr)
    (h : afterDelivery (deliver e b) = .next t) : t.pins.intr = s.pins.intr := by
  rw [afterDelivery_pins h, hb]

theorem reportDebug_intr {cls : EventClass} {c : DebugCond} {s b t : State} (hb : b.pins.intr = s.pins.intr)
    (h : afterDelivery (reportDebug cls c b) = .next t) : t.pins.intr = s.pins.intr :=
  afterDelivery_intr (b := noteDebug c b) hb h

theorem finishInstr_pins {i : Instr} {s t : State} (h : finishInstr s i (exec i (beginInstr s)) = .next t) :
    t.pins = (beginInstr s).pins := by
  cases hx : exec i (beginInstr s) with
  | fault r => rw [hx] at h; cases h
  | refused r => rw [hx] at h; cases h
  | next u =>
    have hu : u.pins = (beginInstr s).pins := (exec_kept hx).pins
    have ha : (afterInstr u).pins = u.pins := by rw [afterInstr_eq]
    rw [hx] at h
    simp only [finishInstr] at h
    split at h
    · cases h
      exact hu
    · split at h
      · exact (afterDelivery_pins h).trans (ha.trans hu)
      · cases h
        exact ha.trans hu

/-- Fetching and running an instruction takes an answer from the debug queue at most. -/
theorem runNext_intr {s t : State} (h : runNext s = .next t) : t.pins.intr = s.pins.intr := by
  have hv : Reports (Origin.ofInstr s) fun _ _ => True := ⟨fun _ _ _ _ _ _ => trivial, fun _ _ _ _ _ _ _ _ => trivial⟩
  have hf := yields_fetchInstr hv
  unfold runNext at h
  split at h
  · unfold runInstr at h
    split at h
    · cases h
      rfl
    · rw [finishInstr_pins h]
      rfl
  · rename_i x hx
    rw [hx] at hf
    cases x with
    | raised e c => exact congrArg Pins.intr ((afterDelivery_pins h).trans hf.1.kept.pins)
    | refused r => cases h

theorem nextEvent_intr {s t : State} (h : nextEvent s = .next t) : t.pins.intr = s.pins.intr := by
  unfold nextEvent at h
  split at h
  · refine reportDebug_intr ?_ h
    rfl
  · split at h
    · refine reportDebug_intr ?_ h
      rfl
    · split at h
      · refine afterDelivery_intr ?_ h
        rfl
      · unfold intrOrRun at h
        split at h
        · refine afterDelivery_intr ?_ h
          rfl
        · split at h
          · cases h
            rfl
          · exact runNext_intr h

theorem step_intr {s t : State} (h : step s = .next t) : t.pins.intr = s.pins.intr := by
  rcases step_next h with rfl | ⟨-, rfl | ⟨u, hu, rfl⟩ | hn⟩
  · rfl
  · rfl
  · show u.pins.intr = _
    rw [nextEvent_intr hu]
    rfl
  · exact nextEvent_intr hn

/-! ### Writes of other agents -/

theorem Memory.writeAll_append (m : Memory) (cs ds : List Host.Cell) :
    m.writeAll (cs ++ ds) = (m.writeAll cs).writeAll ds := by
  induction cs generalizing m with
  | nil => rfl
  | cons c cs ih => exact ih _

/-- Of the writes to an address the last counts. -/
theorem Memory.read_writeAll_last {m : Memory} (hm : m.wf) {before after : List Host.Cell} {a : Nat} (v : Byte)
    (hb : ∀ c ∈ before, c.1 < 2 ^ 32) (ha : ∀ c ∈ after, a ≠ c.1) :
    (m.writeAll (before ++ (a, v) :: after)).read a = v := by
  rw [Memory.writeAll_append, Memory.writeAll, Memory.read_writeAll_of_not_mem ha]
  exact Memory.read_write_self (Memory.wf_writeAll hm hb) a v

theorem wrapCell_lt (cs : List Host.Cell) : ∀ c ∈ cs.map wrapCell, c.1 < 2 ^ 32 := fun c hc => by
  obtain ⟨d, -, rfl⟩ := List.mem_map.1 hc
  exact Nat.mod_lt _ (by omega)

theorem wrapCell_ne {cs : List Host.Cell} {a : Nat} (h : ∀ c ∈ cs, c.1 % 2 ^ 32 ≠ a) :
    ∀ c ∈ cs.map wrapCell, a ≠ c.1 := fun c hc => by
  obtain ⟨d, hd, rfl⟩ := List.mem_map.1 hc
  exact (h d hd).symm

section
variable {s : State} (h1 : s.pins.reset = false) (h2 : s.shutdown = false)
include h1 h2

theorem step_external (h : s.pins.external ≠ []) : step s = .next s.takeExternal := by
  rw [step, if_neg (by simp [h1]), if_neg (by simp [h2]), if_pos h]

/-! ### NMI and INTR -/

variable (h3 : s.pins.external = []) (h4 : s.pins.inside = [])
variable (hd : s.halted = true ∨ (s.debugTrap.any = false ∧ (faultConds s).any = false))
include h3 h4 hd

theorem step_of_no_debug : step s = if nmiReady s then acceptNmi s else intrOrRun s := by
  rw [step_inside h1 h2 h3 h4, nextEvent]
  rcases hd with h | ⟨ht, hf⟩
  · simp [h]
  · simp [ht, hf]

theorem step_of_no_nmi (hn : s.pins.nmi = false ∨ s.nmiBlocked = true) : step s = intrOrRun s := by
  have hr : nmiReady s = false := by rcases hn with h | h <;> simp [nmiReady, h]
  rw [step_of_no_debug h1 h2 h3 h4 hd, if_neg (by simp [hr])]

end

/-- Settles O15: no part of a step touches INTR (`step_intr`), and without a debug trap or fault NMI and then INTR are asked
for (`step_of_no_debug`). -/
theorem interruptsTaken : Obligations.InterruptsTaken := by
  unfold Obligations.InterruptsTaken
  refine ⟨fun s t => step_intr, fun s h1 h2 => ⟨fun he => ?_, fun he hi => ?_, fun he hi hd => ⟨?_, ?_, ?_⟩⟩⟩
  · refine ⟨_, step_external h1 h2 he, fun a ha => Memory.read_writeAll_of_not_mem (wrapCell_ne ha), ?_⟩
    intro hm before a v after hs ha
    rw [hs, List.map_append, List.map_cons]
    exact Memory.read_writeAll_last hm v (wrapCell_lt before) (wrapCell_ne ha)
  · have hs := step_amid h1 h2 he hi
    exact ⟨s.openStep, rfl, fun t ht => by rw [hs, ht]; rfl, fun f hf => by rw [hs, hf]; rfl,
      fun r hr => by rw [hs, hr]; rfl⟩
  · intro hn hb
    refine ⟨{ s.tick with pins := { s.pins with nmi := false }, nmiBlocked := true, halted := false }, ?_, rfl⟩
    rw [step_of_no_debug h1 h2 he hi hd, if_pos (by simp [nmiReady, hn, hb])]
    rfl
  · intro v hn hf hv
    refine ⟨{ s.tick with halted := false }, ?_, rfl⟩
    rw [step_of_no_nmi h1 h2 he hi hd hn, intrOrRun, if_pos hf, hv]
    rfl
  · intro hn hf hh
    have hv : (if s.flagIF then s.pins.intr else none) = none := by rcases hf with h | h <;> simp [h]
    rw [step_of_no_nmi h1 h2 he hi hd hn, intrOrRun, hv]
    simp [hh]

end Sys2Proof.Machine
end

section
/-! The statements about the RESET input: the values it leaves (R170, R171), and that the state after reset meets the three
invariants every step keeps (R14, R31). -/

namespace Sys2Proof.Machine

/-! ### The state RESET leaves -/

theorem step_of_reset {s : State} (h : s.pins.reset = true) : step s = .next s.afterReset := if_pos h

/-- Of the bits of CR0 only ET can be set, and it follows the coprocessor input. -/
theorem getLsbD_cr0_afterReset (s : State) (i : Nat) :
    s.afterReset.cr0.getLsbD i = (decide (i = 4) && s.pins.npxPresent) := by
  have h : s.afterReset.cr0 = if s.pins.npxPresent then BitVec.twoPow 32 4 else 0 := rfl
  rw [h]
  cases s.pins.npxPresent with
  | false => simp
  | true => simp [BitVec.getLsbD_twoPow, eq_comm]

theorem getLsbD_cr0_afterReset_of_ne (s : State) {i : Nat} (h : i ≠ 4) : s.afterReset.cr0.getLsbD i = false := by
  simp [getLsbD_cr0_afterReset, h]

theorem mode_afterReset (s : State) : mode s.afterReset = .realMode :=
  (mode_eq_realMode_iff _).2 (getLsbD_cr0_afterReset_of_ne s (by decide))

theorem seg_afterReset (s : State) {r : SegName} (h : r ≠ .cs) : s.afterReset.seg r = SegReg.atReset 0 0 := by
  cases r with
  | cs => exact absurd rfl h
  | es | ss | ds | fs | gs => rfl

theorem reg8_dh_afterReset (s : State) : s.afterReset.reg8 .dh = 0x03 := by
  have h : s.afterReset.reg8 .dh = (0x00000300#32).extractLsb' 8 8 := rfl
  rw [h]
  decide

/-- The first fetch after RESET goes to the top of the address space: without paging the physical address is CS's base plus
EIP. -/
theorem phys_fetch_afterReset (s : State) :
    phys s.afterReset (s.afterReset.lin .cs s.afterReset.eip) = 0xFFFFFFF0 := by
  have hp : s.afterReset.cr0PG = false := getLsbD_cr0_afterReset_of_ne s (by decide)
  have hl : s.afterReset.lin .cs s.afterReset.eip = 0xFFFF0000#32 + 0x0000FFF0#32 := rfl
  rw [phys_of_no_paging hp, hl]
  decide

/-! ### The statements -/

/-- Settles O12: the step is `State.afterReset` (`step_of_reset`); the mode, the CPL and the first fetch follow from CR0, of
which ET alone can be set (`getLsbD_cr0_afterReset`). -/
theorem resetValues : Obligations.ResetValues := by
  unfold Obligations.ResetValues
  intro s h
  have hcr0 (i : Nat) (hi : i ≠ 4) := getLsbD_cr0_afterReset_of_ne s hi
  have hseg : ∀ r ∈ [SegName.ss, .ds, .es, .fs, .gs], (s.afterReset.seg r).sel = 0 ∧ (s.afterReset.seg r).base = 0 ∧
      (s.afterReset.seg r).limit = 0xFFFF := fun r hr => by
    rw [seg_afterReset s (by rintro rfl; simp at hr)]
    exact ⟨rfl, rfl, rfl⟩
  exact ⟨s.afterReset, step_of_reset h,
    rfl, rfl, -- EFLAGS, EIP
    rfl, rfl, rfl, hseg,
    hcr0 0 (by decide), hcr0 1 (by decide), hcr0 2 (by decide), hcr0 3 (by decide), hcr0 31 (by decide),
    getLsbD_cr0_afterReset s 4,
    rfl, rfl, reg8_dh_afterReset s, -- IDTR, DR7, DH
    mode_afterReset s, cpl_of_realMode (mode_afterReset s),
    rfl, rfl, rfl, -- no delivery, no shutdown, nothing prefetched
    phys_fetch_afterReset s, rfl⟩

/-- Settles O55: memory is empty after reset (`reset_memory_wf`), EFLAGS holds 2, and nothing is in progress. -/
theorem resetMeetsInvariants : Obligations.ResetMeetsInvariants := by
  unfold Obligations.ResetMeetsInvariants
  have hflags : FlagsCanonical State.reset := (flagsWf_iff _).2 ⟨rfl, rfl, rfl, rfl⟩
  have hsettled : Settled State.reset := ⟨rfl, rfl⟩
  exact ⟨reset_memory_wf, hflags, hsettled⟩

end Sys2Proof.Machine
end
